-- ==== Sys2Proof/Word.lean ====
section
/-!
DEFINITION. The word types of CWE (00_scope.md R10): a byte is 8 bits, a half 16, a word 32, bit 0 the least significant.
-/

namespace Sys2Proof

/-- R10: a byte is 8 bits. -/
abbrev Byte := BitVec 8

/-- R10: a half is 16 bits (a chunk size, a block id, a device-reported size, an opcode field). -/
abbrev Half := BitVec 16

/-- R10: a word is 32 bits (a command word, a response word, a lane; lengths too, `LEN_W` being fixed at 32). -/
abbrev Word := BitVec 32

end Sys2Proof
end

