-- ==== Sys2Proof/Config.lean ====
section
/-!
DEFINITION. The configuration record of 00_scope.md R7 (parameters P1 to P34), the test configuration CFG-T of
95_test_vectors.md section 2, and the model's free values: constants with no body, about which nothing can be proved.
-/

namespace Sys2Proof

/-- P26, R38: the four transport variants. -/
inductive Kind where
  | i2c
  | spi
  | uart
  | hsbus
  deriving DecidableEq, Repr

/-- P32, R244: what a protocol mismatch in a wakeup attempt leads to: `goOn` is the spec's `Continue`. -/
inductive MismatchPolicy where
  | goOn
  | failFast
  deriving DecidableEq, Repr

/-- P33: a transport error value. CWE only passes it on (R267), so any countable type serves (log entry 5). -/
abbrev TErr := Nat

/-- P28: the Transport's byte-order normaliser. `identity` and `swap` are the two R200 describes; `other n` is any total
function at all, one for each `n`, about which nothing is known (`Config.normalizeOther`). -/
inductive Normalizer where
  | identity
  | swap
  | other (n : Nat)
  deriving DecidableEq, Repr

/-- R30: a RegisterDescriptor. The templates are held as lanes. `valueShift` is 0 to 31 by its type. -/
structure Descriptor where
  registerId : Nat
  rt0 : Word
  rt1 : Word
  wt0 : Word
  wt1 : Word
  valueMax : Word
  valueShift : Fin 32
  messageLength : Nat
  deriving DecidableEq, Repr

/-- R7: the configuration record. `TABLE_SIZE` (P1) is the table's length, `LEN_W` (P31) is fixed at 32
(92_eei_decisions.md), `HBW_IS_SPI_CLASS` (P27) follows from `HBW_KIND`, and `TICK` (P34) is the unit of every `t…` field. -/
structure Config where
  table : List Descriptor
  opcWdb : Half
  opcRdb : Half
  syncWord : Word
  syncIntrWord : Word
  statusQueryWord : Word
  acceptedStates : List Half
  smoothMuteZeroWord : Word
  tAckTimeout : Nat
  maxChunk : Nat
  tInterchunk : Nat
  ackMaxAttempts : Nat
  tAckRetry : Nat
  wakeBudget : Nat
  tClkStab : Nat
  tWakeSettle : Nat
  tWakeTimeout : Nat
  hasExtClock : Bool
  wakeViaGpio : Bool
  wakeHasComplLine : Bool
  needsPwrConfirm : Bool
  hasIrqLine : Bool
  hasHbwOpen : Bool
  hasHbwClose : Bool
  hasHbwWait : Bool
  hasRdbFastpath : Bool
  priKind : Kind
  hbwKind : Kind
  wakeKind : Kind
  normalize : Normalizer
  nReq : Nat
  tsW : Nat
  wakeOnMismatch : MismatchPolicy
  deriving DecidableEq, Repr

/-- P1: `TABLE_SIZE`. -/
def Config.tableSize (c : Config) : Nat := c.table.length

/-- Free value (log entry 6): the normaliser of `Normalizer.other n`, any function of the raw word. -/
opaque Config.normalizeOther : Nat → Word → Word

/-- Free value (log entry 7): the low half READ_REGISTER reports when no response has ever been cached (R152, U4). -/
opaque Config.freeHalf : Nat → Half

/-- Free value (log entry 28): the lane DECODE reads when nothing has written `WBUF` since attach (R22, R300). -/
opaque Config.freeLane : Nat → Word

/-- Free value (log entry 28): the count a stand-alone acknowledgement word finds when nothing has written `ACKCNT` since attach
(R24, R300). -/
opaque Config.freeCounter : Nat → Nat

/-- Free value (log entry 8): the arbiter's choice among several waiting requesters (R176, U9). -/
opaque Config.arbiterChoice : Nat → Nat

/-- The generic entry `G(i)` of CFG-T's table (95_test_vectors.md section 2). -/
def genericDescriptor (i : Nat) : Descriptor where
  registerId := i
  rt0 := 0x0E000000 ||| BitVec.ofNat 32 i
  rt1 := 0
  wt0 := 0x0F000000
  wt1 := 0
  valueMax := 0xFFFF
  valueShift := 0
  messageLength := 4

/-- The Register Access Table of CFG-T (95_test_vectors.md section 2). -/
def cfgTTable : List Descriptor :=
  [ genericDescriptor 0x00, genericDescriptor 0x01, genericDescriptor 0x02
  , { registerId := 0x03, rt0 := 0x0A030000, rt1 := 0, wt0 := 0x0B030000, wt1 := 0,
      valueMax := 0x0FFF, valueShift := 0, messageLength := 4 }
  , genericDescriptor 0x04
  , { registerId := 0x05, rt0 := 0x0C050000, rt1 := 0x0C060000, wt0 := 0x0C850000, wt1 := 0x0C860000,
      valueMax := 1000, valueShift := 4, messageLength := 8 }
  , genericDescriptor 0x06
  , { registerId := 0x07, rt0 := 0x0A070000, rt1 := 0, wt0 := 0x0D070001, wt1 := 0,
      valueMax := 5, valueShift := 13, messageLength := 4 }
  , genericDescriptor 0x08, genericDescriptor 0x09, genericDescriptor 0x0A, genericDescriptor 0x0B
  , genericDescriptor 0x0C, genericDescriptor 0x0D, genericDescriptor 0x0E, genericDescriptor 0x0F
  , { registerId := 0x10, rt0 := 0x0A100000, rt1 := 0, wt0 := 0, wt1 := 0,
      valueMax := 255, valueShift := 0, messageLength := 4 }
  , { registerId := 0x11, rt0 := 0x0A110000, rt1 := 0, wt0 := 0, wt1 := 0,
      valueMax := 0xFFFFFFFF, valueShift := 0, messageLength := 4 } ]

/-- The test configuration CFG-T (95_test_vectors.md section 2). Every constant in it is the spec's, made up there for
testing; it is the configuration `State.reset` is attached with (log entry 4). -/
def cfgT : Config where
  table := cfgTTable
  opcWdb := 0x0A01
  opcRdb := 0x0A02
  syncWord := 0x0B000000
  syncIntrWord := 0x1B000001
  statusQueryWord := 0x0C000000
  acceptedStates := [0x0001, 0x0004]
  smoothMuteZeroWord := 0x0D000000
  tAckTimeout := 5000
  maxChunk := 1024
  tInterchunk := 10
  ackMaxAttempts := 3
  tAckRetry := 2
  wakeBudget := 20
  tClkStab := 5
  tWakeSettle := 30
  tWakeTimeout := 100
  hasExtClock := false
  wakeViaGpio := true
  wakeHasComplLine := false
  needsPwrConfirm := false
  hasIrqLine := true
  hasHbwOpen := false
  hasHbwClose := false
  hasHbwWait := false
  hasRdbFastpath := false
  priKind := .i2c
  hbwKind := .hsbus
  wakeKind := .i2c
  normalize := .swap
  nReq := 2
  tsW := 64
  wakeOnMismatch := .goOn

end Sys2Proof
end

