-- ==== Sys2Proof/Syntax.lean ====
section
/-!
DEFINITION. The operations of CWE: one constructor of `Instr` per row of spec/opcode_table.json.

Rows of format HREQ are host requests (30_encoding.md R100, R101): the constructor carries the requester `q` of R40 and the
operands R101 lists for the operation. Rows of formats CW32, RW32, ACK32 and MSG are words on the wire (R91 to R99): the
constructor carries the word, or its two halves where the row names two fields.
-/

namespace Sys2Proof

/-- The direction operand of ENCODE (R101: 0 read, 1 write). -/
inductive Direction where
  | read
  | write
  deriving DecidableEq, Repr

/-- One constructor per row of spec/opcode_table.json, in the table's order. -/
inductive Instr where
  /-- HREQ 0x0 (R149): requester, command word. -/
  | execute (q : Nat) (w : Word)
  /-- HREQ 0x1 (R150): requester, register id. -/
  | readRegister (q : Nat) (id : Word)
  /-- HREQ 0x2 (R153): requester, register id, value. -/
  | writeRegister (q : Nat) (id value : Word)
  /-- HREQ 0x3 (R190): requester, source buffer handle, length in bytes. -/
  | writeBlock (q : Nat) (buf len : Word)
  /-- HREQ 0x4 (R210): requester, destination buffer handle, requested length, block id (bits 15:0 used). -/
  | readBlock (q : Nat) (buf len id : Word)
  /-- HREQ 0x5 (R230): requester. -/
  | wakeup (q : Nat)
  /-- HREQ 0x6 (R120): requester, register id, value (ignored for the read direction), direction. -/
  | encode (q : Nat) (id value : Word) (dir : Direction)
  /-- HREQ 0x7 (R128): requester, register id; the message is in `WBUF`. -/
  | decode (q : Nat) (id : Word)
  /-- HREQ 0x8 (R180): the locked variant of EXECUTE. -/
  | executeLocked (q : Nat) (w : Word)
  /-- HREQ 0x9 (R180): the locked variant of READ_REGISTER. -/
  | readRegisterLocked (q : Nat) (id : Word)
  /-- HREQ 0xA (R180): the locked variant of WRITE_REGISTER. -/
  | writeRegisterLocked (q : Nat) (id value : Word)
  /-- HREQ 0xB (R180): the locked variant of WRITE_BLOCK. -/
  | writeBlockLocked (q : Nat) (buf len : Word)
  /-- HREQ 0xC (R180): the locked variant of READ_BLOCK. -/
  | readBlockLocked (q : Nat) (buf len id : Word)
  /-- HREQ 0xD (R180): the locked variant of WAKEUP. -/
  | wakeupLocked (q : Nat)
  /-- HREQ 0xE (R106): reserved. -/
  | reservedE (q : Nat)
  /-- HREQ 0xF (R106): reserved. -/
  | reservedF (q : Nat)
  /-- CW32 (R91): any command word. -/
  | cw32Generic (w : Word)
  /-- CW32 (R193): the block-write command, opcode field and chunk size. -/
  | wdbCmd (opcode size : Half)
  /-- RW32 (R196): the response to the block-write command. -/
  | wdbResp (r : Word)
  /-- ACK32 (R201): the trailing acknowledgement of a chunk, as assembled. -/
  | wdbAck (a : Word)
  /-- CW32 (R212): the block-read command, opcode field and block id. -/
  | rdbCmd (opcode id : Half)
  /-- RW32 (R213, R214): the response to the block-read command. -/
  | rdbResp (r : Word)
  /-- CW32 (R237): the status query of wakeup step 4. -/
  | statusQuery (w : Word)
  /-- CW32 (R238): the synchronize-and-suppress-response word of wakeup step 5. -/
  | syncIntr (w : Word)
  /-- CW32 (R239): the plain synchronize word of wakeup step 5. -/
  | sync (w : Word)
  /-- CW32 (R241): the smooth-mute word of wakeup step 6. -/
  | smoothMuteZero (w : Word)
  /-- MSG (R96, R124): one lane of a register message. -/
  | regMsgLane (w : Word)
  deriving DecidableEq, Repr

/-- The bytes an instruction is stored as: a host request record (formats HREQ) or a wire word with the role the sequencer
gives it (formats CW32, RW32, ACK32, MSG). The container is the model's (log entry 2); the fields are the spec's. -/
inductive Frame where
  | hreq (bytes : List Byte)
  | wire (bytes : List Byte)
  deriving DecidableEq, Repr

/-- Why the decoder rejects a frame. -/
inductive DecodeError where
  /-- A request record that is not 17 bytes. -/
  | requestLength
  /-- A request record whose bits 7:5, which no field uses, are not all 0. -/
  | requestPadding
  /-- A wire frame that is not 5 bytes. -/
  | wireLength
  /-- A wire frame whose role byte names no row. -/
  | wireRole
  /-- A command word whose bit 28 (`SR`) is not as its row fixes it (R94, R99). -/
  | suppressBit
  deriving DecidableEq, Repr

end Sys2Proof
end

