-- ==== Sys2Proof/WellFormed.lean ====
section
/-!
DEFINITION. Which `Instr` terms are instructions: the requester's number fits the request record, and a command word has
its `SR` bit (bit 28) as its row of spec/opcode_table.json fixes it (30_encoding.md R94, R99).
-/

namespace Sys2Proof

/-- The largest number of requesters a request record can name, plus one (log entry 2). -/
def requesterBound : Nat := 2 ^ 32

/-- R93: `SR` is bit 28 of a command word. -/
def srBit (w : Word) : Bool := w.getLsbD 28

/-- R94: `SR` is bit 12 of the opcode field. -/
def srBitOfOpcode (o : Half) : Bool := o.getLsbD 12

/-- The operands are ones the encoding of the row can hold. -/
def Instr.wf : Instr → Bool
  | .execute q _ => decide (q < requesterBound)
  | .readRegister q _ => decide (q < requesterBound)
  | .writeRegister q _ _ => decide (q < requesterBound)
  | .writeBlock q _ _ => decide (q < requesterBound)
  | .readBlock q _ _ _ => decide (q < requesterBound)
  | .wakeup q => decide (q < requesterBound)
  | .encode q _ _ _ => decide (q < requesterBound)
  | .decode q _ => decide (q < requesterBound)
  | .executeLocked q _ => decide (q < requesterBound)
  | .readRegisterLocked q _ => decide (q < requesterBound)
  | .writeRegisterLocked q _ _ => decide (q < requesterBound)
  | .writeBlockLocked q _ _ => decide (q < requesterBound)
  | .readBlockLocked q _ _ _ => decide (q < requesterBound)
  | .wakeupLocked q => decide (q < requesterBound)
  | .reservedE q => decide (q < requesterBound)
  | .reservedF q => decide (q < requesterBound)
  | .cw32Generic _ => true
  | .wdbCmd o _ => !srBitOfOpcode o
  | .wdbResp _ => true
  | .wdbAck _ => true
  | .rdbCmd o _ => !srBitOfOpcode o
  | .rdbResp _ => true
  | .statusQuery w => !srBit w
  | .syncIntr w => srBit w
  | .sync w => !srBit w
  | .smoothMuteZero _ => true
  | .regMsgLane _ => true

end Sys2Proof
end

