-- ==== Sys2Proof/Decode.lean ====
section
/-!
DEFINITION. The decoder, total on any bytes and rejecting by name, and the encoder. A request record is 17 bytes: the
operation code of 30_encoding.md R100 in bits 3:0 of byte 0, the direction operand of R101 in bit 4, then `q`, `a0`, `a1` and
`buf`, 4 bytes each. A wire frame is the 4 bytes of the word and a byte naming the role in which the sequencer sends or
receives it. Multi-byte fields have their least significant byte first (log entry 2).
-/

namespace Sys2Proof

/-- Byte `k` of a word, byte 0 the least significant (R67's map). -/
def byteOf (w : Word) (k : Nat) : Byte := (w >>> (8 * k)).setWidth 8

/-- The four bytes of a word, least significant first. -/
def wordBytes (w : Word) : List Byte := [byteOf w 0, byteOf w 1, byteOf w 2, byteOf w 3]

/-- Four bytes as a word, the first the least significant. -/
def wordOfBytes (b0 b1 b2 b3 : Byte) : Word := b3 ++ b2 ++ b1 ++ b0

/-- The upper half of a word: its opcode field (R91). -/
def highHalf (w : Word) : Half := (w >>> 16).setWidth 16

/-- The lower half of a word: its payload (R92). -/
def lowHalf (w : Word) : Half := w.setWidth 16

/-- R104: a word with the opcode in bits 31:16 and the value in bits 15:0. -/
def wordOfHalves (hi lo : Half) : Word := hi ++ lo

/-- The host request a request record's fields stand for (R100, R101). An operand the operation does not use is ignored. -/
def requestOf (op : Nat) (dir : Direction) (q : Nat) (a0 a1 buf : Word) : Instr :=
  match op with
  | 0x0 => .execute q a0
  | 0x1 => .readRegister q a0
  | 0x2 => .writeRegister q a0 a1
  | 0x3 => .writeBlock q buf a1
  | 0x4 => .readBlock q buf a1 a0
  | 0x5 => .wakeup q
  | 0x6 => .encode q a0 a1 dir
  | 0x7 => .decode q a0
  | 0x8 => .executeLocked q a0
  | 0x9 => .readRegisterLocked q a0
  | 0xA => .writeRegisterLocked q a0 a1
  | 0xB => .writeBlockLocked q buf a1
  | 0xC => .readBlockLocked q buf a1 a0
  | 0xD => .wakeupLocked q
  | 0xE => .reservedE q
  | _ => .reservedF q

/-- Decodes a request record. -/
def decodeRequest : List Byte → Except DecodeError Instr
  | [h, q0, q1, q2, q3, a0, a1, a2, a3, b0, b1, b2, b3, c0, c1, c2, c3] =>
    if h.toNat / 32 = 0 then
      .ok (requestOf (h.toNat % 16) (if h.toNat / 16 % 2 = 1 then .write else .read) (wordOfBytes q0 q1 q2 q3).toNat
        (wordOfBytes a0 a1 a2 a3) (wordOfBytes b0 b1 b2 b3) (wordOfBytes c0 c1 c2 c3))
    else .error .requestPadding
  | _ => .error .requestLength

/-- R94, R99: a command word row fixes bit 28. -/
def fixSuppress (sr : Bool) (w : Word) (i : Instr) : Except DecodeError Instr :=
  if srBit w = sr then .ok i else .error .suppressBit

/-- The row a wire word is read as, by the role the sequencer gives it. A response row accepts every word: what it must equal
is checked when it is run (R196, R201, R213, R214). -/
def wireOf (role : Nat) (w : Word) : Except DecodeError Instr :=
  match role with
  | 0 => .ok (.cw32Generic w)
  | 1 => fixSuppress false w (.wdbCmd (highHalf w) (lowHalf w))
  | 2 => .ok (.wdbResp w)
  | 3 => .ok (.wdbAck w)
  | 4 => fixSuppress false w (.rdbCmd (highHalf w) (lowHalf w))
  | 5 => .ok (.rdbResp w)
  | 6 => fixSuppress false w (.statusQuery w)
  | 7 => fixSuppress true w (.syncIntr w)
  | 8 => fixSuppress false w (.sync w)
  | 9 => .ok (.smoothMuteZero w)
  | 10 => .ok (.regMsgLane w)
  | _ => .error .wireRole

/-- Decodes a wire frame. -/
def decodeWire : List Byte → Except DecodeError Instr
  | [b0, b1, b2, b3, role] => wireOf role.toNat (wordOfBytes b0 b1 b2 b3)
  | _ => .error .wireLength

/-- The decoder. -/
def decode : Frame → Except DecodeError Instr
  | .hreq bytes => decodeRequest bytes
  | .wire bytes => decodeWire bytes

/-- The bits of the direction operand and the operation code in byte 0 of a request record. -/
def requestHead (op : Nat) (dir : Direction) : Byte :=
  BitVec.ofNat 8 (op + match dir with | .read => 0 | .write => 16)

/-- A request record. -/
def requestFrame (op : Nat) (dir : Direction) (q : Nat) (a0 a1 buf : Word) : Frame :=
  .hreq (requestHead op dir :: (wordBytes (BitVec.ofNat 32 q) ++ (wordBytes a0 ++ (wordBytes a1 ++ wordBytes buf))))

/-- A wire frame. -/
def wireFrame (role : Nat) (w : Word) : Frame := .wire (wordBytes w ++ [BitVec.ofNat 8 role])

/-- The encoder. An unused operand is written 0. -/
def encode : Instr → Frame
  | .execute q w => requestFrame 0x0 .read q w 0 0
  | .readRegister q id => requestFrame 0x1 .read q id 0 0
  | .writeRegister q id value => requestFrame 0x2 .read q id value 0
  | .writeBlock q buf len => requestFrame 0x3 .read q 0 len buf
  | .readBlock q buf len id => requestFrame 0x4 .read q id len buf
  | .wakeup q => requestFrame 0x5 .read q 0 0 0
  | .encode q id value dir => requestFrame 0x6 dir q id value 0
  | .decode q id => requestFrame 0x7 .read q id 0 0
  | .executeLocked q w => requestFrame 0x8 .read q w 0 0
  | .readRegisterLocked q id => requestFrame 0x9 .read q id 0 0
  | .writeRegisterLocked q id value => requestFrame 0xA .read q id value 0
  | .writeBlockLocked q buf len => requestFrame 0xB .read q 0 len buf
  | .readBlockLocked q buf len id => requestFrame 0xC .read q id len buf
  | .wakeupLocked q => requestFrame 0xD .read q 0 0 0
  | .reservedE q => requestFrame 0xE .read q 0 0 0
  | .reservedF q => requestFrame 0xF .read q 0 0 0
  | .cw32Generic w => wireFrame 0 w
  | .wdbCmd o size => wireFrame 1 (wordOfHalves o size)
  | .wdbResp r => wireFrame 2 r
  | .wdbAck a => wireFrame 3 a
  | .rdbCmd o id => wireFrame 4 (wordOfHalves o id)
  | .rdbResp r => wireFrame 5 r
  | .statusQuery w => wireFrame 6 w
  | .syncIntr w => wireFrame 7 w
  | .sync w => wireFrame 8 w
  | .smoothMuteZero w => wireFrame 9 w
  | .regMsgLane w => wireFrame 10 w

/-- `n` bytes of a number, least significant first. -/
def bytesOfNat : Nat → Nat → List Byte
  | 0, _ => []
  | n + 1, w => BitVec.ofNat 8 w :: bytesOfNat n (w / 256)

/-- The frame of a row's bits as spec/opcode_table.json numbers them: the 4-bit rows (HREQ) fill the head of a request record,
the 32-bit rows a wire frame; every bit above is 0 (log entries 2 and 3). -/
def tableFrame (nbits w : Nat) : Frame :=
  if nbits ≤ 8 then .hreq (bytesOfNat 17 (w % 2 ^ nbits)) else .wire (bytesOfNat 5 (w % 2 ^ nbits))

/-- The instruction the decoder reads from a row's bits. -/
def decodeTableWord (nbits w : Nat) : Option Instr :=
  match decode (tableFrame nbits w) with
  | .ok i => some i
  | .error _ => none

end Sys2Proof
end

