-- ==== Sys2Proof/Machine/Operands.lean ====
section
/-!
DEFINITION. Operand assembly: the mask and field of a register message (30_encoding.md R103, 40_codec.md R122 to R127), the
command words of the block operations (R104), the acknowledgement word (43_block_write.md R199, R200), the byte-to-lane map
(20_memory.md R67), and what makes a Register Access Table and a configuration well-formed (R129, R7).
-/

namespace Sys2Proof.Machine

/-- The least `k` from `k` on, at most `fuel` further, with `n ≤ 2 ^ k`. -/
def leastExponent (n : Nat) : Nat → Nat → Nat
  | 0, k => k
  | fuel + 1, k => if n ≤ 2 ^ k then k else leastExponent n fuel (k + 1)

/-- R10: `ceil(log2(n))`, for the `n ≤ 2 ^ 32` that R122 needs. -/
def ceilLog2 (n : Nat) : Nat := leastExponent n 32 0

/-- R122: `2 ^ ceil(log2(value_max + 1)) - 1`, the sum formed in the naturals. -/
def fieldMask (valueMax : Word) : Word := BitVec.ofNat 32 (2 ^ ceilLog2 (valueMax.toNat + 1) - 1)

/-- The mask of a descriptor (R122). -/
def descriptorMask (d : Descriptor) : Word := fieldMask d.valueMax

/-- R103, R124, R127: the shifted field of a write, truncated to the lane's 32 bits. -/
def fieldOf (d : Descriptor) (value : Word) : Word := (value &&& descriptorMask d) <<< d.valueShift.val

/-- R128: the field's value in a lane. -/
def valueOf (d : Descriptor) (lane : Word) : Word := (lane >>> d.valueShift.val) &&& descriptorMask d

/-- R61, R121: the descriptor a register id selects. -/
def lookup (c : Config) (id : Word) : Option Descriptor := c.table[id.toNat]?

/-- R22, R67: the lane of four template bytes, byte 0 the least significant. -/
def laneOfBytes (b0 b1 b2 b3 : Byte) : Word := wordOfBytes b0 b1 b2 b3

/-- R91: the opcode field of a word. -/
def opc (w : Word) : Half := highHalf w

/-- R92, R105: the low half of a word. -/
def low (w : Word) : Half := lowHalf w

/-- R70: a 16-bit value as a 32-bit result. -/
def zext32 (h : Half) : Word := h.setWidth 32

/-- R193: the block-write command word of a chunk size. -/
def wdbWord (c : Config) (size : Half) : Word := wordOfHalves c.opcWdb size

/-- R212: the block-read command word of a block id. -/
def rdbWord (c : Config) (id : Half) : Word := wordOfHalves c.opcRdb id

/-- R201: the acknowledgement word a chunk must get. -/
def wdbAckWord (c : Config) : Word := wordOfHalves c.opcWdb 0

/-- R200: the 4-byte swap. -/
def swapBytes (w : Word) : Word := wordOfBytes (byteOf w 3) (byteOf w 2) (byteOf w 1) (byteOf w 0)

/-- P28: `NORMALIZE`. -/
def normalizeWord (n : Normalizer) (w : Word) : Word :=
  match n with
  | .identity => w
  | .swap => swapBytes w
  | .other k => Config.normalizeOther k w

/-- P27: `HBW_IS_SPI_CLASS`. -/
def isSpiClass (k : Kind) : Bool := decide (k = .spi)

/-- R68, R199, R200: the acknowledgement word of four bytes in arrival order. -/
def ackWord (k : Kind) (n : Normalizer) (b0 b1 b2 b3 : Byte) : Word :=
  if isSpiClass k then wordOfBytes b3 b2 b1 b0 else normalizeWord n (wordOfBytes b0 b1 b2 b3)

/-- R211, R215: the least of two lengths. -/
def minLength (a b : Word) : Word := if a ≤ b then a else b

/-- R129 (a), (b): the two clauses every configuration the model takes must meet, for the descriptor at index `i`. -/
def descriptorTaken (i : Nat) (d : Descriptor) : Bool :=
  decide (d.registerId = i) && (decide (d.messageLength = 4) || decide (d.messageLength = 8))

/-- R124: the lane of the write template the value is merged into. -/
def mergeLane (d : Descriptor) : Word := if d.messageLength = 8 then d.wt1 else d.wt0

/-- R129 (e): the last lane of the read template. -/
def lastReadLane (d : Descriptor) : Word := if d.messageLength = 8 then d.rt1 else d.rt0

/-- R129 (c), (d), (e): the field fits the lane, the write template is 0 in it, a register read awaits a response. -/
def descriptorLawful (d : Descriptor) : Bool :=
  decide ((descriptorMask d).toNat * 2 ^ d.valueShift.val < 2 ^ 32) &&
  decide (mergeLane d &&& (descriptorMask d <<< d.valueShift.val) = 0) &&
  !srBit (lastReadLane d)

/-- A check of every entry of a table with its index. -/
def tableAll (p : Nat → Descriptor → Bool) : Nat → List Descriptor → Bool
  | _, [] => true
  | i, d :: rest => p i d && tableAll p (i + 1) rest

/-- R129: the whole well-formedness of a table. -/
def tableWellFormed (t : List Descriptor) : Bool :=
  tableAll (fun i d => descriptorTaken i d && descriptorLawful d) 0 t

/-- R7: the constraints of the parameter table, and clauses (a) and (b) of R129; the other clauses are dropped, as R129 and
U5 let a model do (log entry 9). -/
def configOk (c : Config) : Bool :=
  tableAll descriptorTaken 0 c.table &&
  !srBitOfOpcode c.opcWdb && !srBitOfOpcode c.opcRdb && decide (c.opcWdb ≠ c.opcRdb) &&
  !srBit c.syncWord && srBit c.syncIntrWord && !srBit c.statusQueryWord &&
  decide (1 ≤ c.tAckTimeout) && decide (1 ≤ c.maxChunk) && decide (c.maxChunk ≤ 65535) &&
  decide (1 ≤ c.ackMaxAttempts) && decide (1 ≤ c.wakeBudget) && decide (1 ≤ c.tWakeTimeout) &&
  decide (1 ≤ c.nReq) && decide (1 ≤ c.tsW)

end Sys2Proof.Machine
end

