-- ==== Sys2Proof/Machine/State.lean ====
section
/-!
DEFINITION. The state of CWE (10_state.md), the events of its interfaces (00_scope.md R12), the reasons a step can stop,
and the state after reset (70_reset_and_hazards.md R300).
-/

namespace Sys2Proof.Machine

/-- R27: the phases of the sequencer register `SEQ`. -/
inductive Phase where
  | idle
  | gateWaitLock
  | gateResume
  | gateRelease
  | gateUnlock
  | encode
  | execArm
  | execSend
  | execWait
  | execLatch
  | wbOpen
  | wbDelay
  | wbCmd
  | wbCheck
  | wbData
  | wbAckRead
  | wbAckDelay
  | wbClose
  | rbFast
  | rbOpen
  | rbCmd
  | rbCheck
  | rbData
  | rbDrain
  | rbClose
  | wk1Clock
  | wk2Signal
  | wk3Await
  | wk4Confirm
  | wk5Irq
  | wk5Sync
  | wk6Mute
  | wkFailAttempt
  deriving DecidableEq, Repr

/-- R37: the exclusive-access lock. -/
inductive Lock where
  | free
  | held (q : Nat)
  deriving DecidableEq, Repr

/-- R35: the completion mode. -/
inductive CMode where
  | poll
  | interrupt
  deriving DecidableEq, Repr

/-- R36, R231: the states of the wakeup state machine. -/
inductive WState where
  | asleep
  | signaling
  | awaitingAck
  | interruptModeSet
  | ready
  | failed
  deriving DecidableEq, Repr

/-- R39: the two routes of a command word. -/
inductive Route where
  | pri
  | hbw
  deriving DecidableEq, Repr

/-- R260: the errors an operation ends with, each with the information its row of the table records as part of the error
itself (the register id; the Transport's value). -/
inductive Err where
  | invalidAddress (id : Word)
  | timeout
  | protocolMismatch
  | ackTimeout
  | powerResumeFailed
  | invalidSize
  | transport (e : TErr)
  deriving DecidableEq, Repr

/-- The answer of a call that may fail (R41, R42). -/
inductive Ans (α : Type) where
  | ok (v : α)
  | err (e : TErr)
  deriving DecidableEq, Repr

/-- The answers the external agents give (R41, R42, R43): the Transport's and the power manager's. `hbwOpen` and `hbwClose` say
only that the call has returned: neither has a result, but each takes as long as the Transport takes (R315). -/
inductive Answer where
  | send (a : Ans Word)
  | hbwOpen
  | hbwClose
  | hbwWrite (a : Ans Unit)
  | hbwRead (a : Ans (List Byte))
  | rdb (a : Ans (List Byte))
  | wake (a : Ans Unit)
  | resume (ok : Bool)
  deriving DecidableEq, Repr

/-- R12: the event alphabet of the trace. -/
inductive Event where
  | send (route : Route) (w : Word) (a : Ans Word)
  | hbwOpen
  | hbwClose
  | hbwWrite (bytes : List Byte) (a : Ans Unit)
  | hbwRead (n : Nat) (a : Ans (List Byte))
  | rdb (len : Word) (id : Half) (a : Ans (List Byte))
  | wake (a : Ans Unit)
  | wakePulse
  | clkEnable
  | resume (ok : Bool)
  | releaseAutosuspend
  | arm
  | completion
  | timeout
  | delay (t : Nat)
  | lockGrant (q : Nat)
  | lockRelease (q : Nat)
  deriving DecidableEq, Repr

/-- What the outside world does to CWE, in the order it does it (R5, R20, R40, R44, R45; log entries 1, 12, 18, 19, 21,
30, 31). -/
inductive Input where
  /-- R44, R275: the completion signal. -/
  | completion
  /-- R45: `n` tick events, one after the other. -/
  | ticks (n : Nat)
  /-- R274: one tick and a completion signal in the same step. -/
  | tickCompletion
  /-- R283, U13: the running delay ends, if its `T` ticks have passed. A delay has no upper bound, so the moment it ends is the
  outside world's, like an answer (log entry 19). -/
  | delayEnds
  /-- R45, R284: the external counter `NOW` goes up by `d` (modulo 2^`TS_W`). -/
  | advanceNow (d : Nat)
  /-- R275, R315: the next step of the operation in flight that does not wait takes some time, and the `n` inputs that follow
  fall in it (log entry 30). -/
  | stepTakes (n : Nat)
  /-- R60, R62: a requester puts bytes into the buffer with handle `buf`, from offset `off` on (log entry 31). -/
  | fillBuffer (buf off : Word) (bytes : List Byte)
  /-- R40: a request is presented. -/
  | request (f : Frame)
  /-- An external agent answers the call CWE has open. -/
  | answer (a : Answer)
  /-- R181: requester `q` gets the lock and a power vote by means of the host. -/
  | holdLock (q : Nat)
  /-- R181: requester `q` gives them back. -/
  | dropLock (q : Nat)
  /-- R301: device detach. -/
  | detach
  /-- R301, R303: device attach with a configuration. -/
  | attach (c : Config)
  deriving DecidableEq, Repr

/-- R102: the value of a result. -/
inductive Value where
  /-- A 32-bit word: the response of EXECUTE, the value of READ_REGISTER or DECODE. -/
  | word (w : Word)
  /-- A byte count of `LEN_W` bits: WRITE_BLOCK, READ_BLOCK. -/
  | count (n : Word)
  /-- The message of ENCODE: `x[0]`, `x[1]`, `MSGLEN`. -/
  | message (x0 x1 : Word) (len : Nat)
  deriving DecidableEq, Repr

/-- R102: the host result. -/
structure HRes where
  status : BitVec 4
  value : Option Value
  terr : Option TErr
  deriving DecidableEq, Repr

/-- Why the machine stops with a fault: the spec's two *stuck* cases (93_implementation_defined.md U1, U8). -/
inductive Fault where
  /-- R178, U1: a locked operation requested by the requester that already holds the lock waits for a lock only it can free.
  Raised by the locked operations. Safe: the model stops where the hardware makes no step either. -/
  | selfDeadlock
  /-- R156, R278, U8: an operation is in flight, suspended in a call or a wait, and the outside world does nothing more.
  Raised by `step`, and by every operation presented to a suspended engine. Safe: the hardware makes no step either. -/
  | stuck
  deriving DecidableEq, Repr

/-- Why the machine gives a request no meaning. -/
inductive Refusal where
  /-- An instruction that has no meaning yet. Raised by `exec`'s own arms only. Safe. -/
  | notModelled (mnemonic : String)
  /-- R7, R107, U5, U6: the configuration breaks a constraint, so it is outside the spec. Raised by every operation. Safe. -/
  | illFormedConfig
  /-- R301: no Session is attached. Raised by every operation. Safe. -/
  | notAttached
  /-- R40, P29: the request names a requester outside `0 .. N_REQ-1`. Raised by every operation. Safe. -/
  | noSuchRequester
  /-- R177, R179, U2: an unlocked operation without the lock and a power vote. Raised by the unlocked operations and the wire
  rows. Safe: the spec asks a model to refuse it. -/
  | unlockedWithoutLock
  /-- R106, U7: host operation codes 0xE and 0xF. Raised by the two reserved rows. Safe: the spec says refused. -/
  | reservedCode
  /-- R97 to R99: a command word given as a row of the table whose constant it does not carry under this configuration.
  Raised by the wire command rows. Safe. -/
  | foreignWord
  /-- R301, U15: a detach (or a second attach) of an attached Session. Raised by every wait and every timed step of an operation
  in flight and by the idle engine for a second attach. Safe: the spec asks a model to refuse it. -/
  | lifecycle
  /-- The decoder rejects the frame. Raised by `step`. Safe. -/
  | undecodable (why : DecodeError)
  deriving DecidableEq, Repr

/-- The state of CWE and of the interfaces around it. Every field names the rule that gives it; the fields after `inputs` are
the model's own. -/
structure State where
  /-- R7, R303: the configuration the host provided at attach. No operation writes it. -/
  cfg : Config
  /-- R301: a Session exists. -/
  attached : Bool
  /-- R27: `SEQ`. -/
  seq : Phase
  /-- R37: `LOCK`. -/
  lock : Lock
  /-- R37: `PVOTE`. -/
  pvote : Bool
  /-- R33: `LAST_RESP`. -/
  lastResp : Word
  /-- R34: `LAST_TS`, `TS_W` bits. -/
  lastTs : Nat
  /-- R33: `LAST_VALID`. -/
  lastValid : Bool
  /-- R35: `CMODE`. -/
  cmode : CMode
  /-- R36: `WSTATE`. -/
  wstate : WState
  /-- R38: `PRI_KIND`. -/
  priKind : Kind
  /-- R38: `HBW_KIND`. -/
  hbwKind : Kind
  /-- R38: `WAKE_KIND`. -/
  wakeKind : Kind
  /-- R28: `PEND`. -/
  pend : Bool
  /-- R29: `CSEEN`. -/
  cseen : Bool
  /-- R279, R282: `TMR`. -/
  tmr : Nat
  /-- R281, R283: the counter of a running `delay`: the ticks it must still last. -/
  dly : Nat
  /-- R232: `ATT`. -/
  att : Nat
  /-- R242: `LASTERR`. -/
  lastErr : Err
  /-- R22: lane 0 of `WBUF`. -/
  x0 : Word
  /-- R22: lane 1 of `WBUF`. -/
  x1 : Word
  /-- R23: `MSGLEN`. -/
  msglen : Nat
  /-- R25: `RESP`. -/
  resp : Word
  /-- R24: `DIR`. -/
  dir : Direction
  /-- R24: `REQLEN`. -/
  reqlen : Word
  /-- R24: `DSZ`. -/
  dsz : Half
  /-- R24: `MOVED`. -/
  moved : Word
  /-- R24: `REM`. -/
  rem : Word
  /-- R24: `CHUNK`. -/
  chunk : Half
  /-- R24: `XFER`. -/
  xfer : Word
  /-- R24: `EXTRA`. -/
  extra : BitVec 2
  /-- R24: `ACKW`. -/
  ackw : Word
  /-- R24: `ACKCNT`. -/
  ackcnt : Nat
  /-- R45: the external counter `NOW`, `TS_W` bits. -/
  now : Nat
  /-- R62: the bytes of the caller buffers, by address (`bufferAddress`). -/
  mem : List Host.Cell
  /-- R40, R176: the requests presented and not yet accepted. -/
  requests : List Frame
  /-- R40, R102: the results returned so far, each with its requester, oldest first. -/
  results : List (Nat × HRes)
  /-- R12: the trace so far, oldest event first. -/
  trace : List Event
  /-- What the outside world will do, in order. -/
  inputs : List Input
  /-- How many ticks have passed. -/
  clock : Nat
  /-- How many free values have been drawn. -/
  freeCount : Nat
  /-- Whether `WBUF` and `MSGLEN` have been written since attach. -/
  wbufSet : Bool
  /-- Whether `ACKCNT` has been written since attach. -/
  ackSet : Bool
  deriving DecidableEq, Repr

/-- R300: the Session that attach builds for a configuration, with nothing around it. The registers R300 leaves unspecified
hold the values log entry 10 names, and no result depends on one of them (log entry 28). For the counter of `delay(T)` (R281,
R283) the spec gives no reset value either: that `dly` is 0, stopped, is the model's (DESIGN CHOICE, log entry 10). -/
def State.attach (c : Config) : State where
  cfg := c
  attached := true
  seq := .idle
  lock := .free
  pvote := false
  lastResp := 0
  lastTs := 0
  lastValid := false
  cmode := .poll
  wstate := .asleep
  priKind := c.priKind
  hbwKind := c.hbwKind
  wakeKind := c.wakeKind
  pend := false
  cseen := false
  tmr := 0
  dly := 0
  att := 0
  lastErr := .timeout
  x0 := 0
  x1 := 0
  msglen := 4
  resp := 0
  dir := .write
  reqlen := 0
  dsz := 0
  moved := 0
  rem := 0
  chunk := 0
  xfer := 0
  extra := 0
  ackw := 0
  ackcnt := 0
  now := 0
  mem := []
  requests := []
  results := []
  trace := []
  inputs := []
  clock := 0
  freeCount := 0
  wbufSet := false
  ackSet := false

/-- The state after reset: attach (R301) with the spec's configuration CFG-T (log entry 4). -/
def State.reset : State := State.attach cfgT

/-- R47: the status outputs. -/
structure StatusOutputs where
  lastResp : Option Word
  lastTs : Option Nat
  lastValid : Bool
  cmode : CMode
  wstate : WState
  deriving DecidableEq, Repr

end Sys2Proof.Machine
end

