-- ==== Sys2Proof/Machine/Flags.lean ====
section
/-!
DEFINITION. The flags: the pending-wait flag and the completion latch (10_state.md R28, R29, 60_exceptions.md R275 to R277),
the response cache and its valid flag (R33, R34, 41_command_engine.md R148), and the verdict on an acknowledgement word.
-/

namespace Sys2Proof.Machine

/-- R12: appends an event to the trace. -/
def State.emit (s : State) (e : Event) : State := { s with trace := s.trace ++ [e] }

/-- R11: `SEQ <- p`. -/
def State.goto (s : State) (p : Phase) : State := { s with seq := p }

/-- R143, R234: the arm step, `PEND <- 1; CSEEN <- 0`. -/
def State.arm (s : State) : State := { s with pend := true, cseen := false, trace := s.trace ++ [.arm] }

/-- R144, R147: the end of an armed wait, `PEND <- 0; CSEEN <- 0`. -/
def State.disarm (s : State) : State := { s with pend := false, cseen := false }

/-- R276, R277: a completion signal is latched while a wait is armed and dropped otherwise. -/
def State.completion (s : State) : State :=
  { s with cseen := s.cseen || s.pend, trace := s.trace ++ [.completion] }

/-- R284: the `TS_W`-bit sample of `NOW`. -/
def State.timestamp (s : State) : Nat := s.now % 2 ^ s.cfg.tsW

/-- R148: a response is latched and cached, in one step. -/
def State.latch (s : State) (r : Word) : State :=
  { s with resp := r, lastResp := r, lastTs := s.timestamp, lastValid := true }

/-- R47, R33: what the host sees of the Session; the cache has no value before the first response. After detach, when no Session
exists, this still shows the registers of the Session that was torn down (DESIGN CHOICE, log entry 15). -/
def State.statusOutputs (s : State) : StatusOutputs where
  lastResp := if s.lastValid then some s.lastResp else none
  lastTs := if s.lastValid then some s.lastTs else none
  lastValid := s.lastValid
  cmode := s.cmode
  wstate := s.wstate

/-- What an acknowledgement read leads to (R198). -/
inductive AckVerdict where
  | accepted
  | exhausted
  | retry
  deriving DecidableEq, Repr

/-- R190: `ACKCNT <- n`. -/
def State.countFrom (s : State) (n : Nat) : State := { s with ackcnt := n, ackSet := true }

/-- R198: an acknowledgement word is counted and kept. -/
def State.takeAck (s : State) (a : Word) : State := { s with ackcnt := s.ackcnt + 1, ackw := a }

/-- R201, R202: the word just taken is the expected one, or the reads are spent, or another read follows. -/
def State.ackVerdict (s : State) : AckVerdict :=
  if s.ackw = wdbAckWord s.cfg then .accepted
  else if s.ackcnt = s.cfg.ackMaxAttempts then .exhausted
  else .retry

/-- R203: an acknowledged chunk moves the transfer on. -/
def State.advanceChunk (s : State) : State :=
  { s with moved := s.moved + zext32 s.chunk, rem := s.rem - zext32 s.chunk }

/-- R242: what kind of failure an attempt ended with. The commands of an attempt raise `Transport` and `Timeout` only, so a
`ProtocolMismatch` is a wrong state or a wrong echo. -/
inductive FailKind where
  | error
  | mismatch
  deriving DecidableEq, Repr

/-- R242: the kind of a failed attempt. -/
def failKind : Err → FailKind
  | .invalidAddress _ => .error
  | .timeout => .error
  | .protocolMismatch => .mismatch
  | .ackTimeout => .error
  | .powerResumeFailed => .error
  | .invalidSize => .error
  | .transport _ => .error

/-- R260: the status code of an error. -/
def Err.status : Err → BitVec 4
  | .invalidAddress _ => 1
  | .timeout => 2
  | .protocolMismatch => 3
  | .ackTimeout => 4
  | .powerResumeFailed => 5
  | .invalidSize => 6
  | .transport _ => 7

/-- R102: the Transport's own value, present only with status 7. -/
def Err.terr : Err → Option TErr
  | .invalidAddress _ => none
  | .timeout => none
  | .protocolMismatch => none
  | .ackTimeout => none
  | .powerResumeFailed => none
  | .invalidSize => none
  | .transport e => some e

/-- R102: the result of a success. -/
def HRes.ofValue (v : Option Value) : HRes where
  status := 0
  value := v
  terr := none

/-- R102: the result of an error. -/
def HRes.ofErr (e : Err) : HRes where
  status := e.status
  value := none
  terr := e.terr

end Sys2Proof.Machine
end

