-- ==== Sys2Proof/Machine/Ops.lean ====
section
/-!
DEFINITION. The named operations the meanings are written over: the caller buffers (20_memory.md R62), how a procedure ends
(60_exceptions.md R270), what the outside world does while CWE is suspended (10_state.md R26, R44, R45), the calls on the
interfaces (R41 to R43), the waits (R278, R279, R283), and the end of an operation (R270, R316).
-/

namespace Sys2Proof.Machine

/-! ### Caller buffers -/

/-- What an address that nothing has written reads as (log entry 11). -/
def unwrittenByte : Byte := 0

/-- R62: the address of byte `off` of the buffer with handle `buf`. Each handle has a window of 2^32 addresses, one for every
offset a 32-bit length can reach, so windows never overlap. The requester is no part of it: equal handles of two requesters name
one buffer (DESIGN CHOICE, log entry 11). -/
def bufferAddress (buf : Word) (off : Nat) : Nat := buf.toNat * 2 ^ 32 + off

/-- The byte at an address. -/
def readByte : List Host.Cell → Nat → Byte
  | [], _ => unwrittenByte
  | c :: rest, a => if c.1 = a then c.2 else readByte rest a

/-- Puts a byte at an address, keeping the canonical form. -/
def writeByte : List Host.Cell → Nat → Byte → List Host.Cell
  | [], a, v => if v = unwrittenByte then [] else [(a, v)]
  | c :: rest, a, v =>
    if a < c.1 then (if v = unwrittenByte then c :: rest else (a, v) :: c :: rest)
    else if a = c.1 then (if v = unwrittenByte then rest else (a, v) :: rest)
    else c :: writeByte rest a v

/-- R11: `MemRead`: `n` bytes from an address on, in increasing order. -/
def readBytes (m : List Host.Cell) : Nat → Nat → List Byte
  | _, 0 => []
  | a, n + 1 => readByte m a :: readBytes m (a + 1) n

/-- R11: `MemWrite`: the bytes from an address on, in increasing order. -/
def writeBytes (m : List Host.Cell) : Nat → List Byte → List Host.Cell
  | _, [] => m
  | a, v :: rest => writeBytes (writeByte m a v) (a + 1) rest

/-- The canonical form of memory: addresses strictly rising, no entry equal to what an unlisted address reads as. -/
abbrev Memory.wf (m : List Host.Cell) : Prop :=
  m.Pairwise (fun c d => c.1 < d.1) ∧ ∀ c ∈ m, c.2 ≠ unwrittenByte

/-! ### How a procedure ends -/

/-- How a procedure ends: with a value, with an error (R270), suspended for good because the outside world does nothing more
(U8), or refused because the Session was torn down under it (R301). -/
inductive Res (α : Type) where
  | ok (v : α) (s : State)
  | err (e : Err) (s : State)
  | hung (s : State)
  | stop (r : Refusal)
  deriving DecidableEq, Repr

/-- Runs the rest of a procedure after a success; everything else ends the procedure (R270). -/
def Res.bind {α β : Type} (r : Res α) (f : α → State → Res β) : Res β :=
  match r with
  | .ok v s => f v s
  | .err e s => .err e s
  | .hung s => .hung s
  | .stop x => .stop x

/-- R172, R191: clean-up steps that run on success and on error alike. They raise no error of their own (R272). -/
def Res.after {α : Type} (r : Res α) (f : State → Res Unit) : Res α :=
  match r with
  | .ok v s => (f s).bind fun _ s => .ok v s
  | .err e s => (f s).bind fun _ s => .err e s
  | .hung s => .hung s
  | .stop x => .stop x

/-! ### What the outside world does while CWE is suspended -/

/-- The answer an input carries. -/
def Input.answer? : Input → Option Answer
  | .completion => none
  | .ticks _ => none
  | .tickCompletion => none
  | .delayEnds => none
  | .advanceNow _ => none
  | .stepTakes _ => none
  | .fillBuffer _ _ _ => none
  | .request _ => none
  | .answer a => some a
  | .holdLock _ => none
  | .dropLock _ => none
  | .detach => none
  | .attach _ => none

/-- How many of the inputs after this one fall in the next step that does not wait, where it says so. -/
def Input.stepTakes? : Input → Option Nat
  | .completion => none
  | .ticks _ => none
  | .tickCompletion => none
  | .delayEnds => none
  | .advanceNow _ => none
  | .stepTakes n => some n
  | .fillBuffer _ _ _ => none
  | .request _ => none
  | .answer _ => none
  | .holdLock _ => none
  | .dropLock _ => none
  | .detach => none
  | .attach _ => none

/-- R301: the inputs that make or unmake the Session. -/
def Input.isLifecycle : Input → Bool
  | .completion => false
  | .ticks _ => false
  | .tickCompletion => false
  | .delayEnds => false
  | .advanceNow _ => false
  | .stepTakes _ => false
  | .fillBuffer _ _ _ => false
  | .request _ => false
  | .answer _ => false
  | .holdLock _ => false
  | .dropLock _ => false
  | .detach => true
  | .attach _ => true

/-- What an input that ends no wait does to a Session whose operation is in flight: a completion is latched or dropped
(R276, R277), ticks pass, `NOW` goes up (R284), a request starts to wait (R278). The lock cannot change hands while an
operation is in flight (R175, R278), an answer to a call that is not open is nothing (log entry 20), and a requester leaves its
buffer alone (DESIGN CHOICE, log entry 31). -/
def State.deliver (s : State) (i : Input) : State :=
  match i with
  | .completion => s.completion
  | .ticks n => { s with clock := s.clock + n }
  | .tickCompletion => { s.completion with clock := s.clock + 1 }
  | .delayEnds => s
  | .advanceNow d => { s with now := (s.now + d) % 2 ^ s.cfg.tsW }
  | .stepTakes _ => s
  | .fillBuffer _ _ _ => s
  | .request f => { s with requests := s.requests ++ [f] }
  | .answer _ => s
  | .holdLock _ => s
  | .dropLock _ => s
  | .detach => s
  | .attach _ => s

/-- The first `n` inputs fall in a step. -/
def takeInputs : Nat → List Input → State → Res Unit
  | 0, l, s => .ok () { s with inputs := l }
  | _ + 1, [], s => .ok () { s with inputs := [] }
  | n + 1, i :: rest, s => if i.isLifecycle then .stop .lifecycle else takeInputs n rest (s.deliver i)

/-- R275, R315: the time of a step that does not wait: unspecified, finite, 0 where the next input does not say otherwise. It
stands before every such step whose place among the completion signals can be told (log entry 30). -/
def pause (s : State) : Res Unit :=
  match s.inputs with
  | [] => .ok () s
  | i :: rest =>
    match i.stepTakes? with
    | some n => takeInputs n rest s
    | none => .ok () s

/-- Suspended in a call until an answer of the call's own kind arrives (R26, R278); `want` picks those answers out. -/
def awaitAnswer {α : Type} (want : Answer → Option α) : List Input → State → Res α
  | [], s => .hung { s with inputs := [] }
  | i :: rest, s =>
    match i.answer?.bind want with
    | some v => .ok v { s with inputs := rest }
    | none => if i.isLifecycle then .stop .lifecycle else awaitAnswer want rest (s.deliver i)

/-- R44, R278, R279: suspended until `CSEEN = 1` or `TMR = 0`; `true` when the completion was seen. A completion in the tick
that brings `TMR` to 0 wins (R274). -/
def awaitCompletion : List Input → State → Res Bool
  | [], s => .hung { s with inputs := [] }
  | i :: rest, s =>
    match i with
    | .completion => .ok true { s.completion with inputs := rest }
    | .tickCompletion => .ok true { s.completion with inputs := rest, clock := s.clock + 1, tmr := s.tmr - 1 }
    | .ticks n =>
      if n < s.tmr then awaitCompletion rest { s with tmr := s.tmr - n, clock := s.clock + n }
      else .ok false { s with tmr := 0, clock := s.clock + s.tmr,
                              inputs := if n = s.tmr then rest else .ticks (n - s.tmr) :: rest }
    | .detach => .stop .lifecycle
    | .attach _ => .stop .lifecycle
    | .delayEnds => awaitCompletion rest (s.deliver .delayEnds)
    | .advanceNow d => awaitCompletion rest (s.deliver (.advanceNow d))
    | .stepTakes n => awaitCompletion rest (s.deliver (.stepTakes n))
    | .fillBuffer b o l => awaitCompletion rest (s.deliver (.fillBuffer b o l))
    | .request f => awaitCompletion rest (s.deliver (.request f))
    | .answer a => awaitCompletion rest (s.deliver (.answer a))
    | .holdLock q => awaitCompletion rest (s.deliver (.holdLock q))
    | .dropLock q => awaitCompletion rest (s.deliver (.dropLock q))

/-- R278: the wait for the completion signal with timeout `t`; a signal latched since the arm ends it at once (R146). -/
def completionWait (t : Nat) (s : State) : Res Bool :=
  (pause s).bind fun _ s =>
    if s.cseen then .ok true { s with tmr := t } else awaitCompletion s.inputs { s with tmr := t }

/-- R283, U13: suspended until the delay counter has run down and the delay ends. -/
def awaitTicks : List Input → State → Res Unit
  | [], s => .hung { s with inputs := [] }
  | i :: rest, s =>
    match i with
    | .ticks n => awaitTicks rest { s with dly := s.dly - n, clock := s.clock + n }
    | .tickCompletion => awaitTicks rest { s.completion with dly := s.dly - 1, clock := s.clock + 1 }
    | .delayEnds => if s.dly = 0 then .ok () { s with inputs := rest } else awaitTicks rest s
    | .completion => awaitTicks rest (s.deliver .completion)
    | .detach => .stop .lifecycle
    | .attach _ => .stop .lifecycle
    | .advanceNow d => awaitTicks rest (s.deliver (.advanceNow d))
    | .stepTakes n => awaitTicks rest (s.deliver (.stepTakes n))
    | .fillBuffer b o l => awaitTicks rest (s.deliver (.fillBuffer b o l))
    | .request f => awaitTicks rest (s.deliver (.request f))
    | .answer a => awaitTicks rest (s.deliver (.answer a))
    | .holdLock q => awaitTicks rest (s.deliver (.holdLock q))
    | .dropLock q => awaitTicks rest (s.deliver (.dropLock q))

/-- R283: `delay(T)`. A delay of 0 ticks is the event alone. The event is appended when the delay starts, so it comes before every
completion that arrives during the delay, and a delay that never ends has it too (DESIGN CHOICE, log entry 29). -/
def delayTicks (t : Nat) (s : State) : Res Unit :=
  (pause s).bind fun _ s =>
    if t = 0 then .ok () (s.emit (.delay t)) else awaitTicks s.inputs { s.emit (.delay t) with dly := t }

/-! ### The calls on the interfaces

A call's event is appended, with the answer, when the answer has come (DESIGN CHOICE, log entry 29). -/

/-- R41: the answers of `send`. -/
def wantSend : Answer → Option (Ans Word)
  | .send a => some a
  | .hbwOpen => none
  | .hbwClose => none
  | .hbwWrite _ => none
  | .hbwRead _ => none
  | .rdb _ => none
  | .wake _ => none
  | .resume _ => none

/-- R42: the answer of `hbw_open`, which has no result. -/
def wantHbwOpen : Answer → Option Unit
  | .send _ => none
  | .hbwOpen => some ()
  | .hbwClose => none
  | .hbwWrite _ => none
  | .hbwRead _ => none
  | .rdb _ => none
  | .wake _ => none
  | .resume _ => none

/-- R42: the answer of `hbw_close`, which has no result. -/
def wantHbwClose : Answer → Option Unit
  | .send _ => none
  | .hbwOpen => none
  | .hbwClose => some ()
  | .hbwWrite _ => none
  | .hbwRead _ => none
  | .rdb _ => none
  | .wake _ => none
  | .resume _ => none

/-- R42: the answers of `hbw_write`. -/
def wantHbwWrite : Answer → Option (Ans Unit)
  | .send _ => none
  | .hbwOpen => none
  | .hbwClose => none
  | .hbwWrite a => some a
  | .hbwRead _ => none
  | .rdb _ => none
  | .wake _ => none
  | .resume _ => none

/-- R42: the answers of `hbw_read(n)`: exactly `n` bytes, or an error. -/
def wantHbwRead (n : Nat) : Answer → Option (Ans (List Byte))
  | .send _ => none
  | .hbwOpen => none
  | .hbwClose => none
  | .hbwWrite _ => none
  | .hbwRead (.ok bytes) => if bytes.length = n then some (.ok bytes) else none
  | .hbwRead (.err e) => some (.err e)
  | .rdb _ => none
  | .wake _ => none
  | .resume _ => none

/-- R42: the answers of `rdb(len, id)`: at most `len` bytes, or an error. -/
def wantRdb (len : Nat) : Answer → Option (Ans (List Byte))
  | .send _ => none
  | .hbwOpen => none
  | .hbwClose => none
  | .hbwWrite _ => none
  | .hbwRead _ => none
  | .rdb (.ok bytes) => if bytes.length ≤ len then some (.ok bytes) else none
  | .rdb (.err e) => some (.err e)
  | .wake _ => none
  | .resume _ => none

/-- R42: the answers of `wake`. -/
def wantWake : Answer → Option (Ans Unit)
  | .send _ => none
  | .hbwOpen => none
  | .hbwClose => none
  | .hbwWrite _ => none
  | .hbwRead _ => none
  | .rdb _ => none
  | .wake a => some a
  | .resume _ => none

/-- R43: the answers of `resume`. -/
def wantResume : Answer → Option Bool
  | .send _ => none
  | .hbwOpen => none
  | .hbwClose => none
  | .hbwWrite _ => none
  | .hbwRead _ => none
  | .rdb _ => none
  | .wake _ => none
  | .resume ok => some ok

/-- R267: an `Err(e)` of the Transport propagates unchanged. -/
def transportResult {α : Type} (a : Ans α) (s : State) : Res α :=
  match a with
  | .ok v => .ok v s
  | .err e => .err (.transport e) s

/-- R41: `T.send(route, w)`. -/
def callSend (route : Route) (w : Word) (s : State) : Res (Ans Word) :=
  (awaitAnswer wantSend s.inputs s).bind fun a s => .ok a (s.emit (.send route w a))

/-- R42: `T.hbw_write(bytes)`. -/
def callHbwWrite (bytes : List Byte) (s : State) : Res Unit :=
  (awaitAnswer wantHbwWrite s.inputs s).bind fun a s => transportResult a (s.emit (.hbwWrite bytes a))

/-- R42: `T.hbw_read(n)`. -/
def callHbwRead (n : Nat) (s : State) : Res (List Byte) :=
  (awaitAnswer (wantHbwRead n) s.inputs s).bind fun a s => transportResult a (s.emit (.hbwRead n a))

/-- R42, R211: `T.rdb(len, id)`. -/
def callRdb (len : Word) (id : Half) (s : State) : Res (List Byte) :=
  (awaitAnswer (wantRdb len.toNat) s.inputs s).bind fun a s => transportResult a (s.emit (.rdb len id a))

/-- R42, R235: `T.wake()`. -/
def callWake (s : State) : Res Unit :=
  (awaitAnswer wantWake s.inputs s).bind fun a s => transportResult a (s.emit (.wake a))

/-- R43, R173: `P.resume()`. -/
def callResume (s : State) : Res Bool :=
  (awaitAnswer wantResume s.inputs s).bind fun ok s => .ok ok (s.emit (.resume ok))

/-- R191: the first half of the channel bracket, `T.hbw_open()` where there is one. -/
def openChannel (s : State) : Res Unit :=
  if s.cfg.hasHbwOpen then (awaitAnswer wantHbwOpen s.inputs s).bind fun _ s => .ok () (s.emit .hbwOpen) else .ok () s

/-- R191: the second half of the channel bracket, `T.hbw_close()` where there is one. -/
def closeChannel (s : State) : Res Unit :=
  if s.cfg.hasHbwClose then (awaitAnswer wantHbwClose s.inputs s).bind fun _ s => .ok () (s.emit .hbwClose) else .ok () s

/-! ### The end of an operation -/

/-- R270, R316: the result goes to the requester and control to `SEQ = Idle`. This is the one operation by which an error
(CWE's exceptions) leaves an operation; there is no return from it (R272). -/
def State.endOperation (s : State) (q : Nat) (r : HRes) : State :=
  { s with seq := .idle, results := s.results ++ [(q, r)] }

/-- The step that an operation's outcome is: its result returned, or the engine suspended for good in the phase where it
waits (R156, U8). -/
def finish (q : Nat) (r : Res (Option Value)) : Host.Outcome State Fault Refusal :=
  match r with
  | .ok v s => .next (s.endOperation q (HRes.ofValue v))
  | .err e s => .next (s.endOperation q (HRes.ofErr e))
  | .hung s => .next s
  | .stop x => .refused x

/-- Why an operation cannot be presented: the configuration is outside the spec (R7), no Session is attached (R301), there is
no such requester (R40), or an operation is in flight (R26, R278). -/
def notAdmitted (q : Nat) (s : State) : Option (Host.Outcome State Fault Refusal) :=
  if configOk s.cfg then
    if s.attached then
      if q < s.cfg.nReq then
        if s.seq = .idle then none else some (.fault .stuck)
      else some (.refused .noSuchRequester)
    else some (.refused .notAttached)
  else some (.refused .illFormedConfig)

/-- R315: a body, after the time its first step takes. -/
def begun (body : State → Res (Option Value)) (s : State) : Res (Option Value) := (pause s).bind fun _ s => body s

/-- R131: an operation that needs neither the lock nor a power vote (ENCODE, DECODE). -/
def codecOperation (q : Nat) (body : State → Res (Option Value)) (s : State) : Host.Outcome State Fault Refusal :=
  match notAdmitted q s with
  | some o => o
  | none => finish q (begun body s)

/-- R177, R179, R280: an operation for the requester that holds the lock and a power vote; refused for any other. Whether it holds
them is judged when its request is taken up, so one that its requester presents during its own locked operation is refused after
the release (DESIGN CHOICE, log entry 32). -/
def unlockedOperation (q : Nat) (body : State → Res (Option Value)) (s : State) : Host.Outcome State Fault Refusal :=
  match notAdmitted q s with
  | some o => o
  | none => if s.lock = .held q ∧ s.pvote = true then finish q (begun body s) else .refused .unlockedWithoutLock

/-- A wire row run by itself, for the requester that holds the lock (log entry 3) when the row is taken up (log entry 32). -/
def wireOperation (body : State → Res (Option Value)) (s : State) : Host.Outcome State Fault Refusal :=
  match s.lock with
  | .free => .refused .unlockedWithoutLock
  | .held q => unlockedOperation q body s

/-- A wire command row carries its configuration's constant, or it is not that row (log entry 25). -/
def ownWord (own : Bool) (body : State → Res (Option Value)) (s : State) : Host.Outcome State Fault Refusal :=
  if own then wireOperation body s else .refused .foreignWord

end Sys2Proof.Machine
end

