-- ==== Sys2Proof/Machine/Codec.lean ====
section
/-!
DEFINITION. The Register Access Codec (40_codec.md): ENCODE and DECODE.
-/

namespace Sys2Proof.Machine

/-- R123: lane 0 of the template the direction selects. -/
def templateLane0 (d : Descriptor) (dir : Direction) : Word :=
  match dir with
  | .read => d.rt0
  | .write => d.wt0

/-- R123: lane 1 of the template the direction selects, 0 for a 4-byte message. -/
def templateLane1 (d : Descriptor) (dir : Direction) : Word :=
  if d.messageLength = 8 then
    match dir with
    | .read => d.rt1
    | .write => d.wt1
  else 0

/-- R124, R125: the field merged into the message, 0 for the read direction. -/
def mergedField (d : Descriptor) (value : Word) (dir : Direction) : Word :=
  match dir with
  | .read => 0
  | .write => fieldOf d value

/-- R120: the message of a register access, lane 0. -/
def messageLane0 (d : Descriptor) (value : Word) (dir : Direction) : Word :=
  if d.messageLength = 4 then templateLane0 d dir ||| mergedField d value dir else templateLane0 d dir

/-- R120: the message of a register access, lane 1. -/
def messageLane1 (d : Descriptor) (value : Word) (dir : Direction) : Word :=
  if d.messageLength = 8 then templateLane1 d dir ||| mergedField d value dir else templateLane1 d dir

/-- Listing R120: ENCODE's procedure. The range check comes first and leaves `WBUF` and `MSGLEN` as they were (R121). -/
def encodeMessage (id value : Word) (dir : Direction) (s : State) : Res Unit :=
  match lookup s.cfg id with
  | none => .err (.invalidAddress id) (s.goto .encode)
  | some d =>
    .ok () { s.goto .encode with
      x0 := messageLane0 d value dir, x1 := messageLane1 d value dir, msglen := d.messageLength, wbufSet := true }

/-- R128: DECODE's procedure: the value field of the message in `WBUF`. Where nothing has written `WBUF` since attach the lane is a
free value (R300; log entry 28). -/
def decodeMessage (id : Word) (s : State) : Res Word :=
  match lookup s.cfg id with
  | none => .err (.invalidAddress id) s
  | some d =>
    if s.wbufSet then .ok (valueOf d (if d.messageLength = 8 then s.x1 else s.x0)) s
    else .ok (valueOf d (Config.freeLane s.freeCount)) { s with freeCount := s.freeCount + 1 }

/-- R120: the body of ENCODE. -/
def encodeBody (id value : Word) (dir : Direction) (s : State) : Res (Option Value) :=
  (encodeMessage id value dir s).bind fun _ s => .ok (some (.message s.x0 s.x1 s.msglen)) s

/-- R128: the body of DECODE. -/
def decodeBody (id : Word) (s : State) : Res (Option Value) :=
  (decodeMessage id s).bind fun v s => .ok (some (.word v)) s

/-- ENCODE (R120, R131). -/
def execEncode (q : Nat) (id value : Word) (dir : Direction) (s : State) : Host.Outcome State Fault Refusal :=
  codecOperation q (encodeBody id value dir) s

/-- DECODE (R128, R131). -/
def execDecode (q : Nat) (id : Word) (s : State) : Host.Outcome State Fault Refusal :=
  codecOperation q (decodeBody id) s

end Sys2Proof.Machine
end

