-- ==== Sys2Proof/Machine/Command.lean ====
section
/-!
DEFINITION. The Command Engine (41_command_engine.md): the procedure EXEC and the operations EXECUTE, READ_REGISTER and
WRITE_REGISTER.
-/

namespace Sys2Proof.Machine

/-- R143: a completion wait is armed in `Interrupt` mode for a word with `SR = 0`. -/
def armsWait (mode : CMode) (w : Word) : Bool := decide (mode = .interrupt) && !srBit w

/-- R146, R147: the end of the completion wait of an EXEC whose send returned `r`. -/
def execWaited (r : Word) (seen : Bool) (s : State) : Res (Option Word) :=
  if seen then .ok (some r) (({ s.disarm with tmr := 0 }.goto .execLatch).latch r)
  else .err .timeout (s.disarm.emit .timeout)

/-- R144, R145, R146, R156: what EXEC does with the answer of its send, under the mode sampled at its start (R142). -/
def execAnswered (mode : CMode) (w : Word) (a : Ans Word) (s : State) : Res (Option Word) :=
  match a with
  | .err e => .err (.transport e) s.disarm
  | .ok r =>
    if srBit w then .ok none s
    else
      match mode with
      | .poll => .ok (some r) ((s.goto .execLatch).latch r)
      | .interrupt => (completionWait s.cfg.tAckTimeout (s.goto .execWait)).bind (execWaited r)

/-- R143: the first step of EXEC. -/
def execArmed (w : Word) (s : State) : State :=
  if armsWait s.cmode w then (s.goto .execArm).arm else s.goto .execArm

/-- Listing R140: EXEC. The word is sent once, unchanged (R141). -/
def execProcedure (w : Word) (route : Route) (s : State) : Res (Option Word) :=
  (pause s).bind fun _ s => (callSend route w ((execArmed w s).goto .execSend)).bind (execAnswered s.cmode w)

/-- R149: the body of EXECUTE. -/
def executeBody (w : Word) (s : State) : Res (Option Value) :=
  (execProcedure w .pri s).bind fun r s => .ok (r.map Value.word) s

/-- R150, R153: the message in `WBUF` is sent lane by lane, stopping at the first error (R154). -/
def sendMessage (s : State) : Res Unit :=
  (execProcedure s.x0 .pri s).bind fun _ s =>
    if s.msglen = 8 then (execProcedure s.x1 .pri s).bind fun _ s => .ok () s
    else .ok () s

/-- R151: the value of a register read is the low half of the cached response. Where no response has ever been cached it is a
free value (R152, U4; log entry 7). -/
def readValue (s : State) : Res (Option Value) :=
  if s.lastValid then .ok (some (.word (zext32 (low s.lastResp)))) s
  else .ok (some (.word (zext32 (Config.freeHalf s.freeCount)))) { s with freeCount := s.freeCount + 1 }

/-- Listing R150: the body of READ_REGISTER. -/
def readRegisterBody (id : Word) (s : State) : Res (Option Value) :=
  (encodeMessage id 0 .read s).bind fun _ s => (sendMessage s).bind fun _ s => readValue s

/-- Listing R153: the body of WRITE_REGISTER. -/
def writeRegisterBody (id value : Word) (s : State) : Res (Option Value) :=
  (encodeMessage id value .write s).bind fun _ s => (sendMessage s).bind fun _ s => .ok none s

/-- EXECUTE (R149). -/
def execExecute (q : Nat) (w : Word) (s : State) : Host.Outcome State Fault Refusal :=
  unlockedOperation q (executeBody w) s

/-- READ_REGISTER (R150). -/
def execReadRegister (q : Nat) (id : Word) (s : State) : Host.Outcome State Fault Refusal :=
  unlockedOperation q (readRegisterBody id) s

/-- WRITE_REGISTER (R153). -/
def execWriteRegister (q : Nat) (id value : Word) (s : State) : Host.Outcome State Fault Refusal :=
  unlockedOperation q (writeRegisterBody id value) s

end Sys2Proof.Machine
end

