-- ==== Sys2Proof/Machine/BlockRead.lean ====
section
/-!
DEFINITION. Data-Block Read (44_block_read.md): READ_BLOCK.
-/

namespace Sys2Proof.Machine

/-- R212: the command of a block read. -/
def rdbCommand (id : Half) (s : State) : Res (Option Word) :=
  execProcedure (rdbWord s.cfg id) .hbw (s.goto .rbCmd)

/-- R214: the device-reported sizes that are legal. -/
def sizeLegal (d : Half) : Bool := decide (d ≠ 0) && decide (d.toNat % 4 = 0)

/-- R215: `XFER`. -/
def transferLength (reqlen : Word) (d : Half) : Word := minLength reqlen (zext32 d)

/-- R215: `EXTRA`, the bytes that are drained: none when the caller asked for all the device has or more. -/
def drainLength (reqlen : Word) (d : Half) : BitVec 2 :=
  if reqlen.toNat < d.toNat then BitVec.ofNat 2 ((d.toNat - reqlen.toNat) % 4) else 0

/-- R213, R214, R215: the checks of a response to the block-read command and the lengths they settle. -/
def rdbCheck (r : Word) (s : State) : Res Unit :=
  if opc r = s.cfg.opcRdb then
    if sizeLegal (low r) then
      .ok () { s.goto .rbCheck with
        dsz := low r, xfer := transferLength s.reqlen (low r), extra := drainLength s.reqlen (low r) }
    else .err .invalidSize { s.goto .rbCheck with dsz := low r }
  else .err .protocolMismatch (s.goto .rbCheck)

/-- R220: the bytes of a read go into the buffer at offset `MOVED`, in arrival order. -/
def State.place (s : State) (buf : Word) (bytes : List Byte) : State :=
  { s with mem := writeBytes s.mem (bufferAddress buf s.moved.toNat) bytes,
           moved := s.moved + BitVec.ofNat 32 bytes.length }

/-- R217: the size of the next increment. -/
def increment (s : State) : Nat := min 4 (s.xfer.toNat - s.moved.toNat)

/-- R216, R217: the main read. Each increment moves at least one byte, so `XFER` of them are enough. -/
def readLoop (buf : Word) : Nat → State → Res Unit
  | 0, s => .ok () s
  | n + 1, s =>
    if s.moved.toNat < s.xfer.toNat then
      (callHbwRead (increment s) (s.goto .rbData)).bind fun bytes s => readLoop buf n (s.place buf bytes)
    else .ok () s

/-- R218: the drain read, whose bytes go nowhere. -/
def drain (s : State) : Res Unit :=
  if s.extra = 0 then .ok () s
  else (callHbwRead s.extra.toNat (s.goto .rbDrain)).bind fun _ s => .ok () s

/-- Listing R210, BODY. -/
def readTransfer (buf : Word) (id : Half) (s : State) : Res (Option Value) :=
  (rdbCommand id s).bind fun _ s =>
    (rdbCheck s.resp s).bind fun _ s =>
      (readLoop buf s.xfer.toNat s).bind fun _ s =>
        (drain s).bind fun _ s => .ok (some (.count s.moved)) s

/-- R211: the fast path, which replaces the whole operation. -/
def readFast (buf len : Word) (id : Half) (s : State) : Res (Option Value) :=
  (callRdb len id (s.goto .rbFast)).bind fun bytes s =>
    .ok (some (.count (BitVec.ofNat 32 bytes.length))) { s with mem := writeBytes s.mem (bufferAddress buf 0) bytes }

/-- Listing R210: the transfer registers at the start of READ_BLOCK. -/
def State.startRead (s : State) (len : Word) : State :=
  { s.goto .rbOpen with dir := .read, reqlen := len, moved := 0 }

/-- Listing R210: the body of READ_BLOCK. The block id is the low half of the operand (R104). -/
def readBlockBody (buf len id : Word) (s : State) : Res (Option Value) :=
  if s.cfg.hasRdbFastpath then readFast buf len (low id) s
  else
    (openChannel (s.startRead len)).bind fun _ s =>
      (readTransfer buf (low id) s).after fun s => closeChannel (s.goto .rbClose)

/-- READ_BLOCK (R210). -/
def execReadBlock (q : Nat) (buf len id : Word) (s : State) : Host.Outcome State Fault Refusal :=
  unlockedOperation q (readBlockBody buf len id) s

end Sys2Proof.Machine
end

