-- ==== Sys2Proof/Machine/BlockWrite.lean ====
section
/-!
DEFINITION. Data-Block Write (43_block_write.md): WRITE_BLOCK.
-/

namespace Sys2Proof.Machine

/-- R193: `CHUNK <- min(REM, MAX_CHUNK)`. -/
def State.nextChunk (s : State) : State :=
  { s.goto .wbCmd with chunk := BitVec.ofNat 16 (min s.rem.toNat s.cfg.maxChunk) }

/-- R193, R195: the command of the current chunk. -/
def wdbCommand (s : State) : Res (Option Word) :=
  execProcedure (wdbWord s.cfg s.chunk) .hbw s

/-- R196: the check of a response to the block-write command. -/
def wdbCheck (r : Word) (s : State) : Res Unit :=
  if opc r = s.cfg.opcWdb then .ok () (s.goto .wbCheck) else .err .protocolMismatch (s.goto .wbCheck)

/-- R197: the bytes of the current chunk. -/
def chunkBytes (buf : Word) (s : State) : List Byte :=
  readBytes s.mem (bufferAddress buf s.moved.toNat) s.chunk.toNat

/-- R197: the data of the current chunk. -/
def wdbData (buf : Word) (s : State) : Res Unit :=
  callHbwWrite (chunkBytes buf s) (s.goto .wbData)

/-- R199, R200: the word of an acknowledgement read. `hbw_read(4)` answers 4 bytes, so the second case never arises. -/
def assembleAck (s : State) (bytes : List Byte) : Word :=
  match bytes with
  | [b0, b1, b2, b3] => ackWord s.hbwKind s.cfg.normalize b0 b1 b2 b3
  | _ => 0

/-- R198: one acknowledgement read, counted and kept. -/
def ackRead (s : State) : Res Unit :=
  (callHbwRead 4 (s.goto .wbAckRead)).bind fun bytes s => .ok () (s.takeAck (assembleAck s bytes))

/-- R198, R201, R202: the acknowledgement loop. The reads are bounded by `ACK_MAX_ATTEMPTS`. -/
def ackLoop : Nat → State → Res Unit
  | 0, s => .err .ackTimeout s
  | n + 1, s =>
    (ackRead s).bind fun _ s =>
      match s.ackVerdict with
      | .accepted => .ok () s
      | .exhausted => .err .ackTimeout s
      | .retry => (delayTicks s.cfg.tAckRetry (s.goto .wbAckDelay)).bind fun _ s => ackLoop n s

/-- R194: the settling time before every chunk but the first. -/
def interchunk (first : Bool) (s : State) : Res Unit :=
  if first then .ok () s else delayTicks s.cfg.tInterchunk (s.goto .wbDelay)

/-- R193 to R203: one chunk. -/
def writeChunk (buf : Word) (s : State) : Res Unit :=
  (wdbCommand s.nextChunk).bind fun _ s =>
    (wdbCheck s.resp s).bind fun _ s =>
      (wdbData buf s).bind fun _ s =>
        (ackLoop s.cfg.ackMaxAttempts (s.countFrom 0)).bind fun _ s => .ok () s.advanceChunk

/-- Listing R190, BODY: chunk after chunk until `REM = 0`. A chunk moves at least one byte, so `REM` chunks are enough. -/
def writeChunks (buf : Word) : Nat → Bool → State → Res (Option Value)
  | 0, _, s => .ok (some (.count s.moved)) s
  | n + 1, first, s =>
    if s.rem = 0 then .ok (some (.count s.moved)) s
    else (interchunk first s).bind fun _ s => (writeChunk buf s).bind fun _ s => writeChunks buf n false s

/-- Listing R190: the transfer registers at the start of WRITE_BLOCK. -/
def State.startWrite (s : State) (len : Word) : State :=
  { s.goto .wbOpen with dir := .write, reqlen := len, rem := len, moved := 0 }

/-- Listing R190: the body of WRITE_BLOCK. -/
def writeBlockBody (buf len : Word) (s : State) : Res (Option Value) :=
  (openChannel (s.startWrite len)).bind fun _ s =>
    (writeChunks buf len.toNat true s).after fun s => closeChannel (s.goto .wbClose)

/-- WRITE_BLOCK (R190). -/
def execWriteBlock (q : Nat) (buf len : Word) (s : State) : Host.Outcome State Fault Refusal :=
  unlockedOperation q (writeBlockBody buf len) s

end Sys2Proof.Machine
end

