-- ==== Sys2Proof/Machine/Wakeup.lean ====
section
/-!
DEFINITION. The Wakeup Sequencer (45_wakeup.md): WAKEUP.
-/

namespace Sys2Proof.Machine

/-- R231: `WSTATE <- w`. -/
def State.enter (s : State) (w : WState) : State := { s with wstate := w }

/-- R233: step 1. -/
def wakeClock (s : State) : Res Unit :=
  if s.cfg.hasExtClock then (pause (s.goto .wk1Clock)).bind fun _ s => delayTicks s.cfg.tClkStab (s.emit .clkEnable)
  else .ok () (s.goto .wk1Clock)

/-- R234: step 2, arming. -/
def wakeArm (s : State) : Res Unit :=
  if s.cfg.wakeHasComplLine then (pause s).bind fun _ s => .ok () s.arm else .ok () s

/-- R235: step 2, the toggle; a failed wake primitive clears the armed wait. -/
def wakeToggle (s : State) : Res Unit :=
  if s.cfg.wakeViaGpio then (pause s).bind fun _ s => .ok () (s.emit .wakePulse)
  else
    match callWake s with
    | .ok _ s => .ok () s
    | .err e s => .err e s.disarm
    | .hung s => .hung s
    | .stop r => .stop r

/-- R234, R235: step 2. -/
def wakeSignal (s : State) : Res Unit :=
  (wakeArm ((s.goto .wk2Signal).enter .signaling)).bind fun _ s => wakeToggle s

/-- R236: the end of step 3's wait. -/
def wakeWaited (seen : Bool) (s : State) : Res Unit :=
  if seen then .ok () { s.disarm with tmr := 0 } else .err .timeout (s.disarm.emit .timeout)

/-- R236: step 3, entered with `WSTATE = AwaitingAck`. -/
def wakeReadiness (s : State) : Res Unit :=
  if s.cfg.wakeHasComplLine then (completionWait s.cfg.tWakeTimeout s).bind wakeWaited
  else delayTicks s.cfg.tWakeSettle s

/-- R236: step 3. -/
def wakeAwait (s : State) : Res Unit := wakeReadiness ((s.goto .wk3Await).enter .awaitingAck)

/-- R237: the status query and the check of the reported state. -/
def statusCommand (w : Word) (s : State) : Res Unit :=
  (execProcedure w .pri s).bind fun _ s =>
    if low s.resp ∈ s.cfg.acceptedStates then .ok () s else .err .protocolMismatch s

/-- R237: step 4. -/
def wakeConfirm (s : State) : Res Unit :=
  if s.cfg.needsPwrConfirm then statusCommand s.cfg.statusQueryWord (s.goto .wk4Confirm) else .ok () s

/-- R238: the synchronize-and-suppress command and CWE's half of the mode switch. -/
def syncIntrCommand (w : Word) (s : State) : Res Unit :=
  (execProcedure w .pri s).bind fun _ s => .ok () { s with cmode := .interrupt }

/-- R238: step 5, first command. -/
def wakeIrq (s : State) : Res Unit :=
  if s.cfg.hasIrqLine then syncIntrCommand s.cfg.syncIntrWord (s.goto .wk5Irq) else .ok () s

/-- R239: the plain synchronize command and its echo check, all 32 bits. -/
def syncCommand (w : Word) (s : State) : Res Unit :=
  (execProcedure w .pri s).bind fun _ s => if s.resp = w then .ok () s else .err .protocolMismatch s

/-- R239: step 5, the echo. -/
def wakeEcho (s : State) : Res Unit :=
  syncCommand s.cfg.syncWord ((s.goto .wk5Sync).enter .interruptModeSet)

/-- Listing R230, ATTEMPT. -/
def wakeAttempt (s : State) : Res Unit :=
  (wakeClock s).bind fun _ s => (wakeSignal s).bind fun _ s => (wakeAwait s).bind fun _ s =>
    (wakeConfirm s).bind fun _ s => (wakeIrq s).bind fun _ s => wakeEcho s

/-- R241, R247: the smooth-mute command; a failure fails the whole sequence and leaves `CMODE` as it is. -/
def muteCommand (w : Word) (s : State) : Res Unit :=
  match execProcedure w .pri s with
  | .ok _ s => .ok () s
  | .err e s => .err e (s.enter .failed)
  | .hung s => .hung s
  | .stop r => .stop r

/-- R240, R241: step 6. -/
def wakeReady (s : State) : Res (Option Value) :=
  (muteCommand s.cfg.smoothMuteZeroWord ((s.goto .wk6Mute).enter .ready)).bind fun _ s => .ok none s

/-- R232: an attempt is started. -/
def State.startAttempt (s : State) : State := { s with att := s.att + 1, wstate := .asleep }

/-- R242, R243: a failed attempt reverts to `Poll` and keeps its error. -/
def State.failAttempt (s : State) (e : Err) : State := { s.goto .wkFailAttempt with cmode := .poll, lastErr := e }

/-- R244: the policy ends the sequence after this failure. -/
def failsFast (s : State) (e : Err) : Bool :=
  decide (failKind e = .mismatch) && decide (s.cfg.wakeOnMismatch = .failFast)

/-- Listing R230: the attempts that are left. -/
def wakeLoop : Nat → State → Res (Option Value)
  | 0, s => .err s.lastErr (s.enter .failed)
  | n + 1, s =>
    match wakeAttempt s.startAttempt with
    | .ok _ s => wakeReady s
    | .err e s => if failsFast s e then .err e ((s.failAttempt e).enter .failed) else wakeLoop n (s.failAttempt e)
    | .hung s => .hung s
    | .stop r => .stop r

/-- Listing R230: the body of WAKEUP. -/
def wakeupBody (s : State) : Res (Option Value) := wakeLoop s.cfg.wakeBudget { s with att := 0 }

/-- WAKEUP (R230). -/
def execWakeup (q : Nat) (s : State) : Host.Outcome State Fault Refusal :=
  unlockedOperation q wakeupBody s

end Sys2Proof.Machine
end

