-- ==== Sys2Proof/Machine/Gate.lean ====
section
/-!
DEFINITION. The Power/Session Gate (42_gate.md): the wrapper LOCKED, the six locked operations, and the two reserved
operation codes beside them (30_encoding.md R106).
-/

namespace Sys2Proof.Machine

/-- R171 (a): the lock is granted. -/
def State.grant (s : State) (q : Nat) : State := { s.goto .gateResume with lock := .held q, trace := s.trace ++ [.lockGrant q] }

/-- R175: step (e). -/
def State.unlock (s : State) (q : Nat) : State := { s.goto .gateUnlock with lock := .free, trace := s.trace ++ [.lockRelease q] }

/-- R174: step (d). -/
def State.giveBack (s : State) : State :=
  { s.goto .gateRelease with pvote := false, trace := s.trace ++ [.releaseAutosuspend] }

/-- R175: step (e), in its time. -/
def unlockStep (q : Nat) (s : State) : Res Unit := (pause s).bind fun _ s => .ok () (s.unlock q)

/-- R174, R175: steps (d) and (e). -/
def releaseSteps (q : Nat) (s : State) : Res Unit := (pause s).bind fun _ s => unlockStep q s.giveBack

/-- Listing R171 from the grant on. The release steps run on every exit of the body (R172); after a failed `resume()` the body
does not run and no vote is given back (R173). -/
def gate (q : Nat) (body : State → Res (Option Value)) (s : State) : Res (Option Value) :=
  (pause s).bind fun _ s =>
    (callResume (s.grant q)).bind fun ok s =>
      if ok then (begun body { s with pvote := true }).after (releaseSteps q)
      else (Res.err .powerResumeFailed s).after (unlockStep q)

/-- Listing R171: step (a) waits for the lock. A request of another requester than the holder goes on waiting, without bound
(R176); the holder's own never gets past this step (R178). Who holds the lock is judged when the request is taken up, so one that
its requester presents during its own locked operation runs after that (DESIGN CHOICE, log entry 17). -/
def lockedOperation (q : Nat) (self : Frame) (body : State → Res (Option Value)) (s : State) :
    Host.Outcome State Fault Refusal :=
  match notAdmitted q s with
  | some o => o
  | none =>
    match s.lock with
    | .free => finish q (gate q body s)
    | .held p => if p = q then .fault .selfDeadlock else .next { s with requests := s.requests ++ [self] }

/-- EXECUTE_LOCKED (R180). -/
def execExecuteLocked (q : Nat) (w : Word) (s : State) : Host.Outcome State Fault Refusal :=
  lockedOperation q (encode (.executeLocked q w)) (executeBody w) s

/-- READ_REGISTER_LOCKED (R180). -/
def execReadRegisterLocked (q : Nat) (id : Word) (s : State) : Host.Outcome State Fault Refusal :=
  lockedOperation q (encode (.readRegisterLocked q id)) (readRegisterBody id) s

/-- WRITE_REGISTER_LOCKED (R180). -/
def execWriteRegisterLocked (q : Nat) (id value : Word) (s : State) : Host.Outcome State Fault Refusal :=
  lockedOperation q (encode (.writeRegisterLocked q id value)) (writeRegisterBody id value) s

/-- WRITE_BLOCK_LOCKED (R180). -/
def execWriteBlockLocked (q : Nat) (buf len : Word) (s : State) : Host.Outcome State Fault Refusal :=
  lockedOperation q (encode (.writeBlockLocked q buf len)) (writeBlockBody buf len) s

/-- READ_BLOCK_LOCKED (R180). -/
def execReadBlockLocked (q : Nat) (buf len id : Word) (s : State) : Host.Outcome State Fault Refusal :=
  lockedOperation q (encode (.readBlockLocked q buf len id)) (readBlockBody buf len id) s

/-- WAKEUP_LOCKED (R180). -/
def execWakeupLocked (q : Nat) (s : State) : Host.Outcome State Fault Refusal :=
  lockedOperation q (encode (.wakeupLocked q)) wakeupBody s

/-- RESERVED_E (R106): refused: not accepted, no event, no state change. -/
def execReservedE (_ : Nat) (_ : State) : Host.Outcome State Fault Refusal := .refused .reservedCode

/-- RESERVED_F (R106): refused: not accepted, no event, no state change. -/
def execReservedF (_ : Nat) (_ : State) : Host.Outcome State Fault Refusal := .refused .reservedCode

end Sys2Proof.Machine
end

