-- ==== Sys2Proof/Machine/Wire.lean ====
section
/-!
DEFINITION. The wire rows of spec/opcode_table.json run by themselves: the one step of an operation that sends the row's
command word, or that checks the row's response word, for the requester that holds the lock (log entry 3). Each is the same
procedure the operations of the other files call.
-/

namespace Sys2Proof.Machine

/-- The result of a step that reports no value (which rows report one is the model's choice: log entry 3). -/
def noValue (r : Res Unit) : Res (Option Value) := r.bind fun _ s => .ok none s

/-- The result of a command whose response is reported (which rows report one is the model's choice: log entry 3). -/
def responseValue (r : Res (Option Word)) : Res (Option Value) := r.bind fun r s => .ok (r.map Value.word) s

/-- A command sent by EXEC on route `PRI`, nothing asked of its response. -/
def sendCommand (w : Word) (s : State) : Res Unit := (execProcedure w .pri s).bind fun _ s => .ok () s

/-- CW32_GENERIC (R91, R149): any command word, sent by EXEC on route `PRI`. -/
def execCw32Generic (w : Word) (s : State) : Host.Outcome State Fault Refusal :=
  wireOperation (executeBody w) s

/-- WDB_CMD (R193, R195): the command of a chunk of `size` bytes, sent by EXEC on route `HBW`. -/
def execWdbCmd (opcode size : Half) (s : State) : Host.Outcome State Fault Refusal :=
  ownWord (decide (opcode = s.cfg.opcWdb) && decide (1 ≤ size.toNat) && decide (size.toNat ≤ s.cfg.maxChunk))
    (fun s => responseValue (wdbCommand { s.goto .wbCmd with chunk := size })) s

/-- WDB_RESP (R196): the opcode check of a response to WDB_CMD. -/
def execWdbResp (r : Word) (s : State) : Host.Outcome State Fault Refusal :=
  wireOperation (fun s => noValue (wdbCheck r s)) s

/-- The count a stand-alone acknowledgement word goes on from: `ACKCNT`, or a free value where nothing has written it since attach
(R300; log entry 28). -/
def State.counted (s : State) : State :=
  if s.ackSet then s
  else { s with ackcnt := Config.freeCounter s.freeCount, ackSet := true, freeCount := s.freeCount + 1 }

/-- WDB_ACK (R198, R201 to R203): one acknowledgement word: counted, kept, and accepted, failed or followed by a delay. -/
def wdbAckBody (a : Word) (s : State) : Res (Option Value) :=
  match (s.counted.takeAck a).ackVerdict with
  | .accepted => .ok none (s.counted.takeAck a).advanceChunk
  | .exhausted => .err .ackTimeout (s.counted.takeAck a)
  | .retry => noValue (delayTicks s.cfg.tAckRetry ((s.counted.takeAck a).goto .wbAckDelay))

/-- WDB_ACK (R201). -/
def execWdbAck (a : Word) (s : State) : Host.Outcome State Fault Refusal :=
  wireOperation (wdbAckBody a) s

/-- RDB_CMD (R212): the command of a block read, sent by EXEC on route `HBW`. -/
def execRdbCmd (opcode id : Half) (s : State) : Host.Outcome State Fault Refusal :=
  ownWord (decide (opcode = s.cfg.opcRdb)) (fun s => responseValue (rdbCommand id s)) s

/-- RDB_RESP (R213 to R215): the checks of a response to RDB_CMD. -/
def execRdbResp (r : Word) (s : State) : Host.Outcome State Fault Refusal :=
  wireOperation (fun s => noValue (rdbCheck r s)) s

/-- STATUS_QUERY (R237): wakeup step 4. -/
def execStatusQuery (w : Word) (s : State) : Host.Outcome State Fault Refusal :=
  ownWord (decide (w = s.cfg.statusQueryWord)) (fun s => noValue (statusCommand w (s.goto .wk4Confirm))) s

/-- SYNC_INTR (R238): the word of the first command of wakeup step 5, sent by EXEC. Only WAKEUP sets `CMODE` after it (R35,
R305). -/
def execSyncIntr (w : Word) (s : State) : Host.Outcome State Fault Refusal :=
  ownWord (decide (w = s.cfg.syncIntrWord)) (fun s => noValue (sendCommand w (s.goto .wk5Irq))) s

/-- SYNC (R239): the echo of wakeup step 5. -/
def execSync (w : Word) (s : State) : Host.Outcome State Fault Refusal :=
  ownWord (decide (w = s.cfg.syncWord)) (fun s => noValue (syncCommand w (s.goto .wk5Sync))) s

/-- SMOOTH_MUTE_ZERO (R241): the word of wakeup step 6, sent by EXEC. Only WAKEUP sets `WSTATE` after it (R36). -/
def execSmoothMuteZero (w : Word) (s : State) : Host.Outcome State Fault Refusal :=
  ownWord (decide (w = s.cfg.smoothMuteZeroWord)) (fun s => noValue (sendCommand w (s.goto .wk6Mute))) s

/-- REG_MSG_LANE (R96, R150, R153): one lane of a register message, sent by EXEC on route `PRI`. -/
def execRegMsgLane (w : Word) (s : State) : Host.Outcome State Fault Refusal :=
  wireOperation (fun s => noValue (sendCommand w s)) s

end Sys2Proof.Machine
end

