-- ==== Sys2Proof/Machine/Dispatch.lean ====
section
/-!
DEFINITION. One arm per constructor of `Instr`, each one call of its meaning.
-/

namespace Sys2Proof.Machine

def exec (i : Instr) (s : State) : Host.Outcome State Fault Refusal :=
  match i with
  | .execute q w => Sys2Proof.Machine.execExecute q w s
  | .readRegister q id => Sys2Proof.Machine.execReadRegister q id s
  | .writeRegister q id value => Sys2Proof.Machine.execWriteRegister q id value s
  | .writeBlock q buf len => Sys2Proof.Machine.execWriteBlock q buf len s
  | .readBlock q buf len id => Sys2Proof.Machine.execReadBlock q buf len id s
  | .wakeup q => Sys2Proof.Machine.execWakeup q s
  | .encode q id value dir => Sys2Proof.Machine.execEncode q id value dir s
  | .decode q id => Sys2Proof.Machine.execDecode q id s
  | .executeLocked q w => Sys2Proof.Machine.execExecuteLocked q w s
  | .readRegisterLocked q id => Sys2Proof.Machine.execReadRegisterLocked q id s
  | .writeRegisterLocked q id value => Sys2Proof.Machine.execWriteRegisterLocked q id value s
  | .writeBlockLocked q buf len => Sys2Proof.Machine.execWriteBlockLocked q buf len s
  | .readBlockLocked q buf len id => Sys2Proof.Machine.execReadBlockLocked q buf len id s
  | .wakeupLocked q => Sys2Proof.Machine.execWakeupLocked q s
  | .reservedE q => Sys2Proof.Machine.execReservedE q s
  | .reservedF q => Sys2Proof.Machine.execReservedF q s
  | .cw32Generic w => Sys2Proof.Machine.execCw32Generic w s
  | .wdbCmd opcode size => Sys2Proof.Machine.execWdbCmd opcode size s
  | .wdbResp r => Sys2Proof.Machine.execWdbResp r s
  | .wdbAck a => Sys2Proof.Machine.execWdbAck a s
  | .rdbCmd opcode id => Sys2Proof.Machine.execRdbCmd opcode id s
  | .rdbResp r => Sys2Proof.Machine.execRdbResp r s
  | .statusQuery w => Sys2Proof.Machine.execStatusQuery w s
  | .syncIntr w => Sys2Proof.Machine.execSyncIntr w s
  | .sync w => Sys2Proof.Machine.execSync w s
  | .smoothMuteZero w => Sys2Proof.Machine.execSmoothMuteZero w s
  | .regMsgLane w => Sys2Proof.Machine.execRegMsgLane w s

end Sys2Proof.Machine
end

