-- ==== Sys2Proof/Machine/Fetch.lean ====
section
/-!
DEFINITION. How a presented request comes to be run (10_state.md R40, 42_gate.md R176), and what an input does to an engine with
no operation in flight (10_state.md R26, 42_gate.md R181, 70_reset_and_hazards.md R301).
-/

namespace Sys2Proof.Machine

/-- R280: on what an operation's being run depends. -/
inductive Tier where
  /-- The public tier: the six locked operations, which wait for the lock (R171). -/
  | locked (q : Nat)
  /-- The holder tier: the unlocked operations (R177). -/
  | unlocked (q : Nat)
  /-- The holder tier, whoever the holder is: the wire rows (log entry 3). -/
  | wire
  /-- Neither: ENCODE and DECODE (R131), and the reserved codes (R106). -/
  | anyone
  deriving DecidableEq, Repr

/-- R280: the tier of an instruction. -/
def tierOf : Instr → Tier
  | .execute q _ => .unlocked q
  | .readRegister q _ => .unlocked q
  | .writeRegister q _ _ => .unlocked q
  | .writeBlock q _ _ => .unlocked q
  | .readBlock q _ _ _ => .unlocked q
  | .wakeup q => .unlocked q
  | .encode _ _ _ _ => .anyone
  | .decode _ _ => .anyone
  | .executeLocked q _ => .locked q
  | .readRegisterLocked q _ => .locked q
  | .writeRegisterLocked q _ _ => .locked q
  | .writeBlockLocked q _ _ => .locked q
  | .readBlockLocked q _ _ _ => .locked q
  | .wakeupLocked q => .locked q
  | .reservedE _ => .anyone
  | .reservedF _ => .anyone
  | .cw32Generic _ => .wire
  | .wdbCmd _ _ => .wire
  | .wdbResp _ => .wire
  | .wdbAck _ => .wire
  | .rdbCmd _ _ => .wire
  | .rdbResp _ => .wire
  | .statusQuery _ => .wire
  | .syncIntr _ => .wire
  | .sync _ => .wire
  | .smoothMuteZero _ => .wire
  | .regMsgLane _ => .wire

/-- R176: a locked request of another requester than the holder waits for the lock. -/
def waitsForLock (l : Lock) (t : Tier) : Bool :=
  match t with
  | .locked q => decide (l ≠ .free) && decide (l ≠ .held q)
  | .unlocked _ => false
  | .wire => false
  | .anyone => false

/-- A request that does not wait for the lock; a frame the decoder rejects waits for nothing. -/
def eligible (s : State) (f : Frame) : Bool :=
  match decode f with
  | .ok i => !waitsForLock s.lock (tierOf i)
  | .error _ => true

/-- R176, U9: the arbiter's choice among `n` requests; open where there is more than one (log entry 8). -/
def arbitrate (n count : Nat) : Nat := if n ≤ 1 then 0 else Config.arbiterChoice count % n

/-- R40, R176: the request that is run next, and the state without it. -/
def fetch (s : State) : Option (Frame × State) :=
  match (s.requests.filter (eligible s))[arbitrate (s.requests.filter (eligible s)).length s.freeCount]? with
  | some f => some (f, { s with requests := s.requests.erase f, freeCount := s.freeCount + 1 })
  | none => none

/-- R181: requester `q` gets the lock and a power vote by means of the host (log entry 12). -/
def State.holdLock (s : State) (q : Nat) : State :=
  if s.attached = true ∧ s.lock = .free ∧ q < s.cfg.nReq then
    { s with lock := .held q, pvote := true, trace := s.trace ++ [.lockGrant q] }
  else s

/-- R175, R181: the holder, and nobody else, gives them back. -/
def State.dropLock (s : State) (q : Nat) : State :=
  if s.lock = .held q then { s with lock := .free, pvote := false, trace := s.trace ++ [.lockRelease q] } else s

/-- R60, R62: a requester puts bytes into its buffer, as far as a 32-bit offset reaches (log entry 31). -/
def State.fillBuffer (s : State) (buf off : Word) (bytes : List Byte) : State :=
  if off.toNat + bytes.length ≤ 2 ^ 32 then { s with mem := writeBytes s.mem (bufferAddress buf off.toNat) bytes } else s

/-- The event by which a lock changes hands when the Session is torn down under its holder. -/
def teardownEvents (l : Lock) : List Event :=
  match l with
  | .free => []
  | .held q => [.lockRelease q]

/-- R301: detach tears the Session down; no operation waits on it any more and nobody holds its lock. The status outputs go on
showing its registers, and a detach when no Session is attached is taken too (DESIGN CHOICE, log entries 15 and 21). -/
def State.detach (s : State) : State :=
  { s with attached := false, requests := [], lock := .free, pvote := false, trace := s.trace ++ teardownEvents s.lock }

/-- R301: a new attach gives the state of R300; only what lies outside the Session goes on (log entry 21). -/
def State.reattach (s : State) (c : Config) : State :=
  { State.attach c with
    now := s.now % 2 ^ c.tsW, mem := s.mem, requests := s.requests, results := s.results, trace := s.trace,
    inputs := s.inputs, clock := s.clock, freeCount := s.freeCount }

/-- R26, R302: what an input does while no operation is in flight. A second attach is refused. -/
def idleInput (i : Input) (s : State) : Host.Outcome State Fault Refusal :=
  match i with
  | .completion => .next (s.deliver .completion)
  | .ticks n => .next (s.deliver (.ticks n))
  | .tickCompletion => .next (s.deliver .tickCompletion)
  | .delayEnds => .next (s.deliver .delayEnds)
  | .advanceNow d => .next (s.deliver (.advanceNow d))
  | .stepTakes n => .next (s.deliver (.stepTakes n))
  | .fillBuffer buf off bytes => .next (s.fillBuffer buf off bytes)
  | .request f => .next (s.deliver (.request f))
  | .answer a => .next (s.deliver (.answer a))
  | .holdLock q => .next (s.holdLock q)
  | .dropLock q => .next (s.dropLock q)
  | .detach => .next s.detach
  | .attach c => if s.attached then .refused .lifecycle else .next (s.reattach c)

/-- R280: the lock and the vote under which an instruction of the tier is run. -/
def State.forTier (s : State) (t : Tier) : State :=
  match t with
  | .locked _ => { s with lock := .free, pvote := false }
  | .unlocked q => { s with lock := .held q, pvote := true }
  | .wire => { s with lock := .held 0, pvote := true }
  | .anyone => s

/-- The state in which a frame is the one request, presented by a requester of its tier to an idle engine (log entry 22). -/
def State.present (s : State) (f : Frame) : State :=
  match decode f with
  | .ok i => State.forTier { s with attached := true, seq := .idle, requests := [f] } (tierOf i)
  | .error _ => { s with attached := true, seq := .idle, requests := [f] }

end Sys2Proof.Machine
end

