-- ==== Sys2Proof/Machine/Step.lean ====
section
/-!
DEFINITION. One step: an operation from its request to its result, or one input to an idle engine (log entry 1).
-/

namespace Sys2Proof.Machine

/-- A fetched request is decoded and run. -/
def runFrame (f : Frame) (s : State) : Host.Outcome State Fault Refusal :=
  match decode f with
  | .ok i => exec i s
  | .error e => .refused (.undecodable e)

/-- One step. An engine suspended in an operation makes no step (U8); an idle one runs a presented request, or takes the next
input, or sits (R302). -/
def step (s : State) : Host.Outcome State Fault Refusal :=
  if s.seq = .idle then
    match fetch s with
    | some (f, t) => runFrame f t
    | none =>
      match s.inputs with
      | [] => .next s
      | i :: rest => idleInput i { s with inputs := rest }
  else .fault .stuck

/-- The state whose next step runs the row's bits (log entry 22). -/
def State.withFetchWord (s : State) (nbits w : Nat) : State := s.present (tableFrame nbits w)

end Sys2Proof.Machine
end

