-- ==== Sys2Proof/Safety.lean ====
section
/-!
DEFINITION. What a well-behaved state of CWE is, in the terms the statements use: when an operation may be requested
(42_gate.md R177, R180), the invariant of the machine (10_state.md R22 to R39, 60_exceptions.md R271, R282), the discipline
of the trace (42_gate.md R182), and what the outside world does in a run that ends well, with what it then leaves.
-/

namespace Sys2Proof.Machine

/-- An operation of requester `q` can be presented: a configuration within the spec (R7), a Session (R301), a requester it
knows (R287), no operation in flight (R26). -/
def State.Ready (s : State) (q : Nat) : Prop :=
  configOk s.cfg = true ∧ s.attached = true ∧ q < s.cfg.nReq ∧ s.seq = .idle

/-- R280: requester `q` is in the holder tier. -/
def State.Holder (s : State) (q : Nat) : Prop := s.Ready q ∧ s.lock = .held q ∧ s.pvote = true

/-- R280: requester `q` is in the public tier and the lock is free. -/
def State.Public (s : State) (q : Nat) : Prop := s.Ready q ∧ s.lock = .free

/-- R279, R282: the phases in which the timeout timer runs. -/
def timerPhase (p : Phase) : Prop := p = .execWait ∨ p = .wk3Await

/-- R194, R198, R233, R236: the phases in which a delay runs. -/
def delayPhase (p : Phase) : Prop := p = .wbDelay ∨ p = .wbAckDelay ∨ p = .wk1Clock ∨ p = .wk3Await

/-- The invariant of the machine. -/
structure State.Inv (s : State) : Prop where
  /-- R29: a latched completion belongs to an armed wait. -/
  latch_armed : s.cseen = true → s.pend = true
  /-- R271, R282: no wait is armed and no timer runs while no operation is in flight. -/
  idle_quiet : s.seq = .idle → s.pend = false ∧ s.cseen = false ∧ s.tmr = 0 ∧ s.dly = 0
  /-- R282: the timeout timer is stopped outside a wait. -/
  timer_stopped : s.tmr ≠ 0 → timerPhase s.seq
  /-- R283: the delay counter is 0 outside a delay. -/
  delay_stopped : s.dly ≠ 0 → delayPhase s.seq
  /-- R37: a power vote is held only with the lock. -/
  vote_locked : s.pvote = true → s.lock ≠ .free
  /-- R37, R287: the holder is one of the requesters. -/
  holder_known : ∀ q, s.lock = .held q → q < s.cfg.nReq
  /-- R301: nobody holds the lock of a Session that is not there. -/
  detached_free : s.attached = false → s.lock = .free ∧ s.seq = .idle
  /-- R38: the transport selection is the configuration's. -/
  kinds_fixed : s.priKind = s.cfg.priKind ∧ s.hbwKind = s.cfg.hbwKind ∧ s.wakeKind = s.cfg.wakeKind
  /-- R23: a message is 4 or 8 bytes long. -/
  message_length : s.msglen = 4 ∨ s.msglen = 8
  /-- R232: at most `WAKE_BUDGET` attempts are made. -/
  attempts_bounded : s.att ≤ s.cfg.wakeBudget
  /-- R34, R284: a timestamp has `TS_W` bits. -/
  stamp_width : s.lastTs < 2 ^ s.cfg.tsW ∧ s.now < 2 ^ s.cfg.tsW
  /-- The caller buffers are held in their canonical form. -/
  memory_canonical : Memory.wf s.mem

/-- R182: the events that need the lock: everything CWE does on an interface. -/
def Event.needsLock : Event → Bool
  | .send _ _ _ => true
  | .hbwOpen => true
  | .hbwClose => true
  | .hbwWrite _ _ => true
  | .hbwRead _ _ => true
  | .rdb _ _ _ => true
  | .wake _ => true
  | .wakePulse => true
  | .clkEnable => true
  | .resume _ => true
  | .releaseAutosuspend => true
  | .arm => true
  | .completion => false
  | .timeout => true
  | .delay _ => true
  | .lockGrant _ => false
  | .lockRelease _ => false

/-- R182: the lock after one more event, if the event is legal under the lock as it is. -/
def lockAfterEvent (l : Lock) (e : Event) : Option Lock :=
  match e with
  | .lockGrant q => if l = .free then some (.held q) else none
  | .lockRelease q => if l = .held q then some .free else none
  | e => if e.needsLock = true ∧ l = .free then none else some l

/-- R182: the lock at the end of a trace, if every event of the trace is legal: grants and releases alternate, a release is
the holder's, and everything else on the interfaces happens while somebody holds the lock. -/
def lockAfter : List Event → Lock → Option Lock
  | [], l => some l
  | e :: rest, l => (lockAfterEvent l e).bind (lockAfter rest)

/-- R182: the trace is one that the lock serialises, and it ends with the lock as it stands. -/
def State.Serialised (s : State) : Prop := lockAfter s.trace .free = some s.lock

/-- R206, R285: how many command words the trace has sent. -/
def sendCount (t : List Event) : Nat :=
  (t.filter fun e => match e with
    | .send _ _ _ => true
    | .hbwOpen => false
    | .hbwClose => false
    | .hbwWrite _ _ => false
    | .hbwRead _ _ => false
    | .rdb _ _ _ => false
    | .wake _ => false
    | .wakePulse => false
    | .clkEnable => false
    | .resume _ => false
    | .releaseAutosuspend => false
    | .arm => false
    | .completion => false
    | .timeout => false
    | .delay _ => false
    | .lockGrant _ => false
    | .lockRelease _ => false).length

/-! ### What the outside world does, and what an operation then leaves -/

/-- R315: nothing falls in the next step that does not wait: it takes no time (log entry 30). -/
def Calm (l : List Input) : Prop := l.head?.bind Input.stepTakes? = none

/-- R283: what the outside world does for a `delay(t)`: `t` ticks pass and the delay ends. -/
def delayScript (t : Nat) : List Input := if t = 0 then [] else [.ticks t, .delayEnds]

/-- R41, R146: what it does for a command `w` that it answers with `r`: the Transport's answer and, where a wait is armed, the
completion signal. -/
def sendScript (mode : CMode) (w r : Word) : List Input :=
  .answer (.send (.ok r)) :: if armsWait mode w then [.completion] else []

/-- R143: the event of the arm step, where there is one. -/
def armEvents (mode : CMode) (w : Word) : List Event := if armsWait mode w then [.arm] else []

/-- R140: the events of a command `w` answered with `r`. -/
def sendEvents (mode : CMode) (route : Route) (w r : Word) : List Event :=
  if armsWait mode w then [.arm, .send route w (.ok r), .completion] else [.send route w (.ok r)]

/-- R145, R146, R148, R156: what a command `w` answered with `r` leaves: nothing but the event where the response is
suppressed; the cached response otherwise, and in `Interrupt` mode the flags of the wait cleared. -/
def State.answered (s : State) (route : Route) (w r : Word) : State :=
  if srBit w then { s with trace := s.trace ++ [.send route w (.ok r)] }
  else
    match s.cmode with
    | .poll =>
      { s with resp := r, lastResp := r, lastTs := s.now % 2 ^ s.cfg.tsW, lastValid := true,
               trace := s.trace ++ [.send route w (.ok r)] }
    | .interrupt =>
      { s with resp := r, lastResp := r, lastTs := s.now % 2 ^ s.cfg.tsW, lastValid := true, pend := false, cseen := false,
               tmr := 0, trace := s.trace ++ [.arm, .send route w (.ok r), .completion] }

/-- R147: what the outside world does for a command that no completion follows. -/
def lostScript (c : Config) (r : Word) : List Input := [.answer (.send (.ok r)), .ticks c.tAckTimeout]

/-- R147: the events of that command. -/
def lostEvents (route : Route) (w r : Word) : List Event := [.arm, .send route w (.ok r), .timeout]

/-- R144: the events of a command whose send fails. -/
def failEvents (mode : CMode) (route : Route) (w : Word) (e : TErr) : List Event :=
  armEvents mode w ++ [.send route w (.err e)]

/-- R144, R147: the two ways EXEC fails: the Transport answers the send with an error, or no completion follows the send that it
answers with `r`. -/
inductive BadCommand where
  | sendError (e : TErr)
  | lost (r : Word)
  deriving DecidableEq, Repr

/-- R147: only a command whose wait is armed can be lost. -/
def BadCommand.Possible (mode : CMode) (w : Word) : BadCommand → Prop
  | .sendError _ => True
  | .lost _ => armsWait mode w = true

/-- R144, R147: the error EXEC ends with. -/
def BadCommand.error : BadCommand → Err
  | .sendError e => .transport e
  | .lost _ => .timeout

/-- R144, R147: what the outside world does for a command that fails. -/
def BadCommand.script (c : Config) : BadCommand → List Input
  | .sendError e => [.answer (.send (.err e))]
  | .lost r => lostScript c r

/-- R144, R147: the events of a command that fails. -/
def BadCommand.events (mode : CMode) (route : Route) (w : Word) : BadCommand → List Event
  | .sendError e => failEvents mode route w e
  | .lost r => lostEvents route w r

/-- R144, R147, R157: what a command that fails leaves: the flags of the wait cleared, the cache as it was. -/
def State.failed (s : State) (route : Route) (w : Word) (bad : BadCommand) : State :=
  match bad with
  | .sendError e =>
    { s with pend := false, cseen := false, trace := s.trace ++ BadCommand.events s.cmode route w (.sendError e) }
  | .lost r =>
    { s with pend := false, cseen := false, tmr := 0, clock := s.clock + s.cfg.tAckTimeout,
             trace := s.trace ++ BadCommand.events s.cmode route w (.lost r) }

/-- R102: the result of an operation reaches its requester. -/
def State.returned (s : State) (q : Nat) (r : HRes) : State := { s with results := s.results ++ [(q, r)] }

/-- R171 (a), (b), R173: the lock is granted and the power vote obtained. -/
def State.opened (s : State) (q : Nat) : State :=
  { s with lock := .held q, pvote := true, trace := s.trace ++ [.lockGrant q, .resume true] }

/-- R171 (d), (e), R174, R175: the power vote is given back and the lock released. -/
def State.closed (s : State) (q : Nat) : State :=
  { s with lock := .free, pvote := false, trace := s.trace ++ [.releaseAutosuspend, .lockRelease q] }

/-- R120: the message of a register access stands in `WBUF`. -/
def State.message (s : State) (x0 x1 : Word) (len : Nat) : State :=
  { s with x0 := x0, x1 := x1, msglen := len, wbufSet := true }

/-- R123: the message of a register read. -/
def State.readMessage (s : State) (d : Descriptor) : State :=
  s.message d.rt0 (if d.messageLength = 8 then d.rt1 else 0) d.messageLength

/-- R123, R124, R127: the message of a register write. -/
def State.writeMessage (s : State) (d : Descriptor) (value : Word) : State :=
  if d.messageLength = 8 then s.message d.wt0 (d.wt1 ||| ((value &&& fieldMask d.valueMax) <<< d.valueShift.val)) 8
  else s.message (d.wt0 ||| ((value &&& fieldMask d.valueMax) <<< d.valueShift.val)) 0 4

/-- R96: what the outside world does for the message in `WBUF`, answering lane 0 with `r0` and lane 1, if there is one,
with `r1`. -/
def State.messageScript (s : State) (r0 r1 : Word) : List Input :=
  sendScript s.cmode s.x0 r0 ++ if s.msglen = 8 then sendScript s.cmode s.x1 r1 else []

/-- R150, R153: what the message in `WBUF` leaves when it is sent and answered. -/
def State.messageSent (s : State) (r0 r1 : Word) : State :=
  if s.msglen = 8 then (s.answered .pri s.x0 r0).answered .pri s.x1 r1 else s.answered .pri s.x0 r0

/-- R191, R315: the outside world returns from `hbw_open`, where there is one. -/
def openScript (c : Config) : List Input := if c.hasHbwOpen then [.answer .hbwOpen] else []

/-- R191, R315: the outside world returns from `hbw_close`, where there is one. -/
def closeScript (c : Config) : List Input := if c.hasHbwClose then [.answer .hbwClose] else []

/-- R191: the event of the first half of the channel bracket. -/
def openEvents (c : Config) : List Event := if c.hasHbwOpen then [.hbwOpen] else []

/-- R191: the event of the second half of the channel bracket. -/
def closeEvents (c : Config) : List Event := if c.hasHbwClose then [.hbwClose] else []

/-- R196, R198: the device's part in one chunk of a block write: its response to the command, the acknowledgement reads that
give a wrong word, and the one that gives the right word. -/
structure ChunkPlay where
  response : Word
  wrong : List (List Byte)
  good : List Byte
  deriving DecidableEq, Repr

/-- R199, R200: the word of four acknowledgement bytes, under the transport and the normaliser of a state. -/
def ackOf (s : State) (bytes : List Byte) : Word :=
  match bytes with
  | [b0, b1, b2, b3] =>
    if s.hbwKind = .spi then b0 ++ b1 ++ b2 ++ b3 else normalizeWord s.cfg.normalize (b3 ++ b2 ++ b1 ++ b0)
  | _ => 0

/-- R206: the device echoes the opcode, and gives the right acknowledgement within `ACK_MAX_ATTEMPTS` reads. -/
def ChunkPlay.Good (p : ChunkPlay) (s : State) : Prop :=
  opc p.response = s.cfg.opcWdb ∧ p.wrong.length < s.cfg.ackMaxAttempts ∧
  (∀ b ∈ p.wrong, b.length = 4 ∧ ackOf s b ≠ wdbAckWord s.cfg) ∧ p.good.length = 4 ∧ ackOf s p.good = wdbAckWord s.cfg

/-- R198: the outside world gives wrong acknowledgement words, a delay after each. -/
def wrongScript (c : Config) (wrong : List (List Byte)) : List Input :=
  wrong.flatMap fun b => .answer (.hbwRead (.ok b)) :: delayScript c.tAckRetry

/-- R198: the events of wrong acknowledgement words. -/
def wrongEvents (c : Config) (wrong : List (List Byte)) : List Event :=
  wrong.flatMap fun b => [.hbwRead 4 (.ok b), .delay c.tAckRetry]

/-- R193 to R201: what the outside world does for one chunk. -/
def chunkScript (c : Config) (mode : CMode) (p : ChunkPlay) (size : Nat) : List Input :=
  sendScript mode (wdbWord c (BitVec.ofNat 16 size)) p.response ++ .answer (.hbwWrite (.ok ())) ::
    (wrongScript c p.wrong ++ [.answer (.hbwRead (.ok p.good))])

/-- R193 to R201: the events of one chunk whose bytes are `bytes`. -/
def chunkEvents (c : Config) (mode : CMode) (p : ChunkPlay) (bytes : List Byte) : List Event :=
  sendEvents mode .hbw (wdbWord c (BitVec.ofNat 16 bytes.length)) p.response ++ .hbwWrite bytes (.ok ()) ::
    (wrongEvents c p.wrong ++ [.hbwRead 4 (.ok p.good)])

/-- R193, R194: what the outside world does for the chunks of `n` bytes. -/
def writeScript (c : Config) (mode : CMode) : Bool → Nat → List ChunkPlay → List Input
  | _, _, [] => []
  | first, n, p :: rest =>
    (if first then [] else delayScript c.tInterchunk) ++ chunkScript c mode p (min n c.maxChunk) ++
      writeScript c mode false (n - min n c.maxChunk) rest

/-- R193, R194, R197: the events of the chunks of the data `bytes`. -/
def writeEvents (c : Config) (mode : CMode) : Bool → List Byte → List ChunkPlay → List Event
  | _, _, [] => []
  | first, bytes, p :: rest =>
    (if first then [] else [.delay c.tInterchunk]) ++ chunkEvents c mode p (bytes.take c.maxChunk) ++
      writeEvents c mode false (bytes.drop c.maxChunk) rest

/-- R206: the chunk sizes that the command words on the high-bandwidth route carry. -/
def sentSizes (t : List Event) : List Nat :=
  t.filterMap fun e => match e with
    | .send .hbw w _ => some (low w).toNat
    | .send .pri _ _ => none
    | .hbwOpen => none
    | .hbwClose => none
    | .hbwWrite _ _ => none
    | .hbwRead _ _ => none
    | .rdb _ _ _ => none
    | .wake _ => none
    | .wakePulse => none
    | .clkEnable => none
    | .resume _ => none
    | .releaseAutosuspend => none
    | .arm => none
    | .completion => none
    | .timeout => none
    | .delay _ => none
    | .lockGrant _ => none
    | .lockRelease _ => none

/-- R190, R203: `t` is what a completed block write of `len` bytes leaves of `s`, its events being `es`: the transfer
registers at their ends, the registers of EXEC as its commands leave them, and everything else as it was. -/
def Wrote (s t : State) (len : Word) (es : List Event) (rest : List Input) : Prop :=
  t = { s with
    dir := .write, reqlen := len, moved := len, rem := 0, trace := s.trace ++ es, inputs := rest,
    ackSet := s.ackSet || decide (len ≠ 0), chunk := t.chunk, ackw := t.ackw, ackcnt := t.ackcnt, resp := t.resp,
    lastResp := t.lastResp, lastTs := t.lastTs, lastValid := t.lastValid, pend := t.pend, cseen := t.cseen, tmr := t.tmr,
    dly := t.dly, clock := t.clock }

/-- R193: the chunks before the next one are acknowledged as `plays` says, they moved `done` of the `len` bytes, and the next
chunk has `size` bytes. -/
def AtChunk (s : State) (len : Word) (plays : List ChunkPlay) (done size : Nat) : Prop :=
  (∀ p ∈ plays, p.Good s) ∧ done = plays.length * s.cfg.maxChunk ∧ done < len.toNat ∧
  size = min (len.toNat - done) s.cfg.maxChunk

/-- R191, R193, R194: what the outside world does in a block write before the command of the chunk after `plays`. -/
def reachScript (c : Config) (mode : CMode) (len : Word) (plays : List ChunkPlay) : List Input :=
  openScript c ++ (writeScript c mode true len.toNat plays ++ if plays = [] then [] else delayScript c.tInterchunk)

/-- R191, R193, R194: the events before that command, `bytes` being the data of the chunks so far. -/
def reachEvents (c : Config) (mode : CMode) (bytes : List Byte) (plays : List ChunkPlay) : List Event :=
  openEvents c ++ (writeEvents c mode true bytes plays ++ if plays = [] then [] else [.delay c.tInterchunk])

/-- R190, R195, R204: `t` is what a block write of `len` bytes leaves of `s` that an error ends in the chunk of `size` bytes after
the first `done`, its events being `es`: the registers of EXEC and of the acknowledgement loop as its chunks leave them, and
everything else as it was. -/
def Stopped (s t : State) (len : Word) (done size : Nat) (es : List Event) (rest : List Input) : Prop :=
  t = { s with
    dir := .write, reqlen := len, moved := BitVec.ofNat 32 done, rem := len - BitVec.ofNat 32 done,
    chunk := BitVec.ofNat 16 size, trace := s.trace ++ es, inputs := rest, ackSet := t.ackSet, ackw := t.ackw,
    ackcnt := t.ackcnt, resp := t.resp, lastResp := t.lastResp, lastTs := t.lastTs, lastValid := t.lastValid, pend := t.pend,
    cseen := t.cseen, tmr := t.tmr, dly := t.dly, clock := t.clock }

/-- R216, R217: data cut into 4-byte increments, the last one shorter where need be. -/
def increments : List Byte → List (List Byte)
  | [] => []
  | b0 :: b1 :: b2 :: b3 :: rest => [b0, b1, b2, b3] :: increments rest
  | short => [short]

/-- R216 to R218: the reads of a block read: the data by increments, then the drained bytes, if there are any. -/
def blockReads (data drained : List Byte) : List (List Byte) :=
  increments data ++ if drained = [] then [] else [drained]

/-- R42: what the outside world does for them. -/
def readScript (reads : List (List Byte)) : List Input := reads.map fun b => .answer (.hbwRead (.ok b))

/-- R12: their events. -/
def readEvents (reads : List (List Byte)) : List Event := reads.map fun b => .hbwRead b.length (.ok b)

/-- R215: the device-reported size `d` is legal (R214), the data is what the reconciliation of lengths gives, and the drained
bytes are as many as it says. -/
def BlockFits (len : Word) (d : Half) (data drained : List Byte) : Prop :=
  d.toNat ≠ 0 ∧ d.toNat % 4 = 0 ∧ data.length = min len.toNat d.toNat ∧
  drained.length = if len.toNat < d.toNat then (d.toNat - len.toNat) % 4 else 0

/-- R215, R216, R219, R220: what a completed block read leaves of `s`. -/
def State.blockRead (s : State) (buf len id r : Word) (data drained : List Byte) (rest : List Input) : State :=
  { s.answered .hbw (rdbWord s.cfg (low id)) r with
    dir := .read, reqlen := len, dsz := low r, moved := BitVec.ofNat 32 data.length, xfer := BitVec.ofNat 32 data.length,
    extra := BitVec.ofNat 2 drained.length, mem := writeBytes s.mem (bufferAddress buf 0) data, inputs := rest,
    trace := s.trace ++ (openEvents s.cfg ++ (sendEvents s.cmode .hbw (rdbWord s.cfg (low id)) r ++
      (readEvents (blockReads data drained) ++ closeEvents s.cfg))) }

/-- R215 to R218, R222: what a block read leaves of `s` that a failed read ends: the legal size `low r` taken, the bytes `got`
delivered, and as events those of `reads`, the failed one last. -/
def State.readFailed (s : State) (buf len id r : Word) (got : List Byte) (reads : List Event) (rest : List Input) : State :=
  { s.answered .hbw (rdbWord s.cfg (low id)) r with
    dir := .read, reqlen := len, dsz := low r, moved := BitVec.ofNat 32 got.length,
    xfer := BitVec.ofNat 32 (min len.toNat (low r).toNat),
    extra := if len.toNat < (low r).toNat then BitVec.ofNat 2 (((low r).toNat - len.toNat) % 4) else 0,
    mem := writeBytes s.mem (bufferAddress buf 0) got, inputs := rest,
    trace := s.trace ++ (openEvents s.cfg ++ (sendEvents s.cmode .hbw (rdbWord s.cfg (low id)) r ++
      (reads ++ closeEvents s.cfg))) }

/-- R238: the mode under which the synchronize echo of an attempt is awaited. -/
def echoMode (c : Config) (mode : CMode) : CMode := if c.hasIrqLine then .interrupt else mode

/-- R237: the status answered to the status query is an accepted one, where there is a status query. -/
def StatusAccepted (c : Config) (status : Word) : Prop := c.needsPwrConfirm = true → low status ∈ c.acceptedStates

/-- R233: what the outside world does in step 1 of a wakeup attempt. -/
def clockScript (c : Config) : List Input := if c.hasExtClock then delayScript c.tClkStab else []

/-- R233: the events of step 1. -/
def clockEvents (c : Config) : List Event := if c.hasExtClock then [.clkEnable, .delay c.tClkStab] else []

/-- R234, R235: what it does up to the end of step 2. -/
def signalScript (c : Config) : List Input :=
  clockScript c ++ if c.wakeViaGpio then [] else [.answer (.wake (.ok ()))]

/-- R234: the events up to the arm of step 2. -/
def wakeArmEvents (c : Config) : List Event := clockEvents c ++ if c.wakeHasComplLine then [.arm] else []

/-- R234, R235: the events up to the end of step 2. -/
def signalEvents (c : Config) : List Event := wakeArmEvents c ++ if c.wakeViaGpio then [.wakePulse] else [.wake (.ok ())]

/-- R236: what it does up to the end of step 3. -/
def readyScript (c : Config) : List Input :=
  signalScript c ++ if c.wakeHasComplLine then [.completion] else delayScript c.tWakeSettle

/-- R236: the events up to the end of step 3. -/
def readyEvents (c : Config) : List Event :=
  signalEvents c ++ if c.wakeHasComplLine then [.completion] else [.delay c.tWakeSettle]

/-- R237: what it does up to the end of step 4, answering the status query with `status`. -/
def confirmScript (c : Config) (mode : CMode) (status : Word) : List Input :=
  readyScript c ++ if c.needsPwrConfirm then sendScript mode c.statusQueryWord status else []

/-- R237: the events up to the end of step 4. -/
def confirmEvents (c : Config) (mode : CMode) (status : Word) : List Event :=
  readyEvents c ++ if c.needsPwrConfirm then sendEvents mode .pri c.statusQueryWord status else []

/-- R238: what it does up to the first command of step 5, whose send it answers with `si`. -/
def irqScript (c : Config) (mode : CMode) (status si : Word) : List Input :=
  confirmScript c mode status ++ if c.hasIrqLine then [.answer (.send (.ok si))] else []

/-- R238: the events up to the first command of step 5. -/
def irqEvents (c : Config) (mode : CMode) (status si : Word) : List Event :=
  confirmEvents c mode status ++ if c.hasIrqLine then [.send .pri c.syncIntrWord (.ok si)] else []

/-- R233 to R239: what the outside world does in an attempt that comes to the synchronize command, which it answers with
`echo`. -/
def attemptScript (c : Config) (mode : CMode) (status si echo : Word) : List Input :=
  irqScript c mode status si ++ sendScript (echoMode c mode) c.syncWord echo

/-- R233 to R239: the events of that attempt. -/
def attemptEvents (c : Config) (mode : CMode) (status si echo : Word) : List Event :=
  irqEvents c mode status si ++ sendEvents (echoMode c mode) .pri c.syncWord echo

/-- R242: the ways an attempt fails, each with what the outside world answers on the way: the wake primitive's error (R235), no
readiness in time (R236), an error of EXEC in the status query, the first or the second synchronize command, a wrong reported
state (R237), a wrong echo (R239). -/
inductive BadAttempt where
  | wakeError (e : TErr)
  | notReady
  | statusError (e : TErr)
  | statusTimeout (r : Word)
  | wrongStatus (r : Word)
  | syncIntrError (status : Word) (e : TErr)
  | syncError (status si : Word) (e : TErr)
  | syncTimeout (status si r : Word)
  | wrongEcho (status si echo : Word)
  deriving DecidableEq, Repr

/-- R235 to R239: the error a failed attempt ends with. -/
def BadAttempt.error : BadAttempt → Err
  | .wakeError e => .transport e
  | .notReady => .timeout
  | .statusError e => .transport e
  | .statusTimeout _ => .timeout
  | .wrongStatus _ => .protocolMismatch
  | .syncIntrError _ e => .transport e
  | .syncError _ _ e => .transport e
  | .syncTimeout _ _ _ => .timeout
  | .wrongEcho _ _ _ => .protocolMismatch

/-- R233 to R239: the attempt can fail so, under this configuration and in this mode: the step where it fails is there, and the
steps before it passed. -/
def BadAttempt.Possible (c : Config) (mode : CMode) : BadAttempt → Prop
  | .wakeError _ => c.wakeViaGpio = false
  | .notReady => c.wakeHasComplLine = true
  | .statusError _ => c.needsPwrConfirm = true
  | .statusTimeout _ => c.needsPwrConfirm = true ∧ mode = .interrupt
  | .wrongStatus r => c.needsPwrConfirm = true ∧ low r ∉ c.acceptedStates
  | .syncIntrError status _ => StatusAccepted c status ∧ c.hasIrqLine = true
  | .syncError status _ _ => StatusAccepted c status
  | .syncTimeout status _ _ => StatusAccepted c status ∧ echoMode c mode = .interrupt
  | .wrongEcho status _ echo => StatusAccepted c status ∧ echo ≠ c.syncWord

/-- R233 to R239: what the outside world does in a failed attempt. -/
def BadAttempt.script (c : Config) (mode : CMode) : BadAttempt → List Input
  | .wakeError e => clockScript c ++ [.answer (.wake (.err e))]
  | .notReady => signalScript c ++ [.ticks c.tWakeTimeout]
  | .statusError e => readyScript c ++ [.answer (.send (.err e))]
  | .statusTimeout r => readyScript c ++ lostScript c r
  | .wrongStatus r => confirmScript c mode r
  | .syncIntrError status e => confirmScript c mode status ++ [.answer (.send (.err e))]
  | .syncError status si e => irqScript c mode status si ++ [.answer (.send (.err e))]
  | .syncTimeout status si r => irqScript c mode status si ++ lostScript c r
  | .wrongEcho status si echo => attemptScript c mode status si echo

/-- R233 to R239: the events of a failed attempt. -/
def BadAttempt.events (c : Config) (mode : CMode) : BadAttempt → List Event
  | .wakeError e => wakeArmEvents c ++ [.wake (.err e)]
  | .notReady => signalEvents c ++ [.timeout]
  | .statusError e => readyEvents c ++ failEvents mode .pri c.statusQueryWord e
  | .statusTimeout r => readyEvents c ++ lostEvents .pri c.statusQueryWord r
  | .wrongStatus r => confirmEvents c mode r
  | .syncIntrError status e => confirmEvents c mode status ++ failEvents mode .pri c.syncIntrWord e
  | .syncError status si e => irqEvents c mode status si ++ failEvents (echoMode c mode) .pri c.syncWord e
  | .syncTimeout status si r => irqEvents c mode status si ++ lostEvents .pri c.syncWord r
  | .wrongEcho status si echo => attemptEvents c mode status si echo

/-- R244: the attempt is followed by the next one: it did not fail by a mismatch, or the policy goes on after one. -/
def BadAttempt.GoesOn (c : Config) (a : BadAttempt) : Prop :=
  c.wakeOnMismatch = .goOn ∨ a.error ≠ .protocolMismatch

/-- R243: the mode after failed attempts: `Poll`, if there was one. -/
def modeAfter (mode : CMode) (bad : List BadAttempt) : CMode := if bad = [] then mode else .poll

/-- R242, R246: `LASTERR` after failed attempts: the error of the last one. -/
def lastError : Err → List BadAttempt → Err
  | e, [] => e
  | _, a :: rest => lastError a.error rest

/-- R243: failed attempts one after the other are possible; after the first the mode is `Poll`. -/
def AllPossible (c : Config) : CMode → List BadAttempt → Prop
  | _, [] => True
  | mode, a :: rest => a.Possible c mode ∧ AllPossible c .poll rest

/-- R243: what the outside world does in failed attempts one after the other. -/
def badScript (c : Config) : CMode → List BadAttempt → List Input
  | _, [] => []
  | mode, a :: rest => a.script c mode ++ badScript c .poll rest

/-- R243: their events. -/
def badEvents (c : Config) : CMode → List BadAttempt → List Event
  | _, [] => []
  | mode, a :: rest => a.events c mode ++ badEvents c .poll rest

/-- R230: `t` is what a WAKEUP that started `att` attempts leaves of `s`, its events being `es`: its own registers as given,
the registers of EXEC as its commands leave them, and everything else as it was. -/
def Woke (s t : State) (w : WState) (mode : CMode) (att : Nat) (e : Err) (es : List Event) (rest : List Input) : Prop :=
  t = { s with
    wstate := w, cmode := mode, att := att, lastErr := e, trace := s.trace ++ es, inputs := rest,
    resp := t.resp, lastResp := t.lastResp, lastTs := t.lastTs, lastValid := t.lastValid, pend := t.pend, cseen := t.cseen,
    tmr := t.tmr, dly := t.dly, clock := t.clock }

end Sys2Proof.Machine
end

