-- ==== Sys2Proof/Certificates/Slice0/Obligations.lean ====
section
/-!
DEFINITION. The statements about the model. Each names the rules of spec/ it formalises; one that rests on a choice of the
model says so and names the log entry. A hypothesis `s.inputs = …` says what the outside world does; what follows it in the list
is still to come and is left alone. `Calm rest` says that nothing of `rest` falls in the steps that end the operation (log entry 30).
-/

open Sys2Proof Sys2Proof.Machine

/-! ### Encoding and decoding -/

/-- The decoder reads every well-formed instruction back from its encoding, with every operand at every value the encoding
admits. The containers of the fields are the model's (log entry 2); the codes and fields are R91 to R101. -/
def Obligations.DecodeEncode : Prop := ∀ i : Instr, i.wf = true → decode (encode i) = .ok i

/-- What the decoder reads is well-formed: in particular a command word has the `SR` bit its row fixes (R94, R99). The
containers are the model's (log entry 2). -/
def Obligations.DecodedIsWellFormed : Prop := ∀ (f : Frame) (i : Instr), decode f = .ok i → i.wf = true

/-- Words written out from the encodings of R91, R97, R99, R100 and R101 are read as what they stand for, in the containers of
log entry 2. -/
def Obligations.WordsDecodeAsTheirRows : Prop :=
  decode (.hreq [0x00, 1, 0, 0, 0, 0x2A, 0, 0, 0, 0, 0, 0, 0, 0, 0, 0, 0]) = .ok (.execute 1 0x2A) ∧
  decode (.hreq [0x16, 0, 0, 0, 0, 0x10, 0, 0, 0, 0x2A, 0, 0, 0, 0, 0, 0, 0]) = .ok (.encode 0 0x10 0x2A .write) ∧
  decode (.hreq [0x0C, 1, 0, 0, 0, 7, 0, 1, 0, 10, 0, 0, 0, 3, 0, 0, 0]) = .ok (.readBlockLocked 1 3 10 0x10007) ∧
  decode (.wire [0x00, 0x04, 0x01, 0x0A, 1]) = .ok (.wdbCmd 0x0A01 0x0400) ∧
  decode (.wire [0x01, 0x00, 0x00, 0x1B, 7]) = .ok (.syncIntr 0x1B000001) ∧
  decode (.wire [0x01, 0x00, 0x00, 0x1B, 8]) = .error .suppressBit

/-! ### The step -/

/-- Where the request fetched at an idle engine decodes to an instruction, the step is that instruction's meaning in the state
without the request; nothing else is done around it. That a waiting request runs before the next input is taken (log entry 16),
that a whole operation is one step (log entry 1) and that a fetch draws a free value for the arbiter's choice (log entry 8) is the
model's. -/
def Obligations.StepRunsFetchedInstruction : Prop :=
  ∀ (s t : State) (f : Frame) (i : Instr),
    s.seq = .idle → fetch s = some (f, t) → decode f = .ok i →
    step s = exec i t ∧ t = { s with requests := s.requests.erase f, freeCount := s.freeCount + 1 }

/-- R176: whatever the arbiter chooses, the request that is run is one of the waiting ones and does not wait for the lock; and
there is one to run whenever some request does not wait for it. The choice itself is free (log entry 8). -/
def Obligations.FetchChoosesEligibleRequest : Prop :=
  (∀ (s t : State) (f : Frame), fetch s = some (f, t) → f ∈ s.requests ∧ eligible s f = true) ∧
  (∀ (s : State) (f : Frame), f ∈ s.requests → eligible s f = true → ∃ g t, fetch s = some (g, t))

/-- R276: a completion signal that finds no wait armed is dropped: it changes no state. Only the model's trace records it
(log entry 23). -/
def Obligations.IdleCompletionIsDropped : Prop :=
  ∀ (s : State) (rest : List Input),
    s.seq = .idle → s.requests = [] → s.pend = false → s.inputs = .completion :: rest →
    step s = .next { s with trace := s.trace ++ [.completion], inputs := rest }

/-- R26, R275, R276, R277, R278, R284: while CWE is suspended in a call, whatever but a detach, an attach or another answer happens
before the call's own answer only latches or drops completions, passes time and queues requests; the answer is then taken. The
same goes for what falls in a step that does not wait (R315). That the time of a step is told by an input (log entry 30), that an
answer no call is open for is passed over (log entry 20), and that a requester leaves its buffer alone while an operation is in
flight (log entry 31), is the model's. -/
def Obligations.CallTakesItsAnswer : Prop :=
  ∀ (s : State) (env rest : List Input) (a : Ans Word), (∀ i ∈ env, i.isLifecycle = false) →
    ((∀ i ∈ env, i.answer? = none) →
      ∃ t : State, awaitAnswer wantSend (env ++ .answer (.send a) :: rest) s = .ok a t ∧
        t.inputs = rest ∧ t.cseen = (s.cseen || (s.pend && decide (.completion ∈ env ∨ .tickCompletion ∈ env))) ∧
        t = { s with
          cseen := t.cseen, trace := t.trace, clock := t.clock, now := t.now, requests := t.requests, inputs := rest }) ∧
    (s.inputs = .stepTakes env.length :: (env ++ rest) →
      ∃ t : State, pause s = .ok () t ∧
        t.inputs = rest ∧ t.cseen = (s.cseen || (s.pend && decide (.completion ∈ env ∨ .tickCompletion ∈ env))) ∧
        t = { s with
          cseen := t.cseen, trace := t.trace, clock := t.clock, now := t.now, requests := t.requests, inputs := rest })

/-- R156, U8: a command whose send is never answered suspends CWE for good; the engine then makes no step. The fault of that
step is the model's (log entry 13). -/
def Obligations.UnansweredSendHangs : Prop :=
  ∀ (s : State) (q : Nat) (w : Word),
    s.Holder q → s.cmode = .poll → s.inputs = [] →
    exec (.execute q w) s = .next { s with seq := .execSend } ∧ step { s with seq := .execSend } = .fault .stuck

/-! ### The codec -/

/-- R121, R123, R124, R125: ENCODE puts the template of its direction into `WBUF`, merges the masked and shifted value into the
one lane of a write, and fails with `InvalidAddress` beyond the table, having touched nothing. -/
def Obligations.EncodeBuildsMessage : Prop :=
  ∀ (s : State) (q : Nat) (id value : Word), s.Ready q → Calm s.inputs →
    (∀ d, s.cfg.table[id.toNat]? = some d →
      exec (.encode q id value .read) s = .next ((s.readMessage d).returned q
        (HRes.ofValue (some (.message d.rt0 (if d.messageLength = 8 then d.rt1 else 0) d.messageLength)))) ∧
      exec (.encode q id value .write) s = .next ((s.writeMessage d value).returned q
        (HRes.ofValue (some (.message (s.writeMessage d value).x0 (s.writeMessage d value).x1 d.messageLength))))) ∧
    (s.cfg.table.length ≤ id.toNat → ∀ dir,
      exec (.encode q id value dir) s = .next (s.returned q (HRes.ofErr (.invalidAddress id))))

/-- R122: the mask is the smallest all-ones number that is not less than `value_max`. -/
def Obligations.MaskIsLeastAllOnes : Prop :=
  ∀ v : Word, ∃ k ≤ 32, (fieldMask v).toNat = 2 ^ k - 1 ∧ v.toNat ≤ 2 ^ k - 1 ∧ ∀ j, v.toNat ≤ 2 ^ j - 1 → k ≤ j

/-- R128: DECODE shifts the value's lane of the message in `WBUF` back and masks it; it writes no register, and fails with
`InvalidAddress` beyond the table. Where nothing has written `WBUF` since attach the lane is a free value: the model's choice,
log entry 28. -/
def Obligations.DecodeTakesField : Prop :=
  ∀ (s : State) (q : Nat) (id : Word), s.Ready q → Calm s.inputs →
    (∀ d, s.cfg.table[id.toNat]? = some d →
      (s.wbufSet = true →
        exec (.decode q id) s = .next (s.returned q (HRes.ofValue (some (.word
          (((if d.messageLength = 8 then s.x1 else s.x0) >>> d.valueShift.val) &&& fieldMask d.valueMax)))))) ∧
      (s.wbufSet = false →
        ∃ lane : Word, exec (.decode q id) s = .next (State.returned { s with freeCount := s.freeCount + 1 } q
          (HRes.ofValue (some (.word ((lane >>> d.valueShift.val) &&& fieldMask d.valueMax))))))) ∧
    (s.cfg.table.length ≤ id.toNat → exec (.decode q id) s = .next (s.returned q (HRes.ofErr (.invalidAddress id))))

/-- R130, an inference the spec marks as its own: on a well-formed table DECODE gives back the value that a write-direction
ENCODE took. -/
def Obligations.DecodeUndoesEncode : Prop :=
  ∀ (s : State) (q : Nat) (id value : Word) (d : Descriptor),
    s.Ready q → Calm s.inputs → tableWellFormed s.cfg.table = true → s.cfg.table[id.toNat]? = some d → value ≤ d.valueMax →
    ∃ t : State, exec (.encode q id value .write) s = .next t ∧
      exec (.decode q id) t = .next (t.returned q (HRes.ofValue (some (.word value))))

/-! ### The command engine -/

/-- R158, an inference the spec marks as its own, with R146, R148, R149 and R156: EXECUTE of a word without `SR` returns the
Transport's response and caches it: at once in `Poll` mode, and in `Interrupt` mode when the completion comes, whose flags are
then cleared. An echoing Transport is the case `r = w`. -/
def Obligations.ExecuteReturnsResponse : Prop :=
  ∀ (s : State) (q : Nat) (w r : Word) (rest : List Input), s.Holder q → srBit w = false →
    (s.cmode = .poll → s.inputs = .answer (.send (.ok r)) :: rest →
      exec (.execute q w) s = .next { s with
        resp := r, lastResp := r, lastTs := s.now % 2 ^ s.cfg.tsW, lastValid := true, inputs := rest,
        trace := s.trace ++ [.send .pri w (.ok r)], results := s.results ++ [(q, HRes.ofValue (some (.word r)))] }) ∧
    (s.cmode = .interrupt → s.inputs = .answer (.send (.ok r)) :: .completion :: rest →
      exec (.execute q w) s = .next { s with
        resp := r, lastResp := r, lastTs := s.now % 2 ^ s.cfg.tsW, lastValid := true, inputs := rest,
        pend := false, cseen := false, tmr := 0, trace := s.trace ++ [.arm, .send .pri w (.ok r), .completion],
        results := s.results ++ [(q, HRes.ofValue (some (.word r)))] })

/-- R145: a word with `SR` is sent and nothing more: no wait, no response cached, no value, in either mode. -/
def Obligations.SuppressedCommandReturnsNone : Prop :=
  ∀ (s : State) (q : Nat) (w r : Word) (rest : List Input),
    s.Holder q → srBit w = true → s.inputs = .answer (.send (.ok r)) :: rest →
    exec (.execute q w) s = .next { s with
      inputs := rest, trace := s.trace ++ [.send .pri w (.ok r)], results := s.results ++ [(q, HRes.ofValue none)] }

/-- R144: a send that fails ends EXEC with the Transport's error unchanged, the cache untouched and an armed wait cleared. -/
def Obligations.FailedSendIsTransportError : Prop :=
  ∀ (s : State) (q : Nat) (w : Word) (e : TErr) (rest : List Input),
    s.Holder q → s.inputs = .answer (.send (.err e)) :: rest →
    exec (.execute q w) s = .next { s with
      pend := false, cseen := false, inputs := rest,
      trace := s.trace ++ (armEvents s.cmode w ++ [.send .pri w (.err e)]),
      results := s.results ++ [(q, HRes.ofErr (.transport e))] }

/-- R147, and R159, an inference the spec marks as its own: in `Interrupt` mode a command that no completion follows fails with
`Timeout` after exactly `T_ACK_TIMEOUT` ticks, and leaves the pending-wait flag cleared. -/
def Obligations.UnacknowledgedCommandTimesOut : Prop :=
  ∀ (s : State) (q : Nat) (w r : Word) (n : Nat) (rest : List Input),
    s.Holder q → s.cmode = .interrupt → srBit w = false → s.cfg.tAckTimeout ≤ n →
    s.inputs = .answer (.send (.ok r)) :: .ticks n :: rest →
    exec (.execute q w) s = .next { s with
      pend := false, cseen := false, tmr := 0, clock := s.clock + s.cfg.tAckTimeout,
      inputs := if n = s.cfg.tAckTimeout then rest else .ticks (n - s.cfg.tAckTimeout) :: rest,
      trace := s.trace ++ [.arm, .send .pri w (.ok r), .timeout], results := s.results ++ [(q, HRes.ofErr .timeout)] }

/-- R146, R274: the two borders of the wait: a completion between the arm and the start of the wait counts, and ends it at once;
and a completion in the very tick in which the timeout expires wins. That in the first case the send's event comes after the
completion's is the model's (log entry 29), as vector X9 shows it. -/
def Obligations.CompletionEndsWait : Prop :=
  ∀ (s : State) (q : Nat) (w r : Word) (rest : List Input),
    s.Holder q → s.cmode = .interrupt → srBit w = false →
    (Calm rest → s.inputs = .completion :: .answer (.send (.ok r)) :: rest →
      exec (.execute q w) s = .next { s with
        resp := r, lastResp := r, lastTs := s.now % 2 ^ s.cfg.tsW, lastValid := true, inputs := rest,
        pend := false, cseen := false, tmr := 0, trace := s.trace ++ [.arm, .completion, .send .pri w (.ok r)],
        results := s.results ++ [(q, HRes.ofValue (some (.word r)))] }) ∧
    (s.inputs = .answer (.send (.ok r)) :: .ticks (s.cfg.tAckTimeout - 1) :: .tickCompletion :: rest →
      exec (.execute q w) s = .next { s with
        resp := r, lastResp := r, lastTs := s.now % 2 ^ s.cfg.tsW, lastValid := true, inputs := rest,
        pend := false, cseen := false, tmr := 0, clock := s.clock + s.cfg.tAckTimeout,
        trace := s.trace ++ [.arm, .send .pri w (.ok r), .completion],
        results := s.results ++ [(q, HRes.ofValue (some (.word r)))] })

/-- R157, an inference the spec marks as its own: however an EXEC comes to fail, it has changed nothing but `PEND`, `CSEEN` and
`TMR`, which are back at 0: the cache, `CMODE` and `WSTATE` are as before. What else moves is the outside world's: time, the
trace, the requests. That the memory is as before whatever the inputs is the model's: a requester leaves its buffer alone while an
operation is in flight (log entry 31). -/
def Obligations.FailedCommandLeavesSession : Prop :=
  ∀ (s t : State) (q : Nat) (w : Word) (e : Err),
    s.Holder q → s.Inv → exec (.execute q w) s = .next t → t.results = s.results ++ [(q, HRes.ofErr e)] →
    t.pend = false ∧ t.cseen = false ∧ t.tmr = 0 ∧
    t = { s with
      pend := false, cseen := false, tmr := 0, clock := t.clock, now := t.now, requests := t.requests, inputs := t.inputs,
      trace := t.trace, results := t.results }

/-- R151, with R150 and R180, and R152, an inference the spec marks as its own: READ_REGISTER and its locked variant return the
low half of the response cached after the last EXEC of the message, zero-extended. A last lane with `SR` leaves an older
response there, and where there never was one the low half is free (log entry 7). -/
def Obligations.ReadRegisterReturnsLowHalf : Prop :=
  ∀ (s : State) (q : Nat) (id r0 r1 : Word) (d : Descriptor) (rest : List Input),
    s.Ready q → s.cfg.table[id.toNat]? = some d →
    (s.lock = .held q → s.pvote = true → s.inputs = (s.readMessage d).messageScript r0 r1 ++ rest →
      (((s.readMessage d).messageSent r0 r1).lastValid = true →
        exec (.readRegister q id) s = .next (State.returned { (s.readMessage d).messageSent r0 r1 with inputs := rest } q
          (HRes.ofValue (some (.word (zext32 (low ((s.readMessage d).messageSent r0 r1).lastResp))))))) ∧
      (((s.readMessage d).messageSent r0 r1).lastValid = false →
        ∃ h : Half, exec (.readRegister q id) s = .next
          ({ (s.readMessage d).messageSent r0 r1 with inputs := rest, freeCount := s.freeCount + 1 }.returned q
            (HRes.ofValue (some (.word (zext32 h))))))) ∧
    (s.lock = .free → Calm rest → s.inputs = .answer (.resume true) :: ((s.readMessage d).messageScript r0 r1 ++ rest) →
      ((((s.opened q).readMessage d).messageSent r0 r1).lastValid = true →
        exec (.readRegisterLocked q id) s = .next
          (({ ((s.opened q).readMessage d).messageSent r0 r1 with inputs := rest }.closed q).returned q
            (HRes.ofValue (some (.word (zext32 (low (((s.opened q).readMessage d).messageSent r0 r1).lastResp))))))) ∧
      ((((s.opened q).readMessage d).messageSent r0 r1).lastValid = false →
        ∃ h : Half, exec (.readRegisterLocked q id) s = .next
          (({ ((s.opened q).readMessage d).messageSent r0 r1 with inputs := rest, freeCount := s.freeCount + 1 }.closed
            q).returned q (HRes.ofValue (some (.word (zext32 h)))))))

/-- R153, R124, R180: WRITE_REGISTER and its locked variant encode the value and send the message's lanes in order; the responses
are cached and not compared with anything. -/
def Obligations.WriteRegisterSendsMessage : Prop :=
  ∀ (s : State) (q : Nat) (id value r0 r1 : Word) (d : Descriptor) (rest : List Input),
    s.Ready q → s.cfg.table[id.toNat]? = some d →
    (s.lock = .held q → s.pvote = true → s.inputs = (s.writeMessage d value).messageScript r0 r1 ++ rest →
      exec (.writeRegister q id value) s = .next
        ({ (s.writeMessage d value).messageSent r0 r1 with inputs := rest }.returned q (HRes.ofValue none))) ∧
    (s.lock = .free → Calm rest →
      s.inputs = .answer (.resume true) :: ((s.writeMessage d value).messageScript r0 r1 ++ rest) →
      exec (.writeRegisterLocked q id value) s = .next
        (({ ((s.opened q).writeMessage d value).messageSent r0 r1 with inputs := rest }.closed q).returned q
          (HRes.ofValue none)))

/-- R154, R150, R153, with R144 and R147: a register read or write stops at the first lane whose EXEC fails, in either mode, by a
failed send or by a timeout: no later lane is sent, the lane's error is the result, and a lane before it leaves what EXEC leaves,
its cached response with it. -/
def Obligations.RegisterAccessAbortsOnFailure : Prop :=
  ∀ (s m : State) (q : Nat) (id value r0 : Word) (d : Descriptor) (bad : BadCommand) (rest : List Input) (i : Instr),
    s.Holder q → s.cfg.table[id.toNat]? = some d →
    (i, m) ∈ [(Instr.readRegister q id, s.readMessage d), (.writeRegister q id value, s.writeMessage d value)] →
    (bad.Possible s.cmode m.x0 → s.inputs = bad.script s.cfg ++ rest →
      exec i s = .next (State.returned { m.failed .pri m.x0 bad with inputs := rest } q (HRes.ofErr bad.error))) ∧
    (d.messageLength = 8 → bad.Possible s.cmode m.x1 →
      s.inputs = sendScript s.cmode m.x0 r0 ++ (bad.script s.cfg ++ rest) →
      exec i s = .next (State.returned { (m.answered .pri m.x0 r0).failed .pri m.x1 bad with inputs := rest } q
        (HRes.ofErr bad.error)))

/-- R121, R261, with R155 and R184, inferences the spec marks as its own: an id beyond the table ends a register operation
before any Transport event; the locked variant takes the lock and the vote around it. -/
def Obligations.InvalidAddressBeforeIo : Prop :=
  ∀ (s : State) (q : Nat) (id value : Word) (rest : List Input), s.Ready q → s.cfg.table.length ≤ id.toNat →
    (s.lock = .held q → s.pvote = true → Calm s.inputs →
      exec (.readRegister q id) s = .next (s.returned q (HRes.ofErr (.invalidAddress id))) ∧
      exec (.writeRegister q id value) s = .next (s.returned q (HRes.ofErr (.invalidAddress id)))) ∧
    (s.lock = .free → Calm rest → s.inputs = .answer (.resume true) :: rest →
      exec (.readRegisterLocked q id) s =
        .next (({ s.opened q with inputs := rest }.closed q).returned q (HRes.ofErr (.invalidAddress id))) ∧
      exec (.writeRegisterLocked q id value) s =
        .next (({ s.opened q with inputs := rest }.closed q).returned q (HRes.ofErr (.invalidAddress id))))

/-! ### The gate -/

/-- R171, R172, R180: after a granted resume a locked operation does what its body does as an unlocked operation of the holder;
when the body returns, with a value or an error, the vote and then the lock are given back, and the result is the body's. -/
def Obligations.LockedWrapsUnlocked : Prop :=
  ∀ (s v : State) (q : Nat) (rest : List Input) (u l : Instr),
    (u, l) ∈ [(Instr.wakeup q, Instr.wakeupLocked q)] ∨
      (∃ w, (u, l) = (.execute q w, .executeLocked q w)) ∨
      (∃ id, (u, l) = (.readRegister q id, .readRegisterLocked q id)) ∨
      (∃ id value, (u, l) = (.writeRegister q id value, .writeRegisterLocked q id value)) ∨
      (∃ buf len, (u, l) = (.writeBlock q buf len, .writeBlockLocked q buf len)) ∨
      (∃ buf len id, (u, l) = (.readBlock q buf len id, .readBlockLocked q buf len id)) →
    s.Public q → s.inputs = .answer (.resume true) :: rest → exec u { s.opened q with inputs := rest } = .next v →
    Calm v.inputs →
    exec l s = .next (if v.seq = .idle then v.closed q else v)

/-- R180, R171, R149: EXECUTE_LOCKED of a command that is answered. -/
def Obligations.LockedExecuteReturnsResponse : Prop :=
  ∀ (s : State) (q : Nat) (w r : Word) (rest : List Input),
    s.Public q → Calm rest → s.inputs = .answer (.resume true) :: (sendScript s.cmode w r ++ rest) →
    exec (.executeLocked q w) s = .next (({ (s.opened q).answered .pri w r with inputs := rest }.closed q).returned q
      (HRes.ofValue (if srBit w then none else some (.word r))))

/-- R183, an inference the spec marks as its own, with R171 and R173: a locked operation whose `resume()` fails makes exactly three
events, the grant, the failed resume and the release, and returns `PowerResumeFailed`; everything else is as it was. -/
def Obligations.ResumeFailureAborts : Prop :=
  ∀ (s : State) (q : Nat) (w id value buf len : Word) (rest : List Input) (i : Instr),
    i ∈ [Instr.executeLocked q w, .readRegisterLocked q id, .writeRegisterLocked q id value, .writeBlockLocked q buf len,
      .readBlockLocked q buf len id, .wakeupLocked q] →
    s.Public q → Calm rest → s.inputs = .answer (.resume false) :: rest →
    exec i s = .next { s with
      inputs := rest, trace := s.trace ++ [.lockGrant q, .resume false, .lockRelease q],
      results := s.results ++ [(q, HRes.ofErr .powerResumeFailed)] }

/-- R172: when a locked operation has returned, whatever its result, the lock is free and no vote is held. -/
def Obligations.LockedOperationReleases : Prop :=
  ∀ (s t : State) (q : Nat) (w id value buf len : Word) (i : Instr),
    i ∈ [Instr.executeLocked q w, .readRegisterLocked q id, .writeRegisterLocked q id value, .writeBlockLocked q buf len,
      .readBlockLocked q buf len id, .wakeupLocked q] →
    s.Public q → s.Inv → exec i s = .next t → t.seq = .idle → t.lock = .free ∧ t.pvote = false

/-- R178: a locked operation of the requester that already holds the lock is stuck. -/
def Obligations.LockedByHolderIsStuck : Prop :=
  ∀ (s : State) (q : Nat) (w id value buf len : Word) (i : Instr),
    i ∈ [Instr.executeLocked q w, .readRegisterLocked q id, .writeRegisterLocked q id value, .writeBlockLocked q buf len,
      .readBlockLocked q buf len id, .wakeupLocked q] →
    s.Ready q → s.lock = .held q → exec i s = .fault .selfDeadlock

/-- R176: a locked operation of another requester than the holder goes on waiting; the model puts its request back (log
entry 17). -/
def Obligations.LockedRequestWaits : Prop :=
  ∀ (s : State) (q p : Nat) (w id value buf len : Word) (i : Instr),
    i ∈ [Instr.executeLocked q w, .readRegisterLocked q id, .writeRegisterLocked q id value, .writeBlockLocked q buf len,
      .readBlockLocked q buf len id, .wakeupLocked q] →
    s.Ready q → s.lock = .held p → p ≠ q → exec i s = .next { s with requests := s.requests ++ [encode i] }

/-- R179, R177, R280: an unlocked operation of a requester that does not hold both the lock and a vote is refused. That this is
judged when the request is taken up, so that one presented in the holder tier and taken up after the release is refused too, is
the model's choice (log entry 32). -/
def Obligations.UnlockedWithoutLockIsRefused : Prop :=
  ∀ (s : State) (q : Nat) (w id value buf len : Word) (i : Instr),
    i ∈ [Instr.execute q w, .readRegister q id, .writeRegister q id value, .writeBlock q buf len, .readBlock q buf len id,
      .wakeup q] →
    s.Ready q → ¬(s.lock = .held q ∧ s.pvote = true) → exec i s = .refused .unlockedWithoutLock

/-- R7, R301, R287, R278: an operation is not run under a configuration outside the spec, without a Session, for a requester that
does not exist, or while another operation is in flight; a wire row is not run while nobody holds the lock (log entries 3, 9, 13, 21
and 32). -/
def Obligations.InadmissibleRequestsAreTurnedAway : Prop :=
  ∀ (s : State) (q : Nat) (w id value buf len : Word) (dir : Direction) (i : Instr),
    (i ∈ [Instr.execute q w, .readRegister q id, .writeRegister q id value, .writeBlock q buf len, .readBlock q buf len id,
        .wakeup q, .encode q id value dir, .decode q id, .executeLocked q w, .readRegisterLocked q id,
        .writeRegisterLocked q id value, .writeBlockLocked q buf len, .readBlockLocked q buf len id, .wakeupLocked q] →
      (configOk s.cfg = false → exec i s = .refused .illFormedConfig) ∧
      (configOk s.cfg = true → s.attached = false → exec i s = .refused .notAttached) ∧
      (configOk s.cfg = true → s.attached = true → s.cfg.nReq ≤ q → exec i s = .refused .noSuchRequester) ∧
      (configOk s.cfg = true → s.attached = true → q < s.cfg.nReq → s.seq ≠ .idle → exec i s = .fault .stuck)) ∧
    (i ∈ [Instr.cw32Generic w, .wdbCmd s.cfg.opcWdb 1, .wdbResp w, .wdbAck w, .rdbCmd s.cfg.opcRdb (low id), .rdbResp w,
        .statusQuery s.cfg.statusQueryWord, .syncIntr s.cfg.syncIntrWord, .sync s.cfg.syncWord,
        .smoothMuteZero s.cfg.smoothMuteZeroWord, .regMsgLane w] →
      configOk s.cfg = true → s.lock = .free → exec i s = .refused .unlockedWithoutLock)

/-- R106: a request with a reserved code is refused, in every state. -/
def Obligations.ReservedCodesAreRefused : Prop :=
  ∀ (s : State) (q : Nat),
    exec (.reservedE q) s = .refused .reservedCode ∧ exec (.reservedF q) s = .refused .reservedCode

/-! ### Block write -/

/-- R206, an inference the spec marks as its own, with R190 to R203: over a device that echoes the opcode of every command and
gives the right acknowledgement within `ACK_MAX_ATTEMPTS` reads, WRITE_BLOCK and its locked variant send `ceil(length /
MAX_CHUNK)` commands whose sizes sum to the length, each with the buffer's next bytes, the inter-chunk delay before every chunk
but the first; the result is the length and nothing but the registers of the transfer and of EXEC has changed. Where the buffer's
bytes lie, and that a byte nothing has written is sent as 0, is the model's (log entry 11). -/
def Obligations.WriteBlockSendsChunks : Prop :=
  ∀ (s : State) (q : Nat) (buf len : Word) (plays : List ChunkPlay) (rest : List Input) (es : List Event)
    (script : List Input),
    s.Ready q → Calm rest → plays.length = (len.toNat + s.cfg.maxChunk - 1) / s.cfg.maxChunk → (∀ p ∈ plays, p.Good s) →
    es = openEvents s.cfg ++ (writeEvents s.cfg s.cmode true (readBytes s.mem (bufferAddress buf 0) len.toNat) plays ++
      closeEvents s.cfg) →
    script = openScript s.cfg ++ (writeScript s.cfg s.cmode true len.toNat plays ++ (closeScript s.cfg ++ rest)) →
    (sentSizes es).length = plays.length ∧ (sentSizes es).sum = len.toNat ∧
    (s.lock = .held q → s.pvote = true → s.inputs = script →
      ∃ t : State, exec (.writeBlock q buf len) s = .next (t.returned q (HRes.ofValue (some (.count len)))) ∧
        Wrote s t len es rest) ∧
    (s.lock = .free → s.inputs = .answer (.resume true) :: script →
      ∃ t : State, exec (.writeBlockLocked q buf len) s =
          .next ((t.closed q).returned q (HRes.ofValue (some (.count len)))) ∧
        Wrote (s.opened q) t len es rest)

/-- R196: a response whose opcode field is not `OPC_WDB`, at any chunk, ends the write with `ProtocolMismatch`: no data is written
for the chunk, the response stays cached, the channel is closed. Before the first chunk nothing but the registers of the transfer
and of its EXEC has changed. Where the buffer's bytes lie, and that a byte nothing has written is sent as 0, is the model's (log
entry 11). -/
def Obligations.WriteBlockRejectsOpcode : Prop :=
  ∀ (s : State) (q : Nat) (buf len r w : Word) (plays : List ChunkPlay) (done size : Nat) (rest : List Input),
    s.Holder q → AtChunk s len plays done size → w = wdbWord s.cfg (BitVec.ofNat 16 size) → opc r ≠ s.cfg.opcWdb →
    s.inputs = reachScript s.cfg s.cmode len plays ++ (sendScript s.cmode w r ++ (closeScript s.cfg ++ rest)) →
    ∃ t : State, exec (.writeBlock q buf len) s = .next (t.returned q (HRes.ofErr .protocolMismatch)) ∧
      Stopped s t len done size (reachEvents s.cfg s.cmode (readBytes s.mem (bufferAddress buf 0) done) plays ++
        (sendEvents s.cmode .hbw w r ++ closeEvents s.cfg)) rest ∧
      t.resp = r ∧ t.lastResp = r ∧ t.lastTs = s.now % 2 ^ s.cfg.tsW ∧ t.lastValid = true ∧
      (plays = [] → t = { s.answered .hbw w r with
        dir := .write, reqlen := len, rem := len, moved := 0, chunk := t.chunk, inputs := rest, trace := t.trace })

/-- R202, R198: a chunk, the first or any later one, whose `ACK_MAX_ATTEMPTS` acknowledgement reads all give a wrong word ends the
write with `AckTimeout`; a delay stands between two reads and none after the last; `ACKW` holds the last word. Where the buffer's
bytes lie, and that a byte nothing has written is sent as 0, is the model's (log entry 11). -/
def Obligations.AckReadsExhausted : Prop :=
  ∀ (s : State) (q : Nat) (buf len r : Word) (plays : List ChunkPlay) (done size : Nat) (reads : List (List Byte))
    (last : List Byte) (rest : List Input),
    s.Holder q → AtChunk s len plays done size → opc r = s.cfg.opcWdb → reads.length + 1 = s.cfg.ackMaxAttempts →
    (∀ b ∈ reads ++ [last], b.length = 4 ∧ ackOf s b ≠ wdbAckWord s.cfg) →
    s.inputs = reachScript s.cfg s.cmode len plays ++
      (chunkScript s.cfg s.cmode ⟨r, reads, last⟩ size ++ (closeScript s.cfg ++ rest)) →
    ∃ t : State, exec (.writeBlock q buf len) s = .next (t.returned q (HRes.ofErr .ackTimeout)) ∧
      Stopped s t len done size (reachEvents s.cfg s.cmode (readBytes s.mem (bufferAddress buf 0) done) plays ++
        (chunkEvents s.cfg s.cmode ⟨r, reads, last⟩ (readBytes s.mem (bufferAddress buf done) size) ++
          closeEvents s.cfg)) rest ∧
      t.ackw = ackOf s last ∧ t.ackcnt = s.cfg.ackMaxAttempts

/-- R195, R197, R198, R267, with R144 and R147: at any chunk, a command that fails, by its send or by a timeout, an error of the data
write and an error of any acknowledgement read end the write with that error at once, with no further call but the channel's close
and no delay. A failed command of the first chunk leaves nothing but the registers of the transfer and of its EXEC changed. Where
the buffer's bytes lie, and that a byte nothing has written is sent as 0, is the model's (log entry 11). -/
def Obligations.WriteBlockPassesErrors : Prop :=
  ∀ (s : State) (q : Nat) (buf len r w : Word) (plays : List ChunkPlay) (done size : Nat) (bad : BadCommand) (e : TErr)
    (wrong : List (List Byte)) (bytes : List Byte) (before : List Event) (rest : List Input),
    s.Holder q → AtChunk s len plays done size → w = wdbWord s.cfg (BitVec.ofNat 16 size) →
    bytes = readBytes s.mem (bufferAddress buf done) size →
    before = reachEvents s.cfg s.cmode (readBytes s.mem (bufferAddress buf 0) done) plays →
    (bad.Possible s.cmode w →
      s.inputs = reachScript s.cfg s.cmode len plays ++ (bad.script s.cfg ++ (closeScript s.cfg ++ rest)) →
      ∃ t : State, exec (.writeBlock q buf len) s = .next (t.returned q (HRes.ofErr bad.error)) ∧
        Stopped s t len done size (before ++ (bad.events s.cmode .hbw w ++ closeEvents s.cfg)) rest ∧
        t.pend = false ∧ t.cseen = false ∧
        (plays = [] → t = { s.failed .hbw w bad with
          dir := .write, reqlen := len, rem := len, moved := 0, chunk := t.chunk, inputs := rest, trace := t.trace })) ∧
    (opc r = s.cfg.opcWdb →
      s.inputs = reachScript s.cfg s.cmode len plays ++ (sendScript s.cmode w r ++
        .answer (.hbwWrite (.err e)) :: (closeScript s.cfg ++ rest)) →
      ∃ t : State, exec (.writeBlock q buf len) s = .next (t.returned q (HRes.ofErr (.transport e))) ∧
        Stopped s t len done size (before ++ (sendEvents s.cmode .hbw w r ++
          .hbwWrite bytes (.err e) :: closeEvents s.cfg)) rest) ∧
    (opc r = s.cfg.opcWdb → wrong.length < s.cfg.ackMaxAttempts →
      (∀ b ∈ wrong, b.length = 4 ∧ ackOf s b ≠ wdbAckWord s.cfg) →
      s.inputs = reachScript s.cfg s.cmode len plays ++ (sendScript s.cmode w r ++
        .answer (.hbwWrite (.ok ())) :: (wrongScript s.cfg wrong ++
          .answer (.hbwRead (.err e)) :: (closeScript s.cfg ++ rest))) →
      ∃ t : State, exec (.writeBlock q buf len) s = .next (t.returned q (HRes.ofErr (.transport e))) ∧
        Stopped s t len done size (before ++ (sendEvents s.cmode .hbw w r ++ .hbwWrite bytes (.ok ()) ::
          (wrongEvents s.cfg wrong ++ .hbwRead 4 (.err e) :: closeEvents s.cfg))) rest ∧
        t.ackcnt = wrong.length)

/-! ### Block read -/

/-- R219, R220, with R212 to R218: READ_BLOCK and its locked variant deliver the data in order from offset 0 of the buffer, in
4-byte increments, make one drain read where the lengths ask for it, and return the number of bytes delivered; every other byte
of memory is as it was. The layout of the buffers in memory is the model's (log entry 11). -/
def Obligations.ReadBlockDeliversData : Prop :=
  ∀ (s : State) (q : Nat) (buf len id r : Word) (data drained : List Byte) (rest script : List Input),
    s.Ready q → Calm rest → s.cfg.hasRdbFastpath = false → Memory.wf s.mem → opc r = s.cfg.opcRdb →
    BlockFits len (low r) data drained →
    script = openScript s.cfg ++ (sendScript s.cmode (rdbWord s.cfg (low id)) r ++
      (readScript (blockReads data drained) ++ (closeScript s.cfg ++ rest))) →
    (∀ t : State, t.mem = (s.blockRead buf len id r data drained rest).mem →
      (∀ k (h : k < data.length), readByte t.mem (bufferAddress buf k) = data[k]) ∧
      (∀ a, a < bufferAddress buf 0 ∨ bufferAddress buf data.length ≤ a → readByte t.mem a = readByte s.mem a)) ∧
    (s.lock = .held q → s.pvote = true → s.inputs = script →
      exec (.readBlock q buf len id) s = .next ((s.blockRead buf len id r data drained rest).returned q
        (HRes.ofValue (some (.count (BitVec.ofNat 32 data.length)))))) ∧
    (s.lock = .free → s.inputs = .answer (.resume true) :: script →
      exec (.readBlockLocked q buf len id) s = .next
        ((((s.opened q).blockRead buf len id r data drained rest).closed q).returned q
          (HRes.ofValue (some (.count (BitVec.ofNat 32 data.length))))))

/-- R211: where the Transport has the fast path, it is the whole operation: its bytes go to the buffer from offset 0 and their
count is the result, or its error is. That it is given the low half of the id is the model's (log entry 27), and so is the layout
of the buffers (log entry 11). -/
def Obligations.FastPathReplacesRead : Prop :=
  ∀ (s : State) (q : Nat) (buf len id : Word) (bytes : List Byte) (e : TErr) (rest : List Input),
    s.Holder q → s.cfg.hasRdbFastpath = true →
    (s.inputs = .answer (.rdb (.ok bytes)) :: rest → bytes.length ≤ len.toNat →
      exec (.readBlock q buf len id) s = .next { s with
        mem := writeBytes s.mem (bufferAddress buf 0) bytes, inputs := rest,
        trace := s.trace ++ [.rdb len (low id) (.ok bytes)],
        results := s.results ++ [(q, HRes.ofValue (some (.count (BitVec.ofNat 32 bytes.length))))] }) ∧
    (s.inputs = .answer (.rdb (.err e)) :: rest →
      exec (.readBlock q buf len id) s = .next { s with
        inputs := rest, trace := s.trace ++ [.rdb len (low id) (.err e)],
        results := s.results ++ [(q, HRes.ofErr (.transport e))] })

/-- R212, R213, R214, R218, R222, R267, with R144 and R147: how READ_BLOCK without the fast path fails: a command that fails, by its
send or by a timeout, is that error, with nothing but the registers of the transfer and of its EXEC changed; a response whose
opcode field is not `OPC_RDB` is `ProtocolMismatch` and one whose size is 0 or no multiple of 4 is `InvalidSize`, with no data read and no byte of
memory changed; a data read that fails after some whole increments, or a drain read that fails, is the Transport's error, and
`MOVED` and the bytes delivered so far are kept. The channel is closed each time. The layout of the buffers is the model's (log
entry 11). -/
def Obligations.ReadBlockEndsInError : Prop :=
  ∀ (s : State) (q : Nat) (buf len id r : Word) (bad : BadCommand) (e : TErr) (got : List (List Byte)) (data : List Byte)
    (rest : List Input),
    s.Holder q → s.cfg.hasRdbFastpath = false →
    (bad.Possible s.cmode (rdbWord s.cfg (low id)) →
      s.inputs = openScript s.cfg ++ (bad.script s.cfg ++ (closeScript s.cfg ++ rest)) →
      exec (.readBlock q buf len id) s = .next (State.returned { s.failed .hbw (rdbWord s.cfg (low id)) bad with
        dir := .read, reqlen := len, moved := 0, inputs := rest,
        trace := s.trace ++ (openEvents s.cfg ++ (bad.events s.cmode .hbw (rdbWord s.cfg (low id)) ++
          closeEvents s.cfg)) } q (HRes.ofErr bad.error))) ∧
    (opc r ≠ s.cfg.opcRdb →
      s.inputs = openScript s.cfg ++ (sendScript s.cmode (rdbWord s.cfg (low id)) r ++ (closeScript s.cfg ++ rest)) →
      exec (.readBlock q buf len id) s = .next (State.returned { s.answered .hbw (rdbWord s.cfg (low id)) r with
        dir := .read, reqlen := len, moved := 0, inputs := rest,
        trace := s.trace ++ (openEvents s.cfg ++ (sendEvents s.cmode .hbw (rdbWord s.cfg (low id)) r ++
          closeEvents s.cfg)) } q (HRes.ofErr .protocolMismatch))) ∧
    (opc r = s.cfg.opcRdb → (low r).toNat = 0 ∨ (low r).toNat % 4 ≠ 0 →
      s.inputs = openScript s.cfg ++ (sendScript s.cmode (rdbWord s.cfg (low id)) r ++ (closeScript s.cfg ++ rest)) →
      exec (.readBlock q buf len id) s = .next (State.returned { s.answered .hbw (rdbWord s.cfg (low id)) r with
        dir := .read, reqlen := len, moved := 0, dsz := low r, inputs := rest,
        trace := s.trace ++ (openEvents s.cfg ++ (sendEvents s.cmode .hbw (rdbWord s.cfg (low id)) r ++
          closeEvents s.cfg)) } q (HRes.ofErr .invalidSize))) ∧
    (opc r = s.cfg.opcRdb → (low r).toNat ≠ 0 → (low r).toNat % 4 = 0 → (∀ b ∈ got, b.length = 4) →
      4 * got.length < min len.toNat (low r).toNat →
      s.inputs = openScript s.cfg ++ (sendScript s.cmode (rdbWord s.cfg (low id)) r ++
        (readScript got ++ .answer (.hbwRead (.err e)) :: (closeScript s.cfg ++ rest))) →
      exec (.readBlock q buf len id) s = .next ((s.readFailed buf len id r got.flatten
        (readEvents got ++ [.hbwRead (min 4 (min len.toNat (low r).toNat - 4 * got.length)) (.err e)]) rest).returned q
          (HRes.ofErr (.transport e)))) ∧
    (opc r = s.cfg.opcRdb → (low r).toNat ≠ 0 → (low r).toNat % 4 = 0 → data.length = len.toNat →
      len.toNat < (low r).toNat → len.toNat % 4 ≠ 0 →
      s.inputs = openScript s.cfg ++ (sendScript s.cmode (rdbWord s.cfg (low id)) r ++
        (readScript (increments data) ++ .answer (.hbwRead (.err e)) :: (closeScript s.cfg ++ rest))) →
      exec (.readBlock q buf len id) s = .next ((s.readFailed buf len id r data
        (readEvents (increments data) ++ [.hbwRead (((low r).toNat - len.toNat) % 4) (.err e)]) rest).returned q
          (HRes.ofErr (.transport e))))

/-- R215: the reconciliation of lengths, and that the transfer and the drain together are whole groups of 4 bytes. -/
def Obligations.LengthsAreReconciled : Prop :=
  ∀ (reqlen : Word) (d : Half), d.toNat % 4 = 0 →
    (transferLength reqlen d).toNat = min reqlen.toNat d.toNat ∧
    (reqlen.toNat < d.toNat → (drainLength reqlen d).toNat = (d.toNat - reqlen.toNat) % 4 ∧
      (drainLength reqlen d).toNat = (4 - reqlen.toNat % 4) % 4) ∧
    (d.toNat ≤ reqlen.toNat → drainLength reqlen d = 0) ∧
    ((transferLength reqlen d).toNat + (drainLength reqlen d).toNat) % 4 = 0

/-- R62, R219, R222: however READ_BLOCK or its locked variant goes on, and wherever it ends, no byte outside the caller's
`requested_length` bytes changes. The layout of the buffers is the model's (log entry 11), and so is that no requester changes
a buffer while an operation is in flight (log entry 31). -/
def Obligations.ReadBlockStaysInBuffer : Prop :=
  ∀ (s t : State) (q : Nat) (buf len id : Word) (a : Nat),
    exec (.readBlock q buf len id) s = .next t ∨ exec (.readBlockLocked q buf len id) s = .next t →
    a < bufferAddress buf 0 ∨ bufferAddress buf len.toNat ≤ a → readByte t.mem a = readByte s.mem a

/-- R62, R190: no other instruction changes a byte of memory, however it ends. That no requester changes a buffer while an
operation is in flight is the model's (log entry 31). -/
def Obligations.OnlyReadBlockWritesMemory : Prop :=
  ∀ (s t : State) (i : Instr),
    (∀ q buf len id, i ≠ .readBlock q buf len id ∧ i ≠ .readBlockLocked q buf len id) → exec i s = .next t → t.mem = s.mem

/-! ### Wakeup -/

/-- R250, an inference the spec marks as its own, with R230 to R244: over a device that gives the right synchronize echo at the
attempt after the failed ones of `bad`, within the budget, and that answers the smooth-mute command, WAKEUP and its locked
variant return `Ok` with `WSTATE = Ready` and `ATT` the number of that attempt, whatever the optional steps of the configuration
and however the attempts of `bad` failed, as long as the policy goes on after each; `LASTERR` is the error of the last of them. -/
def Obligations.WakeupReachesReady : Prop :=
  ∀ (s : State) (q : Nat) (bad : List BadAttempt) (status si mute : Word) (rest : List Input) (mode : CMode)
    (es : List Event) (script : List Input),
    s.Ready q → AllPossible s.cfg s.cmode bad → (∀ a ∈ bad, a.GoesOn s.cfg) → bad.length < s.cfg.wakeBudget →
    StatusAccepted s.cfg status → mode = echoMode s.cfg (modeAfter s.cmode bad) →
    es = badEvents s.cfg s.cmode bad ++ (attemptEvents s.cfg (modeAfter s.cmode bad) status si s.cfg.syncWord ++
      sendEvents mode .pri s.cfg.smoothMuteZeroWord mute) →
    script = badScript s.cfg s.cmode bad ++ (attemptScript s.cfg (modeAfter s.cmode bad) status si s.cfg.syncWord ++
      (sendScript mode s.cfg.smoothMuteZeroWord mute ++ rest)) →
    (s.lock = .held q → s.pvote = true → s.inputs = script →
      ∃ t : State, exec (.wakeup q) s = .next (t.returned q (HRes.ofValue none)) ∧
        Woke s t .ready mode (bad.length + 1) (lastError s.lastErr bad) es rest ∧
        (srBit s.cfg.smoothMuteZeroWord = false → t.lastResp = mute)) ∧
    (s.lock = .free → Calm rest → s.inputs = .answer (.resume true) :: script →
      ∃ t : State, exec (.wakeupLocked q) s = .next ((t.closed q).returned q (HRes.ofValue none)) ∧
        Woke (s.opened q) t .ready mode (bad.length + 1) (lastError s.lastErr bad) es rest ∧
        (srBit s.cfg.smoothMuteZeroWord = false → t.lastResp = mute))

/-- R242, R243, R245, R246: where `WAKE_BUDGET` attempts fail, each in any of the ways R242 names and the policy going on after
each, WAKEUP returns the error of the last, with `WSTATE = Failed` and `CMODE = Poll`. -/
def Obligations.WakeupExhaustsBudget : Prop :=
  ∀ (s : State) (q : Nat) (bad : List BadAttempt) (rest : List Input),
    s.Holder q → AllPossible s.cfg s.cmode bad → (∀ a ∈ bad, a.GoesOn s.cfg) → bad.length = s.cfg.wakeBudget →
    s.inputs = badScript s.cfg s.cmode bad ++ rest →
    ∃ t : State, exec (.wakeup q) s = .next (t.returned q (HRes.ofErr (lastError s.lastErr bad))) ∧
      Woke s t .failed .poll s.cfg.wakeBudget (lastError s.lastErr bad) (badEvents s.cfg s.cmode bad) rest

/-- R244, R241, R247: the ways WAKEUP ends before its budget is spent, after failed attempts `bad` that it went on from: under
`FailFast` a wrong reported state or a wrong echo, with `CMODE = Poll`; and a smooth-mute command that fails, in its send or by
the timeout, which leaves `CMODE` as step 5 set it. Either way `WSTATE = Failed`. -/
def Obligations.WakeupStopsEarly : Prop :=
  ∀ (s : State) (q : Nat) (bad : List BadAttempt) (a : BadAttempt) (status si r : Word) (e : TErr) (rest : List Input)
    (mode : CMode),
    s.Holder q → AllPossible s.cfg s.cmode bad → (∀ b ∈ bad, b.GoesOn s.cfg) → bad.length < s.cfg.wakeBudget →
    mode = modeAfter s.cmode bad →
    (s.cfg.wakeOnMismatch = .failFast → a.Possible s.cfg mode → a.error = .protocolMismatch →
      s.inputs = badScript s.cfg s.cmode bad ++ (a.script s.cfg mode ++ rest) →
      ∃ t : State, exec (.wakeup q) s = .next (t.returned q (HRes.ofErr .protocolMismatch)) ∧
        Woke s t .failed .poll (bad.length + 1) .protocolMismatch
          (badEvents s.cfg s.cmode bad ++ a.events s.cfg mode) rest) ∧
    (StatusAccepted s.cfg status →
      s.inputs = badScript s.cfg s.cmode bad ++ (attemptScript s.cfg mode status si s.cfg.syncWord ++
        .answer (.send (.err e)) :: rest) →
      ∃ t : State, exec (.wakeup q) s = .next (t.returned q (HRes.ofErr (.transport e))) ∧
        Woke s t .failed (echoMode s.cfg mode) (bad.length + 1) (lastError s.lastErr bad)
          (badEvents s.cfg s.cmode bad ++ (attemptEvents s.cfg mode status si s.cfg.syncWord ++
            failEvents (echoMode s.cfg mode) .pri s.cfg.smoothMuteZeroWord e)) rest) ∧
    (StatusAccepted s.cfg status → echoMode s.cfg mode = .interrupt → srBit s.cfg.smoothMuteZeroWord = false →
      s.inputs = badScript s.cfg s.cmode bad ++ (attemptScript s.cfg mode status si s.cfg.syncWord ++
        (lostScript s.cfg r ++ rest)) →
      ∃ t : State, exec (.wakeup q) s = .next (t.returned q (HRes.ofErr .timeout)) ∧
        Woke s t .failed .interrupt (bad.length + 1) (lastError s.lastErr bad)
          (badEvents s.cfg s.cmode bad ++ (attemptEvents s.cfg mode status si s.cfg.syncWord ++
            lostEvents .pri s.cfg.smoothMuteZeroWord r)) rest)

/-- R236, R251: step 3 of an attempt: with a completion line it ends at once where the completion came in step 2, else with the
completion, or with `Timeout` after `T_WAKE_TIMEOUT` ticks, the wait cleared each time; without one it is a delay of
`T_WAKE_SETTLE`. -/
def Obligations.WakeReadinessWait : Prop :=
  ∀ (s : State) (n : Nat) (rest : List Input),
    (s.cfg.wakeHasComplLine = true → s.cseen = true → Calm s.inputs →
      wakeAwait s = .ok () { s with
        seq := .wk3Await, wstate := .awaitingAck, pend := false, cseen := false, tmr := 0 }) ∧
    (s.cfg.wakeHasComplLine = true → s.cseen = false → s.inputs = .completion :: rest →
      wakeAwait s = .ok () { s with
        seq := .wk3Await, wstate := .awaitingAck, pend := false, cseen := false, tmr := 0, inputs := rest,
        trace := s.trace ++ [.completion] }) ∧
    (s.cfg.wakeHasComplLine = true → s.cseen = false → s.cfg.tWakeTimeout ≤ n → s.inputs = .ticks n :: rest →
      wakeAwait s = .err .timeout { s with
        seq := .wk3Await, wstate := .awaitingAck, pend := false, cseen := false, tmr := 0,
        clock := s.clock + s.cfg.tWakeTimeout,
        inputs := if n = s.cfg.tWakeTimeout then rest else .ticks (n - s.cfg.tWakeTimeout) :: rest,
        trace := s.trace ++ [.timeout] }) ∧
    (s.cfg.wakeHasComplLine = false → Calm rest → s.inputs = delayScript s.cfg.tWakeSettle ++ rest →
      ∃ t : State, wakeAwait s = .ok () t ∧ t = { s with
        seq := .wk3Await, wstate := .awaitingAck, inputs := rest, trace := s.trace ++ [.delay s.cfg.tWakeSettle],
        clock := s.clock + s.cfg.tWakeSettle, dly := t.dly })

/-- R283: a delay that ends has lasted at least its `T` ticks and has added its event to the trace. That the event comes before
every completion of the delay's own time is the model's choice (log entry 29). How long a delay lasts beyond its ticks is the
outside world's (log entry 19). -/
def Obligations.DelayLastsLongEnough : Prop :=
  ∀ (s t : State) (n : Nat), delayTicks n s = .ok () t →
    s.clock + n ≤ t.clock ∧
    ∃ before during : Nat, t.trace =
      s.trace ++ (List.replicate before .completion ++ .delay n :: List.replicate during .completion)

/-! ### The rows of the wire, run by themselves for the holder of the lock (log entry 3) -/

/-- R91, R96, R193, R212, R140: each command row of the wire sends its word by EXEC on the route of the operation it belongs
to; the response is cached and, but for a register lane, reported. A word that is not the configuration's is refused (log entry
25). That a row can be run by itself is the model's (log entry 3). -/
def Obligations.CommandRowsSendTheirWord : Prop :=
  ∀ (s : State) (q : Nat) (w r : Word) (size id : Half) (rest : List Input), s.Holder q →
    (s.inputs = sendScript s.cmode w r ++ rest →
      exec (.cw32Generic w) s = .next (State.returned { s.answered .pri w r with inputs := rest } q
        (HRes.ofValue (if srBit w then none else some (.word r)))) ∧
      exec (.regMsgLane w) s =
        .next (State.returned { s.answered .pri w r with inputs := rest } q (HRes.ofValue none))) ∧
    (s.inputs = sendScript s.cmode (wordOfHalves s.cfg.opcWdb size) r ++ rest →
      1 ≤ size.toNat → size.toNat ≤ s.cfg.maxChunk →
      exec (.wdbCmd s.cfg.opcWdb size) s = .next (State.returned { s.answered .hbw (wordOfHalves s.cfg.opcWdb size) r with
        chunk := size, inputs := rest } q (HRes.ofValue (some (.word r))))) ∧
    (s.inputs = sendScript s.cmode (wordOfHalves s.cfg.opcRdb id) r ++ rest →
      exec (.rdbCmd s.cfg.opcRdb id) s = .next (State.returned { s.answered .hbw (wordOfHalves s.cfg.opcRdb id) r with
        inputs := rest } q (HRes.ofValue (some (.word r))))) ∧
    (∀ h : Half, (h ≠ s.cfg.opcWdb ∨ size = 0 ∨ s.cfg.maxChunk < size.toNat →
      exec (.wdbCmd h size) s = .refused .foreignWord) ∧ (h ≠ s.cfg.opcRdb → exec (.rdbCmd h id) s = .refused .foreignWord))

/-- R196, R213, R214, R215: the response to a block-write command is accepted exactly when all 16 bits of its opcode field are
`OPC_WDB`; the response to a block-read command needs `OPC_RDB`, then a legal size, and settles the lengths. That a row can be
run by itself is the model's (log entry 3). -/
def Obligations.ResponseRowsAreChecked : Prop :=
  ∀ (s : State) (q : Nat) (r : Word), s.Holder q → Calm s.inputs →
    exec (.wdbResp r) s = .next (s.returned q
      (if r >>> 16 = s.cfg.opcWdb.setWidth 32 then HRes.ofValue none else HRes.ofErr .protocolMismatch)) ∧
    (opc r ≠ s.cfg.opcRdb → exec (.rdbResp r) s = .next (s.returned q (HRes.ofErr .protocolMismatch))) ∧
    (opc r = s.cfg.opcRdb → (low r).toNat = 0 ∨ (low r).toNat % 4 ≠ 0 →
      exec (.rdbResp r) s = .next (State.returned { s with dsz := low r } q (HRes.ofErr .invalidSize))) ∧
    (opc r = s.cfg.opcRdb → (low r).toNat ≠ 0 → (low r).toNat % 4 = 0 →
      exec (.rdbResp r) s = .next (State.returned { s with
        dsz := low r, xfer := BitVec.ofNat 32 (min s.reqlen.toNat (low r).toNat),
        extra := if s.reqlen.toNat < (low r).toNat then BitVec.ofNat 2 (((low r).toNat - s.reqlen.toNat) % 4) else 0
        } q (HRes.ofValue none)))

/-- R198, R201, R202, R203: an acknowledgement word is counted and kept; the expected one moves the transfer on by the chunk,
the last wrong one is `AckTimeout`, and after any other a delay of `T_ACK_RETRY` comes. Where nothing has written `ACKCNT`
since attach the count goes on from a free value: the model's choice, log entry 28. That a row can be run by itself is the
model's (log entry 3). -/
def Obligations.AcknowledgementRow : Prop :=
  ∀ (s u : State) (q n : Nat) (a : Word) (rest : List Input), s.Holder q → Calm rest →
    n = (if s.ackSet then s.ackcnt else Config.freeCounter s.freeCount) →
    u = { s with
      ackcnt := n + 1, ackw := a, ackSet := true, freeCount := if s.ackSet then s.freeCount else s.freeCount + 1 } →
    (a = wordOfHalves s.cfg.opcWdb 0 → s.inputs = rest →
      exec (.wdbAck a) s = .next (State.returned { u with
        moved := s.moved + s.chunk.setWidth 32, rem := s.rem - s.chunk.setWidth 32 } q (HRes.ofValue none))) ∧
    (a ≠ wordOfHalves s.cfg.opcWdb 0 → n + 1 = s.cfg.ackMaxAttempts → s.inputs = rest →
      exec (.wdbAck a) s = .next (u.returned q (HRes.ofErr .ackTimeout))) ∧
    (a ≠ wordOfHalves s.cfg.opcWdb 0 → n + 1 ≠ s.cfg.ackMaxAttempts → s.inputs = delayScript s.cfg.tAckRetry ++ rest →
      ∃ t : State, exec (.wdbAck a) s = .next (t.returned q (HRes.ofValue none)) ∧ t = { u with
        inputs := rest, trace := s.trace ++ [.delay s.cfg.tAckRetry], clock := s.clock + s.cfg.tAckRetry, dly := t.dly })

/-- R237, R239: the status query needs an accepted state and the synchronize command an exact echo; a response that fails the
check is cached all the same. Another word than the configuration's is refused (log entry 25). That a row can be run by itself
is the model's (log entry 3). -/
def Obligations.CheckedWakeRows : Prop :=
  ∀ (s : State) (q : Nat) (r : Word) (rest : List Input), s.Holder q →
    (s.inputs = sendScript s.cmode s.cfg.statusQueryWord r ++ rest →
      exec (.statusQuery s.cfg.statusQueryWord) s = .next (State.returned { s.answered .pri s.cfg.statusQueryWord r with
        inputs := rest } q
          (if low r ∈ s.cfg.acceptedStates then HRes.ofValue none else HRes.ofErr .protocolMismatch))) ∧
    (s.inputs = sendScript s.cmode s.cfg.syncWord r ++ rest →
      exec (.sync s.cfg.syncWord) s = .next (State.returned { s.answered .pri s.cfg.syncWord r with inputs := rest } q
        (if r = s.cfg.syncWord then HRes.ofValue none else HRes.ofErr .protocolMismatch))) ∧
    (∀ w, (w ≠ s.cfg.statusQueryWord → exec (.statusQuery w) s = .refused .foreignWord) ∧
      (w ≠ s.cfg.syncWord → exec (.sync w) s = .refused .foreignWord))

/-- R238, R241, R35, R36, R305: the synchronize-and-suppress word and the smooth-mute word, run by themselves, are sent by EXEC
and nothing is asked of the response; neither writes `CMODE` or `WSTATE`, which only WAKEUP does. A failed send is the
Transport's error. Another word than the configuration's is refused (log entry 25). That a row can be run by itself is the
model's (log entry 3). -/
def Obligations.UncheckedWakeRows : Prop :=
  ∀ (s : State) (q : Nat) (r : Word) (e : TErr) (rest : List Input), s.Holder q →
    (s.inputs = .answer (.send (.ok r)) :: rest →
      exec (.syncIntr s.cfg.syncIntrWord) s = .next (State.returned { s with
        inputs := rest, trace := s.trace ++ [.send .pri s.cfg.syncIntrWord (.ok r)] } q (HRes.ofValue none))) ∧
    (s.inputs = .answer (.send (.err e)) :: rest →
      exec (.syncIntr s.cfg.syncIntrWord) s = .next (State.returned { s with
        pend := false, cseen := false, inputs := rest,
        trace := s.trace ++ [.send .pri s.cfg.syncIntrWord (.err e)] } q (HRes.ofErr (.transport e))) ∧
      exec (.smoothMuteZero s.cfg.smoothMuteZeroWord) s = .next (State.returned { s with
        pend := false, cseen := false, inputs := rest,
        trace := s.trace ++ (armEvents s.cmode s.cfg.smoothMuteZeroWord ++
          [.send .pri s.cfg.smoothMuteZeroWord (.err e)]) } q (HRes.ofErr (.transport e)))) ∧
    (s.inputs = sendScript s.cmode s.cfg.smoothMuteZeroWord r ++ rest →
      exec (.smoothMuteZero s.cfg.smoothMuteZeroWord) s = .next (State.returned { s.answered .pri s.cfg.smoothMuteZeroWord r with
        inputs := rest } q (HRes.ofValue none))) ∧
    (∀ w, (w ≠ s.cfg.syncIntrWord → exec (.syncIntr w) s = .refused .foreignWord) ∧
      (w ≠ s.cfg.smoothMuteZeroWord → exec (.smoothMuteZero w) s = .refused .foreignWord))

/-! ### The whole machine -/

/-- The invariant is kept by every step: no wait, timer or delay is left over outside its phase, a latched completion belongs to
an armed wait (R29), a vote is held only with the lock and the lock by a known requester (R37), a message length is 4 or 8 (R23).
That nobody holds the lock of a Session that was torn down rests on the model's detach (log entry 21), and the canonical form of
the caller buffers on the model's representation of memory (log entry 11). -/
def Obligations.InvariantKept : Prop := ∀ s t : State, s.Inv → step s = .next t → t.Inv

/-- The invariant holds after attach, whatever the configuration, and in particular after reset. The values of the registers that
the spec leaves unspecified, the delay counter's among them, are the model's (log entry 10). -/
def Obligations.InvariantAtAttach : Prop := (∀ c : Config, (State.attach c).Inv) ∧ State.reset.Inv

/-- R182, an inference the spec marks as its own: every step keeps the trace serialised by the lock: grants and releases
alternate, a release is the holder's, and whatever CWE does on an interface happens between a grant and its release. R182 speaks
of the locked operations. That the same holds of the unlocked operations and of the wire rows, and that a host's taking and
giving back of the lock and a detach under a holder are recorded as a grant and a release, is the model's choice (log entries 3,
12 and 21). -/
def Obligations.TraceStaysSerialised : Prop :=
  ∀ s t : State, s.Inv → s.Serialised → step s = .next t → t.Serialised

/-- R300, R49: what attach leaves in every register it specifies, whatever the configuration. -/
def Obligations.AttachValues : Prop :=
  ∀ c : Config,
    (State.attach c).seq = .idle ∧ (State.attach c).lock = .free ∧ (State.attach c).pvote = false ∧
    (State.attach c).cmode = .poll ∧ (State.attach c).wstate = .asleep ∧ (State.attach c).pend = false ∧
    (State.attach c).cseen = false ∧ (State.attach c).lastValid = false ∧ (State.attach c).tmr = 0 ∧
    (State.attach c).att = 0 ∧ (State.attach c).priKind = c.priKind ∧ (State.attach c).hbwKind = c.hbwKind ∧
    (State.attach c).wakeKind = c.wakeKind

/-- R301: detach tears an idle Session down, and a new attach gives the registers of R300 again. What lies outside the Session
goes on (log entry 21); the values of the registers that the spec leaves unspecified are the model's (log entry 10). -/
def Obligations.DetachAndAttach : Prop :=
  ∀ (s : State) (c : Config) (rest : List Input),
    s.seq = .idle → s.attached = true → s.lock = .free → s.requests = [] → s.inputs = .detach :: .attach c :: rest →
    ∃ t u : State, step s = .next t ∧ step t = .next u ∧ t.attached = false ∧
      u = { State.attach c with
        now := u.now, mem := s.mem, requests := [], results := s.results, trace := s.trace, inputs := rest,
        clock := s.clock, freeCount := u.freeCount }

/-- R38, R303, and R32, an inference the spec marks as its own: while a Session is attached no step changes its configuration,
the table in it, or the transport selection. That a detach, too, leaves them as they are until the next attach is the model's (log
entry 21). -/
def Obligations.ConfigurationIsFixed : Prop :=
  ∀ s t : State, s.attached = true → step s = .next t →
    t.cfg = s.cfg ∧ t.priKind = s.priKind ∧ t.hbwKind = s.hbwKind ∧ t.wakeKind = s.wakeKind

/-- R35, and R36 and R305, inferences the spec marks as its own: no instruction but WAKEUP and its locked variant writes `CMODE` or
`WSTATE`, however it ends. -/
def Obligations.OnlyWakeupWritesModeAndState : Prop :=
  ∀ (s t : State) (i : Instr),
    (∀ q, i ≠ .wakeup q ∧ i ≠ .wakeupLocked q) → exec i s = .next t → t.cmode = s.cmode ∧ t.wstate = s.wstate

/-- R33, R47, R83: the status outputs show no response after attach; while a Session is attached no step invalidates the cached
response, and after every step the status outputs show the cached response and its timestamp exactly where it is valid, and
`CMODE` and `WSTATE` as they stand. That after a detach the registers keep their content (log entry 21) and the outputs go on
showing it (log entry 15) is the model's. -/
def Obligations.CacheStaysValid : Prop :=
  (∀ c : Config, (State.attach c).statusOutputs = ⟨none, none, false, .poll, .asleep⟩) ∧
  ∀ s t : State, s.attached = true → step s = .next t →
    (s.lastValid = true → t.lastValid = true) ∧
    (t.lastValid = true → t.statusOutputs = ⟨some t.lastResp, some t.lastTs, true, t.cmode, t.wstate⟩) ∧
    (t.lastValid = false → t.statusOutputs = ⟨none, none, false, t.cmode, t.wstate⟩)

/-- R141, and R285, an inference the spec marks as its own: how many command words an operation sends at most, however it ends:
one by EXECUTE and READ_BLOCK, two by a register operation, three for each attempt and one more by WAKEUP, one for each chunk
by WRITE_BLOCK. -/
def Obligations.SendsAreBounded : Prop :=
  ∀ (s t : State) (q : Nat) (w id value buf len : Word),
    (exec (.execute q w) s = .next t → sendCount t.trace ≤ sendCount s.trace + 1) ∧
    (exec (.readRegister q id) s = .next t → sendCount t.trace ≤ sendCount s.trace + 2) ∧
    (exec (.writeRegister q id value) s = .next t → sendCount t.trace ≤ sendCount s.trace + 2) ∧
    (exec (.readBlock q buf len id) s = .next t → sendCount t.trace ≤ sendCount s.trace + 1) ∧
    (exec (.writeBlock q buf len) s = .next t →
      sendCount t.trace ≤ sendCount s.trace + (len.toNat + s.cfg.maxChunk - 1) / s.cfg.maxChunk) ∧
    (exec (.wakeup q) s = .next t → sendCount t.trace ≤ sendCount s.trace + (3 * s.cfg.wakeBudget + 1))
end

