-- ==== Sys2Proof/Laws/Memory.lean ====
section
/-!
SUPPORT. The caller buffers: a read after a write, a write leaves every other address alone, and every memory operation keeps
the canonical form.
-/

namespace Sys2Proof.Machine

@[simp] theorem readByte_nil (a : Nat) : readByte [] a = unwrittenByte := rfl

/-- The entries of a written memory: the new one, or old ones. -/
theorem mem_writeByte {m : List Host.Cell} {a : Nat} {v : Byte} {c : Host.Cell} (h : c ∈ writeByte m a v) :
    (c = (a, v) ∧ v ≠ unwrittenByte) ∨ c ∈ m := by
  induction m with
  | nil => by_cases hv : v = unwrittenByte <;> simp_all [writeByte]
  | cons d rest ih =>
    simp only [writeByte] at h
    split at h
    · by_cases hv : v = unwrittenByte
      · simp only [hv, if_true] at h; exact .inr h
      · simp only [hv, if_false, List.mem_cons] at h
        rcases h with h | h
        · exact .inl ⟨h, hv⟩
        · exact .inr (by simpa using h)
    · split at h
      · by_cases hv : v = unwrittenByte
        · simp only [hv, if_true] at h; exact .inr (List.mem_cons_of_mem _ h)
        · simp only [hv, if_false, List.mem_cons] at h
          rcases h with h | h
          · exact .inl ⟨h, hv⟩
          · exact .inr (List.mem_cons_of_mem _ h)
      · rcases List.mem_cons.1 h with h | h
        · exact .inr (h ▸ List.mem_cons_self)
        · rcases ih h with h | h
          · exact .inl h
          · exact .inr (List.mem_cons_of_mem _ h)

theorem wf_nil : Memory.wf [] := by simp [Memory.wf]

theorem wf_tail {c : Host.Cell} {m : List Host.Cell} (h : Memory.wf (c :: m)) : Memory.wf m :=
  ⟨(List.pairwise_cons.1 h.1).2, fun d hd => h.2 d (List.mem_cons_of_mem _ hd)⟩

theorem wf_head {c : Host.Cell} {m : List Host.Cell} (h : Memory.wf (c :: m)) : ∀ d ∈ m, c.1 < d.1 :=
  (List.pairwise_cons.1 h.1).1

theorem wf_cons {c : Host.Cell} {m : List Host.Cell} (h : Memory.wf m) (hlt : ∀ d ∈ m, c.1 < d.1)
    (hv : c.2 ≠ unwrittenByte) : Memory.wf (c :: m) :=
  ⟨List.pairwise_cons.2 ⟨hlt, h.1⟩, fun d hd => by
    rcases List.mem_cons.1 hd with rfl | hd
    · exact hv
    · exact h.2 d hd⟩

/-- Writing a byte keeps the canonical form. -/
theorem writeByte_wf {m : List Host.Cell} (h : Memory.wf m) (a : Nat) (v : Byte) : Memory.wf (writeByte m a v) := by
  induction m with
  | nil =>
    by_cases hv : v = unwrittenByte
    · simpa [writeByte, hv] using wf_nil
    · simpa [writeByte, hv] using wf_cons wf_nil (by simp) hv
  | cons c rest ih =>
    have hh := wf_head h
    have ht := wf_tail h
    have hc := h.2 c List.mem_cons_self
    simp only [writeByte]
    split
    · next hlt =>
      by_cases hv : v = unwrittenByte
      · simpa [hv] using h
      · simp only [hv, if_false]
        refine wf_cons h (fun d hd => ?_) hv
        rcases List.mem_cons.1 hd with rfl | hd
        · exact hlt
        · exact lt_trans hlt (hh d hd)
    · next hlt =>
      split
      · next heq =>
        subst heq
        by_cases hv : v = unwrittenByte
        · simpa [hv] using ht
        · simp only [hv, if_false]
          exact wf_cons ht hh hv
      · next hne =>
        refine wf_cons (ih ht) (fun d hd => ?_) hc
        rcases mem_writeByte hd with ⟨rfl, -⟩ | hd
        · show c.1 < a
          omega
        · exact hh d hd

/-- Writing bytes keeps the canonical form. -/
theorem writeBytes_wf {m : List Host.Cell} (h : Memory.wf m) (a : Nat) (bs : List Byte) :
    Memory.wf (writeBytes m a bs) := by
  induction bs generalizing m a with
  | nil => exact h
  | cons b rest ih => exact ih (writeByte_wf h a b) (a + 1)

/-- An address below every entry of a canonical memory reads as unwritten. -/
theorem readByte_below {m : List Host.Cell} {a : Nat} (hlt : ∀ d ∈ m, a < d.1) : readByte m a = unwrittenByte := by
  induction m with
  | nil => rfl
  | cons c rest ih =>
    have := hlt c List.mem_cons_self
    simp only [readByte]
    rw [if_neg (by omega), ih fun d hd => hlt d (List.mem_cons_of_mem _ hd)]

/-- Reading the address just written gives the byte written. -/
theorem readByte_writeByte_same {m : List Host.Cell} (h : Memory.wf m) (a : Nat) (v : Byte) :
    readByte (writeByte m a v) a = v := by
  induction m with
  | nil => by_cases hv : v = unwrittenByte <;> simp [writeByte, readByte, hv]
  | cons c rest ih =>
    have hh := wf_head h
    simp only [writeByte]
    split
    · next hlt =>
      by_cases hv : v = unwrittenByte
      · simp only [hv, if_true]
        refine readByte_below fun d hd => ?_
        rcases List.mem_cons.1 hd with rfl | hd
        · exact hlt
        · exact lt_trans hlt (hh d hd)
      · simp [hv, readByte]
    · split
      · next heq =>
        subst heq
        by_cases hv : v = unwrittenByte
        · simp only [hv, if_true]
          exact readByte_below hh
        · simp [hv, readByte]
      · next hne => simp only [readByte]; rw [if_neg (fun e => hne e.symm)]; exact ih (wf_tail h)

/-- Writing a byte leaves every other address alone. -/
theorem readByte_writeByte_other {m : List Host.Cell} {a b : Nat} (hab : b ≠ a) (v : Byte) :
    readByte (writeByte m a v) b = readByte m b := by
  induction m with
  | nil => by_cases hv : v = unwrittenByte <;> simp [writeByte, readByte, hv, Ne.symm hab]
  | cons c rest ih =>
    simp only [writeByte]
    split
    · by_cases hv : v = unwrittenByte <;> simp [hv, readByte, Ne.symm hab]
    · split
      · next heq => by_cases hv : v = unwrittenByte <;> simp [hv, readByte, ← heq, Ne.symm hab]
      · simp only [readByte, ih]

/-- Writing bytes leaves every address outside them alone. -/
theorem readByte_writeBytes_other {m : List Host.Cell} {a b : Nat} {bs : List Byte}
    (h : b < a ∨ a + bs.length ≤ b) : readByte (writeBytes m a bs) b = readByte m b := by
  induction bs generalizing m a with
  | nil => rfl
  | cons v rest ih =>
    simp only [List.length_cons] at h
    rw [writeBytes, ih (by omega), readByte_writeByte_other (by omega)]

/-- Two writes, one after the other, are one write of both lists. -/
theorem writeBytes_append (m : List Host.Cell) (a : Nat) (xs ys : List Byte) :
    writeBytes m a (xs ++ ys) = writeBytes (writeBytes m a xs) (a + xs.length) ys := by
  induction xs generalizing m a with
  | nil => rfl
  | cons x rest ih => simp only [List.cons_append, writeBytes, ih, List.length_cons]; congr 1; omega

@[simp] theorem readBytes_length (m : List Host.Cell) (a n : Nat) : (readBytes m a n).length = n := by
  induction n generalizing a with
  | zero => rfl
  | succ n ih => simp [readBytes, ih]

/-- The memory after reset is canonical. -/
theorem reset_memory_wf : Memory.wf State.reset.mem := wf_nil

end Sys2Proof.Machine
end

