-- ==== Sys2Proof/Laws/State.lean ====
section
/-!
SUPPORT. One lemma per field per named update of State, each true by rfl, so that no later proof unfolds a record update.
-/

namespace Sys2Proof.Machine

/-! ### State.emit -/

@[simp] theorem State.emit_cfg (s : State) (e : Event) : (s.emit e).cfg = s.cfg := rfl
@[simp] theorem State.emit_attached (s : State) (e : Event) : (s.emit e).attached = s.attached := rfl
@[simp] theorem State.emit_seq (s : State) (e : Event) : (s.emit e).seq = s.seq := rfl
@[simp] theorem State.emit_lock (s : State) (e : Event) : (s.emit e).lock = s.lock := rfl
@[simp] theorem State.emit_pvote (s : State) (e : Event) : (s.emit e).pvote = s.pvote := rfl
@[simp] theorem State.emit_lastResp (s : State) (e : Event) : (s.emit e).lastResp = s.lastResp := rfl
@[simp] theorem State.emit_lastTs (s : State) (e : Event) : (s.emit e).lastTs = s.lastTs := rfl
@[simp] theorem State.emit_lastValid (s : State) (e : Event) : (s.emit e).lastValid = s.lastValid := rfl
@[simp] theorem State.emit_cmode (s : State) (e : Event) : (s.emit e).cmode = s.cmode := rfl
@[simp] theorem State.emit_wstate (s : State) (e : Event) : (s.emit e).wstate = s.wstate := rfl
@[simp] theorem State.emit_priKind (s : State) (e : Event) : (s.emit e).priKind = s.priKind := rfl
@[simp] theorem State.emit_hbwKind (s : State) (e : Event) : (s.emit e).hbwKind = s.hbwKind := rfl
@[simp] theorem State.emit_wakeKind (s : State) (e : Event) : (s.emit e).wakeKind = s.wakeKind := rfl
@[simp] theorem State.emit_pend (s : State) (e : Event) : (s.emit e).pend = s.pend := rfl
@[simp] theorem State.emit_cseen (s : State) (e : Event) : (s.emit e).cseen = s.cseen := rfl
@[simp] theorem State.emit_tmr (s : State) (e : Event) : (s.emit e).tmr = s.tmr := rfl
@[simp] theorem State.emit_dly (s : State) (e : Event) : (s.emit e).dly = s.dly := rfl
@[simp] theorem State.emit_att (s : State) (e : Event) : (s.emit e).att = s.att := rfl
@[simp] theorem State.emit_lastErr (s : State) (e : Event) : (s.emit e).lastErr = s.lastErr := rfl
@[simp] theorem State.emit_x0 (s : State) (e : Event) : (s.emit e).x0 = s.x0 := rfl
@[simp] theorem State.emit_x1 (s : State) (e : Event) : (s.emit e).x1 = s.x1 := rfl
@[simp] theorem State.emit_msglen (s : State) (e : Event) : (s.emit e).msglen = s.msglen := rfl
@[simp] theorem State.emit_resp (s : State) (e : Event) : (s.emit e).resp = s.resp := rfl
@[simp] theorem State.emit_dir (s : State) (e : Event) : (s.emit e).dir = s.dir := rfl
@[simp] theorem State.emit_reqlen (s : State) (e : Event) : (s.emit e).reqlen = s.reqlen := rfl
@[simp] theorem State.emit_dsz (s : State) (e : Event) : (s.emit e).dsz = s.dsz := rfl
@[simp] theorem State.emit_moved (s : State) (e : Event) : (s.emit e).moved = s.moved := rfl
@[simp] theorem State.emit_rem (s : State) (e : Event) : (s.emit e).rem = s.rem := rfl
@[simp] theorem State.emit_chunk (s : State) (e : Event) : (s.emit e).chunk = s.chunk := rfl
@[simp] theorem State.emit_xfer (s : State) (e : Event) : (s.emit e).xfer = s.xfer := rfl
@[simp] theorem State.emit_extra (s : State) (e : Event) : (s.emit e).extra = s.extra := rfl
@[simp] theorem State.emit_ackw (s : State) (e : Event) : (s.emit e).ackw = s.ackw := rfl
@[simp] theorem State.emit_ackcnt (s : State) (e : Event) : (s.emit e).ackcnt = s.ackcnt := rfl
@[simp] theorem State.emit_now (s : State) (e : Event) : (s.emit e).now = s.now := rfl
@[simp] theorem State.emit_mem (s : State) (e : Event) : (s.emit e).mem = s.mem := rfl
@[simp] theorem State.emit_requests (s : State) (e : Event) : (s.emit e).requests = s.requests := rfl
@[simp] theorem State.emit_results (s : State) (e : Event) : (s.emit e).results = s.results := rfl
@[simp] theorem State.emit_trace (s : State) (e : Event) : (s.emit e).trace = s.trace ++ [e] := rfl
@[simp] theorem State.emit_inputs (s : State) (e : Event) : (s.emit e).inputs = s.inputs := rfl
@[simp] theorem State.emit_clock (s : State) (e : Event) : (s.emit e).clock = s.clock := rfl
@[simp] theorem State.emit_freeCount (s : State) (e : Event) : (s.emit e).freeCount = s.freeCount := rfl
@[simp] theorem State.emit_wbufSet (s : State) (e : Event) : (s.emit e).wbufSet = s.wbufSet := rfl
@[simp] theorem State.emit_ackSet (s : State) (e : Event) : (s.emit e).ackSet = s.ackSet := rfl

/-! ### State.goto -/

@[simp] theorem State.goto_cfg (s : State) (p : Phase) : (s.goto p).cfg = s.cfg := rfl
@[simp] theorem State.goto_attached (s : State) (p : Phase) : (s.goto p).attached = s.attached := rfl
@[simp] theorem State.goto_seq (s : State) (p : Phase) : (s.goto p).seq = p := rfl
@[simp] theorem State.goto_lock (s : State) (p : Phase) : (s.goto p).lock = s.lock := rfl
@[simp] theorem State.goto_pvote (s : State) (p : Phase) : (s.goto p).pvote = s.pvote := rfl
@[simp] theorem State.goto_lastResp (s : State) (p : Phase) : (s.goto p).lastResp = s.lastResp := rfl
@[simp] theorem State.goto_lastTs (s : State) (p : Phase) : (s.goto p).lastTs = s.lastTs := rfl
@[simp] theorem State.goto_lastValid (s : State) (p : Phase) : (s.goto p).lastValid = s.lastValid := rfl
@[simp] theorem State.goto_cmode (s : State) (p : Phase) : (s.goto p).cmode = s.cmode := rfl
@[simp] theorem State.goto_wstate (s : State) (p : Phase) : (s.goto p).wstate = s.wstate := rfl
@[simp] theorem State.goto_priKind (s : State) (p : Phase) : (s.goto p).priKind = s.priKind := rfl
@[simp] theorem State.goto_hbwKind (s : State) (p : Phase) : (s.goto p).hbwKind = s.hbwKind := rfl
@[simp] theorem State.goto_wakeKind (s : State) (p : Phase) : (s.goto p).wakeKind = s.wakeKind := rfl
@[simp] theorem State.goto_pend (s : State) (p : Phase) : (s.goto p).pend = s.pend := rfl
@[simp] theorem State.goto_cseen (s : State) (p : Phase) : (s.goto p).cseen = s.cseen := rfl
@[simp] theorem State.goto_tmr (s : State) (p : Phase) : (s.goto p).tmr = s.tmr := rfl
@[simp] theorem State.goto_dly (s : State) (p : Phase) : (s.goto p).dly = s.dly := rfl
@[simp] theorem State.goto_att (s : State) (p : Phase) : (s.goto p).att = s.att := rfl
@[simp] theorem State.goto_lastErr (s : State) (p : Phase) : (s.goto p).lastErr = s.lastErr := rfl
@[simp] theorem State.goto_x0 (s : State) (p : Phase) : (s.goto p).x0 = s.x0 := rfl
@[simp] theorem State.goto_x1 (s : State) (p : Phase) : (s.goto p).x1 = s.x1 := rfl
@[simp] theorem State.goto_msglen (s : State) (p : Phase) : (s.goto p).msglen = s.msglen := rfl
@[simp] theorem State.goto_resp (s : State) (p : Phase) : (s.goto p).resp = s.resp := rfl
@[simp] theorem State.goto_dir (s : State) (p : Phase) : (s.goto p).dir = s.dir := rfl
@[simp] theorem State.goto_reqlen (s : State) (p : Phase) : (s.goto p).reqlen = s.reqlen := rfl
@[simp] theorem State.goto_dsz (s : State) (p : Phase) : (s.goto p).dsz = s.dsz := rfl
@[simp] theorem State.goto_moved (s : State) (p : Phase) : (s.goto p).moved = s.moved := rfl
@[simp] theorem State.goto_rem (s : State) (p : Phase) : (s.goto p).rem = s.rem := rfl
@[simp] theorem State.goto_chunk (s : State) (p : Phase) : (s.goto p).chunk = s.chunk := rfl
@[simp] theorem State.goto_xfer (s : State) (p : Phase) : (s.goto p).xfer = s.xfer := rfl
@[simp] theorem State.goto_extra (s : State) (p : Phase) : (s.goto p).extra = s.extra := rfl
@[simp] theorem State.goto_ackw (s : State) (p : Phase) : (s.goto p).ackw = s.ackw := rfl
@[simp] theorem State.goto_ackcnt (s : State) (p : Phase) : (s.goto p).ackcnt = s.ackcnt := rfl
@[simp] theorem State.goto_now (s : State) (p : Phase) : (s.goto p).now = s.now := rfl
@[simp] theorem State.goto_mem (s : State) (p : Phase) : (s.goto p).mem = s.mem := rfl
@[simp] theorem State.goto_requests (s : State) (p : Phase) : (s.goto p).requests = s.requests := rfl
@[simp] theorem State.goto_results (s : State) (p : Phase) : (s.goto p).results = s.results := rfl
@[simp] theorem State.goto_trace (s : State) (p : Phase) : (s.goto p).trace = s.trace := rfl
@[simp] theorem State.goto_inputs (s : State) (p : Phase) : (s.goto p).inputs = s.inputs := rfl
@[simp] theorem State.goto_clock (s : State) (p : Phase) : (s.goto p).clock = s.clock := rfl
@[simp] theorem State.goto_freeCount (s : State) (p : Phase) : (s.goto p).freeCount = s.freeCount := rfl
@[simp] theorem State.goto_wbufSet (s : State) (p : Phase) : (s.goto p).wbufSet = s.wbufSet := rfl
@[simp] theorem State.goto_ackSet (s : State) (p : Phase) : (s.goto p).ackSet = s.ackSet := rfl

/-! ### State.arm -/

@[simp] theorem State.arm_cfg (s : State) : (s.arm).cfg = s.cfg := rfl
@[simp] theorem State.arm_attached (s : State) : (s.arm).attached = s.attached := rfl
@[simp] theorem State.arm_seq (s : State) : (s.arm).seq = s.seq := rfl
@[simp] theorem State.arm_lock (s : State) : (s.arm).lock = s.lock := rfl
@[simp] theorem State.arm_pvote (s : State) : (s.arm).pvote = s.pvote := rfl
@[simp] theorem State.arm_lastResp (s : State) : (s.arm).lastResp = s.lastResp := rfl
@[simp] theorem State.arm_lastTs (s : State) : (s.arm).lastTs = s.lastTs := rfl
@[simp] theorem State.arm_lastValid (s : State) : (s.arm).lastValid = s.lastValid := rfl
@[simp] theorem State.arm_cmode (s : State) : (s.arm).cmode = s.cmode := rfl
@[simp] theorem State.arm_wstate (s : State) : (s.arm).wstate = s.wstate := rfl
@[simp] theorem State.arm_priKind (s : State) : (s.arm).priKind = s.priKind := rfl
@[simp] theorem State.arm_hbwKind (s : State) : (s.arm).hbwKind = s.hbwKind := rfl
@[simp] theorem State.arm_wakeKind (s : State) : (s.arm).wakeKind = s.wakeKind := rfl
@[simp] theorem State.arm_pend (s : State) : (s.arm).pend = true := rfl
@[simp] theorem State.arm_cseen (s : State) : (s.arm).cseen = false := rfl
@[simp] theorem State.arm_tmr (s : State) : (s.arm).tmr = s.tmr := rfl
@[simp] theorem State.arm_dly (s : State) : (s.arm).dly = s.dly := rfl
@[simp] theorem State.arm_att (s : State) : (s.arm).att = s.att := rfl
@[simp] theorem State.arm_lastErr (s : State) : (s.arm).lastErr = s.lastErr := rfl
@[simp] theorem State.arm_x0 (s : State) : (s.arm).x0 = s.x0 := rfl
@[simp] theorem State.arm_x1 (s : State) : (s.arm).x1 = s.x1 := rfl
@[simp] theorem State.arm_msglen (s : State) : (s.arm).msglen = s.msglen := rfl
@[simp] theorem State.arm_resp (s : State) : (s.arm).resp = s.resp := rfl
@[simp] theorem State.arm_dir (s : State) : (s.arm).dir = s.dir := rfl
@[simp] theorem State.arm_reqlen (s : State) : (s.arm).reqlen = s.reqlen := rfl
@[simp] theorem State.arm_dsz (s : State) : (s.arm).dsz = s.dsz := rfl
@[simp] theorem State.arm_moved (s : State) : (s.arm).moved = s.moved := rfl
@[simp] theorem State.arm_rem (s : State) : (s.arm).rem = s.rem := rfl
@[simp] theorem State.arm_chunk (s : State) : (s.arm).chunk = s.chunk := rfl
@[simp] theorem State.arm_xfer (s : State) : (s.arm).xfer = s.xfer := rfl
@[simp] theorem State.arm_extra (s : State) : (s.arm).extra = s.extra := rfl
@[simp] theorem State.arm_ackw (s : State) : (s.arm).ackw = s.ackw := rfl
@[simp] theorem State.arm_ackcnt (s : State) : (s.arm).ackcnt = s.ackcnt := rfl
@[simp] theorem State.arm_now (s : State) : (s.arm).now = s.now := rfl
@[simp] theorem State.arm_mem (s : State) : (s.arm).mem = s.mem := rfl
@[simp] theorem State.arm_requests (s : State) : (s.arm).requests = s.requests := rfl
@[simp] theorem State.arm_results (s : State) : (s.arm).results = s.results := rfl
@[simp] theorem State.arm_trace (s : State) : (s.arm).trace = s.trace ++ [.arm] := rfl
@[simp] theorem State.arm_inputs (s : State) : (s.arm).inputs = s.inputs := rfl
@[simp] theorem State.arm_clock (s : State) : (s.arm).clock = s.clock := rfl
@[simp] theorem State.arm_freeCount (s : State) : (s.arm).freeCount = s.freeCount := rfl
@[simp] theorem State.arm_wbufSet (s : State) : (s.arm).wbufSet = s.wbufSet := rfl
@[simp] theorem State.arm_ackSet (s : State) : (s.arm).ackSet = s.ackSet := rfl

/-! ### State.disarm -/

@[simp] theorem State.disarm_cfg (s : State) : (s.disarm).cfg = s.cfg := rfl
@[simp] theorem State.disarm_attached (s : State) : (s.disarm).attached = s.attached := rfl
@[simp] theorem State.disarm_seq (s : State) : (s.disarm).seq = s.seq := rfl
@[simp] theorem State.disarm_lock (s : State) : (s.disarm).lock = s.lock := rfl
@[simp] theorem State.disarm_pvote (s : State) : (s.disarm).pvote = s.pvote := rfl
@[simp] theorem State.disarm_lastResp (s : State) : (s.disarm).lastResp = s.lastResp := rfl
@[simp] theorem State.disarm_lastTs (s : State) : (s.disarm).lastTs = s.lastTs := rfl
@[simp] theorem State.disarm_lastValid (s : State) : (s.disarm).lastValid = s.lastValid := rfl
@[simp] theorem State.disarm_cmode (s : State) : (s.disarm).cmode = s.cmode := rfl
@[simp] theorem State.disarm_wstate (s : State) : (s.disarm).wstate = s.wstate := rfl
@[simp] theorem State.disarm_priKind (s : State) : (s.disarm).priKind = s.priKind := rfl
@[simp] theorem State.disarm_hbwKind (s : State) : (s.disarm).hbwKind = s.hbwKind := rfl
@[simp] theorem State.disarm_wakeKind (s : State) : (s.disarm).wakeKind = s.wakeKind := rfl
@[simp] theorem State.disarm_pend (s : State) : (s.disarm).pend = false := rfl
@[simp] theorem State.disarm_cseen (s : State) : (s.disarm).cseen = false := rfl
@[simp] theorem State.disarm_tmr (s : State) : (s.disarm).tmr = s.tmr := rfl
@[simp] theorem State.disarm_dly (s : State) : (s.disarm).dly = s.dly := rfl
@[simp] theorem State.disarm_att (s : State) : (s.disarm).att = s.att := rfl
@[simp] theorem State.disarm_lastErr (s : State) : (s.disarm).lastErr = s.lastErr := rfl
@[simp] theorem State.disarm_x0 (s : State) : (s.disarm).x0 = s.x0 := rfl
@[simp] theorem State.disarm_x1 (s : State) : (s.disarm).x1 = s.x1 := rfl
@[simp] theorem State.disarm_msglen (s : State) : (s.disarm).msglen = s.msglen := rfl
@[simp] theorem State.disarm_resp (s : State) : (s.disarm).resp = s.resp := rfl
@[simp] theorem State.disarm_dir (s : State) : (s.disarm).dir = s.dir := rfl
@[simp] theorem State.disarm_reqlen (s : State) : (s.disarm).reqlen = s.reqlen := rfl
@[simp] theorem State.disarm_dsz (s : State) : (s.disarm).dsz = s.dsz := rfl
@[simp] theorem State.disarm_moved (s : State) : (s.disarm).moved = s.moved := rfl
@[simp] theorem State.disarm_rem (s : State) : (s.disarm).rem = s.rem := rfl
@[simp] theorem State.disarm_chunk (s : State) : (s.disarm).chunk = s.chunk := rfl
@[simp] theorem State.disarm_xfer (s : State) : (s.disarm).xfer = s.xfer := rfl
@[simp] theorem State.disarm_extra (s : State) : (s.disarm).extra = s.extra := rfl
@[simp] theorem State.disarm_ackw (s : State) : (s.disarm).ackw = s.ackw := rfl
@[simp] theorem State.disarm_ackcnt (s : State) : (s.disarm).ackcnt = s.ackcnt := rfl
@[simp] theorem State.disarm_now (s : State) : (s.disarm).now = s.now := rfl
@[simp] theorem State.disarm_mem (s : State) : (s.disarm).mem = s.mem := rfl
@[simp] theorem State.disarm_requests (s : State) : (s.disarm).requests = s.requests := rfl
@[simp] theorem State.disarm_results (s : State) : (s.disarm).results = s.results := rfl
@[simp] theorem State.disarm_trace (s : State) : (s.disarm).trace = s.trace := rfl
@[simp] theorem State.disarm_inputs (s : State) : (s.disarm).inputs = s.inputs := rfl
@[simp] theorem State.disarm_clock (s : State) : (s.disarm).clock = s.clock := rfl
@[simp] theorem State.disarm_freeCount (s : State) : (s.disarm).freeCount = s.freeCount := rfl
@[simp] theorem State.disarm_wbufSet (s : State) : (s.disarm).wbufSet = s.wbufSet := rfl
@[simp] theorem State.disarm_ackSet (s : State) : (s.disarm).ackSet = s.ackSet := rfl

/-! ### State.completion -/

@[simp] theorem State.completion_cfg (s : State) : (s.completion).cfg = s.cfg := rfl
@[simp] theorem State.completion_attached (s : State) : (s.completion).attached = s.attached := rfl
@[simp] theorem State.completion_seq (s : State) : (s.completion).seq = s.seq := rfl
@[simp] theorem State.completion_lock (s : State) : (s.completion).lock = s.lock := rfl
@[simp] theorem State.completion_pvote (s : State) : (s.completion).pvote = s.pvote := rfl
@[simp] theorem State.completion_lastResp (s : State) : (s.completion).lastResp = s.lastResp := rfl
@[simp] theorem State.completion_lastTs (s : State) : (s.completion).lastTs = s.lastTs := rfl
@[simp] theorem State.completion_lastValid (s : State) : (s.completion).lastValid = s.lastValid := rfl
@[simp] theorem State.completion_cmode (s : State) : (s.completion).cmode = s.cmode := rfl
@[simp] theorem State.completion_wstate (s : State) : (s.completion).wstate = s.wstate := rfl
@[simp] theorem State.completion_priKind (s : State) : (s.completion).priKind = s.priKind := rfl
@[simp] theorem State.completion_hbwKind (s : State) : (s.completion).hbwKind = s.hbwKind := rfl
@[simp] theorem State.completion_wakeKind (s : State) : (s.completion).wakeKind = s.wakeKind := rfl
@[simp] theorem State.completion_pend (s : State) : (s.completion).pend = s.pend := rfl
@[simp] theorem State.completion_cseen (s : State) : (s.completion).cseen = (s.cseen || s.pend) := rfl
@[simp] theorem State.completion_tmr (s : State) : (s.completion).tmr = s.tmr := rfl
@[simp] theorem State.completion_dly (s : State) : (s.completion).dly = s.dly := rfl
@[simp] theorem State.completion_att (s : State) : (s.completion).att = s.att := rfl
@[simp] theorem State.completion_lastErr (s : State) : (s.completion).lastErr = s.lastErr := rfl
@[simp] theorem State.completion_x0 (s : State) : (s.completion).x0 = s.x0 := rfl
@[simp] theorem State.completion_x1 (s : State) : (s.completion).x1 = s.x1 := rfl
@[simp] theorem State.completion_msglen (s : State) : (s.completion).msglen = s.msglen := rfl
@[simp] theorem State.completion_resp (s : State) : (s.completion).resp = s.resp := rfl
@[simp] theorem State.completion_dir (s : State) : (s.completion).dir = s.dir := rfl
@[simp] theorem State.completion_reqlen (s : State) : (s.completion).reqlen = s.reqlen := rfl
@[simp] theorem State.completion_dsz (s : State) : (s.completion).dsz = s.dsz := rfl
@[simp] theorem State.completion_moved (s : State) : (s.completion).moved = s.moved := rfl
@[simp] theorem State.completion_rem (s : State) : (s.completion).rem = s.rem := rfl
@[simp] theorem State.completion_chunk (s : State) : (s.completion).chunk = s.chunk := rfl
@[simp] theorem State.completion_xfer (s : State) : (s.completion).xfer = s.xfer := rfl
@[simp] theorem State.completion_extra (s : State) : (s.completion).extra = s.extra := rfl
@[simp] theorem State.completion_ackw (s : State) : (s.completion).ackw = s.ackw := rfl
@[simp] theorem State.completion_ackcnt (s : State) : (s.completion).ackcnt = s.ackcnt := rfl
@[simp] theorem State.completion_now (s : State) : (s.completion).now = s.now := rfl
@[simp] theorem State.completion_mem (s : State) : (s.completion).mem = s.mem := rfl
@[simp] theorem State.completion_requests (s : State) : (s.completion).requests = s.requests := rfl
@[simp] theorem State.completion_results (s : State) : (s.completion).results = s.results := rfl
@[simp] theorem State.completion_trace (s : State) : (s.completion).trace = s.trace ++ [.completion] := rfl
@[simp] theorem State.completion_inputs (s : State) : (s.completion).inputs = s.inputs := rfl
@[simp] theorem State.completion_clock (s : State) : (s.completion).clock = s.clock := rfl
@[simp] theorem State.completion_freeCount (s : State) : (s.completion).freeCount = s.freeCount := rfl
@[simp] theorem State.completion_wbufSet (s : State) : (s.completion).wbufSet = s.wbufSet := rfl
@[simp] theorem State.completion_ackSet (s : State) : (s.completion).ackSet = s.ackSet := rfl

/-! ### State.latch -/

@[simp] theorem State.latch_cfg (s : State) (r : Word) : (s.latch r).cfg = s.cfg := rfl
@[simp] theorem State.latch_attached (s : State) (r : Word) : (s.latch r).attached = s.attached := rfl
@[simp] theorem State.latch_seq (s : State) (r : Word) : (s.latch r).seq = s.seq := rfl
@[simp] theorem State.latch_lock (s : State) (r : Word) : (s.latch r).lock = s.lock := rfl
@[simp] theorem State.latch_pvote (s : State) (r : Word) : (s.latch r).pvote = s.pvote := rfl
@[simp] theorem State.latch_lastResp (s : State) (r : Word) : (s.latch r).lastResp = r := rfl
@[simp] theorem State.latch_lastTs (s : State) (r : Word) : (s.latch r).lastTs = s.timestamp := rfl
@[simp] theorem State.latch_lastValid (s : State) (r : Word) : (s.latch r).lastValid = true := rfl
@[simp] theorem State.latch_cmode (s : State) (r : Word) : (s.latch r).cmode = s.cmode := rfl
@[simp] theorem State.latch_wstate (s : State) (r : Word) : (s.latch r).wstate = s.wstate := rfl
@[simp] theorem State.latch_priKind (s : State) (r : Word) : (s.latch r).priKind = s.priKind := rfl
@[simp] theorem State.latch_hbwKind (s : State) (r : Word) : (s.latch r).hbwKind = s.hbwKind := rfl
@[simp] theorem State.latch_wakeKind (s : State) (r : Word) : (s.latch r).wakeKind = s.wakeKind := rfl
@[simp] theorem State.latch_pend (s : State) (r : Word) : (s.latch r).pend = s.pend := rfl
@[simp] theorem State.latch_cseen (s : State) (r : Word) : (s.latch r).cseen = s.cseen := rfl
@[simp] theorem State.latch_tmr (s : State) (r : Word) : (s.latch r).tmr = s.tmr := rfl
@[simp] theorem State.latch_dly (s : State) (r : Word) : (s.latch r).dly = s.dly := rfl
@[simp] theorem State.latch_att (s : State) (r : Word) : (s.latch r).att = s.att := rfl
@[simp] theorem State.latch_lastErr (s : State) (r : Word) : (s.latch r).lastErr = s.lastErr := rfl
@[simp] theorem State.latch_x0 (s : State) (r : Word) : (s.latch r).x0 = s.x0 := rfl
@[simp] theorem State.latch_x1 (s : State) (r : Word) : (s.latch r).x1 = s.x1 := rfl
@[simp] theorem State.latch_msglen (s : State) (r : Word) : (s.latch r).msglen = s.msglen := rfl
@[simp] theorem State.latch_resp (s : State) (r : Word) : (s.latch r).resp = r := rfl
@[simp] theorem State.latch_dir (s : State) (r : Word) : (s.latch r).dir = s.dir := rfl
@[simp] theorem State.latch_reqlen (s : State) (r : Word) : (s.latch r).reqlen = s.reqlen := rfl
@[simp] theorem State.latch_dsz (s : State) (r : Word) : (s.latch r).dsz = s.dsz := rfl
@[simp] theorem State.latch_moved (s : State) (r : Word) : (s.latch r).moved = s.moved := rfl
@[simp] theorem State.latch_rem (s : State) (r : Word) : (s.latch r).rem = s.rem := rfl
@[simp] theorem State.latch_chunk (s : State) (r : Word) : (s.latch r).chunk = s.chunk := rfl
@[simp] theorem State.latch_xfer (s : State) (r : Word) : (s.latch r).xfer = s.xfer := rfl
@[simp] theorem State.latch_extra (s : State) (r : Word) : (s.latch r).extra = s.extra := rfl
@[simp] theorem State.latch_ackw (s : State) (r : Word) : (s.latch r).ackw = s.ackw := rfl
@[simp] theorem State.latch_ackcnt (s : State) (r : Word) : (s.latch r).ackcnt = s.ackcnt := rfl
@[simp] theorem State.latch_now (s : State) (r : Word) : (s.latch r).now = s.now := rfl
@[simp] theorem State.latch_mem (s : State) (r : Word) : (s.latch r).mem = s.mem := rfl
@[simp] theorem State.latch_requests (s : State) (r : Word) : (s.latch r).requests = s.requests := rfl
@[simp] theorem State.latch_results (s : State) (r : Word) : (s.latch r).results = s.results := rfl
@[simp] theorem State.latch_trace (s : State) (r : Word) : (s.latch r).trace = s.trace := rfl
@[simp] theorem State.latch_inputs (s : State) (r : Word) : (s.latch r).inputs = s.inputs := rfl
@[simp] theorem State.latch_clock (s : State) (r : Word) : (s.latch r).clock = s.clock := rfl
@[simp] theorem State.latch_freeCount (s : State) (r : Word) : (s.latch r).freeCount = s.freeCount := rfl
@[simp] theorem State.latch_wbufSet (s : State) (r : Word) : (s.latch r).wbufSet = s.wbufSet := rfl
@[simp] theorem State.latch_ackSet (s : State) (r : Word) : (s.latch r).ackSet = s.ackSet := rfl

/-! ### State.countFrom -/

@[simp] theorem State.countFrom_cfg (s : State) (n : Nat) : (s.countFrom n).cfg = s.cfg := rfl
@[simp] theorem State.countFrom_attached (s : State) (n : Nat) : (s.countFrom n).attached = s.attached := rfl
@[simp] theorem State.countFrom_seq (s : State) (n : Nat) : (s.countFrom n).seq = s.seq := rfl
@[simp] theorem State.countFrom_lock (s : State) (n : Nat) : (s.countFrom n).lock = s.lock := rfl
@[simp] theorem State.countFrom_pvote (s : State) (n : Nat) : (s.countFrom n).pvote = s.pvote := rfl
@[simp] theorem State.countFrom_lastResp (s : State) (n : Nat) : (s.countFrom n).lastResp = s.lastResp := rfl
@[simp] theorem State.countFrom_lastTs (s : State) (n : Nat) : (s.countFrom n).lastTs = s.lastTs := rfl
@[simp] theorem State.countFrom_lastValid (s : State) (n : Nat) : (s.countFrom n).lastValid = s.lastValid := rfl
@[simp] theorem State.countFrom_cmode (s : State) (n : Nat) : (s.countFrom n).cmode = s.cmode := rfl
@[simp] theorem State.countFrom_wstate (s : State) (n : Nat) : (s.countFrom n).wstate = s.wstate := rfl
@[simp] theorem State.countFrom_priKind (s : State) (n : Nat) : (s.countFrom n).priKind = s.priKind := rfl
@[simp] theorem State.countFrom_hbwKind (s : State) (n : Nat) : (s.countFrom n).hbwKind = s.hbwKind := rfl
@[simp] theorem State.countFrom_wakeKind (s : State) (n : Nat) : (s.countFrom n).wakeKind = s.wakeKind := rfl
@[simp] theorem State.countFrom_pend (s : State) (n : Nat) : (s.countFrom n).pend = s.pend := rfl
@[simp] theorem State.countFrom_cseen (s : State) (n : Nat) : (s.countFrom n).cseen = s.cseen := rfl
@[simp] theorem State.countFrom_tmr (s : State) (n : Nat) : (s.countFrom n).tmr = s.tmr := rfl
@[simp] theorem State.countFrom_dly (s : State) (n : Nat) : (s.countFrom n).dly = s.dly := rfl
@[simp] theorem State.countFrom_att (s : State) (n : Nat) : (s.countFrom n).att = s.att := rfl
@[simp] theorem State.countFrom_lastErr (s : State) (n : Nat) : (s.countFrom n).lastErr = s.lastErr := rfl
@[simp] theorem State.countFrom_x0 (s : State) (n : Nat) : (s.countFrom n).x0 = s.x0 := rfl
@[simp] theorem State.countFrom_x1 (s : State) (n : Nat) : (s.countFrom n).x1 = s.x1 := rfl
@[simp] theorem State.countFrom_msglen (s : State) (n : Nat) : (s.countFrom n).msglen = s.msglen := rfl
@[simp] theorem State.countFrom_resp (s : State) (n : Nat) : (s.countFrom n).resp = s.resp := rfl
@[simp] theorem State.countFrom_dir (s : State) (n : Nat) : (s.countFrom n).dir = s.dir := rfl
@[simp] theorem State.countFrom_reqlen (s : State) (n : Nat) : (s.countFrom n).reqlen = s.reqlen := rfl
@[simp] theorem State.countFrom_dsz (s : State) (n : Nat) : (s.countFrom n).dsz = s.dsz := rfl
@[simp] theorem State.countFrom_moved (s : State) (n : Nat) : (s.countFrom n).moved = s.moved := rfl
@[simp] theorem State.countFrom_rem (s : State) (n : Nat) : (s.countFrom n).rem = s.rem := rfl
@[simp] theorem State.countFrom_chunk (s : State) (n : Nat) : (s.countFrom n).chunk = s.chunk := rfl
@[simp] theorem State.countFrom_xfer (s : State) (n : Nat) : (s.countFrom n).xfer = s.xfer := rfl
@[simp] theorem State.countFrom_extra (s : State) (n : Nat) : (s.countFrom n).extra = s.extra := rfl
@[simp] theorem State.countFrom_ackw (s : State) (n : Nat) : (s.countFrom n).ackw = s.ackw := rfl
@[simp] theorem State.countFrom_ackcnt (s : State) (n : Nat) : (s.countFrom n).ackcnt = n := rfl
@[simp] theorem State.countFrom_now (s : State) (n : Nat) : (s.countFrom n).now = s.now := rfl
@[simp] theorem State.countFrom_mem (s : State) (n : Nat) : (s.countFrom n).mem = s.mem := rfl
@[simp] theorem State.countFrom_requests (s : State) (n : Nat) : (s.countFrom n).requests = s.requests := rfl
@[simp] theorem State.countFrom_results (s : State) (n : Nat) : (s.countFrom n).results = s.results := rfl
@[simp] theorem State.countFrom_trace (s : State) (n : Nat) : (s.countFrom n).trace = s.trace := rfl
@[simp] theorem State.countFrom_inputs (s : State) (n : Nat) : (s.countFrom n).inputs = s.inputs := rfl
@[simp] theorem State.countFrom_clock (s : State) (n : Nat) : (s.countFrom n).clock = s.clock := rfl
@[simp] theorem State.countFrom_freeCount (s : State) (n : Nat) : (s.countFrom n).freeCount = s.freeCount := rfl
@[simp] theorem State.countFrom_wbufSet (s : State) (n : Nat) : (s.countFrom n).wbufSet = s.wbufSet := rfl
@[simp] theorem State.countFrom_ackSet (s : State) (n : Nat) : (s.countFrom n).ackSet = true := rfl

/-! ### State.takeAck -/

@[simp] theorem State.takeAck_cfg (s : State) (a : Word) : (s.takeAck a).cfg = s.cfg := rfl
@[simp] theorem State.takeAck_attached (s : State) (a : Word) : (s.takeAck a).attached = s.attached := rfl
@[simp] theorem State.takeAck_seq (s : State) (a : Word) : (s.takeAck a).seq = s.seq := rfl
@[simp] theorem State.takeAck_lock (s : State) (a : Word) : (s.takeAck a).lock = s.lock := rfl
@[simp] theorem State.takeAck_pvote (s : State) (a : Word) : (s.takeAck a).pvote = s.pvote := rfl
@[simp] theorem State.takeAck_lastResp (s : State) (a : Word) : (s.takeAck a).lastResp = s.lastResp := rfl
@[simp] theorem State.takeAck_lastTs (s : State) (a : Word) : (s.takeAck a).lastTs = s.lastTs := rfl
@[simp] theorem State.takeAck_lastValid (s : State) (a : Word) : (s.takeAck a).lastValid = s.lastValid := rfl
@[simp] theorem State.takeAck_cmode (s : State) (a : Word) : (s.takeAck a).cmode = s.cmode := rfl
@[simp] theorem State.takeAck_wstate (s : State) (a : Word) : (s.takeAck a).wstate = s.wstate := rfl
@[simp] theorem State.takeAck_priKind (s : State) (a : Word) : (s.takeAck a).priKind = s.priKind := rfl
@[simp] theorem State.takeAck_hbwKind (s : State) (a : Word) : (s.takeAck a).hbwKind = s.hbwKind := rfl
@[simp] theorem State.takeAck_wakeKind (s : State) (a : Word) : (s.takeAck a).wakeKind = s.wakeKind := rfl
@[simp] theorem State.takeAck_pend (s : State) (a : Word) : (s.takeAck a).pend = s.pend := rfl
@[simp] theorem State.takeAck_cseen (s : State) (a : Word) : (s.takeAck a).cseen = s.cseen := rfl
@[simp] theorem State.takeAck_tmr (s : State) (a : Word) : (s.takeAck a).tmr = s.tmr := rfl
@[simp] theorem State.takeAck_dly (s : State) (a : Word) : (s.takeAck a).dly = s.dly := rfl
@[simp] theorem State.takeAck_att (s : State) (a : Word) : (s.takeAck a).att = s.att := rfl
@[simp] theorem State.takeAck_lastErr (s : State) (a : Word) : (s.takeAck a).lastErr = s.lastErr := rfl
@[simp] theorem State.takeAck_x0 (s : State) (a : Word) : (s.takeAck a).x0 = s.x0 := rfl
@[simp] theorem State.takeAck_x1 (s : State) (a : Word) : (s.takeAck a).x1 = s.x1 := rfl
@[simp] theorem State.takeAck_msglen (s : State) (a : Word) : (s.takeAck a).msglen = s.msglen := rfl
@[simp] theorem State.takeAck_resp (s : State) (a : Word) : (s.takeAck a).resp = s.resp := rfl
@[simp] theorem State.takeAck_dir (s : State) (a : Word) : (s.takeAck a).dir = s.dir := rfl
@[simp] theorem State.takeAck_reqlen (s : State) (a : Word) : (s.takeAck a).reqlen = s.reqlen := rfl
@[simp] theorem State.takeAck_dsz (s : State) (a : Word) : (s.takeAck a).dsz = s.dsz := rfl
@[simp] theorem State.takeAck_moved (s : State) (a : Word) : (s.takeAck a).moved = s.moved := rfl
@[simp] theorem State.takeAck_rem (s : State) (a : Word) : (s.takeAck a).rem = s.rem := rfl
@[simp] theorem State.takeAck_chunk (s : State) (a : Word) : (s.takeAck a).chunk = s.chunk := rfl
@[simp] theorem State.takeAck_xfer (s : State) (a : Word) : (s.takeAck a).xfer = s.xfer := rfl
@[simp] theorem State.takeAck_extra (s : State) (a : Word) : (s.takeAck a).extra = s.extra := rfl
@[simp] theorem State.takeAck_ackw (s : State) (a : Word) : (s.takeAck a).ackw = a := rfl
@[simp] theorem State.takeAck_ackcnt (s : State) (a : Word) : (s.takeAck a).ackcnt = s.ackcnt + 1 := rfl
@[simp] theorem State.takeAck_now (s : State) (a : Word) : (s.takeAck a).now = s.now := rfl
@[simp] theorem State.takeAck_mem (s : State) (a : Word) : (s.takeAck a).mem = s.mem := rfl
@[simp] theorem State.takeAck_requests (s : State) (a : Word) : (s.takeAck a).requests = s.requests := rfl
@[simp] theorem State.takeAck_results (s : State) (a : Word) : (s.takeAck a).results = s.results := rfl
@[simp] theorem State.takeAck_trace (s : State) (a : Word) : (s.takeAck a).trace = s.trace := rfl
@[simp] theorem State.takeAck_inputs (s : State) (a : Word) : (s.takeAck a).inputs = s.inputs := rfl
@[simp] theorem State.takeAck_clock (s : State) (a : Word) : (s.takeAck a).clock = s.clock := rfl
@[simp] theorem State.takeAck_freeCount (s : State) (a : Word) : (s.takeAck a).freeCount = s.freeCount := rfl
@[simp] theorem State.takeAck_wbufSet (s : State) (a : Word) : (s.takeAck a).wbufSet = s.wbufSet := rfl
@[simp] theorem State.takeAck_ackSet (s : State) (a : Word) : (s.takeAck a).ackSet = s.ackSet := rfl

/-! ### State.advanceChunk -/

@[simp] theorem State.advanceChunk_cfg (s : State) : (s.advanceChunk).cfg = s.cfg := rfl
@[simp] theorem State.advanceChunk_attached (s : State) : (s.advanceChunk).attached = s.attached := rfl
@[simp] theorem State.advanceChunk_seq (s : State) : (s.advanceChunk).seq = s.seq := rfl
@[simp] theorem State.advanceChunk_lock (s : State) : (s.advanceChunk).lock = s.lock := rfl
@[simp] theorem State.advanceChunk_pvote (s : State) : (s.advanceChunk).pvote = s.pvote := rfl
@[simp] theorem State.advanceChunk_lastResp (s : State) : (s.advanceChunk).lastResp = s.lastResp := rfl
@[simp] theorem State.advanceChunk_lastTs (s : State) : (s.advanceChunk).lastTs = s.lastTs := rfl
@[simp] theorem State.advanceChunk_lastValid (s : State) : (s.advanceChunk).lastValid = s.lastValid := rfl
@[simp] theorem State.advanceChunk_cmode (s : State) : (s.advanceChunk).cmode = s.cmode := rfl
@[simp] theorem State.advanceChunk_wstate (s : State) : (s.advanceChunk).wstate = s.wstate := rfl
@[simp] theorem State.advanceChunk_priKind (s : State) : (s.advanceChunk).priKind = s.priKind := rfl
@[simp] theorem State.advanceChunk_hbwKind (s : State) : (s.advanceChunk).hbwKind = s.hbwKind := rfl
@[simp] theorem State.advanceChunk_wakeKind (s : State) : (s.advanceChunk).wakeKind = s.wakeKind := rfl
@[simp] theorem State.advanceChunk_pend (s : State) : (s.advanceChunk).pend = s.pend := rfl
@[simp] theorem State.advanceChunk_cseen (s : State) : (s.advanceChunk).cseen = s.cseen := rfl
@[simp] theorem State.advanceChunk_tmr (s : State) : (s.advanceChunk).tmr = s.tmr := rfl
@[simp] theorem State.advanceChunk_dly (s : State) : (s.advanceChunk).dly = s.dly := rfl
@[simp] theorem State.advanceChunk_att (s : State) : (s.advanceChunk).att = s.att := rfl
@[simp] theorem State.advanceChunk_lastErr (s : State) : (s.advanceChunk).lastErr = s.lastErr := rfl
@[simp] theorem State.advanceChunk_x0 (s : State) : (s.advanceChunk).x0 = s.x0 := rfl
@[simp] theorem State.advanceChunk_x1 (s : State) : (s.advanceChunk).x1 = s.x1 := rfl
@[simp] theorem State.advanceChunk_msglen (s : State) : (s.advanceChunk).msglen = s.msglen := rfl
@[simp] theorem State.advanceChunk_resp (s : State) : (s.advanceChunk).resp = s.resp := rfl
@[simp] theorem State.advanceChunk_dir (s : State) : (s.advanceChunk).dir = s.dir := rfl
@[simp] theorem State.advanceChunk_reqlen (s : State) : (s.advanceChunk).reqlen = s.reqlen := rfl
@[simp] theorem State.advanceChunk_dsz (s : State) : (s.advanceChunk).dsz = s.dsz := rfl
@[simp] theorem State.advanceChunk_moved (s : State) : (s.advanceChunk).moved = s.moved + zext32 s.chunk := rfl
@[simp] theorem State.advanceChunk_rem (s : State) : (s.advanceChunk).rem = s.rem - zext32 s.chunk := rfl
@[simp] theorem State.advanceChunk_chunk (s : State) : (s.advanceChunk).chunk = s.chunk := rfl
@[simp] theorem State.advanceChunk_xfer (s : State) : (s.advanceChunk).xfer = s.xfer := rfl
@[simp] theorem State.advanceChunk_extra (s : State) : (s.advanceChunk).extra = s.extra := rfl
@[simp] theorem State.advanceChunk_ackw (s : State) : (s.advanceChunk).ackw = s.ackw := rfl
@[simp] theorem State.advanceChunk_ackcnt (s : State) : (s.advanceChunk).ackcnt = s.ackcnt := rfl
@[simp] theorem State.advanceChunk_now (s : State) : (s.advanceChunk).now = s.now := rfl
@[simp] theorem State.advanceChunk_mem (s : State) : (s.advanceChunk).mem = s.mem := rfl
@[simp] theorem State.advanceChunk_requests (s : State) : (s.advanceChunk).requests = s.requests := rfl
@[simp] theorem State.advanceChunk_results (s : State) : (s.advanceChunk).results = s.results := rfl
@[simp] theorem State.advanceChunk_trace (s : State) : (s.advanceChunk).trace = s.trace := rfl
@[simp] theorem State.advanceChunk_inputs (s : State) : (s.advanceChunk).inputs = s.inputs := rfl
@[simp] theorem State.advanceChunk_clock (s : State) : (s.advanceChunk).clock = s.clock := rfl
@[simp] theorem State.advanceChunk_freeCount (s : State) : (s.advanceChunk).freeCount = s.freeCount := rfl
@[simp] theorem State.advanceChunk_wbufSet (s : State) : (s.advanceChunk).wbufSet = s.wbufSet := rfl
@[simp] theorem State.advanceChunk_ackSet (s : State) : (s.advanceChunk).ackSet = s.ackSet := rfl

/-! ### State.endOperation -/

@[simp] theorem State.endOperation_cfg (s : State) (q : Nat) (r : HRes) : (s.endOperation q r).cfg = s.cfg := rfl
@[simp] theorem State.endOperation_attached (s : State) (q : Nat) (r : HRes) : (s.endOperation q r).attached = s.attached := rfl
@[simp] theorem State.endOperation_seq (s : State) (q : Nat) (r : HRes) : (s.endOperation q r).seq = .idle := rfl
@[simp] theorem State.endOperation_lock (s : State) (q : Nat) (r : HRes) : (s.endOperation q r).lock = s.lock := rfl
@[simp] theorem State.endOperation_pvote (s : State) (q : Nat) (r : HRes) : (s.endOperation q r).pvote = s.pvote := rfl
@[simp] theorem State.endOperation_lastResp (s : State) (q : Nat) (r : HRes) : (s.endOperation q r).lastResp = s.lastResp := rfl
@[simp] theorem State.endOperation_lastTs (s : State) (q : Nat) (r : HRes) : (s.endOperation q r).lastTs = s.lastTs := rfl
@[simp] theorem State.endOperation_lastValid (s : State) (q : Nat) (r : HRes) : (s.endOperation q r).lastValid = s.lastValid := rfl
@[simp] theorem State.endOperation_cmode (s : State) (q : Nat) (r : HRes) : (s.endOperation q r).cmode = s.cmode := rfl
@[simp] theorem State.endOperation_wstate (s : State) (q : Nat) (r : HRes) : (s.endOperation q r).wstate = s.wstate := rfl
@[simp] theorem State.endOperation_priKind (s : State) (q : Nat) (r : HRes) : (s.endOperation q r).priKind = s.priKind := rfl
@[simp] theorem State.endOperation_hbwKind (s : State) (q : Nat) (r : HRes) : (s.endOperation q r).hbwKind = s.hbwKind := rfl
@[simp] theorem State.endOperation_wakeKind (s : State) (q : Nat) (r : HRes) : (s.endOperation q r).wakeKind = s.wakeKind := rfl
@[simp] theorem State.endOperation_pend (s : State) (q : Nat) (r : HRes) : (s.endOperation q r).pend = s.pend := rfl
@[simp] theorem State.endOperation_cseen (s : State) (q : Nat) (r : HRes) : (s.endOperation q r).cseen = s.cseen := rfl
@[simp] theorem State.endOperation_tmr (s : State) (q : Nat) (r : HRes) : (s.endOperation q r).tmr = s.tmr := rfl
@[simp] theorem State.endOperation_dly (s : State) (q : Nat) (r : HRes) : (s.endOperation q r).dly = s.dly := rfl
@[simp] theorem State.endOperation_att (s : State) (q : Nat) (r : HRes) : (s.endOperation q r).att = s.att := rfl
@[simp] theorem State.endOperation_lastErr (s : State) (q : Nat) (r : HRes) : (s.endOperation q r).lastErr = s.lastErr := rfl
@[simp] theorem State.endOperation_x0 (s : State) (q : Nat) (r : HRes) : (s.endOperation q r).x0 = s.x0 := rfl
@[simp] theorem State.endOperation_x1 (s : State) (q : Nat) (r : HRes) : (s.endOperation q r).x1 = s.x1 := rfl
@[simp] theorem State.endOperation_msglen (s : State) (q : Nat) (r : HRes) : (s.endOperation q r).msglen = s.msglen := rfl
@[simp] theorem State.endOperation_resp (s : State) (q : Nat) (r : HRes) : (s.endOperation q r).resp = s.resp := rfl
@[simp] theorem State.endOperation_dir (s : State) (q : Nat) (r : HRes) : (s.endOperation q r).dir = s.dir := rfl
@[simp] theorem State.endOperation_reqlen (s : State) (q : Nat) (r : HRes) : (s.endOperation q r).reqlen = s.reqlen := rfl
@[simp] theorem State.endOperation_dsz (s : State) (q : Nat) (r : HRes) : (s.endOperation q r).dsz = s.dsz := rfl
@[simp] theorem State.endOperation_moved (s : State) (q : Nat) (r : HRes) : (s.endOperation q r).moved = s.moved := rfl
@[simp] theorem State.endOperation_rem (s : State) (q : Nat) (r : HRes) : (s.endOperation q r).rem = s.rem := rfl
@[simp] theorem State.endOperation_chunk (s : State) (q : Nat) (r : HRes) : (s.endOperation q r).chunk = s.chunk := rfl
@[simp] theorem State.endOperation_xfer (s : State) (q : Nat) (r : HRes) : (s.endOperation q r).xfer = s.xfer := rfl
@[simp] theorem State.endOperation_extra (s : State) (q : Nat) (r : HRes) : (s.endOperation q r).extra = s.extra := rfl
@[simp] theorem State.endOperation_ackw (s : State) (q : Nat) (r : HRes) : (s.endOperation q r).ackw = s.ackw := rfl
@[simp] theorem State.endOperation_ackcnt (s : State) (q : Nat) (r : HRes) : (s.endOperation q r).ackcnt = s.ackcnt := rfl
@[simp] theorem State.endOperation_now (s : State) (q : Nat) (r : HRes) : (s.endOperation q r).now = s.now := rfl
@[simp] theorem State.endOperation_mem (s : State) (q : Nat) (r : HRes) : (s.endOperation q r).mem = s.mem := rfl
@[simp] theorem State.endOperation_requests (s : State) (q : Nat) (r : HRes) : (s.endOperation q r).requests = s.requests := rfl
@[simp] theorem State.endOperation_results (s : State) (q : Nat) (r : HRes) : (s.endOperation q r).results = s.results ++ [(q, r)] := rfl
@[simp] theorem State.endOperation_trace (s : State) (q : Nat) (r : HRes) : (s.endOperation q r).trace = s.trace := rfl
@[simp] theorem State.endOperation_inputs (s : State) (q : Nat) (r : HRes) : (s.endOperation q r).inputs = s.inputs := rfl
@[simp] theorem State.endOperation_clock (s : State) (q : Nat) (r : HRes) : (s.endOperation q r).clock = s.clock := rfl
@[simp] theorem State.endOperation_freeCount (s : State) (q : Nat) (r : HRes) : (s.endOperation q r).freeCount = s.freeCount := rfl
@[simp] theorem State.endOperation_wbufSet (s : State) (q : Nat) (r : HRes) : (s.endOperation q r).wbufSet = s.wbufSet := rfl
@[simp] theorem State.endOperation_ackSet (s : State) (q : Nat) (r : HRes) : (s.endOperation q r).ackSet = s.ackSet := rfl

/-! ### State.nextChunk -/

@[simp] theorem State.nextChunk_cfg (s : State) : (s.nextChunk).cfg = s.cfg := rfl
@[simp] theorem State.nextChunk_attached (s : State) : (s.nextChunk).attached = s.attached := rfl
@[simp] theorem State.nextChunk_seq (s : State) : (s.nextChunk).seq = .wbCmd := rfl
@[simp] theorem State.nextChunk_lock (s : State) : (s.nextChunk).lock = s.lock := rfl
@[simp] theorem State.nextChunk_pvote (s : State) : (s.nextChunk).pvote = s.pvote := rfl
@[simp] theorem State.nextChunk_lastResp (s : State) : (s.nextChunk).lastResp = s.lastResp := rfl
@[simp] theorem State.nextChunk_lastTs (s : State) : (s.nextChunk).lastTs = s.lastTs := rfl
@[simp] theorem State.nextChunk_lastValid (s : State) : (s.nextChunk).lastValid = s.lastValid := rfl
@[simp] theorem State.nextChunk_cmode (s : State) : (s.nextChunk).cmode = s.cmode := rfl
@[simp] theorem State.nextChunk_wstate (s : State) : (s.nextChunk).wstate = s.wstate := rfl
@[simp] theorem State.nextChunk_priKind (s : State) : (s.nextChunk).priKind = s.priKind := rfl
@[simp] theorem State.nextChunk_hbwKind (s : State) : (s.nextChunk).hbwKind = s.hbwKind := rfl
@[simp] theorem State.nextChunk_wakeKind (s : State) : (s.nextChunk).wakeKind = s.wakeKind := rfl
@[simp] theorem State.nextChunk_pend (s : State) : (s.nextChunk).pend = s.pend := rfl
@[simp] theorem State.nextChunk_cseen (s : State) : (s.nextChunk).cseen = s.cseen := rfl
@[simp] theorem State.nextChunk_tmr (s : State) : (s.nextChunk).tmr = s.tmr := rfl
@[simp] theorem State.nextChunk_dly (s : State) : (s.nextChunk).dly = s.dly := rfl
@[simp] theorem State.nextChunk_att (s : State) : (s.nextChunk).att = s.att := rfl
@[simp] theorem State.nextChunk_lastErr (s : State) : (s.nextChunk).lastErr = s.lastErr := rfl
@[simp] theorem State.nextChunk_x0 (s : State) : (s.nextChunk).x0 = s.x0 := rfl
@[simp] theorem State.nextChunk_x1 (s : State) : (s.nextChunk).x1 = s.x1 := rfl
@[simp] theorem State.nextChunk_msglen (s : State) : (s.nextChunk).msglen = s.msglen := rfl
@[simp] theorem State.nextChunk_resp (s : State) : (s.nextChunk).resp = s.resp := rfl
@[simp] theorem State.nextChunk_dir (s : State) : (s.nextChunk).dir = s.dir := rfl
@[simp] theorem State.nextChunk_reqlen (s : State) : (s.nextChunk).reqlen = s.reqlen := rfl
@[simp] theorem State.nextChunk_dsz (s : State) : (s.nextChunk).dsz = s.dsz := rfl
@[simp] theorem State.nextChunk_moved (s : State) : (s.nextChunk).moved = s.moved := rfl
@[simp] theorem State.nextChunk_rem (s : State) : (s.nextChunk).rem = s.rem := rfl
@[simp] theorem State.nextChunk_chunk (s : State) : (s.nextChunk).chunk = BitVec.ofNat 16 (min s.rem.toNat s.cfg.maxChunk) := rfl
@[simp] theorem State.nextChunk_xfer (s : State) : (s.nextChunk).xfer = s.xfer := rfl
@[simp] theorem State.nextChunk_extra (s : State) : (s.nextChunk).extra = s.extra := rfl
@[simp] theorem State.nextChunk_ackw (s : State) : (s.nextChunk).ackw = s.ackw := rfl
@[simp] theorem State.nextChunk_ackcnt (s : State) : (s.nextChunk).ackcnt = s.ackcnt := rfl
@[simp] theorem State.nextChunk_now (s : State) : (s.nextChunk).now = s.now := rfl
@[simp] theorem State.nextChunk_mem (s : State) : (s.nextChunk).mem = s.mem := rfl
@[simp] theorem State.nextChunk_requests (s : State) : (s.nextChunk).requests = s.requests := rfl
@[simp] theorem State.nextChunk_results (s : State) : (s.nextChunk).results = s.results := rfl
@[simp] theorem State.nextChunk_trace (s : State) : (s.nextChunk).trace = s.trace := rfl
@[simp] theorem State.nextChunk_inputs (s : State) : (s.nextChunk).inputs = s.inputs := rfl
@[simp] theorem State.nextChunk_clock (s : State) : (s.nextChunk).clock = s.clock := rfl
@[simp] theorem State.nextChunk_freeCount (s : State) : (s.nextChunk).freeCount = s.freeCount := rfl
@[simp] theorem State.nextChunk_wbufSet (s : State) : (s.nextChunk).wbufSet = s.wbufSet := rfl
@[simp] theorem State.nextChunk_ackSet (s : State) : (s.nextChunk).ackSet = s.ackSet := rfl

/-! ### State.startWrite -/

@[simp] theorem State.startWrite_cfg (s : State) (len : Word) : (s.startWrite len).cfg = s.cfg := rfl
@[simp] theorem State.startWrite_attached (s : State) (len : Word) : (s.startWrite len).attached = s.attached := rfl
@[simp] theorem State.startWrite_seq (s : State) (len : Word) : (s.startWrite len).seq = .wbOpen := rfl
@[simp] theorem State.startWrite_lock (s : State) (len : Word) : (s.startWrite len).lock = s.lock := rfl
@[simp] theorem State.startWrite_pvote (s : State) (len : Word) : (s.startWrite len).pvote = s.pvote := rfl
@[simp] theorem State.startWrite_lastResp (s : State) (len : Word) : (s.startWrite len).lastResp = s.lastResp := rfl
@[simp] theorem State.startWrite_lastTs (s : State) (len : Word) : (s.startWrite len).lastTs = s.lastTs := rfl
@[simp] theorem State.startWrite_lastValid (s : State) (len : Word) : (s.startWrite len).lastValid = s.lastValid := rfl
@[simp] theorem State.startWrite_cmode (s : State) (len : Word) : (s.startWrite len).cmode = s.cmode := rfl
@[simp] theorem State.startWrite_wstate (s : State) (len : Word) : (s.startWrite len).wstate = s.wstate := rfl
@[simp] theorem State.startWrite_priKind (s : State) (len : Word) : (s.startWrite len).priKind = s.priKind := rfl
@[simp] theorem State.startWrite_hbwKind (s : State) (len : Word) : (s.startWrite len).hbwKind = s.hbwKind := rfl
@[simp] theorem State.startWrite_wakeKind (s : State) (len : Word) : (s.startWrite len).wakeKind = s.wakeKind := rfl
@[simp] theorem State.startWrite_pend (s : State) (len : Word) : (s.startWrite len).pend = s.pend := rfl
@[simp] theorem State.startWrite_cseen (s : State) (len : Word) : (s.startWrite len).cseen = s.cseen := rfl
@[simp] theorem State.startWrite_tmr (s : State) (len : Word) : (s.startWrite len).tmr = s.tmr := rfl
@[simp] theorem State.startWrite_dly (s : State) (len : Word) : (s.startWrite len).dly = s.dly := rfl
@[simp] theorem State.startWrite_att (s : State) (len : Word) : (s.startWrite len).att = s.att := rfl
@[simp] theorem State.startWrite_lastErr (s : State) (len : Word) : (s.startWrite len).lastErr = s.lastErr := rfl
@[simp] theorem State.startWrite_x0 (s : State) (len : Word) : (s.startWrite len).x0 = s.x0 := rfl
@[simp] theorem State.startWrite_x1 (s : State) (len : Word) : (s.startWrite len).x1 = s.x1 := rfl
@[simp] theorem State.startWrite_msglen (s : State) (len : Word) : (s.startWrite len).msglen = s.msglen := rfl
@[simp] theorem State.startWrite_resp (s : State) (len : Word) : (s.startWrite len).resp = s.resp := rfl
@[simp] theorem State.startWrite_dir (s : State) (len : Word) : (s.startWrite len).dir = .write := rfl
@[simp] theorem State.startWrite_reqlen (s : State) (len : Word) : (s.startWrite len).reqlen = len := rfl
@[simp] theorem State.startWrite_dsz (s : State) (len : Word) : (s.startWrite len).dsz = s.dsz := rfl
@[simp] theorem State.startWrite_moved (s : State) (len : Word) : (s.startWrite len).moved = 0 := rfl
@[simp] theorem State.startWrite_rem (s : State) (len : Word) : (s.startWrite len).rem = len := rfl
@[simp] theorem State.startWrite_chunk (s : State) (len : Word) : (s.startWrite len).chunk = s.chunk := rfl
@[simp] theorem State.startWrite_xfer (s : State) (len : Word) : (s.startWrite len).xfer = s.xfer := rfl
@[simp] theorem State.startWrite_extra (s : State) (len : Word) : (s.startWrite len).extra = s.extra := rfl
@[simp] theorem State.startWrite_ackw (s : State) (len : Word) : (s.startWrite len).ackw = s.ackw := rfl
@[simp] theorem State.startWrite_ackcnt (s : State) (len : Word) : (s.startWrite len).ackcnt = s.ackcnt := rfl
@[simp] theorem State.startWrite_now (s : State) (len : Word) : (s.startWrite len).now = s.now := rfl
@[simp] theorem State.startWrite_mem (s : State) (len : Word) : (s.startWrite len).mem = s.mem := rfl
@[simp] theorem State.startWrite_requests (s : State) (len : Word) : (s.startWrite len).requests = s.requests := rfl
@[simp] theorem State.startWrite_results (s : State) (len : Word) : (s.startWrite len).results = s.results := rfl
@[simp] theorem State.startWrite_trace (s : State) (len : Word) : (s.startWrite len).trace = s.trace := rfl
@[simp] theorem State.startWrite_inputs (s : State) (len : Word) : (s.startWrite len).inputs = s.inputs := rfl
@[simp] theorem State.startWrite_clock (s : State) (len : Word) : (s.startWrite len).clock = s.clock := rfl
@[simp] theorem State.startWrite_freeCount (s : State) (len : Word) : (s.startWrite len).freeCount = s.freeCount := rfl
@[simp] theorem State.startWrite_wbufSet (s : State) (len : Word) : (s.startWrite len).wbufSet = s.wbufSet := rfl
@[simp] theorem State.startWrite_ackSet (s : State) (len : Word) : (s.startWrite len).ackSet = s.ackSet := rfl

/-! ### State.startRead -/

@[simp] theorem State.startRead_cfg (s : State) (len : Word) : (s.startRead len).cfg = s.cfg := rfl
@[simp] theorem State.startRead_attached (s : State) (len : Word) : (s.startRead len).attached = s.attached := rfl
@[simp] theorem State.startRead_seq (s : State) (len : Word) : (s.startRead len).seq = .rbOpen := rfl
@[simp] theorem State.startRead_lock (s : State) (len : Word) : (s.startRead len).lock = s.lock := rfl
@[simp] theorem State.startRead_pvote (s : State) (len : Word) : (s.startRead len).pvote = s.pvote := rfl
@[simp] theorem State.startRead_lastResp (s : State) (len : Word) : (s.startRead len).lastResp = s.lastResp := rfl
@[simp] theorem State.startRead_lastTs (s : State) (len : Word) : (s.startRead len).lastTs = s.lastTs := rfl
@[simp] theorem State.startRead_lastValid (s : State) (len : Word) : (s.startRead len).lastValid = s.lastValid := rfl
@[simp] theorem State.startRead_cmode (s : State) (len : Word) : (s.startRead len).cmode = s.cmode := rfl
@[simp] theorem State.startRead_wstate (s : State) (len : Word) : (s.startRead len).wstate = s.wstate := rfl
@[simp] theorem State.startRead_priKind (s : State) (len : Word) : (s.startRead len).priKind = s.priKind := rfl
@[simp] theorem State.startRead_hbwKind (s : State) (len : Word) : (s.startRead len).hbwKind = s.hbwKind := rfl
@[simp] theorem State.startRead_wakeKind (s : State) (len : Word) : (s.startRead len).wakeKind = s.wakeKind := rfl
@[simp] theorem State.startRead_pend (s : State) (len : Word) : (s.startRead len).pend = s.pend := rfl
@[simp] theorem State.startRead_cseen (s : State) (len : Word) : (s.startRead len).cseen = s.cseen := rfl
@[simp] theorem State.startRead_tmr (s : State) (len : Word) : (s.startRead len).tmr = s.tmr := rfl
@[simp] theorem State.startRead_dly (s : State) (len : Word) : (s.startRead len).dly = s.dly := rfl
@[simp] theorem State.startRead_att (s : State) (len : Word) : (s.startRead len).att = s.att := rfl
@[simp] theorem State.startRead_lastErr (s : State) (len : Word) : (s.startRead len).lastErr = s.lastErr := rfl
@[simp] theorem State.startRead_x0 (s : State) (len : Word) : (s.startRead len).x0 = s.x0 := rfl
@[simp] theorem State.startRead_x1 (s : State) (len : Word) : (s.startRead len).x1 = s.x1 := rfl
@[simp] theorem State.startRead_msglen (s : State) (len : Word) : (s.startRead len).msglen = s.msglen := rfl
@[simp] theorem State.startRead_resp (s : State) (len : Word) : (s.startRead len).resp = s.resp := rfl
@[simp] theorem State.startRead_dir (s : State) (len : Word) : (s.startRead len).dir = .read := rfl
@[simp] theorem State.startRead_reqlen (s : State) (len : Word) : (s.startRead len).reqlen = len := rfl
@[simp] theorem State.startRead_dsz (s : State) (len : Word) : (s.startRead len).dsz = s.dsz := rfl
@[simp] theorem State.startRead_moved (s : State) (len : Word) : (s.startRead len).moved = 0 := rfl
@[simp] theorem State.startRead_rem (s : State) (len : Word) : (s.startRead len).rem = s.rem := rfl
@[simp] theorem State.startRead_chunk (s : State) (len : Word) : (s.startRead len).chunk = s.chunk := rfl
@[simp] theorem State.startRead_xfer (s : State) (len : Word) : (s.startRead len).xfer = s.xfer := rfl
@[simp] theorem State.startRead_extra (s : State) (len : Word) : (s.startRead len).extra = s.extra := rfl
@[simp] theorem State.startRead_ackw (s : State) (len : Word) : (s.startRead len).ackw = s.ackw := rfl
@[simp] theorem State.startRead_ackcnt (s : State) (len : Word) : (s.startRead len).ackcnt = s.ackcnt := rfl
@[simp] theorem State.startRead_now (s : State) (len : Word) : (s.startRead len).now = s.now := rfl
@[simp] theorem State.startRead_mem (s : State) (len : Word) : (s.startRead len).mem = s.mem := rfl
@[simp] theorem State.startRead_requests (s : State) (len : Word) : (s.startRead len).requests = s.requests := rfl
@[simp] theorem State.startRead_results (s : State) (len : Word) : (s.startRead len).results = s.results := rfl
@[simp] theorem State.startRead_trace (s : State) (len : Word) : (s.startRead len).trace = s.trace := rfl
@[simp] theorem State.startRead_inputs (s : State) (len : Word) : (s.startRead len).inputs = s.inputs := rfl
@[simp] theorem State.startRead_clock (s : State) (len : Word) : (s.startRead len).clock = s.clock := rfl
@[simp] theorem State.startRead_freeCount (s : State) (len : Word) : (s.startRead len).freeCount = s.freeCount := rfl
@[simp] theorem State.startRead_wbufSet (s : State) (len : Word) : (s.startRead len).wbufSet = s.wbufSet := rfl
@[simp] theorem State.startRead_ackSet (s : State) (len : Word) : (s.startRead len).ackSet = s.ackSet := rfl

/-! ### State.place -/

@[simp] theorem State.place_cfg (s : State) (buf : Word) (bytes : List Byte) : (s.place buf bytes).cfg = s.cfg := rfl
@[simp] theorem State.place_attached (s : State) (buf : Word) (bytes : List Byte) : (s.place buf bytes).attached = s.attached := rfl
@[simp] theorem State.place_seq (s : State) (buf : Word) (bytes : List Byte) : (s.place buf bytes).seq = s.seq := rfl
@[simp] theorem State.place_lock (s : State) (buf : Word) (bytes : List Byte) : (s.place buf bytes).lock = s.lock := rfl
@[simp] theorem State.place_pvote (s : State) (buf : Word) (bytes : List Byte) : (s.place buf bytes).pvote = s.pvote := rfl
@[simp] theorem State.place_lastResp (s : State) (buf : Word) (bytes : List Byte) : (s.place buf bytes).lastResp = s.lastResp := rfl
@[simp] theorem State.place_lastTs (s : State) (buf : Word) (bytes : List Byte) : (s.place buf bytes).lastTs = s.lastTs := rfl
@[simp] theorem State.place_lastValid (s : State) (buf : Word) (bytes : List Byte) : (s.place buf bytes).lastValid = s.lastValid := rfl
@[simp] theorem State.place_cmode (s : State) (buf : Word) (bytes : List Byte) : (s.place buf bytes).cmode = s.cmode := rfl
@[simp] theorem State.place_wstate (s : State) (buf : Word) (bytes : List Byte) : (s.place buf bytes).wstate = s.wstate := rfl
@[simp] theorem State.place_priKind (s : State) (buf : Word) (bytes : List Byte) : (s.place buf bytes).priKind = s.priKind := rfl
@[simp] theorem State.place_hbwKind (s : State) (buf : Word) (bytes : List Byte) : (s.place buf bytes).hbwKind = s.hbwKind := rfl
@[simp] theorem State.place_wakeKind (s : State) (buf : Word) (bytes : List Byte) : (s.place buf bytes).wakeKind = s.wakeKind := rfl
@[simp] theorem State.place_pend (s : State) (buf : Word) (bytes : List Byte) : (s.place buf bytes).pend = s.pend := rfl
@[simp] theorem State.place_cseen (s : State) (buf : Word) (bytes : List Byte) : (s.place buf bytes).cseen = s.cseen := rfl
@[simp] theorem State.place_tmr (s : State) (buf : Word) (bytes : List Byte) : (s.place buf bytes).tmr = s.tmr := rfl
@[simp] theorem State.place_dly (s : State) (buf : Word) (bytes : List Byte) : (s.place buf bytes).dly = s.dly := rfl
@[simp] theorem State.place_att (s : State) (buf : Word) (bytes : List Byte) : (s.place buf bytes).att = s.att := rfl
@[simp] theorem State.place_lastErr (s : State) (buf : Word) (bytes : List Byte) : (s.place buf bytes).lastErr = s.lastErr := rfl
@[simp] theorem State.place_x0 (s : State) (buf : Word) (bytes : List Byte) : (s.place buf bytes).x0 = s.x0 := rfl
@[simp] theorem State.place_x1 (s : State) (buf : Word) (bytes : List Byte) : (s.place buf bytes).x1 = s.x1 := rfl
@[simp] theorem State.place_msglen (s : State) (buf : Word) (bytes : List Byte) : (s.place buf bytes).msglen = s.msglen := rfl
@[simp] theorem State.place_resp (s : State) (buf : Word) (bytes : List Byte) : (s.place buf bytes).resp = s.resp := rfl
@[simp] theorem State.place_dir (s : State) (buf : Word) (bytes : List Byte) : (s.place buf bytes).dir = s.dir := rfl
@[simp] theorem State.place_reqlen (s : State) (buf : Word) (bytes : List Byte) : (s.place buf bytes).reqlen = s.reqlen := rfl
@[simp] theorem State.place_dsz (s : State) (buf : Word) (bytes : List Byte) : (s.place buf bytes).dsz = s.dsz := rfl
@[simp] theorem State.place_moved (s : State) (buf : Word) (bytes : List Byte) : (s.place buf bytes).moved = s.moved + BitVec.ofNat 32 bytes.length := rfl
@[simp] theorem State.place_rem (s : State) (buf : Word) (bytes : List Byte) : (s.place buf bytes).rem = s.rem := rfl
@[simp] theorem State.place_chunk (s : State) (buf : Word) (bytes : List Byte) : (s.place buf bytes).chunk = s.chunk := rfl
@[simp] theorem State.place_xfer (s : State) (buf : Word) (bytes : List Byte) : (s.place buf bytes).xfer = s.xfer := rfl
@[simp] theorem State.place_extra (s : State) (buf : Word) (bytes : List Byte) : (s.place buf bytes).extra = s.extra := rfl
@[simp] theorem State.place_ackw (s : State) (buf : Word) (bytes : List Byte) : (s.place buf bytes).ackw = s.ackw := rfl
@[simp] theorem State.place_ackcnt (s : State) (buf : Word) (bytes : List Byte) : (s.place buf bytes).ackcnt = s.ackcnt := rfl
@[simp] theorem State.place_now (s : State) (buf : Word) (bytes : List Byte) : (s.place buf bytes).now = s.now := rfl
@[simp] theorem State.place_mem (s : State) (buf : Word) (bytes : List Byte) : (s.place buf bytes).mem = writeBytes s.mem (bufferAddress buf s.moved.toNat) bytes := rfl
@[simp] theorem State.place_requests (s : State) (buf : Word) (bytes : List Byte) : (s.place buf bytes).requests = s.requests := rfl
@[simp] theorem State.place_results (s : State) (buf : Word) (bytes : List Byte) : (s.place buf bytes).results = s.results := rfl
@[simp] theorem State.place_trace (s : State) (buf : Word) (bytes : List Byte) : (s.place buf bytes).trace = s.trace := rfl
@[simp] theorem State.place_inputs (s : State) (buf : Word) (bytes : List Byte) : (s.place buf bytes).inputs = s.inputs := rfl
@[simp] theorem State.place_clock (s : State) (buf : Word) (bytes : List Byte) : (s.place buf bytes).clock = s.clock := rfl
@[simp] theorem State.place_freeCount (s : State) (buf : Word) (bytes : List Byte) : (s.place buf bytes).freeCount = s.freeCount := rfl
@[simp] theorem State.place_wbufSet (s : State) (buf : Word) (bytes : List Byte) : (s.place buf bytes).wbufSet = s.wbufSet := rfl
@[simp] theorem State.place_ackSet (s : State) (buf : Word) (bytes : List Byte) : (s.place buf bytes).ackSet = s.ackSet := rfl

/-! ### State.enter -/

@[simp] theorem State.enter_cfg (s : State) (w : WState) : (s.enter w).cfg = s.cfg := rfl
@[simp] theorem State.enter_attached (s : State) (w : WState) : (s.enter w).attached = s.attached := rfl
@[simp] theorem State.enter_seq (s : State) (w : WState) : (s.enter w).seq = s.seq := rfl
@[simp] theorem State.enter_lock (s : State) (w : WState) : (s.enter w).lock = s.lock := rfl
@[simp] theorem State.enter_pvote (s : State) (w : WState) : (s.enter w).pvote = s.pvote := rfl
@[simp] theorem State.enter_lastResp (s : State) (w : WState) : (s.enter w).lastResp = s.lastResp := rfl
@[simp] theorem State.enter_lastTs (s : State) (w : WState) : (s.enter w).lastTs = s.lastTs := rfl
@[simp] theorem State.enter_lastValid (s : State) (w : WState) : (s.enter w).lastValid = s.lastValid := rfl
@[simp] theorem State.enter_cmode (s : State) (w : WState) : (s.enter w).cmode = s.cmode := rfl
@[simp] theorem State.enter_wstate (s : State) (w : WState) : (s.enter w).wstate = w := rfl
@[simp] theorem State.enter_priKind (s : State) (w : WState) : (s.enter w).priKind = s.priKind := rfl
@[simp] theorem State.enter_hbwKind (s : State) (w : WState) : (s.enter w).hbwKind = s.hbwKind := rfl
@[simp] theorem State.enter_wakeKind (s : State) (w : WState) : (s.enter w).wakeKind = s.wakeKind := rfl
@[simp] theorem State.enter_pend (s : State) (w : WState) : (s.enter w).pend = s.pend := rfl
@[simp] theorem State.enter_cseen (s : State) (w : WState) : (s.enter w).cseen = s.cseen := rfl
@[simp] theorem State.enter_tmr (s : State) (w : WState) : (s.enter w).tmr = s.tmr := rfl
@[simp] theorem State.enter_dly (s : State) (w : WState) : (s.enter w).dly = s.dly := rfl
@[simp] theorem State.enter_att (s : State) (w : WState) : (s.enter w).att = s.att := rfl
@[simp] theorem State.enter_lastErr (s : State) (w : WState) : (s.enter w).lastErr = s.lastErr := rfl
@[simp] theorem State.enter_x0 (s : State) (w : WState) : (s.enter w).x0 = s.x0 := rfl
@[simp] theorem State.enter_x1 (s : State) (w : WState) : (s.enter w).x1 = s.x1 := rfl
@[simp] theorem State.enter_msglen (s : State) (w : WState) : (s.enter w).msglen = s.msglen := rfl
@[simp] theorem State.enter_resp (s : State) (w : WState) : (s.enter w).resp = s.resp := rfl
@[simp] theorem State.enter_dir (s : State) (w : WState) : (s.enter w).dir = s.dir := rfl
@[simp] theorem State.enter_reqlen (s : State) (w : WState) : (s.enter w).reqlen = s.reqlen := rfl
@[simp] theorem State.enter_dsz (s : State) (w : WState) : (s.enter w).dsz = s.dsz := rfl
@[simp] theorem State.enter_moved (s : State) (w : WState) : (s.enter w).moved = s.moved := rfl
@[simp] theorem State.enter_rem (s : State) (w : WState) : (s.enter w).rem = s.rem := rfl
@[simp] theorem State.enter_chunk (s : State) (w : WState) : (s.enter w).chunk = s.chunk := rfl
@[simp] theorem State.enter_xfer (s : State) (w : WState) : (s.enter w).xfer = s.xfer := rfl
@[simp] theorem State.enter_extra (s : State) (w : WState) : (s.enter w).extra = s.extra := rfl
@[simp] theorem State.enter_ackw (s : State) (w : WState) : (s.enter w).ackw = s.ackw := rfl
@[simp] theorem State.enter_ackcnt (s : State) (w : WState) : (s.enter w).ackcnt = s.ackcnt := rfl
@[simp] theorem State.enter_now (s : State) (w : WState) : (s.enter w).now = s.now := rfl
@[simp] theorem State.enter_mem (s : State) (w : WState) : (s.enter w).mem = s.mem := rfl
@[simp] theorem State.enter_requests (s : State) (w : WState) : (s.enter w).requests = s.requests := rfl
@[simp] theorem State.enter_results (s : State) (w : WState) : (s.enter w).results = s.results := rfl
@[simp] theorem State.enter_trace (s : State) (w : WState) : (s.enter w).trace = s.trace := rfl
@[simp] theorem State.enter_inputs (s : State) (w : WState) : (s.enter w).inputs = s.inputs := rfl
@[simp] theorem State.enter_clock (s : State) (w : WState) : (s.enter w).clock = s.clock := rfl
@[simp] theorem State.enter_freeCount (s : State) (w : WState) : (s.enter w).freeCount = s.freeCount := rfl
@[simp] theorem State.enter_wbufSet (s : State) (w : WState) : (s.enter w).wbufSet = s.wbufSet := rfl
@[simp] theorem State.enter_ackSet (s : State) (w : WState) : (s.enter w).ackSet = s.ackSet := rfl

/-! ### State.startAttempt -/

@[simp] theorem State.startAttempt_cfg (s : State) : (s.startAttempt).cfg = s.cfg := rfl
@[simp] theorem State.startAttempt_attached (s : State) : (s.startAttempt).attached = s.attached := rfl
@[simp] theorem State.startAttempt_seq (s : State) : (s.startAttempt).seq = s.seq := rfl
@[simp] theorem State.startAttempt_lock (s : State) : (s.startAttempt).lock = s.lock := rfl
@[simp] theorem State.startAttempt_pvote (s : State) : (s.startAttempt).pvote = s.pvote := rfl
@[simp] theorem State.startAttempt_lastResp (s : State) : (s.startAttempt).lastResp = s.lastResp := rfl
@[simp] theorem State.startAttempt_lastTs (s : State) : (s.startAttempt).lastTs = s.lastTs := rfl
@[simp] theorem State.startAttempt_lastValid (s : State) : (s.startAttempt).lastValid = s.lastValid := rfl
@[simp] theorem State.startAttempt_cmode (s : State) : (s.startAttempt).cmode = s.cmode := rfl
@[simp] theorem State.startAttempt_wstate (s : State) : (s.startAttempt).wstate = .asleep := rfl
@[simp] theorem State.startAttempt_priKind (s : State) : (s.startAttempt).priKind = s.priKind := rfl
@[simp] theorem State.startAttempt_hbwKind (s : State) : (s.startAttempt).hbwKind = s.hbwKind := rfl
@[simp] theorem State.startAttempt_wakeKind (s : State) : (s.startAttempt).wakeKind = s.wakeKind := rfl
@[simp] theorem State.startAttempt_pend (s : State) : (s.startAttempt).pend = s.pend := rfl
@[simp] theorem State.startAttempt_cseen (s : State) : (s.startAttempt).cseen = s.cseen := rfl
@[simp] theorem State.startAttempt_tmr (s : State) : (s.startAttempt).tmr = s.tmr := rfl
@[simp] theorem State.startAttempt_dly (s : State) : (s.startAttempt).dly = s.dly := rfl
@[simp] theorem State.startAttempt_att (s : State) : (s.startAttempt).att = s.att + 1 := rfl
@[simp] theorem State.startAttempt_lastErr (s : State) : (s.startAttempt).lastErr = s.lastErr := rfl
@[simp] theorem State.startAttempt_x0 (s : State) : (s.startAttempt).x0 = s.x0 := rfl
@[simp] theorem State.startAttempt_x1 (s : State) : (s.startAttempt).x1 = s.x1 := rfl
@[simp] theorem State.startAttempt_msglen (s : State) : (s.startAttempt).msglen = s.msglen := rfl
@[simp] theorem State.startAttempt_resp (s : State) : (s.startAttempt).resp = s.resp := rfl
@[simp] theorem State.startAttempt_dir (s : State) : (s.startAttempt).dir = s.dir := rfl
@[simp] theorem State.startAttempt_reqlen (s : State) : (s.startAttempt).reqlen = s.reqlen := rfl
@[simp] theorem State.startAttempt_dsz (s : State) : (s.startAttempt).dsz = s.dsz := rfl
@[simp] theorem State.startAttempt_moved (s : State) : (s.startAttempt).moved = s.moved := rfl
@[simp] theorem State.startAttempt_rem (s : State) : (s.startAttempt).rem = s.rem := rfl
@[simp] theorem State.startAttempt_chunk (s : State) : (s.startAttempt).chunk = s.chunk := rfl
@[simp] theorem State.startAttempt_xfer (s : State) : (s.startAttempt).xfer = s.xfer := rfl
@[simp] theorem State.startAttempt_extra (s : State) : (s.startAttempt).extra = s.extra := rfl
@[simp] theorem State.startAttempt_ackw (s : State) : (s.startAttempt).ackw = s.ackw := rfl
@[simp] theorem State.startAttempt_ackcnt (s : State) : (s.startAttempt).ackcnt = s.ackcnt := rfl
@[simp] theorem State.startAttempt_now (s : State) : (s.startAttempt).now = s.now := rfl
@[simp] theorem State.startAttempt_mem (s : State) : (s.startAttempt).mem = s.mem := rfl
@[simp] theorem State.startAttempt_requests (s : State) : (s.startAttempt).requests = s.requests := rfl
@[simp] theorem State.startAttempt_results (s : State) : (s.startAttempt).results = s.results := rfl
@[simp] theorem State.startAttempt_trace (s : State) : (s.startAttempt).trace = s.trace := rfl
@[simp] theorem State.startAttempt_inputs (s : State) : (s.startAttempt).inputs = s.inputs := rfl
@[simp] theorem State.startAttempt_clock (s : State) : (s.startAttempt).clock = s.clock := rfl
@[simp] theorem State.startAttempt_freeCount (s : State) : (s.startAttempt).freeCount = s.freeCount := rfl
@[simp] theorem State.startAttempt_wbufSet (s : State) : (s.startAttempt).wbufSet = s.wbufSet := rfl
@[simp] theorem State.startAttempt_ackSet (s : State) : (s.startAttempt).ackSet = s.ackSet := rfl

/-! ### State.failAttempt -/

@[simp] theorem State.failAttempt_cfg (s : State) (e : Err) : (s.failAttempt e).cfg = s.cfg := rfl
@[simp] theorem State.failAttempt_attached (s : State) (e : Err) : (s.failAttempt e).attached = s.attached := rfl
@[simp] theorem State.failAttempt_seq (s : State) (e : Err) : (s.failAttempt e).seq = .wkFailAttempt := rfl
@[simp] theorem State.failAttempt_lock (s : State) (e : Err) : (s.failAttempt e).lock = s.lock := rfl
@[simp] theorem State.failAttempt_pvote (s : State) (e : Err) : (s.failAttempt e).pvote = s.pvote := rfl
@[simp] theorem State.failAttempt_lastResp (s : State) (e : Err) : (s.failAttempt e).lastResp = s.lastResp := rfl
@[simp] theorem State.failAttempt_lastTs (s : State) (e : Err) : (s.failAttempt e).lastTs = s.lastTs := rfl
@[simp] theorem State.failAttempt_lastValid (s : State) (e : Err) : (s.failAttempt e).lastValid = s.lastValid := rfl
@[simp] theorem State.failAttempt_cmode (s : State) (e : Err) : (s.failAttempt e).cmode = .poll := rfl
@[simp] theorem State.failAttempt_wstate (s : State) (e : Err) : (s.failAttempt e).wstate = s.wstate := rfl
@[simp] theorem State.failAttempt_priKind (s : State) (e : Err) : (s.failAttempt e).priKind = s.priKind := rfl
@[simp] theorem State.failAttempt_hbwKind (s : State) (e : Err) : (s.failAttempt e).hbwKind = s.hbwKind := rfl
@[simp] theorem State.failAttempt_wakeKind (s : State) (e : Err) : (s.failAttempt e).wakeKind = s.wakeKind := rfl
@[simp] theorem State.failAttempt_pend (s : State) (e : Err) : (s.failAttempt e).pend = s.pend := rfl
@[simp] theorem State.failAttempt_cseen (s : State) (e : Err) : (s.failAttempt e).cseen = s.cseen := rfl
@[simp] theorem State.failAttempt_tmr (s : State) (e : Err) : (s.failAttempt e).tmr = s.tmr := rfl
@[simp] theorem State.failAttempt_dly (s : State) (e : Err) : (s.failAttempt e).dly = s.dly := rfl
@[simp] theorem State.failAttempt_att (s : State) (e : Err) : (s.failAttempt e).att = s.att := rfl
@[simp] theorem State.failAttempt_lastErr (s : State) (e : Err) : (s.failAttempt e).lastErr = e := rfl
@[simp] theorem State.failAttempt_x0 (s : State) (e : Err) : (s.failAttempt e).x0 = s.x0 := rfl
@[simp] theorem State.failAttempt_x1 (s : State) (e : Err) : (s.failAttempt e).x1 = s.x1 := rfl
@[simp] theorem State.failAttempt_msglen (s : State) (e : Err) : (s.failAttempt e).msglen = s.msglen := rfl
@[simp] theorem State.failAttempt_resp (s : State) (e : Err) : (s.failAttempt e).resp = s.resp := rfl
@[simp] theorem State.failAttempt_dir (s : State) (e : Err) : (s.failAttempt e).dir = s.dir := rfl
@[simp] theorem State.failAttempt_reqlen (s : State) (e : Err) : (s.failAttempt e).reqlen = s.reqlen := rfl
@[simp] theorem State.failAttempt_dsz (s : State) (e : Err) : (s.failAttempt e).dsz = s.dsz := rfl
@[simp] theorem State.failAttempt_moved (s : State) (e : Err) : (s.failAttempt e).moved = s.moved := rfl
@[simp] theorem State.failAttempt_rem (s : State) (e : Err) : (s.failAttempt e).rem = s.rem := rfl
@[simp] theorem State.failAttempt_chunk (s : State) (e : Err) : (s.failAttempt e).chunk = s.chunk := rfl
@[simp] theorem State.failAttempt_xfer (s : State) (e : Err) : (s.failAttempt e).xfer = s.xfer := rfl
@[simp] theorem State.failAttempt_extra (s : State) (e : Err) : (s.failAttempt e).extra = s.extra := rfl
@[simp] theorem State.failAttempt_ackw (s : State) (e : Err) : (s.failAttempt e).ackw = s.ackw := rfl
@[simp] theorem State.failAttempt_ackcnt (s : State) (e : Err) : (s.failAttempt e).ackcnt = s.ackcnt := rfl
@[simp] theorem State.failAttempt_now (s : State) (e : Err) : (s.failAttempt e).now = s.now := rfl
@[simp] theorem State.failAttempt_mem (s : State) (e : Err) : (s.failAttempt e).mem = s.mem := rfl
@[simp] theorem State.failAttempt_requests (s : State) (e : Err) : (s.failAttempt e).requests = s.requests := rfl
@[simp] theorem State.failAttempt_results (s : State) (e : Err) : (s.failAttempt e).results = s.results := rfl
@[simp] theorem State.failAttempt_trace (s : State) (e : Err) : (s.failAttempt e).trace = s.trace := rfl
@[simp] theorem State.failAttempt_inputs (s : State) (e : Err) : (s.failAttempt e).inputs = s.inputs := rfl
@[simp] theorem State.failAttempt_clock (s : State) (e : Err) : (s.failAttempt e).clock = s.clock := rfl
@[simp] theorem State.failAttempt_freeCount (s : State) (e : Err) : (s.failAttempt e).freeCount = s.freeCount := rfl
@[simp] theorem State.failAttempt_wbufSet (s : State) (e : Err) : (s.failAttempt e).wbufSet = s.wbufSet := rfl
@[simp] theorem State.failAttempt_ackSet (s : State) (e : Err) : (s.failAttempt e).ackSet = s.ackSet := rfl

/-! ### State.grant -/

@[simp] theorem State.grant_cfg (s : State) (q : Nat) : (s.grant q).cfg = s.cfg := rfl
@[simp] theorem State.grant_attached (s : State) (q : Nat) : (s.grant q).attached = s.attached := rfl
@[simp] theorem State.grant_seq (s : State) (q : Nat) : (s.grant q).seq = .gateResume := rfl
@[simp] theorem State.grant_lock (s : State) (q : Nat) : (s.grant q).lock = .held q := rfl
@[simp] theorem State.grant_pvote (s : State) (q : Nat) : (s.grant q).pvote = s.pvote := rfl
@[simp] theorem State.grant_lastResp (s : State) (q : Nat) : (s.grant q).lastResp = s.lastResp := rfl
@[simp] theorem State.grant_lastTs (s : State) (q : Nat) : (s.grant q).lastTs = s.lastTs := rfl
@[simp] theorem State.grant_lastValid (s : State) (q : Nat) : (s.grant q).lastValid = s.lastValid := rfl
@[simp] theorem State.grant_cmode (s : State) (q : Nat) : (s.grant q).cmode = s.cmode := rfl
@[simp] theorem State.grant_wstate (s : State) (q : Nat) : (s.grant q).wstate = s.wstate := rfl
@[simp] theorem State.grant_priKind (s : State) (q : Nat) : (s.grant q).priKind = s.priKind := rfl
@[simp] theorem State.grant_hbwKind (s : State) (q : Nat) : (s.grant q).hbwKind = s.hbwKind := rfl
@[simp] theorem State.grant_wakeKind (s : State) (q : Nat) : (s.grant q).wakeKind = s.wakeKind := rfl
@[simp] theorem State.grant_pend (s : State) (q : Nat) : (s.grant q).pend = s.pend := rfl
@[simp] theorem State.grant_cseen (s : State) (q : Nat) : (s.grant q).cseen = s.cseen := rfl
@[simp] theorem State.grant_tmr (s : State) (q : Nat) : (s.grant q).tmr = s.tmr := rfl
@[simp] theorem State.grant_dly (s : State) (q : Nat) : (s.grant q).dly = s.dly := rfl
@[simp] theorem State.grant_att (s : State) (q : Nat) : (s.grant q).att = s.att := rfl
@[simp] theorem State.grant_lastErr (s : State) (q : Nat) : (s.grant q).lastErr = s.lastErr := rfl
@[simp] theorem State.grant_x0 (s : State) (q : Nat) : (s.grant q).x0 = s.x0 := rfl
@[simp] theorem State.grant_x1 (s : State) (q : Nat) : (s.grant q).x1 = s.x1 := rfl
@[simp] theorem State.grant_msglen (s : State) (q : Nat) : (s.grant q).msglen = s.msglen := rfl
@[simp] theorem State.grant_resp (s : State) (q : Nat) : (s.grant q).resp = s.resp := rfl
@[simp] theorem State.grant_dir (s : State) (q : Nat) : (s.grant q).dir = s.dir := rfl
@[simp] theorem State.grant_reqlen (s : State) (q : Nat) : (s.grant q).reqlen = s.reqlen := rfl
@[simp] theorem State.grant_dsz (s : State) (q : Nat) : (s.grant q).dsz = s.dsz := rfl
@[simp] theorem State.grant_moved (s : State) (q : Nat) : (s.grant q).moved = s.moved := rfl
@[simp] theorem State.grant_rem (s : State) (q : Nat) : (s.grant q).rem = s.rem := rfl
@[simp] theorem State.grant_chunk (s : State) (q : Nat) : (s.grant q).chunk = s.chunk := rfl
@[simp] theorem State.grant_xfer (s : State) (q : Nat) : (s.grant q).xfer = s.xfer := rfl
@[simp] theorem State.grant_extra (s : State) (q : Nat) : (s.grant q).extra = s.extra := rfl
@[simp] theorem State.grant_ackw (s : State) (q : Nat) : (s.grant q).ackw = s.ackw := rfl
@[simp] theorem State.grant_ackcnt (s : State) (q : Nat) : (s.grant q).ackcnt = s.ackcnt := rfl
@[simp] theorem State.grant_now (s : State) (q : Nat) : (s.grant q).now = s.now := rfl
@[simp] theorem State.grant_mem (s : State) (q : Nat) : (s.grant q).mem = s.mem := rfl
@[simp] theorem State.grant_requests (s : State) (q : Nat) : (s.grant q).requests = s.requests := rfl
@[simp] theorem State.grant_results (s : State) (q : Nat) : (s.grant q).results = s.results := rfl
@[simp] theorem State.grant_trace (s : State) (q : Nat) : (s.grant q).trace = s.trace ++ [.lockGrant q] := rfl
@[simp] theorem State.grant_inputs (s : State) (q : Nat) : (s.grant q).inputs = s.inputs := rfl
@[simp] theorem State.grant_clock (s : State) (q : Nat) : (s.grant q).clock = s.clock := rfl
@[simp] theorem State.grant_freeCount (s : State) (q : Nat) : (s.grant q).freeCount = s.freeCount := rfl
@[simp] theorem State.grant_wbufSet (s : State) (q : Nat) : (s.grant q).wbufSet = s.wbufSet := rfl
@[simp] theorem State.grant_ackSet (s : State) (q : Nat) : (s.grant q).ackSet = s.ackSet := rfl

/-! ### State.unlock -/

@[simp] theorem State.unlock_cfg (s : State) (q : Nat) : (s.unlock q).cfg = s.cfg := rfl
@[simp] theorem State.unlock_attached (s : State) (q : Nat) : (s.unlock q).attached = s.attached := rfl
@[simp] theorem State.unlock_seq (s : State) (q : Nat) : (s.unlock q).seq = .gateUnlock := rfl
@[simp] theorem State.unlock_lock (s : State) (q : Nat) : (s.unlock q).lock = .free := rfl
@[simp] theorem State.unlock_pvote (s : State) (q : Nat) : (s.unlock q).pvote = s.pvote := rfl
@[simp] theorem State.unlock_lastResp (s : State) (q : Nat) : (s.unlock q).lastResp = s.lastResp := rfl
@[simp] theorem State.unlock_lastTs (s : State) (q : Nat) : (s.unlock q).lastTs = s.lastTs := rfl
@[simp] theorem State.unlock_lastValid (s : State) (q : Nat) : (s.unlock q).lastValid = s.lastValid := rfl
@[simp] theorem State.unlock_cmode (s : State) (q : Nat) : (s.unlock q).cmode = s.cmode := rfl
@[simp] theorem State.unlock_wstate (s : State) (q : Nat) : (s.unlock q).wstate = s.wstate := rfl
@[simp] theorem State.unlock_priKind (s : State) (q : Nat) : (s.unlock q).priKind = s.priKind := rfl
@[simp] theorem State.unlock_hbwKind (s : State) (q : Nat) : (s.unlock q).hbwKind = s.hbwKind := rfl
@[simp] theorem State.unlock_wakeKind (s : State) (q : Nat) : (s.unlock q).wakeKind = s.wakeKind := rfl
@[simp] theorem State.unlock_pend (s : State) (q : Nat) : (s.unlock q).pend = s.pend := rfl
@[simp] theorem State.unlock_cseen (s : State) (q : Nat) : (s.unlock q).cseen = s.cseen := rfl
@[simp] theorem State.unlock_tmr (s : State) (q : Nat) : (s.unlock q).tmr = s.tmr := rfl
@[simp] theorem State.unlock_dly (s : State) (q : Nat) : (s.unlock q).dly = s.dly := rfl
@[simp] theorem State.unlock_att (s : State) (q : Nat) : (s.unlock q).att = s.att := rfl
@[simp] theorem State.unlock_lastErr (s : State) (q : Nat) : (s.unlock q).lastErr = s.lastErr := rfl
@[simp] theorem State.unlock_x0 (s : State) (q : Nat) : (s.unlock q).x0 = s.x0 := rfl
@[simp] theorem State.unlock_x1 (s : State) (q : Nat) : (s.unlock q).x1 = s.x1 := rfl
@[simp] theorem State.unlock_msglen (s : State) (q : Nat) : (s.unlock q).msglen = s.msglen := rfl
@[simp] theorem State.unlock_resp (s : State) (q : Nat) : (s.unlock q).resp = s.resp := rfl
@[simp] theorem State.unlock_dir (s : State) (q : Nat) : (s.unlock q).dir = s.dir := rfl
@[simp] theorem State.unlock_reqlen (s : State) (q : Nat) : (s.unlock q).reqlen = s.reqlen := rfl
@[simp] theorem State.unlock_dsz (s : State) (q : Nat) : (s.unlock q).dsz = s.dsz := rfl
@[simp] theorem State.unlock_moved (s : State) (q : Nat) : (s.unlock q).moved = s.moved := rfl
@[simp] theorem State.unlock_rem (s : State) (q : Nat) : (s.unlock q).rem = s.rem := rfl
@[simp] theorem State.unlock_chunk (s : State) (q : Nat) : (s.unlock q).chunk = s.chunk := rfl
@[simp] theorem State.unlock_xfer (s : State) (q : Nat) : (s.unlock q).xfer = s.xfer := rfl
@[simp] theorem State.unlock_extra (s : State) (q : Nat) : (s.unlock q).extra = s.extra := rfl
@[simp] theorem State.unlock_ackw (s : State) (q : Nat) : (s.unlock q).ackw = s.ackw := rfl
@[simp] theorem State.unlock_ackcnt (s : State) (q : Nat) : (s.unlock q).ackcnt = s.ackcnt := rfl
@[simp] theorem State.unlock_now (s : State) (q : Nat) : (s.unlock q).now = s.now := rfl
@[simp] theorem State.unlock_mem (s : State) (q : Nat) : (s.unlock q).mem = s.mem := rfl
@[simp] theorem State.unlock_requests (s : State) (q : Nat) : (s.unlock q).requests = s.requests := rfl
@[simp] theorem State.unlock_results (s : State) (q : Nat) : (s.unlock q).results = s.results := rfl
@[simp] theorem State.unlock_trace (s : State) (q : Nat) : (s.unlock q).trace = s.trace ++ [.lockRelease q] := rfl
@[simp] theorem State.unlock_inputs (s : State) (q : Nat) : (s.unlock q).inputs = s.inputs := rfl
@[simp] theorem State.unlock_clock (s : State) (q : Nat) : (s.unlock q).clock = s.clock := rfl
@[simp] theorem State.unlock_freeCount (s : State) (q : Nat) : (s.unlock q).freeCount = s.freeCount := rfl
@[simp] theorem State.unlock_wbufSet (s : State) (q : Nat) : (s.unlock q).wbufSet = s.wbufSet := rfl
@[simp] theorem State.unlock_ackSet (s : State) (q : Nat) : (s.unlock q).ackSet = s.ackSet := rfl

/-! ### State.giveBack -/

@[simp] theorem State.giveBack_cfg (s : State) : (s.giveBack).cfg = s.cfg := rfl
@[simp] theorem State.giveBack_attached (s : State) : (s.giveBack).attached = s.attached := rfl
@[simp] theorem State.giveBack_seq (s : State) : (s.giveBack).seq = .gateRelease := rfl
@[simp] theorem State.giveBack_lock (s : State) : (s.giveBack).lock = s.lock := rfl
@[simp] theorem State.giveBack_pvote (s : State) : (s.giveBack).pvote = false := rfl
@[simp] theorem State.giveBack_lastResp (s : State) : (s.giveBack).lastResp = s.lastResp := rfl
@[simp] theorem State.giveBack_lastTs (s : State) : (s.giveBack).lastTs = s.lastTs := rfl
@[simp] theorem State.giveBack_lastValid (s : State) : (s.giveBack).lastValid = s.lastValid := rfl
@[simp] theorem State.giveBack_cmode (s : State) : (s.giveBack).cmode = s.cmode := rfl
@[simp] theorem State.giveBack_wstate (s : State) : (s.giveBack).wstate = s.wstate := rfl
@[simp] theorem State.giveBack_priKind (s : State) : (s.giveBack).priKind = s.priKind := rfl
@[simp] theorem State.giveBack_hbwKind (s : State) : (s.giveBack).hbwKind = s.hbwKind := rfl
@[simp] theorem State.giveBack_wakeKind (s : State) : (s.giveBack).wakeKind = s.wakeKind := rfl
@[simp] theorem State.giveBack_pend (s : State) : (s.giveBack).pend = s.pend := rfl
@[simp] theorem State.giveBack_cseen (s : State) : (s.giveBack).cseen = s.cseen := rfl
@[simp] theorem State.giveBack_tmr (s : State) : (s.giveBack).tmr = s.tmr := rfl
@[simp] theorem State.giveBack_dly (s : State) : (s.giveBack).dly = s.dly := rfl
@[simp] theorem State.giveBack_att (s : State) : (s.giveBack).att = s.att := rfl
@[simp] theorem State.giveBack_lastErr (s : State) : (s.giveBack).lastErr = s.lastErr := rfl
@[simp] theorem State.giveBack_x0 (s : State) : (s.giveBack).x0 = s.x0 := rfl
@[simp] theorem State.giveBack_x1 (s : State) : (s.giveBack).x1 = s.x1 := rfl
@[simp] theorem State.giveBack_msglen (s : State) : (s.giveBack).msglen = s.msglen := rfl
@[simp] theorem State.giveBack_resp (s : State) : (s.giveBack).resp = s.resp := rfl
@[simp] theorem State.giveBack_dir (s : State) : (s.giveBack).dir = s.dir := rfl
@[simp] theorem State.giveBack_reqlen (s : State) : (s.giveBack).reqlen = s.reqlen := rfl
@[simp] theorem State.giveBack_dsz (s : State) : (s.giveBack).dsz = s.dsz := rfl
@[simp] theorem State.giveBack_moved (s : State) : (s.giveBack).moved = s.moved := rfl
@[simp] theorem State.giveBack_rem (s : State) : (s.giveBack).rem = s.rem := rfl
@[simp] theorem State.giveBack_chunk (s : State) : (s.giveBack).chunk = s.chunk := rfl
@[simp] theorem State.giveBack_xfer (s : State) : (s.giveBack).xfer = s.xfer := rfl
@[simp] theorem State.giveBack_extra (s : State) : (s.giveBack).extra = s.extra := rfl
@[simp] theorem State.giveBack_ackw (s : State) : (s.giveBack).ackw = s.ackw := rfl
@[simp] theorem State.giveBack_ackcnt (s : State) : (s.giveBack).ackcnt = s.ackcnt := rfl
@[simp] theorem State.giveBack_now (s : State) : (s.giveBack).now = s.now := rfl
@[simp] theorem State.giveBack_mem (s : State) : (s.giveBack).mem = s.mem := rfl
@[simp] theorem State.giveBack_requests (s : State) : (s.giveBack).requests = s.requests := rfl
@[simp] theorem State.giveBack_results (s : State) : (s.giveBack).results = s.results := rfl
@[simp] theorem State.giveBack_trace (s : State) : (s.giveBack).trace = s.trace ++ [.releaseAutosuspend] := rfl
@[simp] theorem State.giveBack_inputs (s : State) : (s.giveBack).inputs = s.inputs := rfl
@[simp] theorem State.giveBack_clock (s : State) : (s.giveBack).clock = s.clock := rfl
@[simp] theorem State.giveBack_freeCount (s : State) : (s.giveBack).freeCount = s.freeCount := rfl
@[simp] theorem State.giveBack_wbufSet (s : State) : (s.giveBack).wbufSet = s.wbufSet := rfl
@[simp] theorem State.giveBack_ackSet (s : State) : (s.giveBack).ackSet = s.ackSet := rfl

/-! ### State.detach -/

@[simp] theorem State.detach_cfg (s : State) : (s.detach).cfg = s.cfg := rfl
@[simp] theorem State.detach_attached (s : State) : (s.detach).attached = false := rfl
@[simp] theorem State.detach_seq (s : State) : (s.detach).seq = s.seq := rfl
@[simp] theorem State.detach_lock (s : State) : (s.detach).lock = .free := rfl
@[simp] theorem State.detach_pvote (s : State) : (s.detach).pvote = false := rfl
@[simp] theorem State.detach_lastResp (s : State) : (s.detach).lastResp = s.lastResp := rfl
@[simp] theorem State.detach_lastTs (s : State) : (s.detach).lastTs = s.lastTs := rfl
@[simp] theorem State.detach_lastValid (s : State) : (s.detach).lastValid = s.lastValid := rfl
@[simp] theorem State.detach_cmode (s : State) : (s.detach).cmode = s.cmode := rfl
@[simp] theorem State.detach_wstate (s : State) : (s.detach).wstate = s.wstate := rfl
@[simp] theorem State.detach_priKind (s : State) : (s.detach).priKind = s.priKind := rfl
@[simp] theorem State.detach_hbwKind (s : State) : (s.detach).hbwKind = s.hbwKind := rfl
@[simp] theorem State.detach_wakeKind (s : State) : (s.detach).wakeKind = s.wakeKind := rfl
@[simp] theorem State.detach_pend (s : State) : (s.detach).pend = s.pend := rfl
@[simp] theorem State.detach_cseen (s : State) : (s.detach).cseen = s.cseen := rfl
@[simp] theorem State.detach_tmr (s : State) : (s.detach).tmr = s.tmr := rfl
@[simp] theorem State.detach_dly (s : State) : (s.detach).dly = s.dly := rfl
@[simp] theorem State.detach_att (s : State) : (s.detach).att = s.att := rfl
@[simp] theorem State.detach_lastErr (s : State) : (s.detach).lastErr = s.lastErr := rfl
@[simp] theorem State.detach_x0 (s : State) : (s.detach).x0 = s.x0 := rfl
@[simp] theorem State.detach_x1 (s : State) : (s.detach).x1 = s.x1 := rfl
@[simp] theorem State.detach_msglen (s : State) : (s.detach).msglen = s.msglen := rfl
@[simp] theorem State.detach_resp (s : State) : (s.detach).resp = s.resp := rfl
@[simp] theorem State.detach_dir (s : State) : (s.detach).dir = s.dir := rfl
@[simp] theorem State.detach_reqlen (s : State) : (s.detach).reqlen = s.reqlen := rfl
@[simp] theorem State.detach_dsz (s : State) : (s.detach).dsz = s.dsz := rfl
@[simp] theorem State.detach_moved (s : State) : (s.detach).moved = s.moved := rfl
@[simp] theorem State.detach_rem (s : State) : (s.detach).rem = s.rem := rfl
@[simp] theorem State.detach_chunk (s : State) : (s.detach).chunk = s.chunk := rfl
@[simp] theorem State.detach_xfer (s : State) : (s.detach).xfer = s.xfer := rfl
@[simp] theorem State.detach_extra (s : State) : (s.detach).extra = s.extra := rfl
@[simp] theorem State.detach_ackw (s : State) : (s.detach).ackw = s.ackw := rfl
@[simp] theorem State.detach_ackcnt (s : State) : (s.detach).ackcnt = s.ackcnt := rfl
@[simp] theorem State.detach_now (s : State) : (s.detach).now = s.now := rfl
@[simp] theorem State.detach_mem (s : State) : (s.detach).mem = s.mem := rfl
@[simp] theorem State.detach_requests (s : State) : (s.detach).requests = [] := rfl
@[simp] theorem State.detach_results (s : State) : (s.detach).results = s.results := rfl
@[simp] theorem State.detach_trace (s : State) : (s.detach).trace = s.trace ++ teardownEvents s.lock := rfl
@[simp] theorem State.detach_inputs (s : State) : (s.detach).inputs = s.inputs := rfl
@[simp] theorem State.detach_clock (s : State) : (s.detach).clock = s.clock := rfl
@[simp] theorem State.detach_freeCount (s : State) : (s.detach).freeCount = s.freeCount := rfl
@[simp] theorem State.detach_wbufSet (s : State) : (s.detach).wbufSet = s.wbufSet := rfl
@[simp] theorem State.detach_ackSet (s : State) : (s.detach).ackSet = s.ackSet := rfl

end Sys2Proof.Machine
end

