-- ==== Sys2Proof/Laws/Ops.lean ====
section
/-!
SUPPORT. What each shared operation can do, said once: a call, a wait, a delay, the end of an operation, and the admission of a
request. A proof about a procedure cites these and does not unfold the operations.
-/

namespace Sys2Proof.Machine

/-! ### How procedures compose -/

@[simp] theorem Res.bind_ok {α β : Type} (v : α) (s : State) (f : α → State → Res β) : (Res.ok v s).bind f = f v s := rfl
@[simp] theorem Res.bind_err {α β : Type} (e : Err) (s : State) (f : α → State → Res β) :
    (Res.err e s : Res α).bind f = .err e s := rfl
@[simp] theorem Res.bind_hung {α β : Type} (s : State) (f : α → State → Res β) : (Res.hung s : Res α).bind f = .hung s := rfl
@[simp] theorem Res.bind_stop {α β : Type} (x : Refusal) (f : α → State → Res β) : (Res.stop x : Res α).bind f = .stop x := rfl
@[simp] theorem Res.after_ok {α : Type} (v : α) (s : State) (f : State → Res Unit) :
    (Res.ok v s).after f = (f s).bind fun _ s => .ok v s := rfl
@[simp] theorem Res.after_err {α : Type} (e : Err) (s : State) (f : State → Res Unit) :
    (Res.err e s : Res α).after f = (f s).bind fun _ s => .err e s := rfl
@[simp] theorem Res.after_hung {α : Type} (s : State) (f : State → Res Unit) : (Res.hung s : Res α).after f = .hung s := rfl
@[simp] theorem Res.after_stop {α : Type} (x : Refusal) (f : State → Res Unit) : (Res.stop x : Res α).after f = .stop x := rfl

/-- A property of every state a procedure can leave: `P` where it returns, `H` where it is suspended for good. -/
def Res.Leaves {α : Type} (r : Res α) (P H : State → Prop) : Prop :=
  match r with
  | .ok _ s => P s
  | .err _ s => P s
  | .hung s => H s
  | .stop _ => True

theorem Res.Leaves.mono {α : Type} {r : Res α} {P Q H K : State → Prop} (h : r.Leaves P H) (hp : ∀ s, P s → Q s)
    (hh : ∀ s, H s → K s) : r.Leaves Q K := by
  cases r with
  | ok v s => exact hp s h
  | err e s => exact hp s h
  | hung s => exact hh s h
  | stop x => trivial

/-- The rule for a sequence: what the first part leaves when it returns is where the second starts. -/
theorem Res.Leaves.bind {α β : Type} {r : Res α} {f : α → State → Res β} {P Q H : State → Prop} (h : r.Leaves P H)
    (herr : ∀ s, P s → Q s) (hf : ∀ v s, P s → (f v s).Leaves Q H) : (r.bind f).Leaves Q H := by
  cases r with
  | ok v s => exact hf v s h
  | err e s => exact herr s h
  | hung s => exact h
  | stop x => trivial

/-- The rule for clean-up steps. -/
theorem Res.Leaves.after {α : Type} {r : Res α} {f : State → Res Unit} {P Q H : State → Prop} (h : r.Leaves P H)
    (hf : ∀ s, P s → (f s).Leaves Q H) : (r.after f).Leaves Q H := by
  cases r with
  | ok v s => exact (hf s h).bind (fun _ => id) fun _ _ => id
  | err e s => exact (hf s h).bind (fun _ => id) fun _ _ => id
  | hung s => exact h
  | stop x => trivial

/-! ### What the outside world does meanwhile -/

/-- What can have happened to a Session while it was suspended, but for a running timer or delay: completions were latched or
dropped, time passed, requests came in, and inputs were used up. -/
structure Passed (s t : State) : Prop where
  frame : t = { s with
    cseen := t.cseen, clock := t.clock, now := t.now, requests := t.requests, inputs := t.inputs, trace := t.trace }
  events : ∃ n, t.trace = s.trace ++ List.replicate n .completion
  latch : t.cseen = true → s.cseen = true ∨ s.pend = true
  kept : s.cseen = true → t.cseen = true
  time : s.clock ≤ t.clock
  stamp : s.now < 2 ^ s.cfg.tsW → t.now < 2 ^ s.cfg.tsW

theorem Passed.refl (s : State) : Passed s s :=
  ⟨rfl, ⟨0, by simp⟩, fun h => .inl h, id, le_refl _, id⟩

theorem Passed.cfg {s t : State} (h : Passed s t) : t.cfg = s.cfg := by rw [h.frame]
theorem Passed.pend {s t : State} (h : Passed s t) : t.pend = s.pend := by rw [h.frame]
theorem Passed.seq {s t : State} (h : Passed s t) : t.seq = s.seq := by rw [h.frame]
theorem Passed.lock {s t : State} (h : Passed s t) : t.lock = s.lock := by rw [h.frame]
theorem Passed.mem {s t : State} (h : Passed s t) : t.mem = s.mem := by rw [h.frame]

theorem Passed.trans {s t u : State} (h : Passed s t) (k : Passed t u) : Passed s u where
  frame := by
    have := k.frame
    rw [h.frame] at this
    exact this
  events := by
    obtain ⟨m, hm⟩ := h.events
    obtain ⟨n, hn⟩ := k.events
    exact ⟨m + n, by rw [hn, hm, List.append_assoc, List.replicate_append_replicate]⟩
  latch := fun hu => by
    rcases k.latch hu with h' | h'
    · exact h.latch h'
    · exact .inr (h.pend ▸ h')
  kept := fun hs => k.kept (h.kept hs)
  time := le_trans h.time k.time
  stamp := fun hs => by
    have := k.stamp (by rw [h.cfg]; exact h.stamp hs)
    rwa [h.cfg] at this

/-- Using inputs up. -/
theorem Passed.inputs (s : State) (l : List Input) : Passed s { s with inputs := l } :=
  ⟨rfl, ⟨0, by simp⟩, fun h => .inl h, id, le_refl _, id⟩

/-- One input that ends no wait. -/
theorem Passed.deliver (s : State) (i : Input) : Passed s (s.deliver i) := by
  cases i with
  | completion =>
    exact ⟨rfl, ⟨1, rfl⟩, fun h => by simpa [State.deliver, State.completion] using h,
      fun h => by simp [State.deliver, State.completion, h], le_refl _, id⟩
  | ticks n => exact ⟨rfl, ⟨0, by simp [State.deliver]⟩, fun h => .inl h, id, Nat.le_add_right _ _, id⟩
  | tickCompletion =>
    exact ⟨rfl, ⟨1, rfl⟩, fun h => by simpa [State.deliver, State.completion] using h,
      fun h => by simp [State.deliver, State.completion, h], Nat.le_add_right _ _, id⟩
  | delayEnds => exact .refl s
  | advanceNow d =>
    exact ⟨rfl, ⟨0, by simp [State.deliver]⟩, fun h => .inl h, id, le_refl _,
      fun _ => Nat.mod_lt _ (Nat.two_pow_pos _)⟩
  | stepTakes n => exact .refl s
  | fillBuffer b o l => exact .refl s
  | request f => exact ⟨rfl, ⟨0, by simp [State.deliver]⟩, fun h => .inl h, id, le_refl _, id⟩
  | answer a => exact .refl s
  | holdLock q => exact .refl s
  | dropLock q => exact .refl s
  | detach => exact .refl s
  | attach c => exact .refl s

/-! ### Small updates with a case in them -/

/-- What a requester puts into its buffer keeps the canonical form. -/
theorem State.fillBuffer_wf (s : State) (buf off : Word) (bytes : List Byte) (h : Memory.wf s.mem) :
    Memory.wf (s.fillBuffer buf off bytes).mem := by
  unfold State.fillBuffer
  split
  · exact writeBytes_wf h _ _
  · exact h

/-- Filling a buffer changes nothing but the buffers. -/
theorem State.fillBuffer_frame (s : State) (buf off : Word) (bytes : List Byte) :
    s.fillBuffer buf off bytes = { s with mem := (s.fillBuffer buf off bytes).mem } := by
  unfold State.fillBuffer
  split <;> rfl

/-- The count a stand-alone acknowledgement word goes on from is the register, where it has been written. -/
theorem State.counted_eq (s : State) :
    s.counted = { s with
      ackcnt := if s.ackSet then s.ackcnt else Config.freeCounter s.freeCount, ackSet := true,
      freeCount := if s.ackSet then s.freeCount else s.freeCount + 1 } := by
  unfold State.counted
  split
  · next h =>
    cases s
    cases h
    rfl
  · next h => simp

/-! ### The time of a step that does not wait -/

theorem takeInputs_cases (n : Nat) (l : List Input) (s : State) :
    (∃ t : State, takeInputs n l s = .ok () t ∧ Passed s t) ∨ takeInputs n l s = .stop .lifecycle := by
  induction n generalizing l s with
  | zero => exact .inl ⟨_, rfl, .inputs s l⟩
  | succ n ih =>
    cases l with
    | nil => exact .inl ⟨_, rfl, .inputs s []⟩
    | cons i rest =>
      simp only [takeInputs]
      split
      · exact .inr rfl
      · rcases ih rest (s.deliver i) with ⟨t, h, p⟩ | h
        · exact .inl ⟨t, h, (Passed.deliver s i).trans p⟩
        · exact .inr h

/-- What the time of a step can do: pass, or be refused because the Session is torn down. -/
theorem pause_cases (s : State) : (∃ t : State, pause s = .ok () t ∧ Passed s t) ∨ pause s = .stop .lifecycle := by
  unfold pause
  split
  · exact .inl ⟨s, rfl, .refl s⟩
  · split
    · exact takeInputs_cases _ _ s
    · exact .inl ⟨s, rfl, .refl s⟩

/-- A step in which nothing falls takes no time. -/
theorem pause_calm {s : State} (h : Calm s.inputs) : pause s = .ok () s := by
  unfold pause
  cases hl : s.inputs with
  | nil => rfl
  | cons i rest =>
    rw [hl] at h
    simp only [Calm, List.head?_cons, Option.bind_some] at h
    simp [h]

@[simp] theorem calm_nil : Calm [] := rfl

/-- An input that is no `stepTakes` is not the time of a step. -/
@[simp] theorem calm_cons {i : Input} {l : List Input} : Calm (i :: l) ↔ i.stepTakes? = none := Iff.rfl

/-- The time before a body passes, or the Session is torn down in it. -/
theorem begun_cases (body : State → Res (Option Value)) (s : State) :
    (∃ t : State, Passed s t ∧ begun body s = body t) ∨ begun body s = .stop .lifecycle := by
  unfold begun
  rcases pause_cases s with ⟨t, h, p⟩ | h
  · exact .inl ⟨t, p, by rw [h]; rfl⟩
  · exact .inr (by rw [h]; rfl)

/-- A body before which nothing falls. -/
theorem begun_calm {body : State → Res (Option Value)} {s : State} (h : Calm s.inputs) : begun body s = body s := by
  simp [begun, pause_calm h]

/-! ### Calls -/

/-- What a call can do: answer, be suspended for good, or be refused because the Session is torn down. It raises no error. -/
theorem awaitAnswer_cases {α : Type} (want : Answer → Option α) (l : List Input) (s : State) :
    (∃ (v : α) (t : State), awaitAnswer want l s = .ok v t ∧ Passed s t) ∨
    (∃ t : State, awaitAnswer want l s = .hung t ∧ Passed s t ∧ t.inputs = []) ∨
    awaitAnswer want l s = .stop .lifecycle := by
  induction l generalizing s with
  | nil => exact .inr (.inl ⟨_, rfl, .inputs s [], rfl⟩)
  | cons i rest ih =>
    simp only [awaitAnswer]
    split
    · next v _ => exact .inl ⟨v, _, rfl, .inputs s rest⟩
    · split
      · exact .inr (.inr rfl)
      · rcases ih (s.deliver i) with ⟨v, t, h, p⟩ | ⟨t, h, p, hin⟩ | h
        · exact .inl ⟨v, t, h, (Passed.deliver s i).trans p⟩
        · exact .inr (.inl ⟨t, h, (Passed.deliver s i).trans p, hin⟩)
        · exact .inr (.inr h)

/-- An answer that the call's own interface gives next ends the call. -/
@[simp] theorem awaitAnswer_answer {α : Type} (want : Answer → Option α) (a : Answer) (v : α) (h : want a = some v)
    (rest : List Input) (s : State) : awaitAnswer want (.answer a :: rest) s = .ok v { s with inputs := rest } := by
  simp [awaitAnswer, Input.answer?, h]

/-- `send` answers, is suspended for good, or is refused; it raises no error. -/
theorem callSend_cases (route : Route) (w : Word) (s : State) :
    (∃ a t, callSend route w s = .ok a (t.emit (.send route w a)) ∧ Passed s t) ∨
    (∃ t, callSend route w s = .hung t ∧ Passed s t) ∨ callSend route w s = .stop .lifecycle := by
  unfold callSend
  rcases awaitAnswer_cases wantSend s.inputs s with ⟨v, t, h, p⟩ | ⟨t, h, p, -⟩ | h
  · exact .inl ⟨v, t, by rw [h]; rfl, p⟩
  · exact .inr (.inl ⟨t, by rw [h]; rfl, p⟩)
  · exact .inr (.inr (by rw [h]; rfl))

/-- `resume` answers, is suspended for good, or is refused. -/
theorem callResume_cases (s : State) :
    (∃ ok t, callResume s = .ok ok (t.emit (.resume ok)) ∧ Passed s t) ∨
    (∃ t, callResume s = .hung t ∧ Passed s t) ∨ callResume s = .stop .lifecycle := by
  unfold callResume
  rcases awaitAnswer_cases wantResume s.inputs s with ⟨v, t, h, p⟩ | ⟨t, h, p, -⟩ | h
  · exact .inl ⟨v, t, by rw [h]; rfl, p⟩
  · exact .inr (.inl ⟨t, by rw [h]; rfl, p⟩)
  · exact .inr (.inr (by rw [h]; rfl))

/-- A stream call answers, ends with the Transport's error, is suspended for good, or is refused. -/
theorem transportCall_cases {α : Type} (want : Answer → Option (Ans α)) (ev : Ans α → Event) (s : State) :
    (∃ v t, ((awaitAnswer want s.inputs s).bind fun a s => transportResult a (s.emit (ev a))) = .ok v (t.emit (ev (.ok v))) ∧
      Passed s t) ∨
    (∃ e t, ((awaitAnswer want s.inputs s).bind fun a s => transportResult a (s.emit (ev a))) =
      .err (.transport e) (t.emit (ev (.err e))) ∧ Passed s t) ∨
    (∃ t, ((awaitAnswer want s.inputs s).bind fun a s => transportResult a (s.emit (ev a))) = .hung t ∧ Passed s t) ∨
    ((awaitAnswer want s.inputs s).bind fun a s => transportResult a (s.emit (ev a))) = .stop .lifecycle := by
  rcases awaitAnswer_cases want s.inputs s with ⟨v, t, h, p⟩ | ⟨t, h, p, -⟩ | h
  · cases v with
    | ok v => exact .inl ⟨v, t, by rw [h]; rfl, p⟩
    | err e => exact .inr (.inl ⟨e, t, by rw [h]; rfl, p⟩)
  · exact .inr (.inr (.inl ⟨t, by rw [h]; rfl, p⟩))
  · exact .inr (.inr (.inr (by rw [h]; rfl)))

/-- What `hbw_write` can do. -/
theorem callHbwWrite_cases (bytes : List Byte) (s : State) :
    (∃ v t, callHbwWrite bytes s = .ok v (t.emit (.hbwWrite bytes (.ok v))) ∧ Passed s t) ∨
    (∃ e t, callHbwWrite bytes s = .err (.transport e) (t.emit (.hbwWrite bytes (.err e))) ∧ Passed s t) ∨
    (∃ t, callHbwWrite bytes s = .hung t ∧ Passed s t) ∨ callHbwWrite bytes s = .stop .lifecycle :=
  transportCall_cases wantHbwWrite (.hbwWrite bytes) s

/-- What `wake` can do. -/
theorem callWake_cases (s : State) :
    (∃ v t, callWake s = .ok v (t.emit (.wake (.ok v))) ∧ Passed s t) ∨
    (∃ e t, callWake s = .err (.transport e) (t.emit (.wake (.err e))) ∧ Passed s t) ∨
    (∃ t, callWake s = .hung t ∧ Passed s t) ∨ callWake s = .stop .lifecycle :=
  transportCall_cases wantWake .wake s

/-- The answers that `hbw_read(n)` takes have exactly `n` bytes. -/
theorem wantHbwRead_length {n : Nat} {a : Answer} {bytes : List Byte} (h : wantHbwRead n a = some (.ok bytes)) :
    bytes.length = n := by
  cases a with
  | hbwOpen => cases h
  | hbwClose => cases h
  | hbwRead x =>
    cases x with
    | ok v =>
      simp only [wantHbwRead] at h
      split at h
      · cases h; assumption
      · cases h
    | err e => cases h
  | send _ => cases h
  | hbwWrite _ => cases h
  | rdb _ => cases h
  | wake _ => cases h
  | resume _ => cases h

/-- The answers that `rdb(len, id)` takes have at most `len` bytes. -/
theorem wantRdb_length {n : Nat} {a : Answer} {bytes : List Byte} (h : wantRdb n a = some (.ok bytes)) :
    bytes.length ≤ n := by
  cases a with
  | hbwOpen => cases h
  | hbwClose => cases h
  | rdb x =>
    cases x with
    | ok v =>
      simp only [wantRdb] at h
      split at h
      · cases h; assumption
      · cases h
    | err e => cases h
  | send _ => cases h
  | hbwWrite _ => cases h
  | hbwRead _ => cases h
  | wake _ => cases h
  | resume _ => cases h

/-- The value a call returns is one that its interface may answer. -/
theorem awaitAnswer_wanted {α : Type} {want : Answer → Option α} {l : List Input} {s t : State} {v : α}
    (h : awaitAnswer want l s = .ok v t) : ∃ a, want a = some v := by
  induction l generalizing s with
  | nil => cases h
  | cons i rest ih =>
    simp only [awaitAnswer] at h
    split at h
    · next heq =>
      cases h
      obtain ⟨a, -, ha⟩ := Option.bind_eq_some_iff.1 heq
      exact ⟨a, ha⟩
    · split at h
      · cases h
      · exact ih h

/-- What `hbw_read(n)` can do: it answers exactly `n` bytes. -/
theorem callHbwRead_cases (n : Nat) (s : State) :
    (∃ v t, callHbwRead n s = .ok v (t.emit (.hbwRead n (.ok v))) ∧ Passed s t ∧ v.length = n) ∨
    (∃ e t, callHbwRead n s = .err (.transport e) (t.emit (.hbwRead n (.err e))) ∧ Passed s t) ∨
    (∃ t, callHbwRead n s = .hung t ∧ Passed s t) ∨ callHbwRead n s = .stop .lifecycle := by
  unfold callHbwRead
  rcases awaitAnswer_cases (wantHbwRead n) s.inputs s with ⟨v, t, h, p⟩ | ⟨t, h, p, -⟩ | h
  · cases v with
    | ok v =>
      obtain ⟨a, ha⟩ := awaitAnswer_wanted h
      exact .inl ⟨v, t, by rw [h]; rfl, p, wantHbwRead_length ha⟩
    | err e => exact .inr (.inl ⟨e, t, by rw [h]; rfl, p⟩)
  · exact .inr (.inr (.inl ⟨t, by rw [h]; rfl, p⟩))
  · exact .inr (.inr (.inr (by rw [h]; rfl)))

/-- What the fast path can do: it answers at most `len` bytes. -/
theorem callRdb_cases (len : Word) (id : Half) (s : State) :
    (∃ v t, callRdb len id s = .ok v (t.emit (.rdb len id (.ok v))) ∧ Passed s t ∧ v.length ≤ len.toNat) ∨
    (∃ e t, callRdb len id s = .err (.transport e) (t.emit (.rdb len id (.err e))) ∧ Passed s t) ∨
    (∃ t, callRdb len id s = .hung t ∧ Passed s t) ∨ callRdb len id s = .stop .lifecycle := by
  unfold callRdb
  rcases awaitAnswer_cases (wantRdb len.toNat) s.inputs s with ⟨v, t, h, p⟩ | ⟨t, h, p, -⟩ | h
  · cases v with
    | ok v =>
      obtain ⟨a, ha⟩ := awaitAnswer_wanted h
      exact .inl ⟨v, t, by rw [h]; rfl, p, wantRdb_length ha⟩
    | err e => exact .inr (.inl ⟨e, t, by rw [h]; rfl, p⟩)
  · exact .inr (.inr (.inl ⟨t, by rw [h]; rfl, p⟩))
  · exact .inr (.inr (.inr (by rw [h]; rfl)))

/-- What opening the channel can do: nothing, one call that returns, a suspension or a refusal. -/
theorem openChannel_cases (s : State) :
    (s.cfg.hasHbwOpen = false ∧ openChannel s = .ok () s) ∨
    (∃ t, openChannel s = .ok () (t.emit .hbwOpen) ∧ Passed s t) ∨
    (∃ t, openChannel s = .hung t ∧ Passed s t) ∨ openChannel s = .stop .lifecycle := by
  unfold openChannel
  split
  · rcases awaitAnswer_cases wantHbwOpen s.inputs s with ⟨v, t, h, p⟩ | ⟨t, h, p, -⟩ | h
    · exact .inr (.inl ⟨t, by rw [h]; rfl, p⟩)
    · exact .inr (.inr (.inl ⟨t, by rw [h]; rfl, p⟩))
    · exact .inr (.inr (.inr (by rw [h]; rfl)))
  · next h => exact .inl ⟨by simpa using h, rfl⟩

/-- What closing the channel can do. -/
theorem closeChannel_cases (s : State) :
    (s.cfg.hasHbwClose = false ∧ closeChannel s = .ok () s) ∨
    (∃ t, closeChannel s = .ok () (t.emit .hbwClose) ∧ Passed s t) ∨
    (∃ t, closeChannel s = .hung t ∧ Passed s t) ∨ closeChannel s = .stop .lifecycle := by
  unfold closeChannel
  split
  · rcases awaitAnswer_cases wantHbwClose s.inputs s with ⟨v, t, h, p⟩ | ⟨t, h, p, -⟩ | h
    · exact .inr (.inl ⟨t, by rw [h]; rfl, p⟩)
    · exact .inr (.inr (.inl ⟨t, by rw [h]; rfl, p⟩))
    · exact .inr (.inr (.inr (by rw [h]; rfl)))
  · next h => exact .inl ⟨by simpa using h, rfl⟩

/-! ### Waits and delays -/

/-- What a completion wait can do: see the completion, expire with the timer at 0 when its ticks have passed, be suspended for
good, or be refused. The timer apart, it is the outside world that moves. -/
theorem awaitCompletion_cases (l : List Input) (s : State) :
    (∃ t : State, awaitCompletion l s = .ok true t ∧ Passed s { t with tmr := s.tmr }) ∨
    (∃ t : State, awaitCompletion l s = .ok false t ∧ Passed s { t with tmr := s.tmr } ∧ t.tmr = 0 ∧
      s.clock + s.tmr ≤ t.clock) ∨
    (∃ t : State, awaitCompletion l s = .hung t ∧ Passed s { t with tmr := s.tmr }) ∨
    awaitCompletion l s = .stop .lifecycle := by
  induction l generalizing s with
  | nil => exact .inr (.inr (.inl ⟨_, rfl, .inputs s []⟩))
  | cons i rest ih =>
    have key : ∀ (u : State) (n : Nat), Passed s { u with tmr := s.tmr } → u.tmr = s.tmr - n → s.clock + n ≤ u.clock →
        (∃ t : State, awaitCompletion rest u = .ok true t ∧ Passed s { t with tmr := s.tmr }) ∨
        (∃ t : State, awaitCompletion rest u = .ok false t ∧ Passed s { t with tmr := s.tmr } ∧ t.tmr = 0 ∧
          s.clock + s.tmr ≤ t.clock) ∨
        (∃ t : State, awaitCompletion rest u = .hung t ∧ Passed s { t with tmr := s.tmr }) ∨
        awaitCompletion rest u = .stop .lifecycle := by
      intro u n hp hd hc
      have tr : ∀ t : State, Passed u { t with tmr := u.tmr } → Passed s { t with tmr := s.tmr } := fun t p =>
        hp.trans ⟨congrArg (fun x : State => { x with tmr := s.tmr }) p.frame, p.events, p.latch, p.kept, p.time, p.stamp⟩
      rcases ih u with ⟨t, h, p⟩ | ⟨t, h, p, z, c⟩ | ⟨t, h, p⟩ | h
      · exact .inl ⟨t, h, tr t p⟩
      · exact .inr (.inl ⟨t, h, tr t p, z, by omega⟩)
      · exact .inr (.inr (.inl ⟨t, h, tr t p⟩))
      · exact .inr (.inr (.inr h))
    cases i with
    | completion => exact .inl ⟨_, rfl, (Passed.deliver s .completion).trans (.inputs _ rest)⟩
    | tickCompletion => exact .inl ⟨_, rfl, (Passed.deliver s .tickCompletion).trans (.inputs _ rest)⟩
    | ticks n =>
      simp only [awaitCompletion]
      split
      · exact key { s with tmr := s.tmr - n, clock := s.clock + n } n (Passed.deliver s (.ticks n)) rfl (le_refl _)
      · exact .inr (.inl ⟨_, rfl, (Passed.deliver s (.ticks s.tmr)).trans (.inputs _ _), rfl, le_refl _⟩)
    | delayEnds => exact key _ 0 (.deliver s .delayEnds) rfl (le_refl _)
    | advanceNow d => exact key _ 0 (.deliver s (.advanceNow d)) rfl (le_refl _)
    | stepTakes n => exact key _ 0 (.deliver s (.stepTakes n)) rfl (le_refl _)
    | fillBuffer b o l => exact key _ 0 (.deliver s (.fillBuffer b o l)) rfl (le_refl _)
    | request f => exact key _ 0 (.deliver s (.request f)) rfl (le_refl _)
    | answer a => exact key _ 0 (.deliver s (.answer a)) rfl (le_refl _)
    | holdLock q => exact key _ 0 (.deliver s (.holdLock q)) rfl (le_refl _)
    | dropLock q => exact key _ 0 (.deliver s (.dropLock q)) rfl (le_refl _)
    | detach => exact .inr (.inr (.inr rfl))
    | attach c => exact .inr (.inr (.inr rfl))

/-- What a running delay can do: end with its counter at 0 when its ticks have passed, be suspended for good, or be refused. -/
theorem awaitTicks_cases (l : List Input) (s : State) :
    (∃ t : State, awaitTicks l s = .ok () t ∧ Passed s { t with dly := s.dly } ∧ t.dly = 0 ∧ s.clock + s.dly ≤ t.clock) ∨
    (∃ t : State, awaitTicks l s = .hung t ∧ Passed s { t with dly := s.dly }) ∨
    awaitTicks l s = .stop .lifecycle := by
  induction l generalizing s with
  | nil => exact .inr (.inl ⟨_, rfl, .inputs s []⟩)
  | cons i rest ih =>
    have key : ∀ (u : State) (n : Nat), Passed s { u with dly := s.dly } → u.dly = s.dly - n → s.clock + n ≤ u.clock →
        (∃ t : State, awaitTicks rest u = .ok () t ∧ Passed s { t with dly := s.dly } ∧ t.dly = 0 ∧
          s.clock + s.dly ≤ t.clock) ∨
        (∃ t : State, awaitTicks rest u = .hung t ∧ Passed s { t with dly := s.dly }) ∨
        awaitTicks rest u = .stop .lifecycle := by
      intro u n hp hd hc
      have tr : ∀ t : State, Passed u { t with dly := u.dly } → Passed s { t with dly := s.dly } := fun t p =>
        hp.trans ⟨congrArg (fun x : State => { x with dly := s.dly }) p.frame, p.events, p.latch, p.kept, p.time, p.stamp⟩
      rcases ih u with ⟨t, h, p, z, c⟩ | ⟨t, h, p⟩ | h
      · exact .inl ⟨t, h, tr t p, z, by omega⟩
      · exact .inr (.inl ⟨t, h, tr t p⟩)
      · exact .inr (.inr h)
    cases i with
    | ticks n => exact key { s with dly := s.dly - n, clock := s.clock + n } n (Passed.deliver s (.ticks n)) rfl (le_refl _)
    | tickCompletion =>
      exact key { s.completion with dly := s.dly - 1, clock := s.clock + 1 } 1 (Passed.deliver s .tickCompletion) rfl (le_refl _)
    | delayEnds =>
      simp only [awaitTicks]
      split
      · next h0 => exact .inl ⟨_, rfl, .inputs s rest, h0, by simp [h0]⟩
      · exact key s 0 (.refl s) rfl (le_refl _)
    | completion => exact key _ 0 (.deliver s .completion) rfl (le_refl _)
    | advanceNow d => exact key _ 0 (.deliver s (.advanceNow d)) rfl (le_refl _)
    | stepTakes n => exact key _ 0 (.deliver s (.stepTakes n)) rfl (le_refl _)
    | fillBuffer b o l => exact key _ 0 (.deliver s (.fillBuffer b o l)) rfl (le_refl _)
    | request f => exact key _ 0 (.deliver s (.request f)) rfl (le_refl _)
    | answer a => exact key _ 0 (.deliver s (.answer a)) rfl (le_refl _)
    | holdLock q => exact key _ 0 (.deliver s (.holdLock q)) rfl (le_refl _)
    | dropLock q => exact key _ 0 (.deliver s (.dropLock q)) rfl (le_refl _)
    | detach => exact .inr (.inr rfl)
    | attach c => exact .inr (.inr rfl)

/-! ### The end and the admission of an operation -/

/-- An operation gives a next state when its procedure returns, with a value or an error, or is suspended for good. -/
theorem finish_next {q : Nat} {r : Res (Option Value)} {t : State} (h : finish q r = .next t) :
    (∃ v s, r = .ok v s ∧ t = s.endOperation q (HRes.ofValue v)) ∨
    (∃ e s, r = .err e s ∧ t = s.endOperation q (HRes.ofErr e)) ∨ r = .hung t := by
  cases r with
  | ok v s => cases h; exact .inl ⟨v, s, rfl, rfl⟩
  | err e s => cases h; exact .inr (.inl ⟨e, s, rfl, rfl⟩)
  | hung s => cases h; exact .inr (.inr rfl)
  | stop x => cases h

/-- A request is admitted exactly when the engine is ready for its requester. -/
theorem notAdmitted_eq_none {q : Nat} {s : State} : notAdmitted q s = none ↔ s.Ready q := by
  unfold notAdmitted State.Ready
  split_ifs <;> simp_all

/-- A request that is not admitted gives no next state. -/
theorem notAdmitted_ne_next {q : Nat} {s t : State} : notAdmitted q s ≠ some (.next t) := by
  unfold notAdmitted
  split_ifs <;> simp

/-- An operation that cannot be presented is turned away as `notAdmitted` says. -/
theorem codecOperation_turnedAway {q : Nat} {body : State → Res (Option Value)} {s : State}
    {o : Host.Outcome State Fault Refusal} (h : notAdmitted q s = some o) : codecOperation q body s = o := by
  unfold codecOperation
  rw [h]

/-- An operation that cannot be presented is turned away as `notAdmitted` says. -/
theorem unlockedOperation_turnedAway {q : Nat} {body : State → Res (Option Value)} {s : State}
    {o : Host.Outcome State Fault Refusal} (h : notAdmitted q s = some o) : unlockedOperation q body s = o := by
  unfold unlockedOperation
  rw [h]

/-- An operation that needs no lock runs for any requester of a ready engine. -/
theorem codecOperation_ready {q : Nat} {body : State → Res (Option Value)} {s : State} (h : s.Ready q) :
    codecOperation q body s = finish q (begun body s) := by
  unfold codecOperation
  rw [notAdmitted_eq_none.2 h]

/-- An unlocked operation of the holder is its procedure. -/
theorem unlockedOperation_holder {q : Nat} {body : State → Res (Option Value)} {s : State} (h : s.Holder q) :
    unlockedOperation q body s = finish q (begun body s) := by
  unfold unlockedOperation
  rw [notAdmitted_eq_none.2 h.1]
  exact if_pos h.2

/-- An operation that needs no lock gives a next state only for a requester of a ready engine. -/
theorem codecOperation_next {q : Nat} {body : State → Res (Option Value)} {s t : State}
    (h : codecOperation q body s = .next t) : s.Ready q ∧ finish q (begun body s) = .next t := by
  unfold codecOperation at h
  split at h
  · next o ho => subst h; exact absurd ho notAdmitted_ne_next
  · next ho => exact ⟨notAdmitted_eq_none.1 ho, h⟩

/-- An unlocked operation gives a next state only for the holder. -/
theorem unlockedOperation_next {q : Nat} {body : State → Res (Option Value)} {s t : State}
    (h : unlockedOperation q body s = .next t) : s.Holder q ∧ finish q (begun body s) = .next t := by
  unfold unlockedOperation at h
  split at h
  · next o ho => subst h; exact absurd ho notAdmitted_ne_next
  · next ho =>
    split at h
    · next hl => exact ⟨⟨notAdmitted_eq_none.1 ho, hl⟩, h⟩
    · cases h

/-- A wire row runs for the holder of the lock. -/
theorem wireOperation_holder {q : Nat} {body : State → Res (Option Value)} {s : State} (h : s.Holder q) :
    wireOperation body s = finish q (begun body s) := by
  unfold wireOperation
  rw [h.2.1]
  exact unlockedOperation_holder h

/-- A wire row gives a next state only for the holder of the lock. -/
theorem wireOperation_next {body : State → Res (Option Value)} {s t : State} (h : wireOperation body s = .next t) :
    ∃ q, s.Holder q ∧ finish q (begun body s) = .next t := by
  unfold wireOperation at h
  split at h
  · cases h
  · exact ⟨_, unlockedOperation_next h⟩

/-- A wire command row gives a next state only where it carries its configuration's word. -/
theorem ownWord_next {own : Bool} {body : State → Res (Option Value)} {s t : State} (h : ownWord own body s = .next t) :
    own = true ∧ ∃ q, s.Holder q ∧ finish q (begun body s) = .next t := by
  unfold ownWord at h
  split at h
  · next ho => exact ⟨ho, wireOperation_next h⟩
  · cases h

end Sys2Proof.Machine
end

