-- ==== Sys2Proof/Laws/Command.lean ====
section
/-!
SUPPORT. What EXEC, the codec and the gate can do, said once, and what they do when the outside world answers.
-/

namespace Sys2Proof.Machine

/-! ### Waits and delays with their timers -/

/-- What a completion wait with timeout `n` can do. -/
theorem completionWait_cases (n : Nat) (s : State) :
    (∃ t : State, completionWait n s = .ok true t ∧ Passed s { t with tmr := s.tmr }) ∨
    (∃ t : State, completionWait n s = .ok false t ∧ Passed s { t with tmr := s.tmr } ∧ t.tmr = 0 ∧
      s.clock + n ≤ t.clock) ∨
    (∃ t : State, completionWait n s = .hung t ∧ Passed s { t with tmr := s.tmr }) ∨
    completionWait n s = .stop .lifecycle := by
  unfold completionWait
  rcases pause_cases s with ⟨u, hu, pu⟩ | hu
  · rw [hu, Res.bind_ok]
    have tr : ∀ t : State, Passed { u with tmr := n } { t with tmr := n } → Passed s { t with tmr := s.tmr } := fun t p => by
      have k : s.tmr = u.tmr := by rw [pu.frame]
      rw [k]
      exact pu.trans ⟨congrArg (fun x : State => { x with tmr := u.tmr }) p.frame, p.events, p.latch, p.kept, p.time, p.stamp⟩
    split
    · exact .inl ⟨_, rfl, tr { u with tmr := n } (.refl _)⟩
    · rcases awaitCompletion_cases u.inputs { u with tmr := n } with ⟨t, h, p⟩ | ⟨t, h, p, z, c⟩ | ⟨t, h, p⟩ | h
      · exact .inl ⟨t, h, tr t p⟩
      · exact .inr (.inl ⟨t, h, tr t p, z, le_trans (Nat.add_le_add_right pu.time n) c⟩)
      · exact .inr (.inr (.inl ⟨t, h, tr t p⟩))
      · exact .inr (.inr (.inr h))
  · exact .inr (.inr (.inr (by rw [hu]; rfl)))

/-- What a delay can do, once the time before it has passed. -/
theorem delayTicks_cases (n : Nat) (s : State) :
    (∃ u t : State, Passed s u ∧ delayTicks n s = .ok () t ∧ Passed (u.emit (.delay n)) { t with dly := s.dly } ∧
      (t.dly = s.dly ∨ t.dly = 0)) ∨
    (∃ u t : State, Passed s u ∧ delayTicks n s = .hung t ∧ Passed (u.emit (.delay n)) { t with dly := s.dly }) ∨
    delayTicks n s = .stop .lifecycle := by
  unfold delayTicks
  rcases pause_cases s with ⟨u, hu, pu⟩ | hu
  · rw [hu, Res.bind_ok]
    have k : s.dly = u.dly := by rw [pu.frame]
    rw [k]
    split
    · exact .inl ⟨u, _, pu, rfl, .refl _, .inl rfl⟩
    · have tr : ∀ t : State, Passed { u.emit (.delay n) with dly := n } { t with dly := n } →
          Passed (u.emit (.delay n)) { t with dly := u.dly } := fun t p =>
        ⟨congrArg (fun x : State => { x with dly := u.dly }) p.frame, p.events, p.latch, p.kept, p.time, p.stamp⟩
      rcases awaitTicks_cases u.inputs { u.emit (.delay n) with dly := n } with ⟨t, h, p, z, c⟩ | ⟨t, h, p⟩ | h
      · exact .inl ⟨u, t, pu, h, tr t p, .inr z⟩
      · exact .inr (.inl ⟨u, t, pu, h, tr t p⟩)
      · exact .inr (.inr h)
  · exact .inr (.inr (by rw [hu]; rfl))

/-! ### EXEC -/

/-- Everything EXEC can do, from the state `v` in which its time of starting has passed: a response cached (R148), a suppressed
command sent (R145), the Transport's error (R144), a timeout (R147), a suspension, or a refusal; with what moved while it was
suspended. -/
theorem execProcedure_cases (w : Word) (route : Route) (s : State) :
    execProcedure w route s = .stop .lifecycle ∨ ∃ v, Passed s v ∧
    ((∃ (t : State) (r : Word), Passed ((execArmed w v).goto .execSend) t ∧ srBit w = true ∧
      execProcedure w route s = .ok none (t.emit (.send route w (.ok r)))) ∨
    (∃ (t : State) (r : Word), Passed ((execArmed w v).goto .execSend) t ∧ srBit w = false ∧ v.cmode = .poll ∧
      execProcedure w route s = .ok (some r) (((t.emit (.send route w (.ok r))).goto .execLatch).latch r)) ∨
    (∃ (t : State) (e : TErr), Passed ((execArmed w v).goto .execSend) t ∧
      execProcedure w route s = .err (.transport e) (t.emit (.send route w (.err e))).disarm) ∨
    (∃ (t u : State) (r : Word), Passed ((execArmed w v).goto .execSend) t ∧ srBit w = false ∧ v.cmode = .interrupt ∧
      Passed ((t.emit (.send route w (.ok r))).goto .execWait) { u with tmr := t.tmr } ∧
      execProcedure w route s = .ok (some r) (({ u.disarm with tmr := 0 }.goto .execLatch).latch r)) ∨
    (∃ (t u : State) (r : Word), Passed ((execArmed w v).goto .execSend) t ∧ srBit w = false ∧ v.cmode = .interrupt ∧
      Passed ((t.emit (.send route w (.ok r))).goto .execWait) { u with tmr := t.tmr } ∧ u.tmr = 0 ∧
      t.clock + t.cfg.tAckTimeout ≤ u.clock ∧
      execProcedure w route s = .err .timeout (u.disarm.emit .timeout)) ∨
    (∃ t : State, Passed ((execArmed w v).goto .execSend) t ∧ execProcedure w route s = .hung t) ∨
    (∃ (t u : State) (r : Word), Passed ((execArmed w v).goto .execSend) t ∧ srBit w = false ∧ v.cmode = .interrupt ∧
      Passed ((t.emit (.send route w (.ok r))).goto .execWait) { u with tmr := t.tmr } ∧
      execProcedure w route s = .hung u)) := by
  unfold execProcedure
  rcases pause_cases s with ⟨v, hv, pv⟩ | hv
  · rw [hv, Res.bind_ok]
    rcases callSend_cases route w ((execArmed w v).goto .execSend) with ⟨a, t, h, p⟩ | ⟨t, h, p⟩ | h
    · rw [h]
      cases a with
      | err e => exact .inr ⟨v, pv, .inr (.inr (.inl ⟨t, e, p, rfl⟩))⟩
      | ok r =>
        by_cases hs : srBit w = true
        · exact .inr ⟨v, pv, .inl ⟨t, r, p, hs, by simp [execAnswered, hs]⟩⟩
        · have hs : srBit w = false := by simpa using hs
          cases hm : v.cmode with
          | poll => exact .inr ⟨v, pv, .inr (.inl ⟨t, r, p, hs, hm, by simp [execAnswered, hs]⟩)⟩
          | interrupt =>
            simp only [Res.bind_ok, execAnswered, hs, Bool.false_eq_true, if_false]
            rcases completionWait_cases (t.emit (.send route w (.ok r))).cfg.tAckTimeout
              ((t.emit (.send route w (.ok r))).goto .execWait) with ⟨u, k, pu⟩ | ⟨u, k, pu, z, c⟩ | ⟨u, k, pu⟩ | k
            · exact .inr ⟨v, pv, .inr (.inr (.inr (.inl ⟨t, u, r, p, trivial, hm, pu, by rw [k]; rfl⟩)))⟩
            · exact .inr ⟨v, pv, .inr (.inr (.inr (.inr (.inl ⟨t, u, r, p, trivial, hm, pu, z, c, by rw [k]; rfl⟩))))⟩
            · exact .inr ⟨v, pv, .inr (.inr (.inr (.inr (.inr (.inr ⟨t, u, r, p, trivial, hm, pu, by rw [k]; rfl⟩)))))⟩
            · exact .inl (by rw [k]; rfl)
    · exact .inr ⟨v, pv, .inr (.inr (.inr (.inr (.inr (.inl ⟨t, p, by rw [h]; rfl⟩)))))⟩
    · exact .inl (by rw [h]; rfl)
  · exact .inl (by rw [hv]; rfl)

/-- EXEC of a command the outside world answers. -/
theorem execProcedure_answered {w r : Word} {route : Route} {s : State} {rest : List Input}
    (h : s.inputs = sendScript s.cmode w r ++ rest) :
    execProcedure w route s = .ok (if srBit w then none else some r)
      { s.answered route w r with seq := if srBit w then .execSend else .execLatch, inputs := rest } := by
  cases hs : srBit w <;> cases hm : s.cmode <;>
    simp [execProcedure, execArmed, armsWait, hs, hm, callSend, h, sendScript, wantSend, pause, Input.stepTakes?,
      execAnswered, State.answered, State.goto, State.emit, State.latch, State.arm, State.disarm, State.timestamp,
      completionWait, awaitCompletion, execWaited, State.completion]

/-- EXEC of a command whose send fails. -/
theorem execProcedure_failed {w : Word} {e : TErr} {route : Route} {s : State} {rest : List Input}
    (h : s.inputs = .answer (.send (.err e)) :: rest) :
    execProcedure w route s = .err (.transport e) { s with
      seq := .execSend, pend := false, cseen := false, inputs := rest,
      trace := s.trace ++ (armEvents s.cmode w ++ [.send route w (.err e)]) } := by
  cases hs : srBit w <;> cases hm : s.cmode <;>
    simp [execProcedure, execArmed, armsWait, hs, hm, callSend, h, wantSend, execAnswered, pause, Input.stepTakes?,
      State.goto, State.emit, State.arm, State.disarm, armEvents]

/-- EXEC of a command that fails, in either way. -/
theorem execProcedure_bad {w : Word} {bad : BadCommand} {route : Route} {s : State} {rest : List Input}
    (hp : bad.Possible s.cmode w) (h : s.inputs = bad.script s.cfg ++ rest) :
    execProcedure w route s = .err bad.error { s.failed route w bad with
      seq := if bad.error = .timeout then .execWait else .execSend, inputs := rest } := by
  cases bad with
  | sendError e => exact execProcedure_failed h
  | lost r =>
    obtain ⟨hm, hs⟩ : s.cmode = .interrupt ∧ srBit w = false := by simpa [BadCommand.Possible, armsWait] using hp
    simp [execProcedure, execArmed, armsWait, hs, hm, callSend, h, BadCommand.script, lostScript, BadCommand.error,
      BadCommand.events, lostEvents, wantSend, pause, Input.stepTakes?, execAnswered, State.failed, State.goto, State.emit,
      State.arm, State.disarm, completionWait, awaitCompletion, execWaited]

@[simp] theorem State.answered_cfg (s : State) (route : Route) (w r : Word) : (s.answered route w r).cfg = s.cfg := by
  unfold State.answered; split <;> [rfl; (split <;> rfl)]
@[simp] theorem State.answered_cmode (s : State) (route : Route) (w r : Word) : (s.answered route w r).cmode = s.cmode := by
  unfold State.answered; split <;> [rfl; (split <;> rfl)]
@[simp] theorem State.answered_mem (s : State) (route : Route) (w r : Word) : (s.answered route w r).mem = s.mem := by
  unfold State.answered; split <;> [rfl; (split <;> rfl)]
@[simp] theorem State.answered_lock (s : State) (route : Route) (w r : Word) : (s.answered route w r).lock = s.lock := by
  unfold State.answered; split <;> [rfl; (split <;> rfl)]
@[simp] theorem State.answered_seq (s : State) (route : Route) (w r : Word) : (s.answered route w r).seq = s.seq := by
  unfold State.answered; split <;> [rfl; (split <;> rfl)]
@[simp] theorem State.answered_results (s : State) (route : Route) (w r : Word) :
    (s.answered route w r).results = s.results := by
  unfold State.answered; split <;> [rfl; (split <;> rfl)]
@[simp] theorem State.answered_hbwKind (s : State) (route : Route) (w r : Word) :
    (s.answered route w r).hbwKind = s.hbwKind := by
  unfold State.answered; split <;> [rfl; (split <;> rfl)]
@[simp] theorem State.answered_x1 (s : State) (route : Route) (w r : Word) : (s.answered route w r).x1 = s.x1 := by
  unfold State.answered; split <;> [rfl; (split <;> rfl)]
@[simp] theorem State.answered_msglen (s : State) (route : Route) (w r : Word) :
    (s.answered route w r).msglen = s.msglen := by
  unfold State.answered; split <;> [rfl; (split <;> rfl)]
@[simp] theorem State.answered_reqlen (s : State) (route : Route) (w r : Word) :
    (s.answered route w r).reqlen = s.reqlen := by
  unfold State.answered; split <;> [rfl; (split <;> rfl)]

/-- R141, R143: an answered command adds its events to the trace. -/
theorem State.answered_trace (s : State) (route : Route) (w r : Word) :
    (s.answered route w r).trace = s.trace ++ sendEvents s.cmode route w r := by
  unfold State.answered sendEvents armsWait
  cases hs : srBit w <;> cases hm : s.cmode <;> simp

/-- R148: an answered command without `SR` leaves its response in `RESP`. -/
theorem State.answered_resp {s : State} {route : Route} {w r : Word} (h : srBit w = false) :
    (s.answered route w r).resp = r := by
  unfold State.answered
  rw [h]
  cases s.cmode <;> rfl

/-! ### Delays and calls that the outside world answers -/

/-- A delay that the outside world ends when its ticks have passed; one of 0 ticks is over at once, if its step takes no time. -/
theorem delayTicks_script {n : Nat} {s : State} {rest : List Input} (hc : n = 0 → Calm rest)
    (h : s.inputs = delayScript n ++ rest) :
    delayTicks n s = .ok () { s with
      trace := s.trace ++ [.delay n], clock := s.clock + n, dly := if n = 0 then s.dly else 0, inputs := rest } := by
  by_cases hn : n = 0
  · subst hn
    have hi : s.inputs = rest := by simpa [delayScript] using h
    subst hi
    rw [delayTicks, pause_calm (hc rfl)]
    rfl
  · simp [delayTicks, hn, h, delayScript, awaitTicks, State.emit, pause, Input.stepTakes?]

/-- The channel is opened. -/
theorem openChannel_script {s : State} {rest : List Input} (h : s.inputs = openScript s.cfg ++ rest) :
    openChannel s = .ok () { s with inputs := rest, trace := s.trace ++ openEvents s.cfg } := by
  cases ho : s.cfg.hasHbwOpen
  · have hi : s.inputs = rest := by simpa [openScript, ho] using h
    subst hi
    simp [openChannel, openEvents, ho]
  · simp [openChannel, openEvents, openScript, ho, h, wantHbwOpen, State.emit]

/-- The channel is closed. -/
theorem closeChannel_script {s : State} {rest : List Input} (h : s.inputs = closeScript s.cfg ++ rest) :
    closeChannel s = .ok () { s with inputs := rest, trace := s.trace ++ closeEvents s.cfg } := by
  cases ho : s.cfg.hasHbwClose
  · have hi : s.inputs = rest := by simpa [closeScript, ho] using h
    subst hi
    simp [closeChannel, closeEvents, ho]
  · simp [closeChannel, closeEvents, closeScript, ho, h, wantHbwClose, State.emit]

/-- A data write the Transport takes. -/
theorem callHbwWrite_answered {bytes : List Byte} {a : Ans Unit} {s : State} {rest : List Input}
    (h : s.inputs = .answer (.hbwWrite a) :: rest) :
    callHbwWrite bytes s = transportResult a { s with inputs := rest, trace := s.trace ++ [.hbwWrite bytes a] } := by
  simp [callHbwWrite, h, wantHbwWrite, State.emit]

/-- A stream read the Transport answers. -/
theorem callHbwRead_answered {n : Nat} {bytes : List Byte} {s : State} {rest : List Input}
    (h : s.inputs = .answer (.hbwRead (.ok bytes)) :: rest) (hn : bytes.length = n) :
    callHbwRead n s = .ok bytes { s with inputs := rest, trace := s.trace ++ [.hbwRead n (.ok bytes)] } := by
  simp [callHbwRead, h, wantHbwRead, hn, State.emit, transportResult]

/-- A stream read that fails. -/
theorem callHbwRead_failed {n : Nat} {e : TErr} {s : State} {rest : List Input}
    (h : s.inputs = .answer (.hbwRead (.err e)) :: rest) :
    callHbwRead n s = .err (.transport e) { s with inputs := rest, trace := s.trace ++ [.hbwRead n (.err e)] } := by
  simp [callHbwRead, h, wantHbwRead, State.emit, transportResult]

/-! ### The codec -/

/-- R61: an id below the table's size selects a descriptor. -/
theorem lookup_eq_none {c : Config} {id : Word} : lookup c id = none ↔ c.table.length ≤ id.toNat := by
  simp [lookup]

/-- R121: ENCODE beyond the table. -/
theorem encodeMessage_none {id value : Word} {dir : Direction} {s : State} (h : lookup s.cfg id = none) :
    encodeMessage id value dir s = .err (.invalidAddress id) (s.goto .encode) := by
  simp [encodeMessage, h]

/-- R123 to R125: ENCODE of an id of the table. -/
theorem encodeMessage_some {id value : Word} {dir : Direction} {s : State} {d : Descriptor}
    (h : lookup s.cfg id = some d) :
    encodeMessage id value dir s = .ok () { s.goto .encode with
      x0 := messageLane0 d value dir, x1 := messageLane1 d value dir, msglen := d.messageLength, wbufSet := true } := by
  simp [encodeMessage, h]

/-- R129 (a), (b): what a configuration the model takes says of every entry of its table. -/
theorem tableAll_getElem {p : Nat → Descriptor → Bool} {k : Nat} {t : List Descriptor} (h : tableAll p k t = true)
    {i : Nat} {d : Descriptor} (hd : t[i]? = some d) : p (k + i) d = true := by
  induction t generalizing k i with
  | nil => simp at hd
  | cons e rest ih =>
    simp only [tableAll, Bool.and_eq_true] at h
    cases i with
    | zero => simp only [List.getElem?_cons_zero, Option.some.injEq] at hd; subst hd; exact h.1
    | succ i => rw [show k + (i + 1) = k + 1 + i by omega]; exact ih h.2 (by simpa using hd)

/-- R7: the constraints a configuration the model takes meets. -/
structure Taken (c : Config) : Prop where
  table : tableAll descriptorTaken 0 c.table = true
  wdb : srBitOfOpcode c.opcWdb = false
  rdb : srBitOfOpcode c.opcRdb = false
  sync : srBit c.syncWord = false
  syncIntr : srBit c.syncIntrWord = true
  statusQuery : srBit c.statusQueryWord = false
  ackTimeout : 1 ≤ c.tAckTimeout
  chunk : 1 ≤ c.maxChunk ∧ c.maxChunk ≤ 65535
  attempts : 1 ≤ c.ackMaxAttempts
  budget : 1 ≤ c.wakeBudget
  wakeTimeout : 1 ≤ c.tWakeTimeout
  stamp : 1 ≤ c.tsW

theorem taken_of_configOk {c : Config} (h : configOk c = true) : Taken c := by
  simp only [configOk, Bool.and_eq_true, decide_eq_true_eq, Bool.not_eq_true'] at h
  obtain ⟨⟨⟨⟨⟨⟨⟨⟨⟨⟨⟨⟨⟨⟨h1, h2⟩, h3⟩, h4⟩, h5⟩, h6⟩, h7⟩, h8⟩, h9⟩, h10⟩, h11⟩, h12⟩, h13⟩, h14⟩, h15⟩ := h
  exact ⟨h1, h2, h3, h5, h6, h7, h8, ⟨h9, h10⟩, h11, h12, h13, h15⟩

/-- R129 (b): every message of a configuration the model takes is 4 or 8 bytes long. -/
theorem messageLength_cases {c : Config} {id : Word} {d : Descriptor} (h : configOk c = true) (hd : lookup c id = some d) :
    d.messageLength = 4 ∨ d.messageLength = 8 := by
  have := tableAll_getElem (taken_of_configOk h).table hd
  simp only [descriptorTaken, Bool.and_eq_true, Bool.or_eq_true, decide_eq_true_eq] at this
  exact this.2

/-! ### The gate -/

/-- A locked operation that cannot be presented is turned away as `notAdmitted` says. -/
theorem lockedOperation_turnedAway {q : Nat} {self : Frame} {body : State → Res (Option Value)} {s : State}
    {o : Host.Outcome State Fault Refusal} (h : notAdmitted q s = some o) : lockedOperation q self body s = o := by
  unfold lockedOperation
  rw [h]

/-- A locked operation that finds the lock free is its gate procedure. -/
theorem lockedOperation_public {q : Nat} {self : Frame} {body : State → Res (Option Value)} {s : State} (h : s.Public q) :
    lockedOperation q self body s = finish q (gate q body s) := by
  unfold lockedOperation
  rw [notAdmitted_eq_none.2 h.1, h.2]

/-- A locked operation gives a next state when it runs its gate procedure or goes on waiting for another's lock. -/
theorem lockedOperation_next {q : Nat} {self : Frame} {body : State → Res (Option Value)} {s t : State}
    (h : lockedOperation q self body s = .next t) :
    (s.Public q ∧ finish q (gate q body s) = .next t) ∨
    (∃ p, s.Ready q ∧ s.lock = .held p ∧ p ≠ q ∧ t = { s with requests := s.requests ++ [self] }) := by
  unfold lockedOperation at h
  split at h
  · next o ho => subst h; exact absurd ho notAdmitted_ne_next
  · next ho =>
    have hr := notAdmitted_eq_none.1 ho
    split at h
    · next hl => exact .inl ⟨⟨hr, hl⟩, h⟩
    · next p hl =>
      split at h
      · cases h
      · next hp => cases h; exact .inr ⟨p, hr, hl, hp, rfl⟩

/-- The release steps, where neither takes time. -/
theorem releaseSteps_calm {q : Nat} {s : State} (h : Calm s.inputs) :
    releaseSteps q s = .ok () { s.closed q with seq := .gateUnlock } := by
  have k : Calm s.giveBack.inputs := h
  rw [releaseSteps, pause_calm h, Res.bind_ok, unlockStep, pause_calm k]
  simp [State.closed, State.giveBack, State.unlock, State.goto]

/-- What the release steps can do: after each other, each in its time. -/
theorem releaseSteps_cases (q : Nat) (s : State) :
    (∃ t u : State, Passed s t ∧ Passed t.giveBack u ∧ releaseSteps q s = .ok () (u.unlock q)) ∨
    releaseSteps q s = .stop .lifecycle := by
  unfold releaseSteps unlockStep
  rcases pause_cases s with ⟨t, ht, pt⟩ | ht
  · rw [ht, Res.bind_ok]
    rcases pause_cases t.giveBack with ⟨u, hu, pu⟩ | hu
    · exact .inl ⟨t, u, pt, pu, by rw [hu]; rfl⟩
    · exact .inr (by rw [hu]; rfl)
  · exact .inr (by rw [ht]; rfl)

/-- The gate after a granted resume: the body in the opened state, then the release steps. -/
theorem gate_resumed {q : Nat} {body : State → Res (Option Value)} {s : State} {rest : List Input}
    (h : s.inputs = .answer (.resume true) :: rest) :
    gate q body s = (begun body { s.opened q with seq := .gateResume, inputs := rest }).after (releaseSteps q) := by
  simp [gate, pause, Input.stepTakes?, callResume, h, wantResume, State.opened, State.emit, State.grant, State.goto]

/-- The gate after a failed resume. -/
theorem gate_refused {q : Nat} {body : State → Res (Option Value)} {s : State} {rest : List Input} (hc : Calm rest)
    (h : s.inputs = .answer (.resume false) :: rest) :
    gate q body s = .err .powerResumeFailed { s with
      seq := .gateUnlock, lock := .free, inputs := rest,
      trace := s.trace ++ [.lockGrant q, .resume false, .lockRelease q] } := by
  have k : ∀ x : State, x.inputs = rest → unlockStep q x = .ok () (x.unlock q) := fun x hx => by
    simp [unlockStep, pause_calm (hx ▸ hc : Calm x.inputs)]
  simp [gate, pause, Input.stepTakes?, callResume, h, wantResume, State.emit, State.grant, State.goto, k, State.unlock]

end Sys2Proof.Machine
end

