-- ==== Sys2Proof/Laws/Encoding.lean ====
section
/-!
SUPPORT. The byte and half-word pictures of a word, the length of a frame, and the least exponent behind the field mask.
-/

namespace Sys2Proof

theorem getLsbD_halves (h l : Half) (i : Nat) :
    (wordOfHalves h l).getLsbD i = if i < 16 then l.getLsbD i else h.getLsbD (i - 16) :=
  BitVec.getLsbD_append

/-- The four bytes of a word make the word. -/
@[simp] theorem wordOfBytes_byteOf (w : Word) : wordOfBytes (byteOf w 0) (byteOf w 1) (byteOf w 2) (byteOf w 3) = w := by
  apply BitVec.eq_of_getLsbD_eq
  intro i hi
  simp only [wordOfBytes, byteOf, BitVec.getLsbD_append, BitVec.getLsbD_setWidth, BitVec.getLsbD_ushiftRight]
  by_cases h0 : i < 8
  · simp [h0]
  · by_cases h1 : i < 16
    · have : i - 8 < 8 := by omega
      have e : 8 + (i - 8) = i := by omega
      simp [h0, this, e]
    · by_cases h2 : i < 24
      · have a : ¬ i - 8 < 8 := by omega
        have b : i - 8 - 8 < 8 := by omega
        have e : 16 + (i - 8 - 8) = i := by omega
        simp [h0, a, b, e]
      · have a : ¬ i - 8 < 8 := by omega
        have b : ¬ i - 8 - 8 < 8 := by omega
        have c : i - 8 - 8 - 8 < 8 := by omega
        have e : 24 + (i - 8 - 8 - 8) = i := by omega
        simp [h0, a, b, c, e]

/-- The two halves of a word make the word. -/
@[simp] theorem wordOfHalves_halves (w : Word) : wordOfHalves (highHalf w) (lowHalf w) = w := by
  apply BitVec.eq_of_getLsbD_eq
  intro i hi
  simp only [getLsbD_halves, highHalf, lowHalf, BitVec.getLsbD_setWidth, BitVec.getLsbD_ushiftRight]
  by_cases h : i < 16
  · simp [h]
  · have : i - 16 < 16 := by omega
    have e : 16 + (i - 16) = i := by omega
    simp [h, this, e]

@[simp] theorem highHalf_wordOfHalves (h l : Half) : highHalf (wordOfHalves h l) = h := by
  apply BitVec.eq_of_getLsbD_eq
  intro i hi
  have a : ¬ 16 + i < 16 := by omega
  have e : 16 + i - 16 = i := by omega
  simp only [highHalf, BitVec.getLsbD_setWidth, BitVec.getLsbD_ushiftRight, getLsbD_halves, a, e, hi]
  rfl

@[simp] theorem lowHalf_wordOfHalves (h l : Half) : lowHalf (wordOfHalves h l) = l := by
  apply BitVec.eq_of_getLsbD_eq
  intro i hi
  simp only [lowHalf, BitVec.getLsbD_setWidth, getLsbD_halves, hi]
  rfl

/-- R94: bit 28 of a word is bit 12 of its opcode field. -/
@[simp] theorem srBit_wordOfHalves (h l : Half) : srBit (wordOfHalves h l) = srBitOfOpcode h :=
  getLsbD_halves h l 28

/-- R94: the same for the opcode field of a word. -/
@[simp] theorem srBitOfOpcode_highHalf (w : Word) : srBitOfOpcode (highHalf w) = srBit w := by
  have := srBit_wordOfHalves (highHalf w) (lowHalf w)
  rwa [wordOfHalves_halves, eq_comm] at this

/-- A word is four bytes. -/
theorem wordBytes_length (w : Word) : (wordBytes w).length = 4 := rfl

namespace Machine

/-- The search for the least exponent finds one that is large enough, if there is one in its range. -/
theorem leastExponent_le {n fuel k : Nat} (h : n ≤ 2 ^ (k + fuel)) : n ≤ 2 ^ leastExponent n fuel k := by
  induction fuel generalizing k with
  | zero => simpa [leastExponent] using h
  | succ f ih =>
    simp only [leastExponent]
    split
    · assumption
    · exact ih (by rw [show k + 1 + f = k + (f + 1) by omega]; exact h)

/-- No exponent from the start of the search on and below the one it finds is large enough. -/
theorem leastExponent_least {n fuel k j : Nat} (hk : k ≤ j) (hj : j < leastExponent n fuel k) : 2 ^ j < n := by
  induction fuel generalizing k with
  | zero => simp only [leastExponent] at hj; omega
  | succ f ih =>
    simp only [leastExponent] at hj
    split at hj
    · omega
    · next h =>
      rcases Nat.eq_or_lt_of_le hk with rfl | hk
      · omega
      · exact ih hk hj

/-- The search stays in its range. -/
theorem leastExponent_range (n fuel k : Nat) : leastExponent n fuel k ≤ k + fuel := by
  induction fuel generalizing k with
  | zero => simp [leastExponent]
  | succ f ih =>
    simp only [leastExponent]
    split
    · omega
    · have := ih (k + 1); omega

end Machine

end Sys2Proof
end

