-- ==== Sys2Proof/Laws/PerInstr.lean ====
section
/-!
SUPPORT. Statements made per instruction: `FrameShape`, that every instruction is stored as a request record of 17 bytes or a
wire frame of 5.
-/

namespace Sys2Proof.Laws.FrameShape

/-- A host request is stored as 17 bytes, a wire word with its role as 5 (log entry 2). -/
def Statement (i : Instr) : Prop :=
  match Sys2Proof.encode i with
  | .hreq bytes => bytes.length = 17
  | .wire bytes => bytes.length = 5

theorem execute (q : Nat) (w : Word) : Statement (.execute q w) := rfl
theorem readRegister (q : Nat) (id : Word) : Statement (.readRegister q id) := rfl
theorem writeRegister (q : Nat) (id value : Word) : Statement (.writeRegister q id value) := rfl
theorem writeBlock (q : Nat) (buf len : Word) : Statement (.writeBlock q buf len) := rfl
theorem readBlock (q : Nat) (buf len id : Word) : Statement (.readBlock q buf len id) := rfl
theorem wakeup (q : Nat) : Statement (.wakeup q) := rfl
theorem encode (q : Nat) (id value : Word) (dir : Direction) : Statement (.encode q id value dir) := rfl
theorem decode (q : Nat) (id : Word) : Statement (.decode q id) := rfl
theorem executeLocked (q : Nat) (w : Word) : Statement (.executeLocked q w) := rfl
theorem readRegisterLocked (q : Nat) (id : Word) : Statement (.readRegisterLocked q id) := rfl
theorem writeRegisterLocked (q : Nat) (id value : Word) : Statement (.writeRegisterLocked q id value) := rfl
theorem writeBlockLocked (q : Nat) (buf len : Word) : Statement (.writeBlockLocked q buf len) := rfl
theorem readBlockLocked (q : Nat) (buf len id : Word) : Statement (.readBlockLocked q buf len id) := rfl
theorem wakeupLocked (q : Nat) : Statement (.wakeupLocked q) := rfl
theorem reservedE (q : Nat) : Statement (.reservedE q) := rfl
theorem reservedF (q : Nat) : Statement (.reservedF q) := rfl
theorem cw32Generic (w : Word) : Statement (.cw32Generic w) := rfl
theorem wdbCmd (opcode size : Half) : Statement (.wdbCmd opcode size) := rfl
theorem wdbResp (r : Word) : Statement (.wdbResp r) := rfl
theorem wdbAck (a : Word) : Statement (.wdbAck a) := rfl
theorem rdbCmd (opcode id : Half) : Statement (.rdbCmd opcode id) := rfl
theorem rdbResp (r : Word) : Statement (.rdbResp r) := rfl
theorem statusQuery (w : Word) : Statement (.statusQuery w) := rfl
theorem syncIntr (w : Word) : Statement (.syncIntr w) := rfl
theorem sync (w : Word) : Statement (.sync w) := rfl
theorem smoothMuteZero (w : Word) : Statement (.smoothMuteZero w) := rfl
theorem regMsgLane (w : Word) : Statement (.regMsgLane w) := rfl

end Sys2Proof.Laws.FrameShape
end

