-- ==== Sys2Proof/Tests/Slice0.lean ====
section
/-!
SUPPORT. Tests: ill-formed terms that WellFormed refuses; a word of every row, written out from the spec's encoding, that the
decoder reads as that row; one or two small runs of every operation, their expected values from 95_test_vectors.md; and, for
every statement with hypotheses, a concrete state and operands that meet them together.
-/

namespace Sys2Proof.Tests

open Sys2Proof.Machine

/-! ### WellFormed refuses what its checks are for -/

/-- A requester whose number does not fit the request record. -/
theorem test_wf_requester : (Instr.execute (2 ^ 32) 0).wf = false := by decide
/-- R94: `OPC_WDB` with bit 12 set. -/
theorem test_wf_wdb_suppress : (Instr.wdbCmd 0x1A01 4).wf = false := by decide
/-- R94: `OPC_RDB` with bit 12 set. -/
theorem test_wf_rdb_suppress : (Instr.rdbCmd 0x1A02 7).wf = false := by decide
/-- R99: a status query with `SR = 1`. -/
theorem test_wf_status_suppress : (Instr.statusQuery 0x1C000000).wf = false := by decide
/-- R99: a synchronize-and-suppress word with `SR = 0`. -/
theorem test_wf_syncIntr_no_suppress : (Instr.syncIntr 0x0B000001).wf = false := by decide
/-- R99: a plain synchronize word with `SR = 1`. -/
theorem test_wf_sync_suppress : (Instr.sync 0x1B000000).wf = false := by decide
/-- The largest requester a record can name, on every row that carries one. -/
theorem test_wf_largest_requester :
    ([Instr.execute (2 ^ 32 - 1) 0, .readRegister (2 ^ 32 - 1) 0, .writeRegister (2 ^ 32 - 1) 0 0, .writeBlock (2 ^ 32 - 1) 0 0,
      .readBlock (2 ^ 32 - 1) 0 0 0, .wakeup (2 ^ 32 - 1), .encode (2 ^ 32 - 1) 0 0 .read, .decode (2 ^ 32 - 1) 0,
      .reservedE (2 ^ 32 - 1), .wakeupLocked (2 ^ 32 - 1)].all Instr.wf) = true := by decide

/-! ### Every row's word is read as that row (R100, R101 for the requests; R91, R97 to R99 and CFG-T for the wire) -/

theorem test_decode_execute :
    decode (.hreq [0x00, 1, 0, 0, 0, 0x2A, 0, 0, 0, 0, 0, 0, 0, 0, 0, 0, 0]) = .ok (.execute 1 0x0000002A) := by decide
theorem test_decode_readRegister :
    decode (.hreq [0x01, 0, 0, 0, 0, 0x03, 0, 0, 0, 0, 0, 0, 0, 0, 0, 0, 0]) = .ok (.readRegister 0 3) := by decide
theorem test_decode_writeRegister :
    decode (.hreq [0x02, 0, 0, 0, 0, 0x05, 0, 0, 0, 0xE8, 0x03, 0, 0, 0, 0, 0, 0]) = .ok (.writeRegister 0 5 1000) := by decide
theorem test_decode_writeBlock :
    decode (.hreq [0x03, 1, 0, 0, 0, 0, 0, 0, 0, 0xC4, 0x09, 0, 0, 7, 0, 0, 0]) = .ok (.writeBlock 1 7 2500) := by decide
theorem test_decode_readBlock :
    decode (.hreq [0x04, 1, 0, 0, 0, 7, 0, 1, 0, 10, 0, 0, 0, 3, 0, 0, 0]) = .ok (.readBlock 1 3 10 0x00010007) := by decide
theorem test_decode_wakeup :
    decode (.hreq [0x05, 0, 0, 0, 0, 0, 0, 0, 0, 0, 0, 0, 0, 0, 0, 0, 0]) = .ok (.wakeup 0) := by decide
theorem test_decode_encode_read :
    decode (.hreq [0x06, 0, 0, 0, 0, 0x10, 0, 0, 0, 0x55, 0, 0, 0, 0, 0, 0, 0]) = .ok (.encode 0 0x10 0x55 .read) := by decide
theorem test_decode_encode_write :
    decode (.hreq [0x16, 0, 0, 0, 0, 0x10, 0, 0, 0, 0x2A, 0, 0, 0, 0, 0, 0, 0]) = .ok (.encode 0 0x10 0x2A .write) := by decide
theorem test_decode_decode :
    decode (.hreq [0x07, 0, 0, 0, 0, 0x10, 0, 0, 0, 0, 0, 0, 0, 0, 0, 0, 0]) = .ok (.decode 0 0x10) := by decide
theorem test_decode_executeLocked :
    decode (.hreq [0x08, 0, 0, 0, 0, 5, 0, 0, 0x0E, 0, 0, 0, 0, 0, 0, 0, 0]) = .ok (.executeLocked 0 0x0E000005) := by decide
theorem test_decode_readRegisterLocked :
    decode (.hreq [0x09, 0, 0, 0, 0, 3, 0, 0, 0, 0, 0, 0, 0, 0, 0, 0, 0]) = .ok (.readRegisterLocked 0 3) := by decide
theorem test_decode_writeRegisterLocked :
    decode (.hreq [0x0A, 0, 0, 0, 0, 0x10, 0, 0, 0, 0x2A, 0, 0, 0, 0, 0, 0, 0]) = .ok (.writeRegisterLocked 0 0x10 0x2A) := by
  decide
theorem test_decode_writeBlockLocked :
    decode (.hreq [0x0B, 1, 0, 0, 0, 0, 0, 0, 0, 0xC4, 0x09, 0, 0, 7, 0, 0, 0]) = .ok (.writeBlockLocked 1 7 2500) := by decide
theorem test_decode_readBlockLocked :
    decode (.hreq [0x0C, 1, 0, 0, 0, 7, 0, 0, 0, 10, 0, 0, 0, 3, 0, 0, 0]) = .ok (.readBlockLocked 1 3 10 7) := by decide
theorem test_decode_wakeupLocked :
    decode (.hreq [0x0D, 0, 0, 0, 0, 0, 0, 0, 0, 0, 0, 0, 0, 0, 0, 0, 0]) = .ok (.wakeupLocked 0) := by decide
theorem test_decode_reservedE :
    decode (.hreq [0x0E, 1, 0, 0, 0, 0, 0, 0, 0, 0, 0, 0, 0, 0, 0, 0, 0]) = .ok (.reservedE 1) := by decide
theorem test_decode_reservedF :
    decode (.hreq [0x0F, 1, 0, 0, 0, 0, 0, 0, 0, 0, 0, 0, 0, 0, 0, 0, 0]) = .ok (.reservedF 1) := by decide
theorem test_decode_cw32Generic : decode (.wire [0x2A, 0, 0, 0, 0]) = .ok (.cw32Generic 0x0000002A) := by decide
/-- 95_test_vectors.md 3.4: the command of a chunk of 452 bytes is 0x0A0101C4. -/
theorem test_decode_wdbCmd : decode (.wire [0xC4, 0x01, 0x01, 0x0A, 1]) = .ok (.wdbCmd 0x0A01 452) := by decide
theorem test_decode_wdbResp : decode (.wire [0xFF, 0xFF, 0x01, 0x0A, 2]) = .ok (.wdbResp 0x0A01FFFF) := by decide
theorem test_decode_wdbAck : decode (.wire [0, 0, 0x01, 0x0A, 3]) = .ok (.wdbAck 0x0A010000) := by decide
theorem test_decode_rdbCmd : decode (.wire [7, 0, 0x02, 0x0A, 4]) = .ok (.rdbCmd 0x0A02 7) := by decide
theorem test_decode_rdbResp : decode (.wire [0x10, 0, 0x02, 0x0A, 5]) = .ok (.rdbResp 0x0A020010) := by decide
theorem test_decode_statusQuery : decode (.wire [0, 0, 0, 0x0C, 6]) = .ok (.statusQuery 0x0C000000) := by decide
theorem test_decode_syncIntr : decode (.wire [1, 0, 0, 0x1B, 7]) = .ok (.syncIntr 0x1B000001) := by decide
theorem test_decode_sync : decode (.wire [0, 0, 0, 0x0B, 8]) = .ok (.sync 0x0B000000) := by decide
theorem test_decode_smoothMuteZero : decode (.wire [0, 0, 0, 0x0D, 9]) = .ok (.smoothMuteZero 0x0D000000) := by decide
theorem test_decode_regMsgLane : decode (.wire [0x80, 0x3E, 0x86, 0x0C, 10]) = .ok (.regMsgLane 0x0C863E80) := by decide

/-- A request record one byte short. -/
theorem test_decode_requestLength : decode (.hreq [0x00, 1, 0, 0, 0, 0, 0, 0, 0, 0, 0, 0, 0, 0, 0, 0]) = .error .requestLength := by
  decide
theorem test_decode_requestPadding :
    decode (.hreq [0x20, 1, 0, 0, 0, 0, 0, 0, 0, 0, 0, 0, 0, 0, 0, 0, 0]) = .error .requestPadding := by decide
theorem test_decode_wireLength : decode (.wire [0, 0, 0, 0]) = .error .wireLength := by decide
theorem test_decode_wireRole : decode (.wire [0, 0, 0, 0, 11]) = .error .wireRole := by decide
/-- R94, R99: bit 28 on the wrong side, for each row that fixes it. -/
theorem test_decode_suppressBit :
    decode (.wire [4, 0, 0x01, 0x1A, 1]) = .error .suppressBit ∧ decode (.wire [7, 0, 0x02, 0x1A, 4]) = .error .suppressBit ∧
    decode (.wire [0, 0, 0, 0x1C, 6]) = .error .suppressBit ∧ decode (.wire [1, 0, 0, 0x0B, 7]) = .error .suppressBit ∧
    decode (.wire [0, 0, 0, 0x1B, 8]) = .error .suppressBit := by decide

/-- The table's bits of a host request and of a wire row (log entries 2 and 3). -/
theorem test_table_words :
    decodeTableWord 8 0xD = some (.wakeupLocked 0) ∧ decodeTableWord 8 0xF = some (.reservedF 0) ∧
    decodeTableWord 32 0x0A010400 = some (.cw32Generic 0x0A010400) := by decide

/-! ### Small runs -/

/-- What `f` says of the next state, if there is one. -/
def on {α : Type} (o : Host.Outcome State Fault Refusal) (f : State → α) : Option α :=
  match o with
  | .next s => some (f s)
  | .fault _ => none
  | .refused _ => none

/-- CFG-T, requester `q` holding the lock and a vote, and what the outside world will do. -/
def held (q : Nat) (l : List Input) : State := { State.reset with lock := .held q, pvote := true, inputs := l }

/-- CFG-T after reset, and what the outside world will do. -/
def fresh (l : List Input) : State := { State.reset with inputs := l }

/-- The Transport answers a command with `r`. -/
def sent (r : Word) : Input := .answer (.send (.ok r))

/-- The Transport answers a stream read. -/
def got (bytes : List Byte) : Input := .answer (.hbwRead (.ok bytes))

/-- R275, R276: a completion between two commands, after the first one's wait and before the second one's arm, is dropped. -/
theorem test_completion_between_commands :
    on (exec (.writeRegister 0 5 1) { held 0 [sent 1, .completion, .stepTakes 1, .completion, sent 2, .ticks 5000] with
        cmode := .interrupt }) (fun s => (s.trace, s.results)) =
      some ([.arm, .send .pri 0x0C850000 (.ok 1), .completion, .completion, .arm, .send .pri 0x0C860010 (.ok 2), .timeout],
        [(0, ⟨2, none, none⟩)]) := by decide
/-- R251: a completion between the arm and the pulse of step 2 is latched, and step 3 ends at once. -/
theorem test_completion_before_pulse :
    on (exec (.wakeup 0) { held 0 [.stepTakes 0, .stepTakes 0, .stepTakes 1, .completion] with
        cfg := { cfgT with wakeHasComplLine := true } })
      (·.trace) = some [.arm, .completion, .wakePulse] := by decide
/-- R60: the requester's bytes are those a write then sends (log entry 31). -/
theorem test_fillBuffer :
    on (step (fresh [.fillBuffer 1 2 [7, 0, 9], .completion])) (fun s => (s.mem, s.inputs)) =
      some ([(0x100000002, 7), (0x100000004, 9)], [.completion]) := by decide

/-- 3.1, masks of `value_max` 0, 5, 1000, 0x10000, 0x80000000, 0xFFFFFFFF. -/
theorem test_masks :
    [fieldMask 0, fieldMask 5, fieldMask 1000, fieldMask 0x10000, fieldMask 0x80000000, fieldMask 0xFFFFFFFF] =
      [0, 7, 1023, 0x1FFFF, 0xFFFFFFFF, 0xFFFFFFFF] := by decide
/-- 3.4, A1 to A9. -/
theorem test_ack_words :
    [ackWord .hsbus .swap 0x0A 0x01 0 0, ackWord .hsbus .swap 0 0 0x01 0x0A, ackWord .hsbus .identity 0 0 0x01 0x0A,
      ackWord .hsbus .identity 0x0A 0x01 0 0, ackWord .spi .swap 0x0A 0x01 0 0, ackWord .spi .swap 0 0 0x0A 0x01,
      ackWord .spi .swap 0x01 0x0A 0 0, ackWord .hsbus .swap 0x0A 0x01 0 1, ackWord .hsbus .swap 0 0 0 0] =
      [0x0A010000, 0x0000010A, 0x0A010000, 0x0000010A, 0x0A010000, 0x00000A01, 0x010A0000, 0x0A010001, 0] := by decide
/-- CFG-T is well-formed by R7 and by R129, as its section says. -/
theorem test_cfgT_wellFormed : configOk cfgT = true ∧ tableWellFormed cfgT.table = true := by decide

/-- E10. -/
theorem test_encode_write : on (exec (.encode 0 5 1000 .write) State.reset) (fun s => (s.x0, s.x1, s.msglen)) =
    some (0x0C850000, 0x0C863E80, 8) := by decide
/-- E5: the value is ignored. -/
theorem test_encode_read : on (exec (.encode 0 0x10 0x55 .read) State.reset) (fun s => (s.x0, s.x1, s.msglen)) =
    some (0x0A100000, 0, 4) := by decide
/-- K4. -/
theorem test_decode_run :
    on (exec (.decode 0 5) { State.reset with x0 := 0x0C850000, x1 := 0x0C863E80, msglen := 8, wbufSet := true }) (·.results) =
      some [(0, ⟨0, some (.word 1000), none⟩)] := by decide
/-- K6: status 1, no value. -/
theorem test_decode_invalid : on (exec (.decode 0 0x12) State.reset) (·.results) = some [(0, ⟨1, none, none⟩)] := by decide
/-- X4. -/
theorem test_execute_interrupt :
    on (exec (.execute 0 0x0E000002) { held 0 [sent 0x0E0000AA, .completion] with cmode := .interrupt })
      (fun s => (s.trace, s.lastResp, s.pend)) =
    some ([.arm, .send .pri 0x0E000002 (.ok 0x0E0000AA), .completion], 0x0E0000AA, false) := by decide
/-- X5. -/
theorem test_execute_timeout :
    on (exec (.execute 0 0x0E000003) { held 0 [sent 1, .ticks 6000] with cmode := .interrupt })
      (fun s => (s.results, s.clock, s.lastValid, s.pend)) = some ([(0, ⟨2, none, none⟩)], 5000, false, false) := by decide
/-- G3: the value is the second response's low half, not shifted. -/
theorem test_readRegister :
    on (exec (.readRegister 0 5) (held 0 [sent 0x0C050001, sent 0x0C0603E8])) (fun s => (s.results, s.trace.length)) =
      some ([(0, ⟨0, some (.word 0x3E8), none⟩)], 2) := by decide
/-- G4: lane 1 is not sent. -/
theorem test_readRegister_aborts :
    on (exec (.readRegister 0 5) (held 0 [.answer (.send (.err 9)), sent 1])) (fun s => (s.results, s.trace.length)) =
      some ([(0, ⟨7, none, some 9⟩)], 1) := by decide
/-- S9. -/
theorem test_writeRegister :
    on (exec (.writeRegister 0 0x10 0x2A) (held 0 [sent 0x2A])) (fun s => (s.trace, s.lastResp, s.results)) =
      some ([.send .pri 0x2A (.ok 0x2A)], 0x2A, [(0, ⟨0, none, none⟩)]) := by decide
/-- G6: the word has `SR = 1`, so the cache is unchanged. -/
theorem test_writeRegister_suppressed :
    on (exec (.writeRegister 0 0x11 0x1234ABCD) (held 0 [sent 7])) (fun s => (s.lastValid, s.results)) =
      some (false, [(0, ⟨0, none, none⟩)]) := by decide

/-- CFG-T with chunks of 2 bytes and both halves of the channel bracket. -/
def smallChunks : Config := { cfgT with maxChunk := 2, hasHbwOpen := true, hasHbwClose := true }

/-- The bytes 10, 11, 12 in buffer 1. -/
def threeBytes : List Host.Cell := writeBytes [] (bufferAddress 1 0) [10, 11, 12]

/-- W7 and the chunking of R193 in small: three bytes in chunks of 2 and 1, the second acknowledged at the second read. -/
theorem test_writeBlock :
    on (exec (.writeBlock 0 1 3) { held 0 [.answer .hbwOpen, sent 0x0A010002, .answer (.hbwWrite (.ok ())), got [0x0A, 1, 0, 0],
        .ticks 10, .delayEnds, sent 0x0A01FFFF, .answer (.hbwWrite (.ok ())), got [0, 0, 0, 0], .ticks 2, .delayEnds,
        got [0x0A, 1, 0, 0], .answer .hbwClose] with cfg := smallChunks, mem := threeBytes }) (fun s => (s.trace, s.results)) =
      some ([.hbwOpen, .send .hbw 0x0A010002 (.ok 0x0A010002), .hbwWrite [10, 11] (.ok ()), .hbwRead 4 (.ok [0x0A, 1, 0, 0]),
        .delay 10, .send .hbw 0x0A010001 (.ok 0x0A01FFFF), .hbwWrite [12] (.ok ()), .hbwRead 4 (.ok [0, 0, 0, 0]), .delay 2,
        .hbwRead 4 (.ok [0x0A, 1, 0, 0]), .hbwClose], [(0, ⟨0, some (.count 3), none⟩)]) := by decide +kernel
/-- W4: bit 28 of the response is part of the compared field. -/
theorem test_writeBlock_mismatch :
    on (exec (.writeBlock 0 1 1024) (held 0 [sent 0x1A010400])) (fun s => (s.results, s.trace.length, s.lastResp)) =
      some ([(0, ⟨3, none, none⟩)], 1, 0x1A010400) := by decide
/-- 3.5, requested 5 of 8: reads of 4 and 1, a drain of 3. -/
theorem test_readBlock :
    on (exec (.readBlock 0 2 5 0x10007) (held 0 [sent 0x0A020008, got [1, 2, 3, 4], got [5], got [6, 7, 8]]))
      (fun s => (s.trace, s.mem, s.results)) =
      some ([.send .hbw 0x0A020007 (.ok 0x0A020008), .hbwRead 4 (.ok [1, 2, 3, 4]), .hbwRead 1 (.ok [5]),
        .hbwRead 3 (.ok [6, 7, 8])],
        [(0x200000000, 1), (0x200000001, 2), (0x200000002, 3), (0x200000003, 4), (0x200000004, 5)],
        [(0, ⟨0, some (.count 5), none⟩)]) := by decide
/-- 3.5, device-reported size 6. -/
theorem test_readBlock_size :
    on (exec (.readBlock 0 2 8 7) (held 0 [sent 0x0A020006])) (fun s => (s.results, s.dsz, s.mem)) =
      some ([(0, ⟨6, none, none⟩)], 6, []) := by decide
/-- K-1. -/
theorem test_wakeup :
    on (exec (.wakeup 0) (held 0 [.ticks 30, .delayEnds, sent 0, sent 0x0B000000, .completion, sent 5, .completion]))
      (fun s => (s.trace, s.wstate, s.cmode, s.att, s.lastResp)) =
      some ([.wakePulse, .delay 30, .send .pri 0x1B000001 (.ok 0), .arm, .send .pri 0x0B000000 (.ok 0x0B000000), .completion,
        .arm, .send .pri 0x0D000000 (.ok 5), .completion], .ready, .interrupt, 1, 5) := by decide
/-- K-6. -/
theorem test_wakeup_failFast :
    on (exec (.wakeup 0) { held 0 [.ticks 30, .delayEnds, sent 0, sent 0x0B0000FF, .completion] with
        cfg := { cfgT with wakeOnMismatch := .failFast } }) (fun s => (s.results, s.wstate, s.cmode, s.att)) =
      some ([(0, ⟨3, none, none⟩)], .failed, .poll, 1) := by decide
/-- L2. -/
theorem test_executeLocked_resume_fails :
    on (exec (.executeLocked 0 5) (fresh [.answer (.resume false)])) (fun s => (s.trace, s.results, s.lock)) =
      some ([.lockGrant 0, .resume false, .lockRelease 0], [(0, ⟨5, none, none⟩)], .free) := by decide
/-- L5. -/
theorem test_executeLocked_timeout :
    on (exec (.executeLocked 0 5) { fresh [.answer (.resume true), sent 1, .ticks 5000] with cmode := .interrupt })
      (fun s => (s.trace, s.results)) =
      some ([.lockGrant 0, .resume true, .arm, .send .pri 5 (.ok 1), .timeout, .releaseAutosuspend, .lockRelease 0],
        [(0, ⟨2, none, none⟩)]) := by decide
/-- L3. -/
theorem test_readRegisterLocked :
    on (exec (.readRegisterLocked 1 0x12) (fresh [.answer (.resume true)])) (fun s => (s.trace, s.results)) =
      some ([.lockGrant 1, .resume true, .releaseAutosuspend, .lockRelease 1], [(1, ⟨1, none, none⟩)]) := by decide
/-- L1. -/
theorem test_writeRegisterLocked :
    on (exec (.writeRegisterLocked 0 0x10 0x2A) (fresh [.answer (.resume true), sent 0x2A]))
      (fun s => (s.trace, s.lock, s.pvote)) =
      some ([.lockGrant 0, .resume true, .send .pri 0x2A (.ok 0x2A), .releaseAutosuspend, .lockRelease 0], .free, false) := by
  decide
/-- R205 under the gate: nothing is sent for a length of 0. -/
theorem test_writeBlockLocked :
    on (exec (.writeBlockLocked 1 1 0) (fresh [.answer (.resume true)])) (fun s => (s.trace, s.results)) =
      some ([.lockGrant 1, .resume true, .releaseAutosuspend, .lockRelease 1], [(1, ⟨0, some (.count 0), none⟩)]) := by decide
/-- P4, request 2: the id is truncated and the size refused. -/
theorem test_readBlockLocked :
    on (exec (.readBlockLocked 1 2 32 0x10007) (fresh [.answer (.resume true), sent 0x0A020006]))
      (fun s => (s.trace, s.results)) =
      some ([.lockGrant 1, .resume true, .send .hbw 0x0A020007 (.ok 0x0A020006), .releaseAutosuspend, .lockRelease 1],
        [(1, ⟨6, none, none⟩)]) := by decide
/-- K-5 under the gate: the smooth-mute command fails, and `CMODE` stays as step 5 set it. -/
theorem test_wakeupLocked :
    on (exec (.wakeupLocked 0) (fresh [.answer (.resume true), .ticks 30, .delayEnds, sent 0, sent 0x0B000000, .completion,
        .answer (.send (.err 4))])) (fun s => (s.wstate, s.cmode, s.lock, s.results)) =
      some (.failed, .interrupt, .free, [(0, ⟨7, none, some 4⟩)]) := by decide
/-- L6. -/
theorem test_locked_by_holder : exec (.wakeupLocked 0) (held 0 []) = .fault .selfDeadlock := rfl
/-- L7. -/
theorem test_reserved : exec (.reservedE 0) State.reset = .refused .reservedCode ∧
    exec (.reservedF 0) State.reset = .refused .reservedCode := ⟨rfl, rfl⟩
/-- X2. -/
theorem test_cw32Generic :
    on (exec (.cw32Generic 0x10000007) (held 0 [sent 9])) (fun s => (s.lastValid, s.results)) =
      some (false, [(0, ⟨0, none, none⟩)]) := by decide
theorem test_wdbCmd :
    on (exec (.wdbCmd 0x0A01 1024) (held 0 [sent 0x0A010400])) (fun s => (s.trace, s.chunk)) =
      some ([.send .hbw 0x0A010400 (.ok 0x0A010400)], 1024) := by decide
/-- W2. -/
theorem test_wdbResp : on (exec (.wdbResp 0x0A01FFFF) (held 0 [])) (·.results) = some [(0, ⟨0, none, none⟩)] := by decide
/-- A8, the last of three reads. -/
theorem test_wdbAck :
    on (exec (.wdbAck 0x0A010001) { held 0 [] with ackcnt := 2, ackSet := true }) (fun s => (s.results, s.ackw)) =
      some ([(0, ⟨4, none, none⟩)], 0x0A010001) := by decide
theorem test_rdbCmd :
    on (exec (.rdbCmd 0x0A02 7) (held 0 [sent 0x0A020010])) (·.trace) =
      some [.send .hbw 0x0A020007 (.ok 0x0A020010)] := by decide
/-- 3.5, requested 10 of 16. -/
theorem test_rdbResp :
    on (exec (.rdbResp 0x0A020010) { held 0 [] with reqlen := 10 }) (fun s => (s.dsz, s.xfer, s.extra)) =
      some (16, 10, 2) := by decide
/-- K-9's state. -/
theorem test_statusQuery :
    on (exec (.statusQuery 0x0C000000) (held 0 [sent 0x0C000002])) (·.results) = some [(0, ⟨3, none, none⟩)] := by decide
/-- R305: only WAKEUP enters `Interrupt` mode. -/
theorem test_syncIntr :
    on (exec (.syncIntr 0x1B000001) (held 0 [sent 0])) (fun s => (s.cmode, s.lastValid)) = some (.poll, false) := by decide
/-- K-12's first echo. -/
theorem test_sync :
    on (exec (.sync 0x0B000000) (held 0 [sent 0x0B000001])) (fun s => (s.results, s.lastResp)) =
      some ([(0, ⟨3, none, none⟩)], 0x0B000001) := by decide
theorem test_smoothMuteZero :
    on (exec (.smoothMuteZero 0x0D000000) (held 0 [sent 0xFFFFFFFF])) (·.results) = some [(0, ⟨0, none, none⟩)] := by decide
theorem test_regMsgLane :
    on (exec (.regMsgLane 0x0C863E80) (held 0 [sent 1])) (fun s => (s.trace, s.results)) =
      some ([.send .pri 0x0C863E80 (.ok 1)], [(0, ⟨0, none, none⟩)]) := by decide
/-- A word that is not the configuration's is not that row's (log entry 25). -/
theorem test_foreign_word : exec (.sync 0x0B000001) (held 0 []) = .refused .foreignWord := rfl

/-- The first instruction after reset, placed by the host. -/
theorem test_step_runs_request :
    on (step { State.reset.withFetchWord 8 0x8 with inputs := [.answer (.resume true), sent 3] }) (fun s => (s.trace, s.requests)) =
      some ([.lockGrant 0, .resume true, .send .pri 0 (.ok 3), .releaseAutosuspend, .lockRelease 0], []) := by decide

/-! ### Every statement's hypotheses can be met

`witness_<Name>` gives concrete states and operands that meet the hypotheses of the obligation of that name, clause by clause
where it has several. -/

/-- Requester 0 holds the lock and a vote, under a configuration and a completion mode. -/
def holding (c : Config) (m : CMode) (l : List Input) : State := { held 0 l with cfg := c, cmode := m }

/-- The lock is free, under a configuration and a completion mode. -/
def waiting (c : Config) (m : CMode) (l : List Input) : State := { fresh l with cfg := c, cmode := m }

/-- Requester 1 holds the lock, and requests are presented. -/
def asking (r : List Frame) (l : List Input) : State := { held 1 l with requests := r, trace := [.lockGrant 1] }

theorem cfgT_ok : configOk cfgT = true := by decide
theorem smallChunks_ok : configOk smallChunks = true := by decide

theorem holding_holder (c : Config) (m : CMode) (l : List Input) (h : configOk c = true) (n : 0 < c.nReq) :
    (holding c m l).Holder 0 := ⟨⟨h, rfl, n, rfl⟩, rfl, rfl⟩
theorem waiting_public (c : Config) (m : CMode) (l : List Input) (h : configOk c = true) (n : 0 < c.nReq) :
    (waiting c m l).Public 0 := ⟨⟨h, rfl, n, rfl⟩, rfl⟩
theorem held_holder (l : List Input) : (held 0 l).Holder 0 := ⟨⟨cfgT_ok, rfl, Nat.two_pos, rfl⟩, rfl, rfl⟩
theorem fresh_public (l : List Input) : (fresh l).Public 0 := ⟨⟨cfgT_ok, rfl, Nat.two_pos, rfl⟩, rfl⟩

theorem cfgT_stamps : 0 < 2 ^ cfgT.tsW := by decide

/-- The holder's states meet the invariant. -/
theorem asking_inv (r : List Frame) (l : List Input) : (asking r l).Inv where
  latch_armed := fun h => absurd h Bool.noConfusion
  idle_quiet := fun _ => ⟨rfl, rfl, rfl, rfl⟩
  timer_stopped := fun h => absurd rfl h
  delay_stopped := fun h => absurd rfl h
  vote_locked := fun _ => Lock.noConfusion
  holder_known := fun _ h => by cases h; exact Nat.one_lt_two
  detached_free := fun h => absurd h Bool.noConfusion
  kinds_fixed := ⟨rfl, rfl, rfl⟩
  message_length := .inl rfl
  attempts_bounded := Nat.zero_le _
  stamp_width := ⟨cfgT_stamps, cfgT_stamps⟩
  memory_canonical := ⟨List.Pairwise.nil, fun _ h => absurd h List.not_mem_nil⟩

/-- So do states in which a resume is about to be answered. -/
theorem fresh_inv (ok : Bool) (l : List Input) : (fresh (.answer (.resume ok) :: l)).Inv where
  latch_armed := fun h => absurd h Bool.noConfusion
  idle_quiet := fun _ => ⟨rfl, rfl, rfl, rfl⟩
  timer_stopped := fun h => absurd rfl h
  delay_stopped := fun h => absurd rfl h
  vote_locked := fun h => absurd h Bool.noConfusion
  holder_known := fun _ h => by cases h
  detached_free := fun h => absurd h Bool.noConfusion
  kinds_fixed := ⟨rfl, rfl, rfl⟩
  message_length := .inl rfl
  attempts_bounded := Nat.zero_le _
  stamp_width := ⟨cfgT_stamps, cfgT_stamps⟩
  memory_canonical := ⟨List.Pairwise.nil, fun _ h => absurd h List.not_mem_nil⟩

theorem witness_DecodeEncode : (Instr.readBlockLocked (2 ^ 32 - 1) 0xFFFFFFFF 0xFFFFFFFF 0xFFFFFFFF).wf = true := by decide
theorem witness_DecodedIsWellFormed : decode (.wire [0xFF, 0xFF, 0xFF, 0x1F, 7]) = .ok (.syncIntr 0x1FFFFFFF) := by decide
theorem witness_StepRunsFetchedInstruction :
    (asking [encode (.execute 1 7)] []).seq = .idle ∧
    fetch (asking [encode (.execute 1 7)] []) = some (encode (.execute 1 7), { asking [] [] with freeCount := 1 }) ∧
    decode (encode (.execute 1 7)) = .ok (.execute 1 7) := by decide
/-- Requester 0 waits for the lock, its holder does not. -/
theorem witness_FetchChoosesEligibleRequest :
    fetch (asking [encode (.executeLocked 0 7), encode (.execute 1 7)] []) =
      some (encode (.execute 1 7), { asking [encode (.executeLocked 0 7)] [] with freeCount := 1 }) ∧
    encode (.execute 1 7) ∈ (asking [encode (.executeLocked 0 7), encode (.execute 1 7)] []).requests ∧
    eligible (asking [encode (.executeLocked 0 7), encode (.execute 1 7)] []) (encode (.execute 1 7)) = true := by decide
theorem witness_IdleCompletionIsDropped :
    (fresh [.completion]).seq = .idle ∧ (fresh [.completion]).requests = [] ∧ (fresh [.completion]).pend = false ∧
    (fresh [.completion]).inputs = [.completion] := by decide
theorem witness_CallTakesItsAnswer :
    (∀ i ∈ [Input.completion, .ticks 3, .tickCompletion, .delayEnds, .advanceNow 1, .stepTakes 2, .fillBuffer 0 0 [1],
      .request (.hreq []), .holdLock 0, .dropLock 0], i.isLifecycle = false ∧ i.answer? = none) ∧
    (∀ i ∈ ([] : List Input), i.isLifecycle = false ∧ i.answer? = none) ∧
    (fresh [.stepTakes 2, .completion, .answer .hbwOpen, .ticks 1]).inputs =
      .stepTakes [Input.completion, .answer .hbwOpen].length :: ([.completion, .answer .hbwOpen] ++ [.ticks 1]) := by decide
theorem witness_UnansweredSendHangs :
    (held 0 []).Holder 0 ∧ (held 0 []).cmode = .poll ∧ (held 0 []).inputs = [] := ⟨held_holder _, rfl, rfl⟩
/-- The last id of the table and the first beyond it. -/
theorem witness_EncodeBuildsMessage :
    State.reset.Ready 0 ∧ Calm State.reset.inputs ∧ State.reset.cfg.table[(0x11 : Word).toNat]? = some
      { registerId := 0x11, rt0 := 0x0A110000, rt1 := 0, wt0 := 0, wt1 := 0, valueMax := 0xFFFFFFFF, valueShift := 0,
        messageLength := 4 } ∧
    State.reset.cfg.table.length ≤ (0x12 : Word).toNat := ⟨⟨cfgT_ok, rfl, Nat.two_pos, rfl⟩, rfl, by decide, by decide⟩
theorem witness_DecodeTakesField :
    State.reset.Ready 1 ∧ Calm State.reset.inputs ∧ State.reset.cfg.table[(0 : Word).toNat]? = some (genericDescriptor 0) ∧
    State.reset.wbufSet = false ∧ ({ State.reset with wbufSet := true } : State).Ready 1 ∧
    State.reset.cfg.table.length ≤ (0xFFFFFFFF : Word).toNat :=
  ⟨⟨cfgT_ok, rfl, Nat.one_lt_two, rfl⟩, rfl, by decide, rfl, ⟨cfgT_ok, rfl, Nat.one_lt_two, rfl⟩, by decide⟩
/-- An 8-byte message, at the largest value. -/
theorem witness_DecodeUndoesEncode :
    State.reset.Ready 0 ∧ Calm State.reset.inputs ∧ tableWellFormed State.reset.cfg.table = true ∧
    State.reset.cfg.table[(5 : Word).toNat]? = some
      { registerId := 0x05, rt0 := 0x0C050000, rt1 := 0x0C060000, wt0 := 0x0C850000, wt1 := 0x0C860000,
        valueMax := 1000, valueShift := 4, messageLength := 8 } ∧ (1000 : Word) ≤ 1000 :=
  ⟨⟨cfgT_ok, rfl, Nat.two_pos, rfl⟩, rfl, by decide, by decide, by decide⟩
theorem witness_ExecuteReturnsResponse :
    srBit 7 = false ∧
    ((held 0 [sent 9]).Holder 0 ∧ (held 0 [sent 9]).cmode = .poll ∧ (held 0 [sent 9]).inputs = [.answer (.send (.ok 9))]) ∧
    (holding cfgT .interrupt [sent 9, .completion]).Holder 0 ∧
    (holding cfgT .interrupt [sent 9, .completion]).inputs = [.answer (.send (.ok 9)), .completion] :=
  ⟨by decide, ⟨held_holder _, rfl, rfl⟩, holding_holder _ _ _ cfgT_ok (by decide), rfl⟩
theorem witness_SuppressedCommandReturnsNone :
    srBit 0x10000000 = true ∧
    ((held 0 [sent 9]).Holder 0 ∧ (held 0 [sent 9]).inputs = [.answer (.send (.ok 9))]) ∧
    (holding cfgT .interrupt [sent 9]).Holder 0 := ⟨by decide, ⟨held_holder _, rfl⟩, holding_holder _ _ _ cfgT_ok (by decide)⟩
theorem witness_FailedSendIsTransportError :
    (held 0 [.answer (.send (.err 0))]).Holder 0 ∧
    (held 0 [.answer (.send (.err 0))]).inputs = [.answer (.send (.err 0))] := ⟨held_holder _, rfl⟩
/-- Exactly `T_ACK_TIMEOUT` ticks, and one more. -/
theorem witness_UnacknowledgedCommandTimesOut :
    srBit 3 = false ∧ cfgT.tAckTimeout ≤ 5000 ∧ cfgT.tAckTimeout ≤ 5001 ∧
    (holding cfgT .interrupt [sent 1, .ticks 5000]).Holder 0 ∧ (holding cfgT .interrupt [sent 1, .ticks 5001]).Holder 0 ∧
    (holding cfgT .interrupt [sent 1, .ticks 5000]).cmode = .interrupt ∧
    (holding cfgT .interrupt [sent 1, .ticks 5000]).inputs = [.answer (.send (.ok 1)), .ticks 5000] :=
  ⟨by decide, by decide, by decide, holding_holder _ _ _ cfgT_ok (by decide), holding_holder _ _ _ cfgT_ok (by decide), rfl, rfl⟩
/-- Also where the timeout is a single tick. -/
theorem witness_CompletionEndsWait :
    srBit 3 = false ∧ Calm [] ∧ (holding cfgT .interrupt [.completion, sent 1]).Holder 0 ∧
    (holding cfgT .interrupt [.completion, sent 1]).inputs = [.completion, .answer (.send (.ok 1))] ∧
    (holding { cfgT with tAckTimeout := 1 } .interrupt [sent 1, .ticks 0, .tickCompletion]).Holder 0 ∧
    (holding { cfgT with tAckTimeout := 1 } .interrupt [sent 1, .ticks 0, .tickCompletion]).inputs =
      [.answer (.send (.ok 1)), .ticks (({ cfgT with tAckTimeout := 1 } : Config).tAckTimeout - 1), .tickCompletion] :=
  ⟨by decide, rfl, holding_holder _ _ _ cfgT_ok (by decide), rfl, holding_holder _ _ _ (by decide) (by decide), rfl⟩
theorem witness_FailedCommandLeavesSession :
    (asking [] [.answer (.send (.err 4))]).Holder 1 ∧ (asking [] [.answer (.send (.err 4))]).Inv ∧
    ∃ t : State, exec (.execute 1 7) (asking [] [.answer (.send (.err 4))]) = .next t ∧
      t.results = (asking [] [.answer (.send (.err 4))]).results ++ [(1, HRes.ofErr (.transport 4))] :=
  ⟨⟨⟨cfgT_ok, rfl, Nat.one_lt_two, rfl⟩, rfl, rfl⟩, asking_inv _ _, _, rfl, rfl⟩

/-- CFG-T with one register, whose read template has `SR` set: R129 (e) is broken, which the model takes (log entry 9). -/
def quietRead : Config := { cfgT with table := [{ genericDescriptor 0 with rt0 := 0x1E000000 }] }

theorem witness_ReadRegisterReturnsLowHalf :
    Calm [] ∧ cfgT.table[(0 : Word).toNat]? = some (genericDescriptor 0) ∧
    ((held 0 [sent 5]).Holder 0 ∧
      (held 0 [sent 5]).inputs = ((held 0 [sent 5]).readMessage (genericDescriptor 0)).messageScript 5 0 ++ [] ∧
      (((held 0 [sent 5]).readMessage (genericDescriptor 0)).messageSent 5 0).lastValid = true) ∧
    ((fresh [.answer (.resume true), sent 5]).Public 0 ∧ (fresh [.answer (.resume true), sent 5]).inputs =
        .answer (.resume true) :: (((fresh []).readMessage (genericDescriptor 0)).messageScript 5 0 ++ [])) ∧
    quietRead.table[(0 : Word).toNat]? = some { genericDescriptor 0 with rt0 := 0x1E000000 } ∧
    ((holding quietRead .poll [sent 5]).Holder 0 ∧ (holding quietRead .poll [sent 5]).inputs = (((holding quietRead .poll
        [sent 5]).readMessage { genericDescriptor 0 with rt0 := 0x1E000000 }).messageScript 5 0 ++ []) ∧
      (((holding quietRead .poll [sent 5]).readMessage { genericDescriptor 0 with rt0 := 0x1E000000 }).messageSent 5
        0).lastValid = false) ∧
    (waiting quietRead .poll [.answer (.resume true), sent 5]).Public 0 ∧
    (waiting quietRead .poll [.answer (.resume true), sent 5]).inputs = .answer (.resume true) :: (((waiting quietRead
        .poll []).readMessage { genericDescriptor 0 with rt0 := 0x1E000000 }).messageScript 5 0 ++ []) :=
  ⟨rfl, by decide, ⟨held_holder _, rfl, rfl⟩, ⟨fresh_public _, rfl⟩, by decide,
    ⟨holding_holder _ _ _ (by decide) (by decide), rfl, rfl⟩, waiting_public _ _ _ (by decide) (by decide), rfl⟩

/-- The 8-byte register of CFG-T. -/
def wideRegister : Descriptor where
  registerId := 0x05
  rt0 := 0x0C050000
  rt1 := 0x0C060000
  wt0 := 0x0C850000
  wt1 := 0x0C860000
  valueMax := 1000
  valueShift := 4
  messageLength := 8

theorem witness_WriteRegisterSendsMessage :
    Calm [.completion] ∧
    cfgT.table[(5 : Word).toNat]? = some wideRegister ∧ (held 0 [sent 1, sent 2]).Holder 0 ∧
    (held 0 [sent 1, sent 2]).inputs = ((held 0 [sent 1, sent 2]).writeMessage wideRegister 1000).messageScript 1 2 ++ [] ∧
    (fresh [.answer (.resume true), sent 1, sent 2]).Public 0 ∧
    (fresh [.answer (.resume true), sent 1, sent 2]).inputs =
      .answer (.resume true) :: (((fresh []).writeMessage wideRegister 1000).messageScript 1 2 ++ []) :=
  ⟨rfl, by decide, held_holder _, rfl, fresh_public _, rfl⟩
/-- Lane 0 refused in `Poll` mode and lost in `Interrupt` mode, of a read; lane 1 refused, and lost, of a write. -/
theorem witness_RegisterAccessAbortsOnFailure :
    cfgT.table[(5 : Word).toNat]? = some wideRegister ∧ wideRegister.messageLength = 8 ∧
    ((held 0 ((BadCommand.sendError 9).script cfgT ++ [])).Holder 0 ∧
      BadCommand.Possible .poll ((held 0 []).readMessage wideRegister).x0 (.sendError 9)) ∧
    ((holding cfgT .interrupt ((BadCommand.lost 1).script cfgT ++ [])).Holder 0 ∧
      BadCommand.Possible .interrupt ((held 0 []).readMessage wideRegister).x0 (.lost 1)) ∧
    ((held 0 (sendScript .poll 0x0C850000 1 ++ ((BadCommand.sendError 9).script cfgT ++ []))).Holder 0 ∧
      ((held 0 []).writeMessage wideRegister 1000).x0 = 0x0C850000) ∧
    (holding cfgT .interrupt (sendScript .interrupt 0x0C850000 1 ++ ((BadCommand.lost 2).script cfgT ++ []))).Holder 0 ∧
    BadCommand.Possible .interrupt ((held 0 []).writeMessage wideRegister 1000).x1 (.lost 2) :=
  ⟨by decide, rfl, ⟨held_holder _, trivial⟩, ⟨holding_holder _ _ _ cfgT_ok (by decide), by unfold BadCommand.Possible; decide⟩,
    ⟨held_holder _, by decide⟩, holding_holder _ _ _ cfgT_ok (by decide), by unfold BadCommand.Possible; decide⟩
theorem witness_InvalidAddressBeforeIo :
    cfgT.table.length ≤ (0x12 : Word).toNat ∧ (held 0 []).Holder 0 ∧ Calm (held 0 []).inputs ∧
    (fresh [.answer (.resume true)]).Public 0 ∧ (fresh [.answer (.resume true)]).inputs = [.answer (.resume true)] :=
  ⟨by decide, held_holder _, rfl, fresh_public _, rfl⟩
/-- Each pair, over a Transport that answers one command. -/
theorem witness_LockedWrapsUnlocked :
    (fresh [.answer (.resume true), sent 1]).Public 0 ∧
    ∀ u ∈ [Instr.wakeup 0, .execute 0 7, .readRegister 0 0, .writeRegister 0 0 1, .writeBlock 0 0 4, .readBlock 0 0 4 0],
      ∃ v, exec u { (fresh [.answer (.resume true), sent 1]).opened 0 with inputs := [sent 1] } = .next v ∧ Calm v.inputs := by
  refine ⟨fresh_public _, fun u h => ?_⟩
  simp only [List.mem_cons, List.not_mem_nil, or_false] at h
  obtain rfl | rfl | rfl | rfl | rfl | rfl := h <;> exact ⟨_, rfl, rfl⟩
theorem witness_LockedExecuteReturnsResponse :
    ((fresh [.answer (.resume true), sent 1]).Public 0 ∧ Calm [] ∧
      (fresh [.answer (.resume true), sent 1]).inputs = .answer (.resume true) :: (sendScript .poll 7 1 ++ [])) ∧
    (waiting cfgT .interrupt [.answer (.resume true), sent 1, .completion]).Public 0 ∧
    (waiting cfgT .interrupt [.answer (.resume true), sent 1, .completion]).inputs =
      .answer (.resume true) :: (sendScript .interrupt 7 1 ++ []) :=
  ⟨⟨fresh_public _, rfl, rfl⟩, waiting_public _ _ _ cfgT_ok (by decide), rfl⟩
theorem witness_ResumeFailureAborts :
    (fresh [.answer (.resume false)]).Public 0 ∧ Calm [] ∧
    (fresh [.answer (.resume false)]).inputs = [.answer (.resume false)] := ⟨fresh_public _, rfl, rfl⟩
/-- An operation that ends with a value and one that ends with an error. -/
theorem witness_LockedOperationReleases :
    ((fresh [.answer (.resume true), sent 1]).Public 0 ∧ (fresh [.answer (.resume true), sent 1]).Inv ∧
      ∃ t : State, exec (.executeLocked 0 7) (fresh [.answer (.resume true), sent 1]) = .next t ∧ t.seq = .idle) ∧
    (fresh [.answer (.resume false)]).Public 0 ∧ (fresh [.answer (.resume false)]).Inv ∧
      ∃ t : State, exec (.wakeupLocked 0) (fresh [.answer (.resume false)]) = .next t ∧ t.seq = .idle :=
  ⟨⟨fresh_public _, fresh_inv _ _, _, rfl, rfl⟩, fresh_public _, fresh_inv _ _, _, rfl, rfl⟩
theorem witness_LockedByHolderIsStuck : (held 0 []).Ready 0 ∧ (held 0 []).lock = .held 0 := ⟨(held_holder _).1, rfl⟩
theorem witness_LockedRequestWaits : (asking [] []).Ready 0 ∧ (asking [] []).lock = .held 1 ∧ 1 ≠ 0 :=
  ⟨⟨cfgT_ok, rfl, Nat.two_pos, rfl⟩, rfl, by decide⟩
/-- The lock is free, and another requester holds it. -/
theorem witness_UnlockedWithoutLockIsRefused :
    ((fresh []).Ready 0 ∧ ¬((fresh []).lock = .held 0 ∧ (fresh []).pvote = true)) ∧
    (asking [] []).Ready 0 ∧ ¬((asking [] []).lock = .held 0 ∧ (asking [] []).pvote = true) :=
  ⟨⟨(fresh_public _).1, by decide⟩, ⟨cfgT_ok, rfl, Nat.two_pos, rfl⟩, by decide⟩

/-- Each of the five ways. -/
theorem witness_InadmissibleRequestsAreTurnedAway :
    configOk { cfgT with maxChunk := 0 } = false ∧
    (configOk State.reset.detach.cfg = true ∧ State.reset.detach.attached = false) ∧
    (State.reset.attached = true ∧ State.reset.cfg.nReq ≤ 2) ∧
    ((1 < State.reset.cfg.nReq) ∧ (held 1 []).seq = .idle ∧ ({ held 1 [] with seq := .execSend } : State).seq ≠ .idle) ∧
    State.reset.lock = .free := by decide

/-- The device's part in two chunks; the second is acknowledged at the last of the three reads. -/
def twoPlays : List ChunkPlay :=
  [⟨0x0A010002, [], [0x0A, 1, 0, 0]⟩, ⟨0x0A01FFFF, [[0, 0, 0, 0], [0, 0, 1, 0x0A]], [0x0A, 1, 0, 0]⟩]

/-- Three bytes in chunks of 2, and a length of 0, which has no chunk. -/
theorem witness_WriteBlockSendsChunks :
    (twoPlays.length = ((3 : Word).toNat + smallChunks.maxChunk - 1) / smallChunks.maxChunk ∧ Calm [] ∧
      (∀ p ∈ twoPlays, p.Good (holding smallChunks .poll [])) ∧
      (holding smallChunks .poll (openScript smallChunks ++ (writeScript smallChunks .poll true 3 twoPlays ++
        (closeScript smallChunks ++ [])))).Holder 0) ∧
    ([] : List ChunkPlay).length = ((0 : Word).toNat + smallChunks.maxChunk - 1) / smallChunks.maxChunk ∧
    (waiting smallChunks .poll [.answer (.resume true), .answer .hbwOpen, .answer .hbwClose]).Public 0 ∧
    (waiting smallChunks .poll [.answer (.resume true), .answer .hbwOpen, .answer .hbwClose]).inputs =
      .answer (.resume true) :: (openScript smallChunks ++ (writeScript smallChunks .poll true (0 : Word).toNat [] ++
        (closeScript smallChunks ++ []))) := by
  refine ⟨⟨by decide, rfl, ?_, holding_holder _ _ _ smallChunks_ok (by decide)⟩, by decide,
    waiting_public _ _ _ smallChunks_ok (by decide), rfl⟩
  unfold ChunkPlay.Good
  decide
/-- The first of the chunks of the largest length, and the last of three bytes in chunks of 2. -/
theorem atChunk_first : AtChunk (held 0 []) 0xFFFFFFFF [] 0 1024 :=
  ⟨fun _ h => absurd h List.not_mem_nil, by decide⟩
theorem atChunk_last : AtChunk (holding smallChunks .interrupt []) 3 [twoPlays.head (by decide)] 2 1 := by
  unfold AtChunk ChunkPlay.Good; decide

theorem witness_WriteBlockRejectsOpcode :
    opc 0x1A010400 ≠ cfgT.opcWdb ∧
    (AtChunk (held 0 []) 0xFFFFFFFF [] 0 1024 ∧
      (held 0 (reachScript cfgT .poll 0xFFFFFFFF [] ++ (sendScript .poll (wdbWord cfgT 1024) 0x1A010400 ++
        (closeScript cfgT ++ [])))).Holder 0) ∧
    AtChunk (holding smallChunks .interrupt []) 3 [twoPlays.head (by decide)] 2 1 ∧
    (holding smallChunks .interrupt (reachScript smallChunks .interrupt 3 [twoPlays.head (by decide)] ++
      (sendScript .interrupt (wdbWord smallChunks 1) 0x1A010400 ++ (closeScript smallChunks ++ [])))).Holder 0 :=
  ⟨by decide, ⟨atChunk_first, held_holder _⟩, atChunk_last, holding_holder _ _ _ smallChunks_ok (by decide)⟩
/-- Three reads at the first chunk, and a budget of one at a later one. -/
theorem witness_AckReadsExhausted :
    (AtChunk (held 0 []) 0xFFFFFFFF [] 0 1024 ∧ opc 0x0A010000 = cfgT.opcWdb ∧
      [[0, 0, 0, 0], [0, 0, 1, 0x0A]].length + 1 = cfgT.ackMaxAttempts ∧
      (∀ b ∈ [[0, 0, 0, 0], [0, 0, 1, 0x0A]] ++ [[0, 0, 0, 1]],
        b.length = 4 ∧ ackOf (held 0 []) b ≠ wdbAckWord cfgT) ∧
      (held 0 (reachScript cfgT .poll 0xFFFFFFFF [] ++ (chunkScript cfgT .poll
        ⟨0x0A010000, [[0, 0, 0, 0], [0, 0, 1, 0x0A]], [0, 0, 0, 1]⟩ 1024 ++ (closeScript cfgT ++ [])))).Holder 0) ∧
    AtChunk (holding { smallChunks with ackMaxAttempts := 1 } .interrupt []) 3 [⟨0x0A010002, [], [0x0A, 1, 0, 0]⟩] 2 1 ∧
    ([] : List (List Byte)).length + 1 = ({ smallChunks with ackMaxAttempts := 1 } : Config).ackMaxAttempts ∧
    (holding { smallChunks with ackMaxAttempts := 1 } .interrupt []).Holder 0 := by
  refine ⟨⟨atChunk_first, by decide, rfl, by decide, held_holder _⟩, ?_, rfl, holding_holder _ _ _ (by decide) (by decide)⟩
  unfold AtChunk ChunkPlay.Good
  decide
/-- At the last chunk: a command that is refused and one that is lost, a data write that fails, and an acknowledgement read that
fails at once and at the last of the three. -/
theorem witness_WriteBlockPassesErrors :
    AtChunk (holding smallChunks .interrupt []) 3 [twoPlays.head (by decide)] 2 1 ∧ AtChunk (held 0 []) 0xFFFFFFFF [] 0 1024 ∧
    BadCommand.Possible .poll (wdbWord cfgT 1024) (.sendError 9) ∧
    (BadCommand.Possible .interrupt (wdbWord smallChunks 1) (.lost 5) ∧
      (holding smallChunks .interrupt (reachScript smallChunks .interrupt 3 [twoPlays.head (by decide)] ++
        ((BadCommand.lost 5).script smallChunks ++ (closeScript smallChunks ++ [])))).Holder 0) ∧
    (opc 0x0A010000 = smallChunks.opcWdb ∧
      (holding smallChunks .interrupt (reachScript smallChunks .interrupt 3 [twoPlays.head (by decide)] ++
        (sendScript .interrupt (wdbWord smallChunks 1) 0x0A010000 ++
          .answer (.hbwWrite (.err 1)) :: (closeScript smallChunks ++ [])))).Holder 0) ∧
    (([] : List (List Byte)).length < smallChunks.ackMaxAttempts ∧
      [[0, 0, 0, 0], [0, 0, 1, 0x0A]].length < smallChunks.ackMaxAttempts ∧
      ∀ b ∈ [[0, 0, 0, 0], [0, 0, 1, 0x0A]],
        b.length = 4 ∧ ackOf (holding smallChunks .interrupt []) b ≠ wdbAckWord smallChunks) := by
  refine ⟨atChunk_last, atChunk_first, trivial, ⟨?_, holding_holder _ _ _ smallChunks_ok (by decide)⟩,
    ⟨by decide, holding_holder _ _ _ smallChunks_ok (by decide)⟩, by decide⟩
  unfold BadCommand.Possible
  decide
/-- 5 of 8 bytes with a drain of 3, and a length of 0. -/
theorem witness_ReadBlockDeliversData :
    (cfgT.hasRdbFastpath = false ∧ Calm [] ∧ Memory.wf (held 0 []).mem ∧ opc 0x0A020008 = cfgT.opcRdb ∧
      BlockFits 5 (low 0x0A020008) [1, 2, 3, 4, 5] [6, 7, 8] ∧ BlockFits 0 (low 0x0A020008) [] [] ∧
      BlockFits 8 (low 0x0A020008) [1, 2, 3, 4, 5, 6, 7, 8] []) ∧
    ((held 0 [sent 0x0A020008, got [1, 2, 3, 4], got [5], got [6, 7, 8]]).Holder 0 ∧
      (held 0 [sent 0x0A020008, got [1, 2, 3, 4], got [5], got [6, 7, 8]]).inputs = openScript cfgT ++
        (sendScript .poll (rdbWord cfgT 7) 0x0A020008 ++ (readScript (blockReads [1, 2, 3, 4, 5] [6, 7, 8]) ++
          (closeScript cfgT ++ [])))) ∧
    (fresh [.answer (.resume true), sent 0x0A020008]).Public 0 ∧
    (fresh [.answer (.resume true), sent 0x0A020008]).inputs = .answer (.resume true) :: (openScript cfgT ++
      (sendScript .poll (rdbWord cfgT 7) 0x0A020008 ++ (readScript (blockReads [] []) ++ (closeScript cfgT ++ [])))) := by
  refine ⟨⟨rfl, rfl, by decide, by decide, ?_, ?_, ?_⟩, ⟨held_holder _, rfl⟩, fresh_public _, rfl⟩ <;> unfold BlockFits <;>
    decide

/-- CFG-T with the read fast path. -/
def fastReads : Config := { cfgT with hasRdbFastpath := true }

theorem witness_FastPathReplacesRead :
    fastReads.hasRdbFastpath = true ∧
    ((holding fastReads .poll [.answer (.rdb (.ok [1, 2]))]).Holder 0 ∧
      (holding fastReads .poll [.answer (.rdb (.ok [1, 2]))]).inputs = [.answer (.rdb (.ok [1, 2]))] ∧
      ([1, 2] : List Byte).length ≤ (2 : Word).toNat) ∧
    (holding fastReads .poll [.answer (.rdb (.err 3))]).Holder 0 ∧
    (holding fastReads .poll [.answer (.rdb (.err 3))]).inputs = [.answer (.rdb (.err 3))] :=
  ⟨rfl, ⟨holding_holder _ _ _ (by decide) (by decide), rfl, by decide⟩, holding_holder _ _ _ (by decide) (by decide), rfl⟩
/-- A command that is refused and one that is lost; a wrong opcode; the sizes 0 and 6 under the right one; a first and a last data
read that fails; a drain that fails. -/
theorem witness_ReadBlockEndsInError :
    (BadCommand.Possible .poll (rdbWord cfgT 7) (.sendError 9) ∧ BadCommand.Possible .interrupt (rdbWord cfgT 7) (.lost 5) ∧
      (held 0 (openScript cfgT ++ ((BadCommand.sendError 9).script cfgT ++ (closeScript cfgT ++ [])))).Holder 0 ∧
      (holding cfgT .interrupt (openScript cfgT ++ ((BadCommand.lost 5).script cfgT ++ (closeScript cfgT ++ [])))).Holder 0) ∧
    (cfgT.hasRdbFastpath = false ∧ (held 0 [sent 0x0A010004]).Holder 0 ∧ (held 0 [sent 0x0A010004]).inputs =
        openScript cfgT ++ (sendScript .poll (rdbWord cfgT 7) 0x0A010004 ++ (closeScript cfgT ++ [])) ∧
      opc 0x0A010004 ≠ cfgT.opcRdb) ∧
    (opc 0x0A020000 = cfgT.opcRdb ∧ (low 0x0A020000).toNat = 0) ∧
    (opc 0x0A020006 = cfgT.opcRdb ∧ (low 0x0A020006).toNat % 4 ≠ 0 ∧ (held 0 [sent 0x0A020006]).Holder 0) ∧
    (opc 0x0A020008 = cfgT.opcRdb ∧ (low 0x0A020008).toNat ≠ 0 ∧ (low 0x0A020008).toNat % 4 = 0 ∧
      4 * ([] : List (List Byte)).length < min (5 : Word).toNat (low 0x0A020008).toNat ∧
      (∀ b ∈ [([1, 2, 3, 4] : List Byte)], b.length = 4) ∧
      4 * [([1, 2, 3, 4] : List Byte)].length < min (5 : Word).toNat (low 0x0A020008).toNat ∧
      (held 0 [sent 0x0A020008, got [1, 2, 3, 4], .answer (.hbwRead (.err 9))]).Holder 0 ∧
      (held 0 [sent 0x0A020008, got [1, 2, 3, 4], .answer (.hbwRead (.err 9))]).inputs =
        openScript cfgT ++ (sendScript .poll (rdbWord cfgT 7) 0x0A020008 ++ (readScript [[1, 2, 3, 4]] ++
          .answer (.hbwRead (.err 9)) :: (closeScript cfgT ++ [])))) ∧
    ([1, 2, 3, 4, 5] : List Byte).length = (5 : Word).toNat ∧ (5 : Word).toNat < (low 0x0A020008).toNat ∧
    (5 : Word).toNat % 4 ≠ 0 ∧
    (held 0 [sent 0x0A020008, got [1, 2, 3, 4], got [5], .answer (.hbwRead (.err 9))]).Holder 0 ∧
    (held 0 [sent 0x0A020008, got [1, 2, 3, 4], got [5], .answer (.hbwRead (.err 9))]).inputs =
      openScript cfgT ++ (sendScript .poll (rdbWord cfgT 7) 0x0A020008 ++ (readScript (increments [1, 2, 3, 4, 5]) ++
        .answer (.hbwRead (.err 9)) :: (closeScript cfgT ++ []))) :=
  ⟨⟨trivial, by unfold BadCommand.Possible; decide, held_holder _, holding_holder _ _ _ cfgT_ok (by decide)⟩,
    ⟨rfl, held_holder _, rfl, by decide⟩, by decide, ⟨by decide, by decide, held_holder _⟩,
    ⟨by decide, by decide, by decide, by decide, by decide, by decide, held_holder _, rfl⟩,
    by decide, by decide, by decide, held_holder _, rfl⟩
/-- Either side of the border between the two clauses. -/
theorem witness_LengthsAreReconciled :
    (8 : Half).toNat % 4 = 0 ∧ (7 : Word).toNat < (8 : Half).toNat ∧ (8 : Half).toNat ≤ (8 : Word).toNat := by decide
/-- The byte before the buffer and the one after it. -/
theorem witness_ReadBlockStaysInBuffer :
    (∃ t, exec (.readBlock 0 2 8 7) (held 0 [sent 0x0A020004, got [1, 2, 3, 4]]) = .next t) ∧
    (∃ t, exec (.readBlockLocked 0 2 8 7) (fresh [.answer (.resume true), sent 0x0A020004, got [1, 2, 3, 4]]) = .next t) ∧
    bufferAddress 2 0 - 1 < bufferAddress 2 0 ∧ bufferAddress 2 (8 : Word).toNat ≤ bufferAddress 2 8 :=
  ⟨⟨_, rfl⟩, ⟨_, rfl⟩, by decide, by decide⟩
theorem witness_OnlyReadBlockWritesMemory :
    (∀ q buf len id, Instr.writeBlock 0 1 4 ≠ .readBlock q buf len id ∧ Instr.writeBlock 0 1 4 ≠ .readBlockLocked q buf len id) ∧
    ∃ t, exec (.writeBlock 0 1 4) (held 0 [sent 0x0A010000, .answer (.hbwWrite (.ok ())), got [0x0A, 1, 0, 0]]) = .next t :=
  ⟨fun _ _ _ _ => ⟨Instr.noConfusion, Instr.noConfusion⟩, _, rfl⟩

/-- Every optional step of an attempt, and a budget of two attempts. -/
def everyStep : Config :=
  { cfgT with hasExtClock := true, wakeViaGpio := false, wakeHasComplLine := true, needsPwrConfirm := true, wakeBudget := 2 }

theorem everyStep_ok : configOk everyStep = true := by decide

/-- The same with a budget of nine. -/
def manyTries : Config := { everyStep with wakeBudget := 9 }

theorem manyTries_ok : configOk manyTries = true := by decide

/-- Every way an attempt fails, in a `WAKEUP` that starts in `Interrupt` mode. -/
def everyFailure : List BadAttempt :=
  [.statusTimeout 1, .wakeError 2, .notReady, .statusError 3, .wrongStatus 2, .syncIntrError 1 4, .syncError 4 7 5,
    .syncTimeout 1 7 6, .wrongEcho 4 7 3]

theorem everyFailure_possible : AllPossible manyTries .interrupt everyFailure := by
  unfold everyFailure
  simp only [AllPossible, BadAttempt.Possible, StatusAccepted]
  decide

/-- At the first attempt under `FailFast`; and at the last of a budget of two with every optional step. -/
theorem witness_WakeupReachesReady :
    ((holding { cfgT with wakeOnMismatch := .failFast } .poll
        (badScript cfgT .poll [] ++ (attemptScript cfgT .poll 0 9 cfgT.syncWord ++
          (sendScript .interrupt cfgT.smoothMuteZeroWord 5 ++ [])))).Holder 0 ∧
      AllPossible cfgT .poll [] ∧ (∀ a ∈ ([] : List BadAttempt), a.GoesOn { cfgT with wakeOnMismatch := .failFast }) ∧
      StatusAccepted cfgT 0 ∧ CMode.interrupt = echoMode cfgT (modeAfter .poll [])) ∧
    (waiting everyStep .poll (.answer (.resume true) :: (badScript everyStep .poll [.wrongEcho 1 0 3] ++
      (attemptScript everyStep .poll 4 9 everyStep.syncWord ++
        (sendScript .interrupt everyStep.smoothMuteZeroWord 5 ++ []))))).Public 0 ∧
    Calm [] ∧ AllPossible everyStep .poll [.wrongEcho 1 0 3] ∧ BadAttempt.GoesOn everyStep (.wrongEcho 1 0 3) ∧
    [BadAttempt.wrongEcho 1 0 3].length < everyStep.wakeBudget ∧ StatusAccepted everyStep 4 := by
  refine ⟨⟨holding_holder _ _ _ (by decide) (by decide), trivial, fun a h => absurd h List.not_mem_nil, ?_, rfl⟩,
    waiting_public _ _ _ everyStep_ok (by decide), rfl, ?_, .inl rfl, by decide, ?_⟩ <;>
    simp only [AllPossible, BadAttempt.Possible, StatusAccepted] <;> decide
/-- Each of the nine ways once. -/
theorem witness_WakeupExhaustsBudget :
    (holding manyTries .interrupt (badScript manyTries .interrupt everyFailure ++ [])).Holder 0 ∧
    AllPossible manyTries .interrupt everyFailure ∧ (∀ a ∈ everyFailure, a.GoesOn manyTries) ∧
    everyFailure.length = manyTries.wakeBudget :=
  ⟨holding_holder _ _ _ manyTries_ok (by decide), everyFailure_possible, fun _ _ => .inl rfl, rfl⟩
/-- A wrong echo under `FailFast` after an attempt that failed by an error; a smooth-mute command whose send fails, and one that
times out. -/
theorem witness_WakeupStopsEarly :
    ((holding { everyStep with wakeOnMismatch := .failFast } .poll (badScript everyStep .poll [.notReady] ++
        (BadAttempt.script everyStep .poll (.wrongEcho 1 0 3) ++ []))).Holder 0 ∧
      AllPossible everyStep .poll [.notReady] ∧ BadAttempt.GoesOn { everyStep with wakeOnMismatch := .failFast } .notReady ∧
      [BadAttempt.notReady].length < everyStep.wakeBudget ∧ BadAttempt.Possible everyStep .poll (.wrongEcho 1 0 3) ∧
      (BadAttempt.wrongEcho 1 0 3).error = .protocolMismatch) ∧
    ((held 0 (badScript cfgT .poll [] ++ (attemptScript cfgT .poll 0 9 cfgT.syncWord ++
        [.answer (.send (.err 4))]))).Holder 0 ∧ StatusAccepted cfgT 0) ∧
    (held 0 (badScript cfgT .poll [] ++ (attemptScript cfgT .poll 0 9 cfgT.syncWord ++ (lostScript cfgT 5 ++ [])))).Holder 0 ∧
    echoMode cfgT .poll = .interrupt ∧ srBit cfgT.smoothMuteZeroWord = false := by
  refine ⟨⟨holding_holder _ _ _ (by decide) (by decide), ?_, .inr Err.noConfusion, by decide, ?_, rfl⟩, ⟨held_holder _, ?_⟩,
    held_holder _, rfl, by decide⟩ <;>
    simp only [AllPossible, BadAttempt.Possible, StatusAccepted] <;> decide
theorem witness_WakeReadinessWait :
    (({ holding everyStep .poll [] with cseen := true } : State).cseen = true ∧
      Calm ({ holding everyStep .poll [] with cseen := true } : State).inputs) ∧
    ((holding everyStep .poll [.completion]).cseen = false ∧ everyStep.wakeHasComplLine = true ∧
      (holding everyStep .poll [.completion]).inputs = [.completion]) ∧
    (everyStep.tWakeTimeout ≤ 100 ∧ (holding everyStep .poll [.ticks 100]).inputs = [.ticks 100]) ∧
    cfgT.wakeHasComplLine = false ∧ (held 0 [.ticks 30, .delayEnds]).inputs = delayScript cfgT.tWakeSettle ++ [] := by
  unfold Calm
  decide
/-- A delay of 0 and one of 2 ticks that lasts 3. -/
theorem witness_DelayLastsLongEnough :
    (∃ t, delayTicks 0 (held 0 []) = .ok () t) ∧ ∃ t, delayTicks 2 (held 0 [.ticks 1, .delayEnds, .ticks 2, .delayEnds]) = .ok () t :=
  ⟨⟨_, rfl⟩, _, rfl⟩
/-- Chunk sizes 1 and `MAX_CHUNK`. -/
theorem witness_CommandRowsSendTheirWord :
    (held 0 [sent 9]).Holder 0 ∧ (held 0 [sent 9]).inputs = sendScript .poll 7 9 ++ [] ∧
    (held 0 [sent 9]).inputs = sendScript .poll (wordOfHalves cfgT.opcWdb 1) 9 ++ [] ∧
    (1 ≤ (1 : Half).toNat ∧ (1 : Half).toNat ≤ cfgT.maxChunk) ∧
    (1 ≤ (1024 : Half).toNat ∧ (1024 : Half).toNat ≤ cfgT.maxChunk) ∧
    (held 0 [sent 9]).inputs = sendScript .poll (wordOfHalves cfgT.opcRdb 7) 9 ++ [] :=
  ⟨held_holder _, rfl, rfl, by decide, by decide, rfl⟩
theorem witness_ResponseRowsAreChecked :
    (held 0 []).Holder 0 ∧ Calm (held 0 []).inputs ∧ opc 0x0A010004 ≠ cfgT.opcRdb ∧
    (opc 0x0A020000 = cfgT.opcRdb ∧ (low 0x0A020000).toNat = 0) ∧
    (opc 0x0A02FFFF = cfgT.opcRdb ∧ (low 0x0A02FFFF).toNat % 4 ≠ 0) ∧
    opc 0x0A02FFFC = cfgT.opcRdb ∧ (low 0x0A02FFFC).toNat ≠ 0 ∧ (low 0x0A02FFFC).toNat % 4 = 0 :=
  ⟨held_holder _, rfl, by decide, by decide, by decide, by decide⟩
/-- The right word, a wrong one at the last read, a wrong one before it. -/
theorem witness_AcknowledgementRow :
    (held 0 []).Holder 0 ∧ Calm [] ∧ (0x0A010000 : Word) = wordOfHalves cfgT.opcWdb 0 ∧
    (({ held 0 [] with ackcnt := 2, ackSet := true } : State).Holder 0 ∧ (0 : Word) ≠ wordOfHalves cfgT.opcWdb 0 ∧
      (2 = if ({ held 0 [] with ackcnt := 2, ackSet := true } : State).ackSet then 2 else Config.freeCounter 0) ∧
      2 + 1 = cfgT.ackMaxAttempts) ∧
    ({ held 0 [.ticks 2, .delayEnds] with ackSet := true } : State).Holder 0 ∧ 0 + 1 ≠ cfgT.ackMaxAttempts ∧
    ({ held 0 [.ticks 2, .delayEnds] with ackSet := true } : State).inputs = delayScript cfgT.tAckRetry ++ [] :=
  ⟨held_holder _, rfl, by decide, ⟨held_holder [], by decide, rfl, rfl⟩, held_holder [], by decide, rfl⟩
theorem witness_CheckedWakeRows :
    (held 0 [sent 4]).Holder 0 ∧ (held 0 [sent 4]).inputs = sendScript .poll cfgT.statusQueryWord 4 ++ [] ∧
    (holding cfgT .interrupt [sent 0x0B000000, .completion]).Holder 0 ∧
    (holding cfgT .interrupt [sent 0x0B000000, .completion]).inputs = sendScript .interrupt cfgT.syncWord 0x0B000000 ++ [] :=
  ⟨held_holder _, rfl, holding_holder _ _ _ cfgT_ok (by decide), rfl⟩
theorem witness_UncheckedWakeRows :
    ((held 0 [sent 4]).Holder 0 ∧ (held 0 [sent 4]).inputs = [.answer (.send (.ok 4))] ∧
      (held 0 [sent 4]).inputs = sendScript .poll cfgT.smoothMuteZeroWord 4 ++ []) ∧
    (held 0 [.answer (.send (.err 4))]).Holder 0 ∧ (held 0 [.answer (.send (.err 4))]).inputs = [.answer (.send (.err 4))] :=
  ⟨⟨held_holder _, rfl, rfl⟩, held_holder _, rfl⟩
theorem witness_InvariantKept :
    (asking [encode (.execute 1 7)] [sent 5]).Inv ∧ ∃ t, step (asking [encode (.execute 1 7)] [sent 5]) = .next t :=
  ⟨asking_inv _ _, _, rfl⟩
theorem witness_TraceStaysSerialised :
    (asking [encode (.execute 1 7)] [sent 5]).Inv ∧ (asking [encode (.execute 1 7)] [sent 5]).Serialised ∧
    ∃ t, step (asking [encode (.execute 1 7)] [sent 5]) = .next t := ⟨asking_inv _ _, rfl, _, rfl⟩
theorem witness_DetachAndAttach :
    (fresh [.detach, .attach smallChunks]).seq = .idle ∧ (fresh [.detach, .attach smallChunks]).attached = true ∧
    (fresh [.detach, .attach smallChunks]).lock = .free ∧ (fresh [.detach, .attach smallChunks]).requests = [] ∧
    (fresh [.detach, .attach smallChunks]).inputs = [.detach, .attach smallChunks] := by decide
theorem witness_ConfigurationIsFixed :
    (asking [encode (.execute 1 7)] [sent 5]).attached = true ∧
    ∃ t, step (asking [encode (.execute 1 7)] [sent 5]) = .next t := ⟨rfl, _, rfl⟩
theorem witness_OnlyWakeupWritesModeAndState :
    (∀ q, Instr.syncIntr 0x1B000001 ≠ .wakeup q ∧ Instr.syncIntr 0x1B000001 ≠ .wakeupLocked q) ∧
    ∃ t, exec (.syncIntr 0x1B000001) (held 0 [sent 5]) = .next t := ⟨fun _ => ⟨Instr.noConfusion, Instr.noConfusion⟩, _, rfl⟩
theorem witness_CacheStaysValid :
    (({ asking [encode (.execute 1 7)] [sent 5] with lastValid := true } : State).attached = true ∧
      ∃ t, step { asking [encode (.execute 1 7)] [sent 5] with lastValid := true } = .next t ∧ t.lastValid = true) ∧
    ∃ t, step (fresh [.completion]) = .next t ∧ t.lastValid = false := ⟨⟨rfl, _, rfl, rfl⟩, _, rfl, rfl⟩
/-- Each of the six operations. -/
theorem witness_SendsAreBounded :
    (∃ t, exec (.execute 0 7) (held 0 [sent 5]) = .next t) ∧ (∃ t, exec (.readRegister 0 5) (held 0 [sent 5, sent 6]) = .next t) ∧
    (∃ t, exec (.writeRegister 0 5 1) (held 0 [sent 5, sent 6]) = .next t) ∧
    (∃ t, exec (.readBlock 0 0 4 0) (held 0 [sent 5]) = .next t) ∧ (∃ t, exec (.writeBlock 0 0 4) (held 0 [sent 5]) = .next t) ∧
    ∃ t, exec (.wakeup 0) (held 0 (attemptScript cfgT .poll 0 0 cfgT.syncWord)) = .next t :=
  ⟨⟨_, rfl⟩, ⟨_, rfl⟩, ⟨_, rfl⟩, ⟨_, rfl⟩, ⟨_, rfl⟩, _, rfl⟩

end Sys2Proof.Tests
end

section
/-!
PROOFS. Family 00_scope.md: how a request that cannot be presented is turned away (O30).
-/

namespace Sys2Proof.Machine

/-! ### The four ways an operation cannot be presented -/

/-- R7: the configuration is judged before everything else. -/
theorem notAdmitted_of_illFormedConfig {q : Nat} {s : State} (hc : configOk s.cfg = false) :
    notAdmitted q s = some (.refused .illFormedConfig) := by
  simp [notAdmitted, hc]

/-- R301: under a lawful configuration, the Session is judged next. -/
theorem notAdmitted_of_detached {q : Nat} {s : State} (hc : configOk s.cfg = true) (ha : s.attached = false) :
    notAdmitted q s = some (.refused .notAttached) := by
  simp [notAdmitted, hc, ha]

/-- R40: with a Session, the requester is judged next. -/
theorem notAdmitted_of_nReq_le {q : Nat} {s : State} (hc : configOk s.cfg = true) (ha : s.attached = true)
    (hq : s.cfg.nReq ≤ q) : notAdmitted q s = some (.refused .noSuchRequester) := by
  simp [notAdmitted, hc, ha, Nat.not_lt.2 hq]

/-- R278: for a known requester, an operation in flight is all that is left to stop the request. -/
theorem notAdmitted_of_inFlight {q : Nat} {s : State} (hc : configOk s.cfg = true) (ha : s.attached = true)
    (hq : q < s.cfg.nReq) (hs : s.seq ≠ .idle) : notAdmitted q s = some (.fault .stuck) := by
  simp [notAdmitted, hc, ha, hq, hs]

/-! ### The host operations and the wire rows that meet these checks -/

/-- The fourteen host operations of requester `q` (R100): unlocked, codec and locked. -/
def operationsOf (q : Nat) (w id value buf len : Word) (dir : Direction) : List Instr :=
  [.execute q w, .readRegister q id, .writeRegister q id value, .writeBlock q buf len, .readBlock q buf len id, .wakeup q,
    .encode q id value dir, .decode q id,
    .executeLocked q w, .readRegisterLocked q id, .writeRegisterLocked q id value, .writeBlockLocked q buf len,
    .readBlockLocked q buf len id, .wakeupLocked q]

/-- Every host operation asks `notAdmitted` first, whichever of the three kinds it is. -/
theorem exec_operation_turnedAway {s : State} {q : Nat} {w id value buf len : Word} {dir : Direction} {i : Instr}
    {o : Host.Outcome State Fault Refusal} (hi : i ∈ operationsOf q w id value buf len dir)
    (h : notAdmitted q s = some o) : exec i s = o := by
  have unlocked (body) : unlockedOperation q body s = o := unlockedOperation_turnedAway h
  have codec (body) : codecOperation q body s = o := codecOperation_turnedAway h
  have locked (self body) : lockedOperation q self body s = o := lockedOperation_turnedAway h
  simp only [operationsOf, List.mem_cons, List.not_mem_nil, or_false] at hi
  rcases hi with rfl | rfl | rfl | rfl | rfl | rfl | rfl | rfl | rfl | rfl | rfl | rfl | rfl | rfl
  exacts [unlocked _, unlocked _, unlocked _, unlocked _, unlocked _, unlocked _, codec _, codec _,
    locked _ _, locked _ _, locked _ _, locked _ _, locked _ _, locked _ _]

/-- The wire rows, each command row with the word that configuration `c` gives it, WDB_CMD for a chunk of one byte. -/
def wireRowsOf (c : Config) (w id : Word) : List Instr :=
  [.cw32Generic w, .wdbCmd c.opcWdb 1, .wdbResp w, .wdbAck w, .rdbCmd c.opcRdb (low id), .rdbResp w,
    .statusQuery c.statusQueryWord, .syncIntr c.syncIntrWord, .sync c.syncWord, .smoothMuteZero c.smoothMuteZeroWord,
    .regMsgLane w]

/-- Log entry 3: a wire row needs a holder of the lock to run for. -/
theorem wireOperation_free {body : State → Res (Option Value)} {s : State} (hl : s.lock = .free) :
    wireOperation body s = .refused .unlockedWithoutLock := by
  unfold wireOperation
  rw [hl]

/-- A command row that carries its configuration's word is a wire row like any other. -/
theorem ownWord_free {own : Bool} {body : State → Res (Option Value)} {s : State} (ho : own = true)
    (hl : s.lock = .free) : ownWord own body s = .refused .unlockedWithoutLock :=
  (if_pos ho).trans (wireOperation_free hl)

/-- R7: a chunk of one byte is within `MAX_CHUNK`, so WDB_CMD with that size carries the configuration's word. -/
theorem wdbCmd_one_own {c : Config} (hc : configOk c = true) :
    (decide (c.opcWdb = c.opcWdb) && decide (1 ≤ (1 : Half).toNat) && decide ((1 : Half).toNat ≤ c.maxChunk)) = true := by
  simpa using (taken_of_configOk hc).chunk.1

/-- While nobody holds the lock, no wire row is run. -/
theorem exec_wireRow_free {s : State} {w id : Word} {i : Instr} (hi : i ∈ wireRowsOf s.cfg w id)
    (hc : configOk s.cfg = true) (hl : s.lock = .free) : exec i s = .refused .unlockedWithoutLock := by
  have row (body) : wireOperation body s = .refused .unlockedWithoutLock := wireOperation_free hl
  have command {p : Prop} [Decidable p] (hp : p) (body) : ownWord (decide p) body s = .refused .unlockedWithoutLock :=
    ownWord_free (decide_eq_true hp) hl
  simp only [wireRowsOf, List.mem_cons, List.not_mem_nil, or_false] at hi
  rcases hi with rfl | rfl | rfl | rfl | rfl | rfl | rfl | rfl | rfl | rfl | rfl
  case inr.inl => exact ownWord_free (wdbCmd_one_own hc) hl
  exacts [row _, row _, row _, command rfl _, row _, command rfl _, command rfl _, command rfl _, command rfl _, row _]

/-- Settles O30: the host operations through `notAdmitted`, the wire rows through the free lock. -/
theorem inadmissibleRequestsAreTurnedAway : Obligations.InadmissibleRequestsAreTurnedAway := by
  intro s q w id value buf len dir i
  refine ⟨fun hi => ⟨fun hc => ?config, fun hc ha => ?session, fun hc ha hq => ?requester, fun hc ha hq hs => ?inFlight⟩,
    fun hi hc hl => exec_wireRow_free hi hc hl⟩
  case config => exact exec_operation_turnedAway hi (notAdmitted_of_illFormedConfig hc)
  case session => exact exec_operation_turnedAway hi (notAdmitted_of_detached hc ha)
  case requester => exact exec_operation_turnedAway hi (notAdmitted_of_nReq_le hc ha hq)
  case inFlight => exact exec_operation_turnedAway hi (notAdmitted_of_inFlight hc ha hq hs)

end Sys2Proof.Machine
end

section
/-!
PROOFS. Family 10_state.md, the layer beneath: what any part of an operation may do to the registers, as one relation between
the state it starts in and the state it leaves, with one rule per way procedures compose.
-/

namespace Sys2Proof.Machine

/-! ### The invariant while an operation is in flight -/

/-- The claims of the invariant that do not depend on what CWE is doing, for a Session that runs operations. -/
structure State.Fit (s : State) : Prop where
  lawful : configOk s.cfg = true
  attached : s.attached = true
  voted : s.pvote = true → s.lock ≠ .free
  holder : ∀ q, s.lock = .held q → q < s.cfg.nReq
  kinds : s.priKind = s.cfg.priKind ∧ s.hbwKind = s.cfg.hbwKind ∧ s.wakeKind = s.cfg.wakeKind
  msglen : s.msglen = 4 ∨ s.msglen = 8
  att : s.att ≤ s.cfg.wakeBudget
  lastTs : s.lastTs < 2 ^ s.cfg.tsW
  now : s.now < 2 ^ s.cfg.tsW
  mem : Memory.wf s.mem

/-- Between arming a wait and its end: a completion may be latched, but no timer or delay runs. -/
structure State.Latching (s : State) : Prop extends s.Fit where
  latch : s.cseen = true → s.pend = true
  tmr : s.tmr = 0
  dly : s.dly = 0

/-- R271, R282: no wait is armed, and no timer or delay runs. -/
structure State.Quiet (s : State) : Prop extends s.Fit where
  pend : s.pend = false
  cseen : s.cseen = false
  tmr : s.tmr = 0
  dly : s.dly = 0

/-- Suspended for good (U8): in a phase of an operation, a timer or delay running only where the phase has one. -/
structure State.Suspended (s : State) : Prop extends s.Fit where
  busy : s.seq ≠ .idle
  latch : s.cseen = true → s.pend = true
  timer : s.tmr ≠ 0 → timerPhase s.seq
  delay : s.dly ≠ 0 → delayPhase s.seq

theorem State.Quiet.latching {s : State} (h : s.Quiet) : s.Latching :=
  { h with latch := fun hc => absurd hc (by simp [h.cseen]) }

theorem State.Latching.suspended {s : State} (h : s.Latching) (hs : s.seq ≠ .idle) : s.Suspended :=
  { h with busy := hs, timer := fun k => absurd h.tmr k, delay := fun k => absurd h.dly k }

theorem State.Ready.lawful {s : State} {q : Nat} (h : s.Ready q) : configOk s.cfg = true := h.1
theorem State.Ready.known {s : State} {q : Nat} (h : s.Ready q) : q < s.cfg.nReq :=
  have ⟨_, _, hq, _⟩ := h
  hq
theorem State.Ready.idle {s : State} {q : Nat} (h : s.Ready q) : s.seq = .idle :=
  have ⟨_, _, _, hs⟩ := h
  hs
theorem State.Holder.ready {s : State} {q : Nat} (h : s.Holder q) : s.Ready q := h.1

/-- An engine that is ready for a request is quiet. -/
theorem State.Inv.quiet {s : State} {q : Nat} (h : s.Inv) (hr : s.Ready q) : s.Quiet := by
  obtain ⟨hc, ha, -, hs⟩ := hr
  obtain ⟨hp, hl, ht, hd⟩ := h.idle_quiet hs
  exact {
    lawful := hc, attached := ha, voted := h.vote_locked, holder := h.holder_known, kinds := h.kinds_fixed,
    msglen := h.message_length, att := h.attempts_bounded, lastTs := h.stamp_width.1, now := h.stamp_width.2,
    mem := h.memory_canonical, pend := hp, cseen := hl, tmr := ht, dly := hd }

/-- The claims that hold whatever CWE is doing, with those on its waits, are the invariant. -/
theorem State.Fit.inv {s : State} (h : s.Fit) (latch : s.cseen = true → s.pend = true)
    (idle : s.seq = .idle → s.pend = false ∧ s.cseen = false ∧ s.tmr = 0 ∧ s.dly = 0)
    (timer : s.tmr ≠ 0 → timerPhase s.seq) (delay : s.dly ≠ 0 → delayPhase s.seq) : s.Inv where
  latch_armed := latch
  idle_quiet := idle
  timer_stopped := timer
  delay_stopped := delay
  vote_locked := h.voted
  holder_known := h.holder
  detached_free ha := absurd h.attached (by simp [ha])
  kinds_fixed := h.kinds
  message_length := h.msglen
  attempts_bounded := h.att
  stamp_width := ⟨h.lastTs, h.now⟩
  memory_canonical := h.mem

theorem State.Quiet.inv {s : State} (h : s.Quiet) : s.Inv :=
  h.toFit.inv (fun hc => absurd hc (by simp [h.cseen])) (fun _ => ⟨h.pend, h.cseen, h.tmr, h.dly⟩)
    (fun k => absurd h.tmr k) (fun k => absurd h.dly k)

theorem State.Suspended.inv {s : State} (h : s.Suspended) : s.Inv :=
  h.toFit.inv h.latch (fun hs => absurd hs h.busy) h.timer h.delay

/-- The events of an interface do not bear on the invariant. -/
theorem State.Quiet.emit {s : State} (h : s.Quiet) (e : Event) : (s.emit e).Quiet := { h with }
theorem State.Latching.emit {s : State} (h : s.Latching) (e : Event) : (s.emit e).Latching := { h with }
theorem State.Quiet.goto {s : State} (h : s.Quiet) (p : Phase) : (s.goto p).Quiet := { h with }
theorem State.Latching.goto {s : State} (h : s.Latching) (p : Phase) : (s.goto p).Latching := { h with }

/-- R143: arming a wait. -/
theorem State.Quiet.arm {s : State} (h : s.Quiet) : s.arm.Latching := { h with latch := fun _ => rfl }

/-- R144, R147: the end of an armed wait. -/
theorem State.Latching.disarm {s : State} (h : s.Latching) : s.disarm.Quiet := { h with pend := rfl, cseen := rfl }

/-- R148: caching a response. -/
theorem State.Quiet.latch {s : State} (h : s.Quiet) (r : Word) : (s.latch r).Quiet :=
  { h with lastTs := Nat.mod_lt _ (Nat.two_pow_pos _) }

/-! ### What passes while CWE is suspended -/

theorem Passed.fit {s t : State} (p : Passed s t) (h : s.Fit) : t.Fit := by
  rw [p.frame]
  exact { h with now := p.stamp h.now }

theorem Passed.latching {s t : State} (p : Passed s t) (h : s.Latching) : t.Latching :=
  { p.fit h.toFit with
    latch := fun hc => p.pend ▸ (p.latch hc).elim h.latch id
    tmr := by rw [p.frame]; exact h.tmr
    dly := by rw [p.frame]; exact h.dly }

/-- R276: a completion that finds no wait armed is dropped. -/
theorem Passed.quiet {s t : State} (p : Passed s t) (h : s.Quiet) : t.Quiet :=
  { p.latching h.latching with
    pend := p.pend ▸ h.pend
    cseen := by
      by_contra hc
      have := p.latch (by simpa using hc)
      simp [h.cseen, h.pend] at this }

/-! ### The relation -/

/-- Which of the registers that WAKEUP alone writes a procedure may write. -/
inductive Scope where
  /-- None of them: every other operation, and every wire row. -/
  | operation
  /-- `CMODE` and `WSTATE` (R35, R36): the steps of an attempt. -/
  | attempt
  /-- `ATT` as well (R232): the loop over the attempts. -/
  | wakeup

/-- What a procedure of scope `k` may do between the state it starts in and one it leaves: the configuration and the transport
selection stay (R38, R303), a valid cache stays valid (R33), and so do the registers beyond its scope; from a state that meets
`P` it leads to one that meets `Q`. -/
structure Moves (k : Scope) (P Q : State → Prop) (s t : State) : Prop where
  cfg : t.cfg = s.cfg := by rfl
  kinds : t.priKind = s.priKind ∧ t.hbwKind = s.hbwKind ∧ t.wakeKind = s.wakeKind := by exact ⟨rfl, rfl, rfl⟩
  valid : s.lastValid = true → t.lastValid = true := by exact fun v => v
  mode : k = .operation → t.cmode = s.cmode ∧ t.wstate = s.wstate := by exact fun _ => ⟨rfl, rfl⟩
  attempts : k ≠ .wakeup → t.att = s.att := by exact fun _ => rfl
  sound : P s → Q t

variable {k : Scope} {P Q R : State → Prop} {s t u : State}

theorem Moves.trans (h : Moves k P Q s t) (g : Moves k Q R t u) : Moves k P R s u where
  cfg := g.cfg.trans h.cfg
  kinds :=
    have ⟨hp, hb, hw⟩ := h.kinds
    have ⟨gp, gb, gw⟩ := g.kinds
    ⟨gp.trans hp, gb.trans hb, gw.trans hw⟩
  valid := g.valid ∘ h.valid
  mode hk := ⟨(g.mode hk).1.trans (h.mode hk).1, (g.mode hk).2.trans (h.mode hk).2⟩
  attempts hk := (g.attempts hk).trans (h.attempts hk)
  sound := g.sound ∘ h.sound

theorem Moves.mono {P' Q' : State → Prop} (h : Moves k P Q s t) (hp : P' s → P s) (hq : Q t → Q' t) : Moves k P' Q' s t :=
  { h with sound := hq ∘ h.sound ∘ hp }

/-- What the outside world does is beyond no procedure's scope. -/
theorem Passed.moves (p : Passed s t) (h : P s → Q t) : Moves k P Q s t := by
  constructor
  case sound => exact h
  all_goals rw [p.frame]
  · exact ⟨rfl, rfl, rfl⟩
  · exact id
  · exact fun _ => ⟨rfl, rfl⟩
  · exact fun _ => rfl

theorem Passed.moves_quiet (p : Passed s t) : Moves k State.Quiet State.Quiet s t := p.moves p.quiet

/-- A call that is never answered. -/
theorem Passed.moves_suspended (p : Passed s t) (hs : s.seq ≠ .idle) : Moves k State.Quiet State.Suspended s t :=
  p.moves fun h => (p.quiet h).latching.suspended (p.seq ▸ hs)

/-! ### Procedures -/

/-- A procedure, run in `s`, moves within its scope from a state that meets `P`, a quiet one where nothing else is said, to
quiet ones, or to one in which CWE is suspended. -/
def Res.Runs {α : Type} (k : Scope) (r : Res α) (s : State) (P : State → Prop := State.Quiet) : Prop :=
  r.Leaves (Moves k P State.Quiet s) (Moves k P State.Suspended s)

variable {α β : Type} {r : Res α}

/-- What leads to the start of a procedure comes before it. -/
theorem Res.Runs.of_moves (h : r.Runs k t Q) (m : Moves k P Q s t) : r.Runs k s P :=
  Res.Leaves.mono h (fun _ => m.trans) (fun _ => m.trans)

theorem Res.Runs.bind {f : α → State → Res β} (h : r.Runs k s P) (hf : ∀ v t, (f v t).Runs k t) :
    (r.bind f).Runs k s P :=
  Res.Leaves.bind h (fun _ => id) fun v t m => (hf v t).of_moves m

theorem Res.Runs.after {f : State → Res Unit} (h : r.Runs k s) (hf : ∀ t, (f t).Runs k t) : (r.after f).Runs k s :=
  Res.Leaves.after h fun t m => (hf t).of_moves m

theorem Moves.refl : Moves k P P s s where
  sound := id

theorem Res.Runs.ok {v : α} : (Res.ok v s).Runs k s := Moves.refl
theorem Res.Runs.err {e : Err} : (Res.err e s : Res α).Runs k s := Moves.refl

theorem Moves.goto (p : Phase) : Moves k State.Quiet State.Quiet s (s.goto p) where
  sound h := h.goto p

theorem Moves.emit (e : Event) : Moves k State.Quiet State.Quiet s (s.emit e) where
  sound h := h.emit e

/-! ### Time, calls and delays -/

theorem pause_runs : (pause s).Runs k s := by
  rcases pause_cases s with ⟨t, h, p⟩ | h <;> rw [h]
  · exact p.moves_quiet
  · trivial

theorem begun_runs {body : State → Res (Option Value)} (h : ∀ t, (body t).Runs k t) : (begun body s).Runs k s :=
  pause_runs.bind fun _ => h

theorem awaitAnswer_runs (want : Answer → Option α) (l : List Input) (hs : s.seq ≠ .idle) :
    (awaitAnswer want l s).Runs k s := by
  rcases awaitAnswer_cases want l s with ⟨v, t, h, p⟩ | ⟨t, h, p, -⟩ | h <;> rw [h]
  · exact p.moves_quiet
  · exact p.moves_suspended hs
  · trivial

theorem transportResult_runs (a : Ans α) : (transportResult a s).Runs k s := by
  cases a
  · exact .ok
  · exact .err

theorem callHbwWrite_runs (bytes : List Byte) (hs : s.seq ≠ .idle) : (callHbwWrite bytes s).Runs k s :=
  (awaitAnswer_runs _ _ hs).bind fun a _ => (transportResult_runs a).of_moves (.emit _)

theorem callHbwRead_runs (n : Nat) (hs : s.seq ≠ .idle) : (callHbwRead n s).Runs k s :=
  (awaitAnswer_runs _ _ hs).bind fun a _ => (transportResult_runs a).of_moves (.emit _)

theorem callRdb_runs (len : Word) (id : Half) (hs : s.seq ≠ .idle) : (callRdb len id s).Runs k s :=
  (awaitAnswer_runs _ _ hs).bind fun a _ => (transportResult_runs a).of_moves (.emit _)

theorem openChannel_runs (hs : s.seq ≠ .idle) : (openChannel s).Runs k s := by
  unfold openChannel
  split
  · exact (awaitAnswer_runs _ _ hs).bind fun _ _ => Res.Runs.ok.of_moves (.emit _)
  · exact .ok

theorem closeChannel_runs (hs : s.seq ≠ .idle) : (closeChannel s).Runs k s := by
  unfold closeChannel
  split
  · exact (awaitAnswer_runs _ _ hs).bind fun _ _ => Res.Runs.ok.of_moves (.emit _)
  · exact .ok

/-- What passes while a delay runs, its counter set aside. -/
theorem Passed.moves_delay {n : Nat} (p : Passed s u) (p' : Passed (u.emit (.delay n)) { t with dly := s.dly })
    (hQ : ({ t with dly := s.dly } : State).Quiet → s.Quiet → Q t) : Moves k State.Quiet Q s t := by
  have m : Moves k State.Quiet State.Quiet s { t with dly := s.dly } :=
    (p.moves_quiet.trans (.emit _)).trans p'.moves_quiet
  exact { m with sound := fun h => hQ (m.sound h) h }

theorem delayTicks_runs (n : Nat) (hs : delayPhase s.seq) : (delayTicks n s).Runs k s := by
  rcases delayTicks_cases n s with ⟨u, t, p, h, p', hd⟩ | ⟨u, t, p, h, p'⟩ | h <;> rw [h]
  · exact p.moves_delay p' fun ht h => { ht with dly := hd.elim (·.trans h.dly) id }
  · refine p.moves_delay p' fun ht h => ?_
    have hseq : t.seq = s.seq := p'.seq.trans p.seq
    exact { ht with
      busy := by rw [hseq]; rintro e; simp [e, delayPhase] at hs
      latch := ht.latching.latch
      timer := fun k => absurd ht.tmr k
      delay := fun _ => hseq ▸ hs }
  · trivial

/-! ### EXEC -/

/-- R143: the first step of EXEC arms a wait or only changes the phase. -/
theorem execArmed_moves (w : Word) : Moves k State.Quiet State.Latching s ((execArmed w s).goto .execSend) := by
  unfold execArmed
  split
  · exact { sound := fun h => (h.goto _).arm.goto _ }
  · exact { sound := fun h => h.latching.goto _ |>.goto _ }

/-- Where no wait is armed the state stays quiet. -/
theorem execArmed_moves_quiet {w : Word} (h : armsWait s.cmode w = false) :
    Moves k State.Quiet State.Quiet s ((execArmed w s).goto .execSend) := by
  simp only [execArmed, h, Bool.false_eq_true, if_false]
  exact { sound := fun h => (h.goto _).goto _ }

theorem Passed.moves_latching (p : Passed s t) : Moves k State.Latching State.Latching s t := p.moves p.latching

/-- What passes in a completion wait, its timer set aside. -/
theorem Passed.moves_wait (p : Passed s { t with tmr := s.tmr })
    (hQ : ({ t with tmr := s.tmr } : State).Latching → Q t) : Moves k State.Latching Q s t := by
  have m : Moves k State.Latching State.Latching s { t with tmr := s.tmr } := p.moves_latching
  exact { m with sound := hQ ∘ m.sound }

/-- A completion wait that sees its completion: the timer is stopped. -/
theorem Passed.moves_completed (p : Passed s { t with tmr := s.tmr }) :
    Moves k State.Latching State.Quiet s { t.disarm with tmr := 0 } := by
  have m : Moves k State.Latching (fun t => ({ t with tmr := 0 } : State).Latching) s t :=
    p.moves_wait fun h => { h with tmr := rfl }
  exact m.trans { sound := fun h => h.disarm }

/-- A completion wait that expires. -/
theorem Passed.moves_expired (p : Passed s { t with tmr := s.tmr }) (hz : t.tmr = 0) :
    Moves k State.Latching State.Quiet s (t.disarm.emit .timeout) := by
  have m : Moves k State.Latching State.Latching s t := p.moves_wait fun h => { h with tmr := hz }
  exact m.trans { sound := fun h => h.disarm.emit _ }

/-- A completion wait that nothing ends. -/
theorem Passed.moves_waiting (p : Passed s { t with tmr := s.tmr }) (hs : timerPhase s.seq) :
    Moves k State.Latching State.Suspended s t := by
  have hseq : t.seq = s.seq := p.seq
  refine p.moves_wait fun h => { h with
    busy := ?_
    timer := fun _ => hseq ▸ hs
    delay := fun k => absurd h.dly k }
  rw [hseq]
  rintro e
  simp [e, timerPhase] at hs

theorem execProcedure_runs (w : Word) (route : Route) : (execProcedure w route s).Runs k s := by
  rcases execProcedure_cases w route s with h | ⟨v, pv, hc⟩
  · rw [h]; trivial
  have sent {t : State} (p : Passed ((execArmed w v).goto .execSend) t) : Moves k State.Quiet State.Latching s t :=
    (pv.moves_quiet.trans (execArmed_moves w)).trans p.moves_latching
  have unarmed {t : State} (p : Passed ((execArmed w v).goto .execSend) t) (h : armsWait v.cmode w = false) :
      Moves k State.Quiet State.Quiet s t :=
    (pv.moves_quiet.trans (execArmed_moves_quiet h)).trans p.moves_quiet
  have waited {t : State} {r : Word} (p : Passed ((execArmed w v).goto .execSend) t) :
      Moves k State.Quiet State.Latching s ((t.emit (.send route w (.ok r))).goto .execWait) :=
    (sent p).trans { sound := fun h => (h.emit _).goto _ }
  rcases hc with ⟨t, r, p, hs, h⟩ | ⟨t, r, p, hs, hm, h⟩ | ⟨t, e, p, h⟩ | ⟨t, u, r, p, hs, hm, p', h⟩ |
    ⟨t, u, r, p, hs, hm, p', hz, -, h⟩ | ⟨t, p, h⟩ | ⟨t, u, r, p, hs, hm, p', h⟩ <;> rw [h]
  · exact (unarmed p (by simp [armsWait, hs])).trans (.emit _)
  · exact (unarmed p (by simp [armsWait, hm])).trans
      { valid := fun _ => rfl, sound := fun h => ((h.emit _).goto _).latch r }
  · exact (sent p).trans { sound := fun h => (h.emit _).disarm }
  · exact ((waited p).trans p'.moves_completed).trans
      { valid := fun _ => rfl, sound := fun h => (h.goto .execLatch).latch r }
  · exact (waited p).trans (p'.moves_expired hz)
  · exact (sent p).trans { sound := fun h => h.suspended (by rw [p.seq]; simp) }
  · exact (waited p).trans (p'.moves_waiting (.inl rfl))

end Sys2Proof.Machine
end

section
/-!
PROOFS. Family 10_state.md, the layer beneath: the bodies of the operations, each from the procedures it is made of.
-/

namespace Sys2Proof.Machine

variable {k : Scope} {s t : State}

/-! ### The codec and the Command Engine -/

theorem encodeMessage_runs (id value : Word) (dir : Direction) : (encodeMessage id value dir s).Runs k s := by
  cases hd : lookup s.cfg id with
  | none => rw [encodeMessage_none hd]; exact Res.Runs.err.of_moves (.goto _)
  | some d =>
    rw [encodeMessage_some hd]
    exact Res.Runs.ok.of_moves { sound := fun h => { h with msglen := messageLength_cases h.lawful hd } }

theorem decodeMessage_runs (id : Word) : (decodeMessage id s).Runs k s := by
  unfold decodeMessage
  split
  · exact .err
  · split
    · exact .ok
    · exact Res.Runs.ok.of_moves { sound := fun h => { h with } }

theorem encodeBody_runs (id value : Word) (dir : Direction) : (encodeBody id value dir s).Runs k s :=
  (encodeMessage_runs id value dir).bind fun _ _ => .ok

theorem decodeBody_runs (id : Word) : (decodeBody id s).Runs k s :=
  (decodeMessage_runs id).bind fun _ _ => .ok

theorem executeBody_runs (w : Word) : (executeBody w s).Runs k s :=
  (execProcedure_runs w .pri).bind fun _ _ => .ok

theorem sendMessage_runs : (sendMessage s).Runs k s :=
  (execProcedure_runs s.x0 .pri).bind fun _ t => by
    split
    · exact (execProcedure_runs t.x1 .pri).bind fun _ _ => .ok
    · exact .ok

theorem readValue_runs : (readValue s).Runs k s := by
  unfold readValue
  split
  · exact .ok
  · exact Res.Runs.ok.of_moves { sound := fun h => { h with } }

theorem readRegisterBody_runs (id : Word) : (readRegisterBody id s).Runs k s :=
  (encodeMessage_runs id 0 .read).bind fun _ _ => sendMessage_runs.bind fun _ _ => readValue_runs

theorem writeRegisterBody_runs (id value : Word) : (writeRegisterBody id value s).Runs k s :=
  (encodeMessage_runs id value .write).bind fun _ _ => sendMessage_runs.bind fun _ _ => .ok

/-! ### Block read -/

theorem rdbCommand_runs (id : Half) : (rdbCommand id s).Runs k s :=
  (execProcedure_runs _ .hbw).of_moves (.goto _)

theorem rdbCheck_runs (r : Word) : (rdbCheck r s).Runs k s := by
  unfold rdbCheck
  split
  · split
    · exact Res.Runs.ok.of_moves { sound := fun h => { h with } }
    · exact Res.Runs.err.of_moves { sound := fun h => { h with } }
  · exact Res.Runs.err.of_moves (.goto _)

/-- R220: received bytes leave the buffers in their canonical form. -/
theorem place_moves (buf : Word) (bytes : List Byte) : Moves k State.Quiet State.Quiet s (s.place buf bytes) where
  sound h := { h with mem := writeBytes_wf h.mem _ _ }

theorem readLoop_runs (buf : Word) (n : Nat) : (readLoop buf n s).Runs k s := by
  induction n generalizing s with
  | zero => exact .ok
  | succ n ih =>
    unfold readLoop
    split
    · exact ((callHbwRead_runs _ (by simp)).of_moves (.goto .rbData)).bind fun _ _ => ih.of_moves (place_moves buf _)
    · exact .ok

theorem drain_runs : (drain s).Runs k s := by
  unfold drain
  split
  · exact .ok
  · exact ((callHbwRead_runs _ (by simp)).of_moves (.goto .rbDrain)).bind fun _ _ => .ok

theorem readTransfer_runs (buf : Word) (id : Half) : (readTransfer buf id s).Runs k s :=
  (rdbCommand_runs id).bind fun _ t => (rdbCheck_runs t.resp).bind fun _ t =>
    (readLoop_runs buf t.xfer.toNat).bind fun _ _ => drain_runs.bind fun _ _ => .ok

theorem readFast_runs (buf len : Word) (id : Half) : (readFast buf len id s).Runs k s :=
  ((callRdb_runs len id (by simp)).of_moves (.goto .rbFast)).bind fun _ _ =>
    Res.Runs.ok.of_moves { sound := fun h => { h with mem := writeBytes_wf h.mem _ _ } }

theorem readBlockBody_runs (buf len id : Word) : (readBlockBody buf len id s).Runs k s := by
  unfold readBlockBody
  split
  · exact readFast_runs buf len (low id)
  · have start : Moves k State.Quiet State.Quiet s (s.startRead len) := { sound := fun h => { h with } }
    exact ((openChannel_runs (by simp)).of_moves start).bind fun _ _ =>
      (readTransfer_runs buf (low id)).after fun _ => (closeChannel_runs (by simp)).of_moves (.goto .rbClose)

/-! ### Block write -/

theorem wdbCommand_runs : (wdbCommand s).Runs k s := execProcedure_runs _ .hbw

theorem wdbCheck_runs (r : Word) : (wdbCheck r s).Runs k s := by
  unfold wdbCheck
  split
  · exact Res.Runs.ok.of_moves (.goto _)
  · exact Res.Runs.err.of_moves (.goto _)

theorem wdbData_runs (buf : Word) : (wdbData buf s).Runs k s :=
  (callHbwWrite_runs _ (by simp)).of_moves (.goto .wbData)

theorem takeAck_moves (a : Word) : Moves k State.Quiet State.Quiet s (s.takeAck a) where
  sound h := { h with }

theorem advanceChunk_moves : Moves k State.Quiet State.Quiet s s.advanceChunk where
  sound h := { h with }

theorem ackRead_runs : (ackRead s).Runs k s :=
  ((callHbwRead_runs 4 (by simp)).of_moves (.goto .wbAckRead)).bind fun _ _ => Res.Runs.ok.of_moves (takeAck_moves _)

/-- R198: the delay between two acknowledgement reads. -/
theorem ackDelay_runs (n : Nat) : (delayTicks n (s.goto .wbAckDelay)).Runs k s :=
  (delayTicks_runs n (by simp [delayPhase])).of_moves (.goto _)

theorem ackLoop_runs (n : Nat) : (ackLoop n s).Runs k s := by
  induction n generalizing s with
  | zero => exact .err
  | succ n ih =>
    refine ackRead_runs.bind fun _ t => ?_
    split
    · exact .ok
    · exact .err
    · exact (ackDelay_runs _).bind fun _ _ => ih

theorem interchunk_runs (first : Bool) : (interchunk first s).Runs k s := by
  unfold interchunk
  split
  · exact .ok
  · exact (delayTicks_runs _ (by simp [delayPhase])).of_moves (.goto .wbDelay)

theorem writeChunk_runs (buf : Word) : (writeChunk buf s).Runs k s := by
  have next : Moves k State.Quiet State.Quiet s s.nextChunk := { sound := fun h => { h with } }
  have count (t : State) : Moves k State.Quiet State.Quiet t (t.countFrom 0) := { sound := fun h => { h with } }
  exact (wdbCommand_runs.of_moves next).bind fun _ t => (wdbCheck_runs t.resp).bind fun _ _ =>
    (wdbData_runs buf).bind fun _ t => ((ackLoop_runs _).of_moves (count t)).bind fun _ _ =>
      Res.Runs.ok.of_moves advanceChunk_moves

theorem writeChunks_runs (buf : Word) (n : Nat) (first : Bool) : (writeChunks buf n first s).Runs k s := by
  induction n generalizing s first with
  | zero => exact .ok
  | succ n ih =>
    unfold writeChunks
    split
    · exact .ok
    · exact (interchunk_runs first).bind fun _ _ => (writeChunk_runs buf).bind fun _ _ => ih false

theorem writeBlockBody_runs (buf len : Word) : (writeBlockBody buf len s).Runs k s := by
  have start : Moves k State.Quiet State.Quiet s (s.startWrite len) := { sound := fun h => { h with } }
  exact ((openChannel_runs (by simp)).of_moves start).bind fun _ _ =>
    (writeChunks_runs buf len.toNat true).after fun _ => (closeChannel_runs (by simp)).of_moves (.goto .wbClose)

/-! ### The wire rows -/

theorem noValue_runs {r : Res Unit} (h : r.Runs k s) : (noValue r).Runs k s := h.bind fun _ _ => .ok

theorem responseValue_runs {r : Res (Option Word)} (h : r.Runs k s) : (responseValue r).Runs k s := h.bind fun _ _ => .ok

theorem sendCommand_runs (w : Word) : (sendCommand w s).Runs k s := (execProcedure_runs w .pri).bind fun _ _ => .ok

theorem counted_moves : Moves k State.Quiet State.Quiet s s.counted := by
  rw [State.counted_eq]
  exact { sound := fun h => { h with } }

theorem wdbAckBody_runs (a : Word) : (wdbAckBody a s).Runs k s := by
  have taken : Moves k State.Quiet State.Quiet s (s.counted.takeAck a) := counted_moves.trans (takeAck_moves a)
  unfold wdbAckBody
  split
  · exact Res.Runs.ok.of_moves (taken.trans advanceChunk_moves)
  · exact Res.Runs.err.of_moves taken
  · exact noValue_runs ((ackDelay_runs _).of_moves taken)

theorem statusCommand_runs (w : Word) : (statusCommand w s).Runs k s :=
  (execProcedure_runs w .pri).bind fun _ _ => by
    split
    · exact .ok
    · exact .err

theorem syncCommand_runs (w : Word) : (syncCommand w s).Runs k s :=
  (execProcedure_runs w .pri).bind fun _ _ => by
    split
    · exact .ok
    · exact .err

end Sys2Proof.Machine
end

section
/-!
PROOFS. Family 10_state.md, the layer beneath: WAKEUP, whose scope is wider, and the gate around a body.
-/

namespace Sys2Proof.Machine

variable {k : Scope} {Q : State → Prop} {s t : State}

/-! ### WAKEUP's own registers -/

theorem enter_moves (hk : k ≠ .operation) (w : WState) : Moves k State.Quiet State.Quiet s (s.enter w) where
  mode h := absurd h hk
  sound h := { h with }

/-! ### An attempt: steps 1 to 3 -/

theorem wakeClock_runs : (wakeClock s).Runs k s := by
  unfold wakeClock
  split
  · rcases pause_cases (s.goto .wk1Clock) with ⟨t, h, p⟩ | h <;> rw [h]
    · exact (delayTicks_runs _ (by simp [delayPhase, p.seq])).of_moves
        (((Moves.goto _).trans p.moves_quiet).trans (.emit _))
    · trivial
  · exact Res.Runs.ok.of_moves (.goto _)

/-- R234: between steps 2 and 3 of an attempt a wait is armed where the device has a completion line, and nowhere else. -/
structure State.Primed (s : State) : Prop extends s.Latching where
  unarmed : s.cfg.wakeHasComplLine = false → s.Quiet

theorem Passed.moves_primed (p : Passed s t) : Moves k State.Primed State.Primed s t :=
  p.moves fun h => { p.latching h.toLatching with unarmed := fun hl => p.quiet (h.unarmed (p.cfg ▸ hl)) }

theorem State.Primed.emit (h : s.Primed) (e : Event) : (s.emit e).Primed :=
  { h.toLatching.emit e with unarmed := fun hl => (h.unarmed hl).emit e }

/-- R234: the arm step. -/
theorem wakeArm_cases (s : State) :
    (∃ t, wakeArm s = .ok () t ∧ t.seq = s.seq ∧ Moves k State.Quiet State.Primed s t) ∨ wakeArm s = .stop .lifecycle := by
  unfold wakeArm
  split
  · next hl =>
    rcases pause_cases s with ⟨t, h, p⟩ | h <;> rw [h]
    · have hline : t.cfg.wakeHasComplLine = true := by rw [p.cfg]; exact hl
      refine .inl ⟨t.arm, rfl, p.seq, p.moves_quiet.trans { sound := fun h => ?_ }⟩
      exact { h.arm with unarmed := fun hf => absurd (hline.symm.trans hf) Bool.noConfusion }
    · exact .inr rfl
  · exact .inl ⟨s, rfl, rfl, { sound := fun h => { h.latching with unarmed := fun _ => h } }⟩

/-- R235: the toggle, and what follows it: it hands an armed wait on, but for a failed wake primitive, which clears it. -/
theorem wakeToggle_bind_runs {β : Type} {g : Unit → State → Res β} (hs : s.seq ≠ .idle)
    (hg : ∀ t, (g () t).Runs k t State.Primed) : ((wakeToggle s).bind g).Runs k s State.Primed := by
  unfold wakeToggle
  split
  · rcases pause_cases s with ⟨t, h, p⟩ | h <;> rw [h]
    · exact (hg _).of_moves (p.moves_primed.trans { sound := fun h => h.emit _ })
    · trivial
  · rcases callWake_cases s with ⟨v, t, h, p⟩ | ⟨e, t, h, p⟩ | ⟨t, h, p⟩ | h <;> rw [h]
    · exact (hg _).of_moves (p.moves_primed.trans { sound := fun h => h.emit _ })
    · exact p.moves_primed.trans { sound := fun h => (h.toLatching.emit _).disarm }
    · exact p.moves_primed.trans { sound := fun h => h.toLatching.suspended (p.seq ▸ hs) }
    · trivial

/-- R234, R235: step 2, and what follows it. -/
theorem wakeSignal_bind_runs {β : Type} {g : Unit → State → Res β} (hk : k ≠ .operation)
    (hg : ∀ t, (g () t).Runs k t State.Primed) : ((wakeSignal s).bind g).Runs k s := by
  unfold wakeSignal
  rcases wakeArm_cases (k := k) ((s.goto .wk2Signal).enter .signaling) with ⟨t, h, hseq, m⟩ | h <;> rw [h]
  · refine (wakeToggle_bind_runs ?_ hg).of_moves (((Moves.goto .wk2Signal).trans (enter_moves hk .signaling)).trans m)
    rw [hseq]
    exact Phase.noConfusion
  · trivial

/-- R236: step 3's wait, in its phase. -/
theorem wakeReadiness_runs (hs : s.seq = .wk3Await) : (wakeReadiness s).Runs k s State.Primed := by
  have armed : Moves k State.Primed State.Latching s s := { sound := fun h => h.toLatching }
  unfold wakeReadiness
  split
  · rcases completionWait_cases s.cfg.tWakeTimeout s with ⟨t, h, p⟩ | ⟨t, h, p, hz, -⟩ | ⟨t, h, p⟩ | h <;> rw [h]
    · exact armed.trans p.moves_completed
    · exact armed.trans (p.moves_expired hz)
    · exact armed.trans (p.moves_waiting (.inr hs))
    · trivial
  · next hl => exact (delayTicks_runs _ (by simp [delayPhase, hs])).of_moves { sound := fun h => h.unarmed (by simpa using hl) }

/-- R236: step 3. -/
theorem wakeAwait_runs (hk : k ≠ .operation) : (wakeAwait s).Runs k s State.Primed := by
  refine (wakeReadiness_runs rfl).of_moves { mode := fun h => absurd h hk, sound := fun h => ?_ }
  exact { h.toLatching with unarmed := fun hl => { h.unarmed hl with } }

/-! ### An attempt: steps 4 and 5 -/

theorem wakeConfirm_runs : (wakeConfirm s).Runs k s := by
  unfold wakeConfirm
  split
  · exact (statusCommand_runs _).of_moves (.goto _)
  · exact .ok

/-- R238: CWE's half of the mode switch. -/
theorem syncIntrCommand_runs (hk : k ≠ .operation) (w : Word) : (syncIntrCommand w s).Runs k s := by
  have interrupt (t : State) : Moves k State.Quiet State.Quiet t { t with cmode := .interrupt } :=
    { mode := fun h => absurd h hk, sound := fun h => { h with } }
  exact (execProcedure_runs w .pri).bind fun _ t => Res.Runs.ok.of_moves (interrupt t)

theorem wakeIrq_runs (hk : k ≠ .operation) : (wakeIrq s).Runs k s := by
  unfold wakeIrq
  split
  · exact (syncIntrCommand_runs hk _).of_moves (.goto _)
  · exact .ok

theorem wakeEcho_runs (hk : k ≠ .operation) : (wakeEcho s).Runs k s :=
  (syncCommand_runs _).of_moves ((Moves.goto _).trans (enter_moves hk _))

theorem wakeAttempt_runs (hk : k ≠ .operation) : (wakeAttempt s).Runs k s :=
  wakeClock_runs.bind fun _ _ => wakeSignal_bind_runs hk fun _ => (wakeAwait_runs hk).bind fun _ _ =>
    wakeConfirm_runs.bind fun _ _ => (wakeIrq_runs hk).bind fun _ _ => wakeEcho_runs hk

/-! ### Step 6 and the attempts -/

theorem muteCommand_runs (hk : k ≠ .operation) (w : Word) : (muteCommand w s).Runs k s := by
  have h : (execProcedure w .pri s).Runs k s := execProcedure_runs w .pri
  unfold muteCommand
  cases hr : execProcedure w .pri s with
  | ok v t => rw [hr] at h; exact h
  | err e t => rw [hr] at h; exact Moves.trans h (enter_moves hk _)
  | hung t => rw [hr] at h; exact h
  | stop r => trivial

theorem wakeReady_runs (hk : k ≠ .operation) : (wakeReady s).Runs k s :=
  ((muteCommand_runs hk _).of_moves ((Moves.goto _).trans (enter_moves hk _))).bind fun _ _ => .ok

/-- R232: `n` more attempts are within the budget. -/
def State.AttemptsLeft (n : Nat) (s : State) : Prop := s.att + n ≤ s.cfg.wakeBudget

/-- One attempt, its number counted, leaves one less. -/
theorem attempt_moves {n : Nat} (m : Moves .attempt State.Quiet Q s.startAttempt t) :
    Moves .wakeup (fun s => s.Quiet ∧ s.AttemptsLeft (n + 1)) (fun t => Q t ∧ t.AttemptsLeft n) s t where
  cfg := m.cfg
  kinds := m.kinds
  valid := m.valid
  mode := Scope.noConfusion
  attempts h := absurd rfl h
  sound := fun ⟨hq, hn⟩ => by
    have hatt : t.att = s.att + 1 := m.attempts Scope.noConfusion
    unfold State.AttemptsLeft at hn ⊢
    refine ⟨m.sound { hq with att := ?_ }, ?_⟩
    · show s.att + 1 ≤ s.cfg.wakeBudget
      omega
    · rw [hatt, show t.cfg = s.cfg from m.cfg]
      omega

theorem wakeLoop_runs (n : Nat) : (wakeLoop n s).Runs .wakeup s fun s => s.Quiet ∧ s.AttemptsLeft n := by
  have wide : Scope.wakeup ≠ .operation := Scope.noConfusion
  induction n generalizing s with
  | zero => exact (enter_moves wide .failed).mono And.left id
  | succ n ih =>
    have h : (wakeAttempt s.startAttempt).Runs .attempt s.startAttempt := wakeAttempt_runs Scope.noConfusion
    unfold wakeLoop
    cases hr : wakeAttempt s.startAttempt <;> rw [hr] at h
    case ok t => exact (wakeReady_runs wide).of_moves ((attempt_moves h).mono id And.left)
    case err e t =>
      have failed : Moves .wakeup (fun t => t.Quiet ∧ t.AttemptsLeft n) (fun t => t.Quiet ∧ t.AttemptsLeft n)
          t (t.failAttempt e) := { mode := Scope.noConfusion, sound := fun ⟨hq, hn⟩ => ⟨{ hq with }, hn⟩ }
      show Res.Runs _ (if _ then _ else _) _ _
      split
      · exact ((attempt_moves h).trans failed).trans ((enter_moves wide .failed).mono And.left id)
      · exact ih.of_moves ((attempt_moves h).trans failed)
    case hung t => exact (attempt_moves (n := n) h).mono id And.left
    case stop r => trivial

theorem wakeupBody_runs : (wakeupBody s).Runs .wakeup s := by
  refine (wakeLoop_runs s.cfg.wakeBudget).of_moves { attempts := fun h => absurd rfl h, sound := fun h => ⟨?_, ?_⟩ }
  · exact { h with att := Nat.zero_le _ }
  · show 0 + _ ≤ _
    simp

/-! ### The gate -/

/-- R173, R174: quiet, with no power vote to give back. -/
def State.Voteless (s : State) : Prop := s.Quiet ∧ s.pvote = false

/-- R171: step (a) can grant the lock to requester `q`. -/
def State.Grantable (q : Nat) (s : State) : Prop := s.Quiet ∧ s.lock = .free ∧ q < s.cfg.nReq

theorem Passed.moves_voteless (p : Passed s t) : Moves k State.Voteless State.Voteless s t :=
  p.moves fun ⟨h, hv⟩ => ⟨p.quiet h, by rw [p.frame]; exact hv⟩

theorem Passed.moves_grantable {q : Nat} (p : Passed s t) : Moves k (State.Grantable q) (State.Grantable q) s t :=
  p.moves fun ⟨h, hl, hq⟩ => ⟨p.quiet h, p.lock ▸ hl, p.cfg ▸ hq⟩

/-- R171 (a): a free lock is granted; with it free there was no vote. -/
theorem grant_moves (q : Nat) : Moves k (State.Grantable q) State.Voteless s (s.grant q) where
  sound := fun ⟨h, hl, hq⟩ => by
    have hv : s.pvote = false := by simpa using mt h.voted (by simpa using hl)
    refine ⟨{ h with voted := fun _ => Lock.noConfusion, holder := fun p hp => ?_ }, hv⟩
    cases hp
    exact hq

/-- R175: giving the lock back, once the vote is given back. -/
theorem unlock_moves (q : Nat) : Moves k State.Voteless State.Quiet s (s.unlock q) where
  sound := fun ⟨h, hv⟩ => { h with
    voted := fun hp => absurd hp (by simp [hv])
    holder := fun _ => Lock.noConfusion }

theorem unlockStep_runs (q : Nat) : (unlockStep q s).Runs k s State.Voteless := by
  unfold unlockStep
  rcases pause_cases s with ⟨t, h, p⟩ | h <;> rw [h]
  · exact p.moves_voteless.trans (unlock_moves q)
  · trivial

theorem giveBack_moves : Moves k State.Quiet State.Voteless s s.giveBack where
  sound h := ⟨{ h with voted := Bool.noConfusion }, rfl⟩

theorem releaseSteps_runs (q : Nat) : (releaseSteps q s).Runs k s :=
  pause_runs.bind fun _ _ => (unlockStep_runs q).of_moves giveBack_moves

/-- R171: the gate around a body. -/
theorem gate_runs {q : Nat} {body : State → Res (Option Value)} (hb : ∀ t, (body t).Runs k t) :
    (gate q body s).Runs k s (State.Grantable q) := by
  unfold gate
  rcases pause_cases s with ⟨t, h, p⟩ | h <;> rw [h]
  case inr => trivial
  have granted : Moves k (State.Grantable q) State.Voteless s (t.grant q) := p.moves_grantable.trans (grant_moves q)
  rcases callResume_cases (t.grant q) with ⟨ok, u, h, p'⟩ | ⟨u, h, p'⟩ | h <;> rw [Res.bind_ok, h]
  · have emitted : Moves k State.Voteless State.Voteless u (u.emit (.resume ok)) :=
      { sound := fun ⟨h, hv⟩ => ⟨h.emit _, hv⟩ }
    have answered := (granted.trans p'.moves_voteless).trans emitted
    rw [Res.bind_ok]
    split
    · have hl : u.lock = .held q := p'.lock
      refine ((begun_runs hb).after fun _ => releaseSteps_runs q).of_moves (answered.trans { sound := fun ⟨h, _⟩ => ?_ })
      exact { h with voted := fun _ => by simp [hl] }
    · exact ((unlockStep_runs q).bind fun _ _ => .err).of_moves answered
  · exact (granted.trans p'.moves_voteless).trans
      { sound := fun h => h.1.latching.suspended (by rw [p'.seq]; simp) }
  · trivial

end Sys2Proof.Machine
end

section
/-!
PROOFS. Family 10_state.md: what every instruction and every step may move, and the statements that follow from it: the
invariant (O52), the configuration (O57), the mode and the wakeup state (O58) and the response cache (O59).
-/

namespace Sys2Proof.Machine

variable {k : Scope} {P : State → Prop} {s t : State}

/-! ### Operations -/

/-- R270: the end of an operation leaves the invariant, whether its procedure returned or is suspended for good. -/
theorem finish_moves {q : Nat} {r : Res (Option Value)} (hr : r.Runs k s P) (h : finish q r = .next t) :
    Moves k P State.Inv s t := by
  have ended (u : State) (res : HRes) : Moves k State.Quiet State.Inv u (u.endOperation q res) :=
    { sound := fun h => State.Quiet.inv { h with } }
  rcases finish_next h with ⟨v, u, rfl, rfl⟩ | ⟨e, u, rfl, rfl⟩ | rfl
  · exact Moves.trans hr (ended u _)
  · exact Moves.trans hr (ended u _)
  · exact Moves.mono hr id State.Suspended.inv

section
variable {body : State → Res (Option Value)} (hb : ∀ t, (body t).Runs k t)
include hb

/-- An operation that a ready engine runs for requester `q`, after the time its first step takes. -/
theorem begun_moves {q : Nat} (hr : s.Ready q) (h : finish q (begun body s) = .next t) :
    Moves k State.Inv State.Inv s t :=
  (finish_moves (begun_runs hb) h).mono (·.quiet hr) id

theorem codecOperation_moves {q : Nat} (h : codecOperation q body s = .next t) : Moves k State.Inv State.Inv s t :=
  have ⟨hr, hf⟩ := codecOperation_next h
  begun_moves hb hr hf

theorem unlockedOperation_moves {q : Nat} (h : unlockedOperation q body s = .next t) : Moves k State.Inv State.Inv s t :=
  have ⟨hh, hf⟩ := unlockedOperation_next h
  begun_moves hb hh.ready hf

theorem wireOperation_moves (h : wireOperation body s = .next t) : Moves k State.Inv State.Inv s t :=
  have ⟨_, hh, hf⟩ := wireOperation_next h
  begun_moves hb hh.ready hf

theorem ownWord_moves {own : Bool} (h : ownWord own body s = .next t) : Moves k State.Inv State.Inv s t :=
  have ⟨_, _, hh, hf⟩ := ownWord_next h
  begun_moves hb hh.ready hf

theorem lockedOperation_moves {q : Nat} {self : Frame} (h : lockedOperation q self body s = .next t) :
    Moves k State.Inv State.Inv s t := by
  rcases lockedOperation_next h with ⟨⟨hr, hl⟩, hf⟩ | ⟨_, _, _, _, rfl⟩
  · have granted (hi : s.Inv) : s.Grantable q := ⟨hi.quiet hr, hl, hr.known⟩
    exact (finish_moves (gate_runs hb) hf).mono granted id
  · exact { sound := fun h => { h with } }
end

/-- R35, R36, R232: the scope of an instruction. -/
def scopeOf : Instr → Scope
  | .wakeup _ => .wakeup
  | .wakeupLocked _ => .wakeup
  | _ => .operation

/-- What every instruction may move: it stays in its scope and keeps the invariant. -/
theorem exec_moves {i : Instr} (h : exec i s = .next t) : Moves (scopeOf i) State.Inv State.Inv s t := by
  cases i with
  | execute q w => exact unlockedOperation_moves (fun _ => executeBody_runs w) h
  | readRegister q id => exact unlockedOperation_moves (fun _ => readRegisterBody_runs id) h
  | writeRegister q id value => exact unlockedOperation_moves (fun _ => writeRegisterBody_runs id value) h
  | writeBlock q buf len => exact unlockedOperation_moves (fun _ => writeBlockBody_runs buf len) h
  | readBlock q buf len id => exact unlockedOperation_moves (fun _ => readBlockBody_runs buf len id) h
  | wakeup q => exact unlockedOperation_moves (fun _ => wakeupBody_runs) h
  | encode q id value dir => exact codecOperation_moves (fun _ => encodeBody_runs id value dir) h
  | decode q id => exact codecOperation_moves (fun _ => decodeBody_runs id) h
  | executeLocked q w => exact lockedOperation_moves (fun _ => executeBody_runs w) h
  | readRegisterLocked q id => exact lockedOperation_moves (fun _ => readRegisterBody_runs id) h
  | writeRegisterLocked q id value => exact lockedOperation_moves (fun _ => writeRegisterBody_runs id value) h
  | writeBlockLocked q buf len => exact lockedOperation_moves (fun _ => writeBlockBody_runs buf len) h
  | readBlockLocked q buf len id => exact lockedOperation_moves (fun _ => readBlockBody_runs buf len id) h
  | wakeupLocked q => exact lockedOperation_moves (fun _ => wakeupBody_runs) h
  | reservedE q => cases h
  | reservedF q => cases h
  | cw32Generic w => exact wireOperation_moves (fun _ => executeBody_runs w) h
  | wdbCmd opcode size =>
    have chunk (u : State) : Moves .operation State.Quiet State.Quiet u { u.goto .wbCmd with chunk := size } :=
      { sound := fun h => { h with } }
    exact ownWord_moves (fun u => responseValue_runs (wdbCommand_runs.of_moves (chunk u))) h
  | wdbResp r => exact wireOperation_moves (fun _ => noValue_runs (wdbCheck_runs r)) h
  | wdbAck a => exact wireOperation_moves (fun _ => wdbAckBody_runs a) h
  | rdbCmd opcode id => exact ownWord_moves (fun _ => responseValue_runs (rdbCommand_runs id)) h
  | rdbResp r => exact wireOperation_moves (fun _ => noValue_runs (rdbCheck_runs r)) h
  | statusQuery w => exact ownWord_moves (fun _ => noValue_runs ((statusCommand_runs w).of_moves (.goto _))) h
  | syncIntr w => exact ownWord_moves (fun _ => noValue_runs ((sendCommand_runs w).of_moves (.goto _))) h
  | sync w => exact ownWord_moves (fun _ => noValue_runs ((syncCommand_runs w).of_moves (.goto _))) h
  | smoothMuteZero w => exact ownWord_moves (fun _ => noValue_runs ((sendCommand_runs w).of_moves (.goto _))) h
  | regMsgLane w => exact wireOperation_moves (fun _ => noValue_runs (sendCommand_runs w)) h

/-! ### Inputs to an idle engine, and the step -/

/-- R276, R284: what passes meanwhile keeps the invariant: a completion is latched only where a wait is armed. -/
theorem Passed.moves_inv (p : Passed s t) : Moves k State.Inv State.Inv s t :=
  p.moves fun h => by
    rw [p.frame]
    exact { h with
      latch_armed := fun hc => (p.latch hc).elim h.latch_armed id
      idle_quiet := fun hs => by
        obtain ⟨hp, hc, ht, hd⟩ := h.idle_quiet hs
        refine ⟨hp, ?_, ht, hd⟩
        simpa [hp, hc] using p.latch
      stamp_width := ⟨h.stamp_width.1, p.stamp h.stamp_width.2⟩ }

theorem deliver_moves (i : Input) : Moves k State.Inv State.Inv s (s.deliver i) := (Passed.deliver s i).moves_inv

theorem fillBuffer_moves (buf off : Word) (bytes : List Byte) :
    Moves k State.Inv State.Inv s (s.fillBuffer buf off bytes) := by
  rw [s.fillBuffer_frame]
  exact { sound := fun h => { h with memory_canonical := s.fillBuffer_wf buf off bytes h.memory_canonical } }

/-- R181: only a known requester of an attached Session gets the lock. -/
theorem holdLock_moves (q : Nat) : Moves k State.Inv State.Inv s (s.holdLock q) := by
  unfold State.holdLock
  split
  · next hc =>
    obtain ⟨ha, -, hq⟩ := hc
    exact { sound := fun h => { h with
      vote_locked := fun _ => Lock.noConfusion
      holder_known := fun p hp => by cases hp; exact hq
      detached_free := fun hd => absurd (ha.symm.trans hd) Bool.noConfusion } }
  · exact .refl

/-- Nothing is claimed of a lock that is free, with no vote. -/
theorem dropLock_moves (q : Nat) : Moves k State.Inv State.Inv s (s.dropLock q) := by
  unfold State.dropLock
  split
  · exact { sound := fun h => { h with
      vote_locked := Bool.noConfusion
      holder_known := fun _ => Lock.noConfusion
      detached_free := fun hd => ⟨rfl, (h.detached_free hd).2⟩ } }
  · exact .refl

/-- R301: an idle Session is torn down. -/
theorem detach_moves (hs : s.seq = .idle) : Moves k State.Inv State.Inv s s.detach where
  sound h := { h with
    vote_locked := Bool.noConfusion
    holder_known := fun _ => Lock.noConfusion
    detached_free := fun _ => ⟨rfl, hs⟩ }

/-- R300, R301: a new attach gives a state that meets the invariant, around buffers in their canonical form. -/
theorem reattach_inv (c : Config) (h : s.Inv) : (s.reattach c).Inv where
  latch_armed := Bool.noConfusion
  idle_quiet _ := ⟨rfl, rfl, rfl, rfl⟩
  timer_stopped h := absurd rfl h
  delay_stopped h := absurd rfl h
  vote_locked := Bool.noConfusion
  holder_known _ := Lock.noConfusion
  detached_free := Bool.noConfusion
  kinds_fixed := ⟨rfl, rfl, rfl⟩
  message_length := .inl rfl
  attempts_bounded := Nat.zero_le _
  stamp_width := ⟨Nat.two_pow_pos _, Nat.mod_lt _ (Nat.two_pow_pos _)⟩
  memory_canonical := h.memory_canonical

/-- What an input does to an idle engine: it stays in the scope of every step, or attaches a Session where there is none. -/
theorem idleInput_moves {i : Input} (hs : s.seq = .idle) (h : idleInput i s = .next t) :
    Moves k State.Inv State.Inv s t ∨ s.attached = false ∧ ∃ c, t = s.reattach c := by
  cases i with
  | attach c =>
    simp only [idleInput] at h
    split at h
    · cases h
    · next ha => cases h; exact .inr ⟨by simpa using ha, c, rfl⟩
  | fillBuffer buf off bytes => cases h; exact .inl (fillBuffer_moves buf off bytes)
  | holdLock q => cases h; exact .inl (holdLock_moves q)
  | dropLock q => cases h; exact .inl (dropLock_moves q)
  | detach => cases h; exact .inl (detach_moves hs)
  | completion => cases h; exact .inl (deliver_moves .completion)
  | ticks n => cases h; exact .inl (deliver_moves (.ticks n))
  | tickCompletion => cases h; exact .inl (deliver_moves .tickCompletion)
  | delayEnds => cases h; exact .inl (deliver_moves .delayEnds)
  | advanceNow d => cases h; exact .inl (deliver_moves (.advanceNow d))
  | stepTakes n => cases h; exact .inl (deliver_moves (.stepTakes n))
  | request f => cases h; exact .inl (deliver_moves (.request f))
  | answer a => cases h; exact .inl (deliver_moves (.answer a))

/-- Every scope lies within WAKEUP's. -/
theorem Moves.widen {Q : State → Prop} (m : Moves k P Q s t) : Moves .wakeup P Q s t :=
  { m with mode := Scope.noConfusion, attempts := fun h => absurd rfl h }

/-- Taking a request up changes no register. -/
theorem fetch_moves {f : Frame} (h : fetch s = some (f, t)) : Moves k State.Inv State.Inv s t := by
  unfold fetch at h
  split at h
  · cases h; exact { sound := fun h => { h with } }
  · cases h

theorem runFrame_moves {f : Frame} (h : runFrame f s = .next t) : Moves .wakeup State.Inv State.Inv s t := by
  unfold runFrame at h
  split at h
  · exact (exec_moves h).widen
  · cases h

/-- What a step may move: it runs a request, takes an input, or sits; only a new attach, of a Session that was torn down, goes
beyond the scope of a step. -/
theorem step_moves (h : step s = .next t) :
    Moves .wakeup State.Inv State.Inv s t ∨
      s.attached = false ∧ ∃ c rest, t = State.reattach { s with inputs := rest } c := by
  have used (l : List Input) : Moves .wakeup State.Inv State.Inv s { s with inputs := l } := (Passed.inputs s l).moves_inv
  unfold step at h
  split at h
  case isFalse => cases h
  case isTrue hs =>
    split at h
    · next hf => exact .inl ((fetch_moves hf).trans (runFrame_moves h))
    · split at h
      · cases h; exact .inl .refl
      · next i rest _ =>
        exact (idleInput_moves (s := { s with inputs := rest }) hs h).imp (used rest).trans
          fun ⟨ha, c, ht⟩ => ⟨ha, c, rest, ht⟩

/-- While a Session is attached, a step stays in its scope. -/
theorem step_moves_attached (ha : s.attached = true) (h : step s = .next t) : Moves .wakeup State.Inv State.Inv s t :=
  (step_moves h).resolve_right fun ⟨hd, _⟩ => absurd (ha.symm.trans hd) Bool.noConfusion

/-! ### The statements -/

/-- Settles O52: every step moves from the invariant to the invariant, and a new attach sets it up again. -/
theorem invariantKept : Obligations.InvariantKept := by
  intro s t hi h
  rcases step_moves h with m | ⟨-, c, rest, rfl⟩
  · exact m.sound hi
  · exact reattach_inv c { hi with }

/-- Settles O57: no step of an attached Session moves the configuration or the transport selection. -/
theorem configurationIsFixed : Obligations.ConfigurationIsFixed := by
  intro s t ha h
  have m := step_moves_attached ha h
  exact ⟨m.cfg, m.kinds⟩

/-- Settles O58: every instruction but the two WAKEUPs has the scope of an operation. -/
theorem onlyWakeupWritesModeAndState : Obligations.OnlyWakeupWritesModeAndState := by
  intro s t i hi h
  have hscope : scopeOf i = .operation := by
    unfold scopeOf
    split
    · next q => exact absurd rfl (hi q).1
    · next q => exact absurd rfl (hi q).2
    · rfl
  exact (exec_moves h).mode hscope

/-- R33, R47: where the cache is valid the status outputs show it. -/
theorem statusOutputs_valid (h : s.lastValid = true) :
    s.statusOutputs = ⟨some s.lastResp, some s.lastTs, true, s.cmode, s.wstate⟩ := by
  simp [State.statusOutputs, h]

/-- R33, R47: where it is not, they show none. -/
theorem statusOutputs_invalid (h : s.lastValid = false) :
    s.statusOutputs = ⟨none, none, false, s.cmode, s.wstate⟩ := by
  simp [State.statusOutputs, h]

/-- Settles O59: no step of an attached Session invalidates the cache, and the outputs follow its valid flag. -/
theorem cacheStaysValid : Obligations.CacheStaysValid :=
  ⟨fun _ => statusOutputs_invalid rfl, fun _ _ ha h =>
    ⟨(step_moves_attached ha h).valid, statusOutputs_valid, statusOutputs_invalid⟩⟩

end Sys2Proof.Machine
end

section
/-!
PROOFS. Family 10_state.md: what passes before a call's answer and in the time of a step (O7).
-/

namespace Sys2Proof.Machine

/-! ### Inputs delivered one after the other -/

theorem Passed.delivered (env : List Input) (s : State) : Passed s (env.foldl State.deliver s) := by
  induction env generalizing s with
  | nil => exact .refl s
  | cons i rest ih => exact (Passed.deliver s i).trans (ih _)

/-- R276, R277: only a completion signal, alone or with a tick, is latched, and only by an armed wait. -/
theorem deliver_cseen (s : State) (i : Input) :
    (s.deliver i).cseen = (s.cseen || (s.pend && decide (i = .completion ∨ i = .tickCompletion))) := by
  cases i <;> simp [State.deliver]

/-- R276, R277: a list of inputs latches a completion exactly where one of them is one and a wait is armed. -/
theorem delivered_cseen (env : List Input) (s : State) :
    (env.foldl State.deliver s).cseen =
      (s.cseen || (s.pend && decide (.completion ∈ env ∨ .tickCompletion ∈ env))) := by
  induction env generalizing s with
  | nil => simp
  | cons i rest ih =>
    have hor : (Input.completion ∈ i :: rest ∨ Input.tickCompletion ∈ i :: rest) ↔
        (i = .completion ∨ i = .tickCompletion) ∨ (.completion ∈ rest ∨ .tickCompletion ∈ rest) := by
      simp only [List.mem_cons, eq_comm (b := i)]
      tauto
    rw [List.foldl_cons, ih, (Passed.deliver s i).pend, deliver_cseen, Bool.or_assoc, ← Bool.and_or_distrib_left,
      ← Bool.decide_or, decide_eq_decide.2 hor]

/-- What a list of inputs leaves, used up as far as `rest`. -/
theorem delivered_moved (s : State) (env rest : List Input) {t : State}
    (ht : t = { env.foldl State.deliver s with inputs := rest }) :
    t.inputs = rest ∧ t.cseen = (s.cseen || (s.pend && decide (.completion ∈ env ∨ .tickCompletion ∈ env))) ∧
    t = { s with
      cseen := t.cseen, trace := t.trace, clock := t.clock, now := t.now, requests := t.requests, inputs := rest } := by
  subst ht
  exact ⟨rfl, delivered_cseen env s, ((Passed.delivered env s).trans (.inputs _ rest)).frame⟩

/-- R26, R278: a call is not ended by inputs that carry no answer. -/
theorem awaitAnswer_append {α : Type} (want : Answer → Option α) {env : List Input} (rest : List Input) (s : State)
    (hl : ∀ i ∈ env, i.isLifecycle = false) (ha : ∀ i ∈ env, i.answer? = none) :
    awaitAnswer want (env ++ rest) s = awaitAnswer want rest (env.foldl State.deliver s) := by
  induction env generalizing s with
  | nil => rfl
  | cons i env ih =>
    rw [List.forall_mem_cons] at hl ha
    simp only [List.cons_append, awaitAnswer, ha.1, hl.1, Option.bind_none, List.foldl_cons, Bool.false_eq_true, if_false]
    exact ih _ hl.2 ha.2

/-- R275, R315: the inputs that fall in the time of a step. -/
theorem takeInputs_append {env : List Input} (rest : List Input) (s : State) (hl : ∀ i ∈ env, i.isLifecycle = false) :
    takeInputs env.length (env ++ rest) s = .ok () { env.foldl State.deliver s with inputs := rest } := by
  induction env generalizing s with
  | nil => rfl
  | cons i env ih =>
    rw [List.forall_mem_cons] at hl
    simp only [List.length_cons, List.cons_append, takeInputs, hl.1, List.foldl_cons, Bool.false_eq_true, if_false]
    exact ih _ hl.2

/-- The time of a step, told by `stepTakes`. -/
theorem pause_stepTakes {s : State} {n : Nat} {l : List Input} (h : s.inputs = .stepTakes n :: l) :
    pause s = takeInputs n l s := by
  simp [pause, h, Input.stepTakes?]

/-- Settles O7: in both clauses the inputs are delivered one after the other, and nothing else happens. -/
theorem callTakesItsAnswer : Obligations.CallTakesItsAnswer := by
  intro s env rest a hl
  refine ⟨fun ha => ⟨_, ?call, delivered_moved s env rest rfl⟩, fun h => ⟨_, ?time, delivered_moved s env rest rfl⟩⟩
  case call => rw [awaitAnswer_append wantSend _ s hl ha, awaitAnswer_answer wantSend (.send a) a rfl]
  case time => rw [pause_stepTakes h, takeInputs_append rest s hl]

end Sys2Proof.Machine
end

section
/-!
PROOFS. Family 10_state.md: the values after attach (O55), a register id beyond the table (O22), and the two wakeup words
whose response nobody checks (O51).
-/

namespace Sys2Proof.Machine

/-- Settles O55: attach sets each of these registers. -/
theorem attachValues : Obligations.AttachValues := fun _ =>
  ⟨rfl, rfl, rfl, rfl, rfl, rfl, rfl, rfl, rfl, rfl, rfl, rfl, rfl⟩

/-! ### Results -/

/-- R102, R270: an operation that began at an idle engine ends there, and only its result is new besides what its procedure
changed. -/
theorem endOperation_eq_returned {s : State} (hs : s.seq = .idle) (p : Phase) (q : Nat) (r : HRes) :
    State.endOperation { s with seq := p } q r = s.returned q r := by
  unfold State.endOperation State.returned
  rw [hs]

/-! ### A register id beyond the table -/

section
variable {s : State} {id : Word} (h : s.cfg.table.length ≤ id.toNat)
include h

/-- R121, R155: neither body gets past ENCODE's range check. -/
theorem readRegisterBody_invalid : readRegisterBody id s = .err (.invalidAddress id) (s.goto .encode) := by
  rw [readRegisterBody, encodeMessage_none (lookup_eq_none.2 h)]
  rfl

theorem writeRegisterBody_invalid (value : Word) :
    writeRegisterBody id value s = .err (.invalidAddress id) (s.goto .encode) := by
  rw [writeRegisterBody, encodeMessage_none (lookup_eq_none.2 h)]
  rfl
end

/-- A body that only fails, of an unlocked operation. -/
theorem unlockedOperation_fails {s : State} {q : Nat} {body : State → Res (Option Value)} {e : Err}
    (hh : s.Holder q) (hc : Calm s.inputs) (hb : body s = .err e (s.goto .encode)) :
    unlockedOperation q body s = .next (s.returned q (HRes.ofErr e)) := by
  rw [unlockedOperation_holder hh, begun_calm hc, hb]
  exact congrArg Host.Outcome.next (endOperation_eq_returned hh.ready.idle .encode q _)

/-- R171, R172: a body that only fails, under the gate: the vote and the lock are given back all the same. -/
theorem lockedOperation_fails {s : State} {q : Nat} {self : Frame} {body : State → Res (Option Value)} {e : Err}
    {rest : List Input} (hp : s.Public q) (hc : Calm rest) (hi : s.inputs = .answer (.resume true) :: rest)
    (hb : ∀ t : State, t.cfg = s.cfg → body t = .err e (t.goto .encode)) :
    lockedOperation q self body s =
      .next (({ s.opened q with inputs := rest }.closed q).returned q (HRes.ofErr e)) := by
  rw [lockedOperation_public hp, gate_resumed hi, begun_calm hc,
    hb { s.opened q with seq := .gateResume, inputs := rest } rfl, Res.after_err, releaseSteps_calm hc]
  exact congrArg Host.Outcome.next (endOperation_eq_returned
    (s := { s.opened q with inputs := rest }.closed q) hp.1.idle .gateUnlock q _)

/-- Settles O22: both bodies fail in ENCODE, as they are and under the gate. -/
theorem invalidAddressBeforeIo : Obligations.InvalidAddressBeforeIo := by
  intro s q id value rest hr ht
  have beyond (t : State) (hcfg : t.cfg = s.cfg) : t.cfg.table.length ≤ id.toNat := hcfg ▸ ht
  refine ⟨fun hl hv hc => ⟨?read, ?write⟩, fun hl hc hi => ⟨?readLocked, ?writeLocked⟩⟩
  case read => exact unlockedOperation_fails ⟨hr, hl, hv⟩ hc (readRegisterBody_invalid ht)
  case write => exact unlockedOperation_fails ⟨hr, hl, hv⟩ hc (writeRegisterBody_invalid ht value)
  case readLocked =>
    exact lockedOperation_fails ⟨hr, hl⟩ hc hi fun t hcfg => readRegisterBody_invalid (beyond t hcfg)
  case writeLocked =>
    exact lockedOperation_fails ⟨hr, hl⟩ hc hi fun t hcfg => writeRegisterBody_invalid (beyond t hcfg) value

/-! ### The words of wakeup steps 5 and 6 by themselves -/

/-- The phase in which a command is sent bears on nothing else that it leaves. -/
theorem State.answered_goto (s : State) (p : Phase) (route : Route) (w r : Word) :
    (s.goto p).answered route w r = (s.answered route w r).goto p := by
  cases hs : srBit w <;> cases hm : s.cmode <;> simp [State.answered, State.goto, hs, hm]

section
variable {s : State} {q : Nat} {w : Word} {rest : List Input} (hh : s.Holder q) (p : Phase)
include hh

/-- A command row that carries its configuration's word runs for the holder, at once where nothing falls before it. -/
theorem ownWord_holder {body : State → Res (Option Value)} (hc : Calm s.inputs) :
    ownWord (decide (w = w)) body s = finish q (body s) := by
  rw [ownWord, if_pos (decide_eq_true rfl), wireOperation_holder hh, begun_calm hc]

/-- R140, R145: an unchecked command that is answered leaves what EXEC leaves, and no value. -/
theorem sendRow_answered {r : Word} (hi : s.inputs = sendScript s.cmode w r ++ rest) :
    ownWord (decide (w = w)) (fun s => noValue (sendCommand w (s.goto p))) s =
      .next (State.returned { s.answered .pri w r with inputs := rest } q (HRes.ofValue none)) := by
  have hseq : (s.answered .pri w r).seq = .idle := (s.answered_seq .pri w r).trans hh.ready.idle
  rw [ownWord_holder hh (by rw [hi]; rfl), sendCommand, execProcedure_answered (s := s.goto p) hi, State.answered_goto]
  exact congrArg Host.Outcome.next
    (endOperation_eq_returned (s := { s.answered .pri w r with inputs := rest }) hseq _ q _)

/-- R144: an unchecked command whose send fails ends with the Transport's error. -/
theorem sendRow_failed {e : TErr} (hi : s.inputs = .answer (.send (.err e)) :: rest) :
    ownWord (decide (w = w)) (fun s => noValue (sendCommand w (s.goto p))) s =
      .next (State.returned { s with
        pend := false, cseen := false, inputs := rest,
        trace := s.trace ++ (armEvents s.cmode w ++ [.send .pri w (.err e)]) } q (HRes.ofErr (.transport e))) := by
  rw [ownWord_holder hh (by rw [hi]; rfl), sendCommand, execProcedure_failed (s := s.goto p) hi]
  exact congrArg Host.Outcome.next (endOperation_eq_returned
    (s := { s with
      pend := false, cseen := false, inputs := rest,
      trace := s.trace ++ (armEvents s.cmode w ++ [.send .pri w (.err e)]) }) hh.ready.idle .execSend q _)
end

/-- Settles O51: the synchronize-and-suppress word has `SR = 1`, so nothing is armed and no response cached; the
smooth-mute word is sent as EXEC sends any. -/
theorem uncheckedWakeRows : Obligations.UncheckedWakeRows := by
  intro s q r e rest hh
  have hsr : srBit s.cfg.syncIntrWord = true := (taken_of_configOk hh.ready.lawful).syncIntr
  have unarmed : armsWait s.cmode s.cfg.syncIntrWord = false := by simp [armsWait, hsr]
  refine ⟨fun hi => ?syncSent, fun hi => ⟨?syncFailed, sendRow_failed hh .wk6Mute hi⟩,
    fun hi => sendRow_answered hh .wk6Mute hi,
    fun w => ⟨fun hw => if_neg (by simpa using hw), fun hw => if_neg (by simpa using hw)⟩⟩
  case syncSent =>
    have hscript : s.inputs = sendScript s.cmode s.cfg.syncIntrWord r ++ rest := by simpa [sendScript, unarmed] using hi
    have h := sendRow_answered hh .wk5Irq hscript
    rwa [State.answered, if_pos hsr] at h
  case syncFailed =>
    have h := sendRow_failed (w := s.cfg.syncIntrWord) hh .wk5Irq hi
    rwa [armEvents, unarmed] at h

end Sys2Proof.Machine
end

section
/-!
PROOFS. Family 20_memory.md, the layer beneath: what every procedure leaves alone of the caller buffers, and how a property of
the buffers passes from the body of an operation to the operation.
-/

namespace Sys2Proof.Machine

variable {α β : Type} {r : Res α} {s t u : State} {M : List Host.Cell → Prop}

/-! ### The relation -/

/-- The caller buffers are as they were, and so is the length the transfer was asked for, which bounds what READ_BLOCK writes
into them. -/
structure Kept (s t : State) : Prop where
  mem : t.mem = s.mem
  reqlen : t.reqlen = s.reqlen

theorem Kept.trans (h : Kept s t) (k : Kept t u) : Kept s u := ⟨k.mem.trans h.mem, k.reqlen.trans h.reqlen⟩

theorem Kept.goto (p : Phase) : Kept s (s.goto p) := ⟨rfl, rfl⟩

theorem Passed.reqlen (p : Passed s t) : t.reqlen = s.reqlen := by rw [p.frame]
theorem Passed.xfer (p : Passed s t) : t.xfer = s.xfer := by rw [p.frame]
theorem Passed.moved (p : Passed s t) : t.moved = s.moved := by rw [p.frame]

/-- R62: the outside world leaves the buffers of an operation alone (log entry 31). -/
theorem Passed.kept_buffers (p : Passed s t) : Kept s t := ⟨p.mem, p.reqlen⟩

/-- A procedure started in `s` keeps the buffers, wherever it ends. -/
def Res.Keeps (r : Res α) (s : State) : Prop := r.Leaves (Kept s) (Kept s)

theorem Res.Keeps.ok {v : α} (h : Kept s t) : (Res.ok v t).Keeps s := h
theorem Res.Keeps.err {e : Err} (h : Kept s t) : (Res.err e t : Res α).Keeps s := h

/-- What leads to the start of a procedure comes before it. -/
theorem Res.Keeps.of_kept (h : r.Keeps t) (k : Kept s t) : r.Keeps s :=
  Res.Leaves.mono h (fun _ => k.trans) (fun _ => k.trans)

theorem Res.Keeps.bind {f : α → State → Res β} (h : r.Keeps s) (hf : ∀ v t, (f v t).Keeps t) : (r.bind f).Keeps s :=
  Res.Leaves.bind h (fun _ => id) fun v t k => (hf v t).of_kept k

theorem Res.Keeps.after {f : State → Res Unit} (h : r.Keeps s) (hf : ∀ t, (f t).Keeps t) : (r.after f).Keeps s :=
  Res.Leaves.after h fun t k => (hf t).of_kept k

theorem Res.Keeps.ite {c : Prop} [Decidable c] {r' : Res α} (h : r.Keeps s) (h' : r'.Keeps s) :
    (if c then r else r').Keeps s := by
  split
  · exact h
  · exact h'

/-! ### A property of the buffers -/

/-- The buffers meet `M` wherever a procedure ends. -/
def Res.Buffers (r : Res α) (M : List Host.Cell → Prop) : Prop := r.Leaves (fun t => M t.mem) (fun t => M t.mem)

theorem Kept.buffers (k : Kept s t) (hm : M s.mem) : M t.mem := k.mem ▸ hm

theorem Res.Keeps.buffers (h : r.Keeps s) (hm : M s.mem) : r.Buffers M :=
  Res.Leaves.mono h (fun _ k => k.buffers hm) (fun _ k => k.buffers hm)

theorem Res.Buffers.bind {f : α → State → Res β} (h : r.Buffers M) (hf : ∀ v t, M t.mem → (f v t).Buffers M) :
    (r.bind f).Buffers M :=
  Res.Leaves.bind h (fun _ => id) hf

theorem Res.Buffers.after {f : State → Res Unit} (h : r.Buffers M) (hf : ∀ t, (f t).Keeps t) : (r.after f).Buffers M :=
  Res.Leaves.after h fun t hm => (hf t).buffers hm

/-- After a procedure that keeps the buffers, the rest starts with what was asked for still in `REQLEN`. -/
theorem Res.Keeps.bind_buffers {f : α → State → Res β} (h : r.Keeps s) (hm : M s.mem)
    (hf : ∀ v t, Kept s t → (f v t).Buffers M) : (r.bind f).Buffers M :=
  Res.Leaves.bind (Res.Leaves.mono h (fun _ => id) fun _ k => k.buffers hm) (fun _ k => k.buffers hm) hf

/-! ### Time, calls, waits and delays -/

theorem pause_keeps : (pause s).Keeps s := by
  rcases pause_cases s with ⟨t, h, p⟩ | h <;> rw [h]
  · exact p.kept_buffers
  · trivial

theorem awaitAnswer_keeps (want : Answer → Option α) (l : List Input) : (awaitAnswer want l s).Keeps s := by
  rcases awaitAnswer_cases want l s with ⟨v, t, h, p⟩ | ⟨t, h, p, -⟩ | h <;> rw [h]
  · exact p.kept_buffers
  · exact p.kept_buffers
  · trivial

theorem transportResult_keeps (a : Ans α) : (transportResult a s).Keeps s := by
  cases a
  · exact .ok ⟨rfl, rfl⟩
  · exact .err ⟨rfl, rfl⟩

/-- R42: the calls on the stream interface, whose answer may be the Transport's error. -/
theorem transportCall_keeps (want : Answer → Option (Ans α)) (ev : Ans α → Event) :
    ((awaitAnswer want s.inputs s).bind fun a s => transportResult a (s.emit (ev a))).Keeps s :=
  (awaitAnswer_keeps _ _).bind fun a _ => (transportResult_keeps a).of_kept ⟨rfl, rfl⟩

theorem callSend_keeps (route : Route) (w : Word) : (callSend route w s).Keeps s :=
  (awaitAnswer_keeps _ _).bind fun _ _ => .ok ⟨rfl, rfl⟩

theorem callResume_keeps : (callResume s).Keeps s := (awaitAnswer_keeps _ _).bind fun _ _ => .ok ⟨rfl, rfl⟩

theorem callHbwWrite_keeps (bytes : List Byte) : (callHbwWrite bytes s).Keeps s := transportCall_keeps _ _

theorem callHbwRead_keeps (n : Nat) : (callHbwRead n s).Keeps s := transportCall_keeps _ _

theorem openChannel_keeps : (openChannel s).Keeps s :=
  .ite ((awaitAnswer_keeps _ _).bind fun _ _ => .ok ⟨rfl, rfl⟩) (.ok ⟨rfl, rfl⟩)

theorem closeChannel_keeps : (closeChannel s).Keeps s :=
  .ite ((awaitAnswer_keeps _ _).bind fun _ _ => .ok ⟨rfl, rfl⟩) (.ok ⟨rfl, rfl⟩)

theorem completionWait_keeps (n : Nat) : (completionWait n s).Keeps s := by
  rcases completionWait_cases n s with ⟨t, h, p⟩ | ⟨t, h, p, -⟩ | ⟨t, h, p⟩ | h <;> rw [h]
  · exact ⟨p.mem, p.reqlen⟩
  · exact ⟨p.mem, p.reqlen⟩
  · exact ⟨p.mem, p.reqlen⟩
  · trivial

theorem delayTicks_keeps (n : Nat) : (delayTicks n s).Keeps s := by
  rcases delayTicks_cases n s with ⟨u, t, p, h, p', -⟩ | ⟨u, t, p, h, p'⟩ | h <;> rw [h]
  · exact p.kept_buffers.trans ⟨p'.mem, p'.reqlen⟩
  · exact p.kept_buffers.trans ⟨p'.mem, p'.reqlen⟩
  · trivial

/-! ### EXEC -/

theorem execArmed_kept (w : Word) : Kept s ((execArmed w s).goto .execSend) := by
  unfold execArmed
  split
  · exact ⟨rfl, rfl⟩
  · exact ⟨rfl, rfl⟩

theorem execWaited_keeps (r : Word) (seen : Bool) : (execWaited r seen s).Keeps s :=
  .ite (.ok ⟨rfl, rfl⟩) (.err ⟨rfl, rfl⟩)

theorem execAnswered_keeps (mode : CMode) (w : Word) (a : Ans Word) : (execAnswered mode w a s).Keeps s := by
  cases a with
  | err e => exact .err ⟨rfl, rfl⟩
  | ok r =>
    simp only [execAnswered]
    split
    · exact .ok ⟨rfl, rfl⟩
    · cases mode with
      | poll => exact .ok ⟨rfl, rfl⟩
      | interrupt => exact ((completionWait_keeps _).of_kept (.goto _)).bind fun seen _ => execWaited_keeps r seen

theorem execProcedure_keeps (w : Word) (route : Route) : (execProcedure w route s).Keeps s :=
  pause_keeps.bind fun _ t => ((callSend_keeps route w).of_kept (execArmed_kept w)).bind fun a _ =>
    execAnswered_keeps t.cmode w a

end Sys2Proof.Machine
end

section
/-!
PROOFS. Family 20_memory.md, the layer beneath: the bodies of the operations other than READ_BLOCK, each from the procedures it
is made of. None of them touches a caller buffer.
-/

namespace Sys2Proof.Machine

variable {s : State}

/-! ### The codec and the Command Engine -/

theorem encodeMessage_keeps (id value : Word) (dir : Direction) : (encodeMessage id value dir s).Keeps s := by
  cases hd : lookup s.cfg id with
  | none => rw [encodeMessage_none hd]; exact .err ⟨rfl, rfl⟩
  | some d => rw [encodeMessage_some hd]; exact .ok ⟨rfl, rfl⟩

theorem decodeMessage_keeps (id : Word) : (decodeMessage id s).Keeps s := by
  unfold decodeMessage
  split
  · exact .err ⟨rfl, rfl⟩
  · exact .ite (.ok ⟨rfl, rfl⟩) (.ok ⟨rfl, rfl⟩)

theorem encodeBody_keeps (id value : Word) (dir : Direction) : (encodeBody id value dir s).Keeps s :=
  (encodeMessage_keeps id value dir).bind fun _ _ => .ok ⟨rfl, rfl⟩

theorem decodeBody_keeps (id : Word) : (decodeBody id s).Keeps s :=
  (decodeMessage_keeps id).bind fun _ _ => .ok ⟨rfl, rfl⟩

theorem executeBody_keeps (w : Word) : (executeBody w s).Keeps s :=
  (execProcedure_keeps w .pri).bind fun _ _ => .ok ⟨rfl, rfl⟩

theorem sendMessage_keeps : (sendMessage s).Keeps s :=
  (execProcedure_keeps s.x0 .pri).bind fun _ t =>
    .ite ((execProcedure_keeps t.x1 .pri).bind fun _ _ => .ok ⟨rfl, rfl⟩) (.ok ⟨rfl, rfl⟩)

theorem readValue_keeps : (readValue s).Keeps s := .ite (.ok ⟨rfl, rfl⟩) (.ok ⟨rfl, rfl⟩)

theorem readRegisterBody_keeps (id : Word) : (readRegisterBody id s).Keeps s :=
  (encodeMessage_keeps id 0 .read).bind fun _ _ => sendMessage_keeps.bind fun _ _ => readValue_keeps

theorem writeRegisterBody_keeps (id value : Word) : (writeRegisterBody id value s).Keeps s :=
  (encodeMessage_keeps id value .write).bind fun _ _ => sendMessage_keeps.bind fun _ _ => .ok ⟨rfl, rfl⟩

/-! ### Block read, but for its data -/

theorem rdbCommand_keeps (id : Half) : (rdbCommand id s).Keeps s := (execProcedure_keeps _ .hbw).of_kept (.goto _)

/-- R213 to R215: the checks of a response to the block-read command settle `XFER`, or fail. -/
theorem rdbCheck_cases (r : Word) (s : State) :
    (∃ t, rdbCheck r s = .ok () t ∧ Kept s t ∧ t.xfer = transferLength s.reqlen (low r)) ∨
    (∃ e t, rdbCheck r s = .err e t ∧ Kept s t) := by
  unfold rdbCheck
  split
  · split
    · exact .inl ⟨_, rfl, ⟨rfl, rfl⟩, rfl⟩
    · exact .inr ⟨_, _, rfl, ⟨rfl, rfl⟩⟩
  · exact .inr ⟨_, _, rfl, ⟨rfl, rfl⟩⟩

theorem rdbCheck_keeps (r : Word) : (rdbCheck r s).Keeps s := by
  rcases rdbCheck_cases r s with ⟨t, h, k, -⟩ | ⟨e, t, h, k⟩ <;> rw [h]
  · exact .ok k
  · exact .err k

/-- R218: the drained bytes go nowhere. -/
theorem drain_keeps : (drain s).Keeps s :=
  .ite (.ok ⟨rfl, rfl⟩) (((callHbwRead_keeps _).of_kept (.goto _)).bind fun _ _ => .ok ⟨rfl, rfl⟩)

/-! ### Block write -/

theorem wdbCommand_keeps : (wdbCommand s).Keeps s := execProcedure_keeps _ .hbw

theorem wdbCheck_keeps (r : Word) : (wdbCheck r s).Keeps s := .ite (.ok ⟨rfl, rfl⟩) (.err ⟨rfl, rfl⟩)

theorem wdbData_keeps (buf : Word) : (wdbData buf s).Keeps s := (callHbwWrite_keeps _).of_kept (.goto _)

theorem ackRead_keeps : (ackRead s).Keeps s := ((callHbwRead_keeps 4).of_kept (.goto _)).bind fun _ _ => .ok ⟨rfl, rfl⟩

theorem ackLoop_keeps (n : Nat) : (ackLoop n s).Keeps s := by
  induction n generalizing s with
  | zero => exact .err ⟨rfl, rfl⟩
  | succ n ih =>
    refine ackRead_keeps.bind fun _ t => ?_
    split
    · exact .ok ⟨rfl, rfl⟩
    · exact .err ⟨rfl, rfl⟩
    · exact ((delayTicks_keeps _).of_kept (.goto _)).bind fun _ _ => ih

theorem interchunk_keeps (first : Bool) : (interchunk first s).Keeps s :=
  .ite (.ok ⟨rfl, rfl⟩) ((delayTicks_keeps _).of_kept (.goto _))

theorem writeChunk_keeps (buf : Word) : (writeChunk buf s).Keeps s := by
  have next : Kept s s.nextChunk := ⟨rfl, rfl⟩
  have count (t : State) : Kept t (t.countFrom 0) := ⟨rfl, rfl⟩
  exact (wdbCommand_keeps.of_kept next).bind fun _ t => (wdbCheck_keeps t.resp).bind fun _ _ =>
    (wdbData_keeps buf).bind fun _ t => ((ackLoop_keeps _).of_kept (count t)).bind fun _ _ => .ok ⟨rfl, rfl⟩

theorem writeChunks_keeps (buf : Word) (n : Nat) (first : Bool) : (writeChunks buf n first s).Keeps s := by
  induction n generalizing s first with
  | zero => exact .ok ⟨rfl, rfl⟩
  | succ n ih =>
    unfold writeChunks
    split
    · exact .ok ⟨rfl, rfl⟩
    · exact (interchunk_keeps first).bind fun _ _ => (writeChunk_keeps buf).bind fun _ _ => ih false

/-- R190: once its registers are set up, a block write only reads the buffer. -/
theorem writeBlockBody_keeps (buf len : Word) : (writeBlockBody buf len s).Keeps (s.startWrite len) :=
  openChannel_keeps.bind fun _ _ => (writeChunks_keeps buf len.toNat true).after fun _ =>
    closeChannel_keeps.of_kept (.goto _)

/-! ### Wakeup -/

theorem wakeClock_keeps : (wakeClock s).Keeps s :=
  .ite ((pause_keeps.of_kept (.goto _)).bind fun _ _ => (delayTicks_keeps _).of_kept ⟨rfl, rfl⟩) (.ok ⟨rfl, rfl⟩)

theorem wakeArm_keeps : (wakeArm s).Keeps s := .ite (pause_keeps.bind fun _ _ => .ok ⟨rfl, rfl⟩) (.ok ⟨rfl, rfl⟩)

theorem wakeToggle_keeps : (wakeToggle s).Keeps s := by
  unfold wakeToggle
  split
  · exact pause_keeps.bind fun _ _ => .ok ⟨rfl, rfl⟩
  · rcases callWake_cases s with ⟨v, t, h, p⟩ | ⟨e, t, h, p⟩ | ⟨t, h, p⟩ | h <;> rw [h]
    · exact .ok ⟨p.mem, p.reqlen⟩
    · exact .err ⟨p.mem, p.reqlen⟩
    · exact p.kept_buffers
    · trivial

theorem wakeSignal_keeps : (wakeSignal s).Keeps s := by
  have signaling : Kept s ((s.goto .wk2Signal).enter .signaling) := ⟨rfl, rfl⟩
  exact (wakeArm_keeps.of_kept signaling).bind fun _ _ => wakeToggle_keeps

theorem wakeWaited_keeps (seen : Bool) : (wakeWaited seen s).Keeps s := .ite (.ok ⟨rfl, rfl⟩) (.err ⟨rfl, rfl⟩)

theorem wakeReadiness_keeps : (wakeReadiness s).Keeps s :=
  .ite ((completionWait_keeps _).bind fun seen _ => wakeWaited_keeps seen) (delayTicks_keeps _)

theorem wakeAwait_keeps : (wakeAwait s).Keeps s := wakeReadiness_keeps.of_kept ⟨rfl, rfl⟩

theorem statusCommand_keeps (w : Word) : (statusCommand w s).Keeps s :=
  (execProcedure_keeps w .pri).bind fun _ _ => .ite (.ok ⟨rfl, rfl⟩) (.err ⟨rfl, rfl⟩)

theorem wakeConfirm_keeps : (wakeConfirm s).Keeps s := .ite ((statusCommand_keeps _).of_kept (.goto _)) (.ok ⟨rfl, rfl⟩)

theorem syncIntrCommand_keeps (w : Word) : (syncIntrCommand w s).Keeps s :=
  (execProcedure_keeps w .pri).bind fun _ _ => .ok ⟨rfl, rfl⟩

theorem wakeIrq_keeps : (wakeIrq s).Keeps s := .ite ((syncIntrCommand_keeps _).of_kept (.goto _)) (.ok ⟨rfl, rfl⟩)

theorem syncCommand_keeps (w : Word) : (syncCommand w s).Keeps s :=
  (execProcedure_keeps w .pri).bind fun _ _ => .ite (.ok ⟨rfl, rfl⟩) (.err ⟨rfl, rfl⟩)

theorem wakeEcho_keeps : (wakeEcho s).Keeps s := (syncCommand_keeps _).of_kept ⟨rfl, rfl⟩

theorem wakeAttempt_keeps : (wakeAttempt s).Keeps s :=
  wakeClock_keeps.bind fun _ _ => wakeSignal_keeps.bind fun _ _ => wakeAwait_keeps.bind fun _ _ =>
    wakeConfirm_keeps.bind fun _ _ => wakeIrq_keeps.bind fun _ _ => wakeEcho_keeps

theorem muteCommand_keeps (w : Word) : (muteCommand w s).Keeps s := by
  have h : (execProcedure w .pri s).Keeps s := execProcedure_keeps w .pri
  unfold muteCommand
  cases hr : execProcedure w .pri s <;> rw [hr] at h
  case ok v t => exact .ok h
  case err e t => exact .err ⟨h.mem, h.reqlen⟩
  case hung t => exact h
  case stop r => trivial

theorem wakeReady_keeps : (wakeReady s).Keeps s := by
  have ready : Kept s ((s.goto .wk6Mute).enter .ready) := ⟨rfl, rfl⟩
  exact ((muteCommand_keeps _).of_kept ready).bind fun _ _ => .ok ⟨rfl, rfl⟩

theorem wakeLoop_keeps (n : Nat) : (wakeLoop n s).Keeps s := by
  induction n generalizing s with
  | zero => exact .err ⟨rfl, rfl⟩
  | succ n ih =>
    have h : (wakeAttempt s.startAttempt).Keeps s := wakeAttempt_keeps.of_kept ⟨rfl, rfl⟩
    unfold wakeLoop
    cases hr : wakeAttempt s.startAttempt <;> rw [hr] at h
    case ok t => exact wakeReady_keeps.of_kept h
    case err e t =>
      have failed : Kept s (t.failAttempt e) := ⟨h.mem, h.reqlen⟩
      exact .ite (.err ⟨h.mem, h.reqlen⟩) (ih.of_kept failed)
    case hung t => exact h
    case stop r => trivial

theorem wakeupBody_keeps : (wakeupBody s).Keeps s := (wakeLoop_keeps _).of_kept ⟨rfl, rfl⟩

/-! ### The wire rows -/

theorem noValue_keeps {r : Res Unit} (h : r.Keeps s) : (noValue r).Keeps s := h.bind fun _ _ => .ok ⟨rfl, rfl⟩

theorem responseValue_keeps {r : Res (Option Word)} (h : r.Keeps s) : (responseValue r).Keeps s :=
  h.bind fun _ _ => .ok ⟨rfl, rfl⟩

theorem sendCommand_keeps (w : Word) : (sendCommand w s).Keeps s :=
  (execProcedure_keeps w .pri).bind fun _ _ => .ok ⟨rfl, rfl⟩

theorem wdbAckBody_keeps (a : Word) : (wdbAckBody a s).Keeps s := by
  have counted : Kept s (s.counted.takeAck a) := by rw [State.counted_eq]; exact ⟨rfl, rfl⟩
  unfold wdbAckBody
  split
  · exact .ok ⟨counted.mem, counted.reqlen⟩
  · exact .err counted
  · exact noValue_keeps ((delayTicks_keeps _).of_kept ⟨counted.mem, counted.reqlen⟩)

end Sys2Proof.Machine
end

section
/-!
PROOFS. Family 20_memory.md: from the bodies to the instructions, and the statements: a block read stays within the caller's
bytes (O40), and nothing else writes a buffer (O41).
-/

namespace Sys2Proof.Machine

variable {s t : State} {M : List Host.Cell → Prop}

/-! ### The gate and the operations -/

theorem begun_buffers {body : State → Res (Option Value)} (hb : ∀ u, M u.mem → (body u).Buffers M) (hm : M s.mem) :
    (begun body s).Buffers M :=
  pause_keeps.bind_buffers hm fun _ t k => hb t (k.buffers hm)

theorem unlockStep_keeps (q : Nat) : (unlockStep q s).Keeps s := pause_keeps.bind fun _ _ => .ok ⟨rfl, rfl⟩

theorem releaseSteps_keeps (q : Nat) : (releaseSteps q s).Keeps s :=
  pause_keeps.bind fun _ _ => (unlockStep_keeps q).of_kept ⟨rfl, rfl⟩

/-- R171: what the gate does around a body is beside the buffers. -/
theorem gate_buffers {q : Nat} {body : State → Res (Option Value)} (hb : ∀ u, M u.mem → (body u).Buffers M)
    (hm : M s.mem) : (gate q body s).Buffers M := by
  refine pause_keeps.bind_buffers hm fun _ t k => (callResume_keeps (s := t.grant q)).bind_buffers (k.buffers hm) ?_
  intro ok u k'
  have hu : M u.mem := k'.buffers (k.buffers hm)
  split
  · exact (begun_buffers (s := { u with pvote := true }) hb hu).after fun _ => releaseSteps_keeps q
  · exact ((unlockStep_keeps q).bind fun _ _ => .err ⟨rfl, rfl⟩).buffers hu

/-- R270: the end of an operation is beside the buffers. -/
theorem finish_buffers {q : Nat} {r : Res (Option Value)} (hr : r.Buffers M) (h : finish q r = .next t) : M t.mem := by
  rcases finish_next h with ⟨v, u, rfl, rfl⟩ | ⟨e, u, rfl, rfl⟩ | rfl
  · exact hr
  · exact hr
  · exact hr

section
variable {body : State → Res (Option Value)} (hb : ∀ u, M u.mem → (body u).Buffers M) (hm : M s.mem)
include hb hm

theorem codecOperation_buffers {q : Nat} (h : codecOperation q body s = .next t) : M t.mem :=
  finish_buffers (begun_buffers hb hm) (codecOperation_next h).2

theorem unlockedOperation_buffers {q : Nat} (h : unlockedOperation q body s = .next t) : M t.mem :=
  finish_buffers (begun_buffers hb hm) (unlockedOperation_next h).2

theorem wireOperation_buffers (h : wireOperation body s = .next t) : M t.mem :=
  have ⟨_, _, hf⟩ := wireOperation_next h
  finish_buffers (begun_buffers hb hm) hf

theorem ownWord_buffers {own : Bool} (h : ownWord own body s = .next t) : M t.mem :=
  have ⟨_, _, _, hf⟩ := ownWord_next h
  finish_buffers (begun_buffers hb hm) hf

theorem lockedOperation_buffers {q : Nat} {self : Frame} (h : lockedOperation q self body s = .next t) : M t.mem := by
  rcases lockedOperation_next h with ⟨-, hf⟩ | ⟨_, _, _, _, rfl⟩
  · exact finish_buffers (gate_buffers hb hm) hf
  · exact hm
end

/-- R62, R190: an instruction other than a block read keeps every property of the buffers. -/
theorem exec_buffers {i : Instr} (hi : ∀ q buf len id, i ≠ .readBlock q buf len id ∧ i ≠ .readBlockLocked q buf len id)
    (hm : M s.mem) (h : exec i s = .next t) : M t.mem := by
  cases i with
  | execute q w => exact unlockedOperation_buffers (fun _ => (executeBody_keeps w).buffers) hm h
  | readRegister q id => exact unlockedOperation_buffers (fun _ => (readRegisterBody_keeps id).buffers) hm h
  | writeRegister q id value => exact unlockedOperation_buffers (fun _ => (writeRegisterBody_keeps id value).buffers) hm h
  | writeBlock q buf len => exact unlockedOperation_buffers (fun _ => (writeBlockBody_keeps buf len).buffers) hm h
  | readBlock q buf len id => exact absurd rfl (hi q buf len id).1
  | wakeup q => exact unlockedOperation_buffers (fun _ => wakeupBody_keeps.buffers) hm h
  | encode q id value dir => exact codecOperation_buffers (fun _ => (encodeBody_keeps id value dir).buffers) hm h
  | decode q id => exact codecOperation_buffers (fun _ => (decodeBody_keeps id).buffers) hm h
  | executeLocked q w => exact lockedOperation_buffers (fun _ => (executeBody_keeps w).buffers) hm h
  | readRegisterLocked q id => exact lockedOperation_buffers (fun _ => (readRegisterBody_keeps id).buffers) hm h
  | writeRegisterLocked q id value =>
    exact lockedOperation_buffers (fun _ => (writeRegisterBody_keeps id value).buffers) hm h
  | writeBlockLocked q buf len => exact lockedOperation_buffers (fun _ => (writeBlockBody_keeps buf len).buffers) hm h
  | readBlockLocked q buf len id => exact absurd rfl (hi q buf len id).2
  | wakeupLocked q => exact lockedOperation_buffers (fun _ => wakeupBody_keeps.buffers) hm h
  | reservedE q => cases h
  | reservedF q => cases h
  | cw32Generic w => exact wireOperation_buffers (fun _ => (executeBody_keeps w).buffers) hm h
  | wdbCmd opcode size =>
    have chunk (u : State) : Kept u { u.goto .wbCmd with chunk := size } := ⟨rfl, rfl⟩
    exact ownWord_buffers (fun u => (responseValue_keeps (wdbCommand_keeps.of_kept (chunk u))).buffers) hm h
  | wdbResp r => exact wireOperation_buffers (fun _ => (noValue_keeps (wdbCheck_keeps r)).buffers) hm h
  | wdbAck a => exact wireOperation_buffers (fun _ => (wdbAckBody_keeps a).buffers) hm h
  | rdbCmd opcode id => exact ownWord_buffers (fun _ => (responseValue_keeps (rdbCommand_keeps id)).buffers) hm h
  | rdbResp r => exact wireOperation_buffers (fun _ => (noValue_keeps (rdbCheck_keeps r)).buffers) hm h
  | statusQuery w => exact ownWord_buffers (fun _ => (noValue_keeps ((statusCommand_keeps w).of_kept (.goto _))).buffers) hm h
  | syncIntr w => exact ownWord_buffers (fun _ => (noValue_keeps ((sendCommand_keeps w).of_kept (.goto _))).buffers) hm h
  | sync w => exact ownWord_buffers (fun _ => (noValue_keeps ((syncCommand_keeps w).of_kept (.goto _))).buffers) hm h
  | smoothMuteZero w => exact ownWord_buffers (fun _ => (noValue_keeps ((sendCommand_keeps w).of_kept (.goto _))).buffers) hm h
  | regMsgLane w => exact wireOperation_buffers (fun _ => (noValue_keeps (sendCommand_keeps w)).buffers) hm h

/-- Settles O41: to be the memory of the start is a property of the buffers. -/
theorem onlyReadBlockWritesMemory : Obligations.OnlyReadBlockWritesMemory := fun s _ _ hi h =>
  exec_buffers (M := (· = s.mem)) hi rfl h

/-! ### The data of a block read -/

section
variable {buf : Word} {a n : Nat} {v : Byte}

/-- The bytes of a buffer lie one after the other. -/
theorem bufferAddress_eq (buf : Word) (off : Nat) : bufferAddress buf off = bufferAddress buf 0 + off := by
  rw [bufferAddress, bufferAddress, Nat.add_zero]

/-- The address lies before the buffer, or at or after its byte `n`. -/
def OutsideBuffer (buf : Word) (n a : Nat) : Prop := a < bufferAddress buf 0 ∨ bufferAddress buf n ≤ a

/-- Address `a` reads as `v`. -/
def ByteIs (a : Nat) (v : Byte) (m : List Host.Cell) : Prop := readByte m a = v

/-- R219: bytes that end within the first `n` of a buffer change nothing outside them. -/
theorem ByteIs.writeBytes {m : List Host.Cell} {off : Nat} {bytes : List Byte} (h : ByteIs a v m)
    (ha : OutsideBuffer buf n a) (hn : off + bytes.length ≤ n) :
    ByteIs a v (writeBytes m (bufferAddress buf off) bytes) := by
  have apart : a < bufferAddress buf off ∨ bufferAddress buf off + bytes.length ≤ a := by
    rw [bufferAddress_eq buf off]
    rw [OutsideBuffer, bufferAddress_eq buf n] at ha
    omega
  exact (readByte_writeBytes_other apart).trans h

/-- R215: `XFER` is at most the requested length. -/
theorem transferLength_le (reqlen : Word) (d : Half) : (transferLength reqlen d).toNat ≤ reqlen.toNat := by
  unfold transferLength minLength
  split
  · exact le_refl _
  · next h => exact le_of_lt (BitVec.not_le.1 h)

/-- R217: an increment ends at or before byte `XFER` of the buffer. -/
theorem moved_add_increment_le (h : s.moved.toNat < s.xfer.toNat) : s.moved.toNat + increment s ≤ s.xfer.toNat := by
  unfold increment
  omega

/-- R216, R217: the main read writes below byte `XFER` of the buffer only. -/
theorem readLoop_buffers (k : Nat) (hm : ByteIs a v s.mem) (hx : s.xfer.toNat ≤ n) (ha : OutsideBuffer buf n a) :
    (readLoop buf k s).Buffers (ByteIs a v) := by
  induction k generalizing s with
  | zero => exact hm
  | succ k ih =>
    unfold readLoop
    split
    · next hlt =>
      rcases callHbwRead_cases (increment s) (s.goto .rbData) with ⟨bytes, t, h, p, hlen⟩ | ⟨e, t, h, p⟩ | ⟨t, h, p⟩ | h <;>
        rw [h]
      · have hmem : ByteIs a v t.mem := p.kept_buffers.buffers hm
        have fits : t.moved.toNat + bytes.length ≤ n := by
          rw [p.moved, hlen]
          exact le_trans (moved_add_increment_le hlt) hx
        exact ih (hmem.writeBytes ha fits) (by rw [State.place_xfer, State.emit_xfer, p.xfer]; exact hx)
      · exact p.kept_buffers.buffers hm
      · exact p.kept_buffers.buffers hm
      · trivial
    · exact hm

theorem readTransfer_buffers (id : Half) (hm : ByteIs a v s.mem) (ha : OutsideBuffer buf s.reqlen.toNat a) :
    (readTransfer buf id s).Buffers (ByteIs a v) := by
  refine (rdbCommand_keeps id).bind_buffers hm fun _ t k => ?_
  rcases rdbCheck_cases t.resp t with ⟨u, h, k', hx⟩ | ⟨e, u, h, k'⟩ <;> rw [h]
  · have bound : u.xfer.toNat ≤ s.reqlen.toNat := by
      rw [hx, k.reqlen]
      exact transferLength_le _ _
    exact (readLoop_buffers _ ((k.trans k').buffers hm) bound ha).bind fun _ _ hm =>
      (drain_keeps.bind fun _ _ => .ok ⟨rfl, rfl⟩).buffers hm
  · exact (k.trans k').buffers hm

/-- R211: the fast path answers at most as many bytes as were asked for. -/
theorem readFast_buffers {len : Word} (id : Half) (hm : ByteIs a v s.mem) (ha : OutsideBuffer buf len.toNat a) :
    (readFast buf len id s).Buffers (ByteIs a v) := by
  unfold readFast
  rcases callRdb_cases len id (s.goto .rbFast) with ⟨bytes, t, h, p, hlen⟩ | ⟨e, t, h, p⟩ | ⟨t, h, p⟩ | h <;> rw [h]
  · exact ByteIs.writeBytes (p.kept_buffers.buffers hm) ha (by omega)
  · exact p.kept_buffers.buffers hm
  · exact p.kept_buffers.buffers hm
  · trivial

theorem readBlockBody_buffers {len : Word} (id : Word) (hm : ByteIs a v s.mem) (ha : OutsideBuffer buf len.toNat a) :
    (readBlockBody buf len id s).Buffers (ByteIs a v) := by
  unfold readBlockBody
  split
  · exact readFast_buffers (low id) hm ha
  · refine (openChannel_keeps (s := s.startRead len)).bind_buffers hm fun _ t k => ?_
    have ht : OutsideBuffer buf t.reqlen.toNat a := by rw [k.reqlen]; exact ha
    exact (readTransfer_buffers (low id) (k.buffers hm) ht).after fun _ => closeChannel_keeps.of_kept (.goto _)
end

/-- Settles O40: what an address outside the requested bytes reads as is kept by the body, with the gate around it or not. -/
theorem readBlockStaysInBuffer : Obligations.ReadBlockStaysInBuffer := by
  intro s t q buf len id a h ha
  have body (u : State) (hm : ByteIs a (readByte s.mem a) u.mem) :
      (readBlockBody buf len id u).Buffers (ByteIs a (readByte s.mem a)) := readBlockBody_buffers id hm ha
  rcases h with h | h
  · exact unlockedOperation_buffers body rfl h
  · exact lockedOperation_buffers body rfl h

end Sys2Proof.Machine
end

section
/-!
PROOFS. Family 30_encoding.md: what the decoder accepts is well-formed (O2), six words read as their rows (O3), and the
reserved codes (O31).
-/

namespace Sys2Proof

/-! ### The check of the suppress bit -/

/-- R94, R99: a command word is read as its row where its bit 28 is the one the row fixes. -/
theorem fixSuppress_of_srBit {sr : Bool} {w : Word} (h : srBit w = sr) (i : Instr) : fixSuppress sr w i = .ok i :=
  if_pos h

/-- R94, R99: and rejected where it is not. -/
theorem fixSuppress_of_ne {sr : Bool} {w : Word} (h : srBit w ≠ sr) (i : Instr) :
    fixSuppress sr w i = .error .suppressBit :=
  if_neg h

theorem fixSuppress_eq_ok {sr : Bool} {w : Word} {i j : Instr} :
    fixSuppress sr w i = .ok j ↔ srBit w = sr ∧ i = j := by
  unfold fixSuppress
  split <;> simp [*]

/-! ### What the decoder answers -/

/-- R100: every operation asks one thing of its record, that the requester's number fits. -/
theorem requestOf_wf {op q : Nat} (dir : Direction) (a0 a1 buf : Word) (hq : q < requesterBound) :
    (requestOf op dir q a0 a1 buf).wf = true := by
  unfold requestOf
  split <;> exact decide_eq_true hq

/-- Log entry 2: the requester that an accepted request record names is a 4-byte field. -/
theorem exists_requestOf_of_decodeRequest {bytes : List Byte} {i : Instr} (h : decodeRequest bytes = .ok i) :
    ∃ (op : Nat) (dir : Direction) (q a0 a1 buf : Word), requestOf op dir q.toNat a0 a1 buf = i := by
  unfold decodeRequest at h
  split at h
  · split at h
    · exact ⟨_, _, _, _, _, _, Except.ok.inj h⟩
    · cases h
  · cases h

/-- R94, R99: a wire word is read as a row only with the suppress bit of that row. -/
theorem wireOf_wf {role : Nat} {w : Word} {i : Instr} (h : wireOf role w = .ok i) : i.wf = true := by
  have checked {sr : Bool} {j : Instr} (hj : srBit w = sr → j.wf = true) (h : fixSuppress sr w j = .ok i) :
      i.wf = true := by
    obtain ⟨hw, rfl⟩ := fixSuppress_eq_ok.1 h
    exact hj hw
  match role, h with
  | 0, h | 2, h | 3, h | 5, h | 9, h | 10, h =>
    cases h
    rfl
  | 1, h | 4, h | 6, h | 8, h => exact checked (fun hw => by simp [Instr.wf, hw]) h
  | 7, h => exact checked id h
  | _ + 11, h => cases h

/-- Log entry 2: an accepted wire frame is read by its role. -/
theorem exists_wireOf_of_decodeWire {bytes : List Byte} {i : Instr} (h : decodeWire bytes = .ok i) :
    ∃ (role : Nat) (w : Word), wireOf role w = .ok i := by
  unfold decodeWire at h
  split at h
  · exact ⟨_, _, h⟩
  · cases h

/-- Settles O2: a request by the width of its requester field, a wire word by the check of its suppress bit. -/
theorem decodedIsWellFormed : Obligations.DecodedIsWellFormed := by
  intro f i h
  cases f with
  | hreq bytes =>
    obtain ⟨op, dir, q, a0, a1, buf, rfl⟩ := exists_requestOf_of_decodeRequest h
    exact requestOf_wf dir a0 a1 buf q.isLt
  | wire bytes =>
    obtain ⟨role, w, hw⟩ := exists_wireOf_of_decodeWire h
    exact wireOf_wf hw

/-- Settles O3: the three request records hold their fields byte by byte; of the three wire words the last has `SR = 1`,
which the plain synchronize row does not admit. -/
theorem wordsDecodeAsTheirRows : Obligations.WordsDecodeAsTheirRows := by
  refine ⟨rfl, rfl, rfl, ?blockWrite, ?syncIntr, ?sync⟩
  case blockWrite => exact fixSuppress_of_srBit (sr := false) (w := 0x0A010400) (by decide) (.wdbCmd 0x0A01 0x0400)
  case syncIntr => exact fixSuppress_of_srBit (sr := true) (w := 0x1B000001) (by decide) (.syncIntr 0x1B000001)
  case sync => exact fixSuppress_of_ne (sr := false) (w := 0x1B000001) (by decide) (.sync 0x1B000001)

/-- Settles O31: neither reserved arm looks at the state. -/
theorem reservedCodesAreRefused : Obligations.ReservedCodesAreRefused := fun _ _ => ⟨rfl, rfl⟩

end Sys2Proof
end

section
/-!
PROOFS. Family 30_encoding.md: the command rows of the wire, run by themselves (O47).
-/

namespace Sys2Proof.Machine

/-- The chunk size and the phase bear on nothing else that an answered command leaves. -/
theorem State.answered_goto_chunk (s : State) (p : Phase) (size : Half) (route : Route) (w r : Word) :
    State.answered { s.goto p with chunk := size } route w r = { (s.answered route w r).goto p with chunk := size } := by
  cases hs : srBit w <;> cases hm : s.cmode <;> simp [State.answered, State.goto, hs, hm]

/-- R148: a command without `SR` that is answered reports its response. -/
theorem responseValue_answered {s : State} {route : Route} {w r : Word} {rest : List Input} (hsr : srBit w = false)
    (hi : s.inputs = sendScript s.cmode w r ++ rest) :
    responseValue (execProcedure w route s) =
      .ok (some (.word r)) { s.answered route w r with seq := .execLatch, inputs := rest } := by
  rw [execProcedure_answered hi, hsr]
  rfl

/-- R146: an answered command begins with its answer, so nothing falls before it. -/
theorem calm_of_sendScript {s : State} {w r : Word} {rest : List Input}
    (hi : s.inputs = sendScript s.cmode w r ++ rest) : Calm s.inputs := by
  rw [hi]
  rfl

/-- R193: WDB_CMD carries the configuration's word with its opcode and a chunk of 1 to `MAX_CHUNK` bytes. -/
theorem wdbCmd_own_iff {c : Config} {opcode size : Half} :
    (decide (opcode = c.opcWdb) && decide (1 ≤ size.toNat) && decide (size.toNat ≤ c.maxChunk)) = true ↔
      opcode = c.opcWdb ∧ 1 ≤ size.toNat ∧ size.toNat ≤ c.maxChunk := by
  simp [and_assoc]

/-- Log entry 25: WDB_CMD with another opcode or a chunk out of range is not the configuration's. -/
theorem execWdbCmd_foreign {s : State} {opcode size : Half}
    (h : opcode ≠ s.cfg.opcWdb ∨ size = 0 ∨ s.cfg.maxChunk < size.toNat) :
    execWdbCmd opcode size s = .refused .foreignWord := by
  refine if_neg fun own => ?_
  obtain ⟨ho, hlow, hhigh⟩ := wdbCmd_own_iff.1 own
  rcases h with h | rfl | h
  · exact h ho
  · exact absurd hlow (by decide)
  · omega

/-- Log entry 25: RDB_CMD with another opcode is not the configuration's. -/
theorem execRdbCmd_foreign {s : State} {opcode : Half} (id : Half) (h : opcode ≠ s.cfg.opcRdb) :
    execRdbCmd opcode id s = .refused .foreignWord :=
  if_neg (by simpa using h)

section
variable {s : State} {q : Nat} {w r : Word} {rest : List Input} (hh : s.Holder q)
include hh

/-- R270, R316: a wire row that begins at once and returns leaves what its procedure leaves, and the result. -/
theorem wireOperation_returns {body : State → Res (Option Value)} {v : Option Value} {t : State} {p : Phase}
    (hc : Calm s.inputs) (ht : t.seq = .idle) (hb : body s = .ok v { t with seq := p }) :
    wireOperation body s = .next (t.returned q (HRes.ofValue v)) := by
  rw [wireOperation_holder hh, begun_calm hc, hb]
  exact congrArg Host.Outcome.next (endOperation_eq_returned ht p q _)

theorem State.Holder.answered_idle (route : Route) (w r : Word) : (s.answered route w r).seq = .idle :=
  (s.answered_seq route w r).trans hh.ready.idle

/-- R91, R149: a generic word reports its response, if it has one. -/
theorem execCw32Generic_answered (hi : s.inputs = sendScript s.cmode w r ++ rest) :
    execCw32Generic w s = .next (State.returned { s.answered .pri w r with inputs := rest } q
      (HRes.ofValue (if srBit w then none else some (.word r)))) := by
  refine wireOperation_returns hh (calm_of_sendScript hi) (hh.answered_idle .pri w r)
    (p := if srBit w then .execSend else .execLatch) ?_
  rw [executeBody, execProcedure_answered hi, Res.bind_ok, apply_ite (Option.map Value.word)]
  rfl

/-- R96, R150: a lane of a register message reports none. -/
theorem execRegMsgLane_answered (hi : s.inputs = sendScript s.cmode w r ++ rest) :
    execRegMsgLane w s =
      .next (State.returned { s.answered .pri w r with inputs := rest } q (HRes.ofValue none)) := by
  refine wireOperation_returns hh (calm_of_sendScript hi) (hh.answered_idle .pri w r)
    (p := if srBit w then .execSend else .execLatch) ?_
  rw [sendCommand, execProcedure_answered hi]
  rfl

/-- R193: the block-write command of a lawful chunk goes out on `HBW` and notes the chunk. -/
theorem execWdbCmd_answered {size : Half} (hlow : 1 ≤ size.toNat) (hhigh : size.toNat ≤ s.cfg.maxChunk)
    (hi : s.inputs = sendScript s.cmode (wdbWord s.cfg size) r ++ rest) :
    execWdbCmd s.cfg.opcWdb size s = .next (State.returned { s.answered .hbw (wdbWord s.cfg size) r with
      chunk := size, inputs := rest } q (HRes.ofValue (some (.word r)))) := by
  have hsr : srBit (wdbWord s.cfg size) = false :=
    (srBit_wordOfHalves _ _).trans (taken_of_configOk hh.ready.lawful).wdb
  rw [execWdbCmd, ownWord, if_pos (wdbCmd_own_iff.2 ⟨rfl, hlow, hhigh⟩)]
  have sent := responseValue_answered (s := { s.goto .wbCmd with chunk := size }) (route := .hbw) hsr hi
  rw [State.answered_goto_chunk] at sent
  exact wireOperation_returns hh (calm_of_sendScript hi) (hh.answered_idle .hbw _ r) sent

/-- R212: the block-read command goes out on `HBW`. -/
theorem execRdbCmd_answered {id : Half} (hi : s.inputs = sendScript s.cmode (rdbWord s.cfg id) r ++ rest) :
    execRdbCmd s.cfg.opcRdb id s = .next (State.returned { s.answered .hbw (rdbWord s.cfg id) r with inputs := rest } q
      (HRes.ofValue (some (.word r)))) := by
  have hsr : srBit (rdbWord s.cfg id) = false :=
    (srBit_wordOfHalves _ _).trans (taken_of_configOk hh.ready.lawful).rdb
  rw [execRdbCmd, ownWord, if_pos (decide_eq_true rfl)]
  have sent := responseValue_answered (s := s.goto .rbCmd) (route := .hbw) hsr hi
  rw [State.answered_goto] at sent
  exact wireOperation_returns hh (calm_of_sendScript hi) (hh.answered_idle .hbw _ r) sent
end

/-- Settles O47: one EXEC per row, and a block command that is not the configuration's stopped before it. -/
theorem commandRowsSendTheirWord : Obligations.CommandRowsSendTheirWord := by
  intro s q w r size id rest hh
  exact ⟨fun hi => ⟨execCw32Generic_answered hh hi, execRegMsgLane_answered hh hi⟩,
    fun hi hlow hhigh => execWdbCmd_answered hh hlow hhigh hi,
    fun hi => execRdbCmd_answered hh hi,
    fun _ => ⟨execWdbCmd_foreign, execRdbCmd_foreign id⟩⟩

end Sys2Proof.Machine
end

section
/-!
PROOFS. Family 40_codec.md, the layer beneath and the mask itself (O10): the mask of a field, and what shifting a field into
its lane and back does.
-/

namespace Sys2Proof.Machine

/-! ### The mask -/

/-- R10: the exponent of the mask is one for which `value_max` has room. -/
theorem lt_two_pow_ceilLog2 (v : Word) : v.toNat < 2 ^ ceilLog2 (v.toNat + 1) :=
  leastExponent_le (k := 0) v.isLt

/-- A field of a lane has at most 32 bits. -/
theorem ceilLog2_le (n : Nat) : ceilLog2 n ≤ 32 := (leastExponent_range n 32 0).trans_eq (Nat.zero_add 32)

/-- R10: no smaller exponent has room for `n` values. -/
theorem two_pow_lt_of_lt_ceilLog2 {n j : Nat} (h : j < ceilLog2 n) : 2 ^ j < n := leastExponent_least j.zero_le h

/-- R122: the mask as a number, which 32 bits hold. -/
theorem fieldMask_toNat (v : Word) : (fieldMask v).toNat = 2 ^ ceilLog2 (v.toNat + 1) - 1 := by
  have hpow : 2 ^ ceilLog2 (v.toNat + 1) ≤ 2 ^ 32 := Nat.pow_le_pow_right Nat.two_pos (ceilLog2_le _)
  exact (BitVec.toNat_ofNat _ 32).trans (Nat.mod_eq_of_lt (by omega))

/-- Settles O10: the exponent is the one the search for the least finds. -/
theorem maskIsLeastAllOnes : Obligations.MaskIsLeastAllOnes := by
  intro v
  refine ⟨ceilLog2 (v.toNat + 1), ceilLog2_le _, fieldMask_toNat v, Nat.le_sub_one_of_lt (lt_two_pow_ceilLog2 v),
    fun j hj => le_of_not_gt fun hlt => ?_⟩
  have hsmall : 2 ^ j < v.toNat + 1 := two_pow_lt_of_lt_ceilLog2 hlt
  have hpos : 0 < 2 ^ j := Nat.two_pow_pos j
  omega

/-- R122: the mask leaves a value of at most `value_max` as it is. -/
theorem and_fieldMask_of_le {value valueMax : Word} (h : value ≤ valueMax) : value &&& fieldMask valueMax = value := by
  apply BitVec.eq_of_toNat_eq
  rw [BitVec.toNat_and, fieldMask_toNat]
  exact Nat.and_two_pow_sub_one_of_lt_two_pow (lt_of_le_of_lt h (lt_two_pow_ceilLog2 valueMax))

/-- R122: such a value is at most the mask. -/
theorem le_fieldMask {value valueMax : Word} (h : value ≤ valueMax) : value.toNat ≤ (fieldMask valueMax).toNat := by
  rw [fieldMask_toNat]
  exact Nat.le_sub_one_of_lt (lt_of_le_of_lt h (lt_two_pow_ceilLog2 valueMax))

/-! ### A field in its lane -/

/-- R127: where the shift drops no bit of a word, the shift back gives it again. -/
theorem shiftLeft_ushiftRight_of_fits {w : Word} {n : Nat} (h : w.toNat * 2 ^ n < 2 ^ 32) : w <<< n >>> n = w := by
  apply BitVec.eq_of_toNat_eq
  rw [BitVec.toNat_ushiftRight, BitVec.toNat_shiftLeft, Nat.mod_eq_of_lt (by rwa [Nat.shiftLeft_eq]),
    Nat.shiftLeft_shiftRight]

/-- R129 (c), (d): what a lawful descriptor says of its field. -/
theorem descriptorLawful_field {d : Descriptor} (h : descriptorLawful d = true) :
    (descriptorMask d).toNat * 2 ^ d.valueShift.val < 2 ^ 32 ∧
      mergeLane d &&& (descriptorMask d <<< d.valueShift.val) = 0 := by
  simp only [descriptorLawful, Bool.and_eq_true, decide_eq_true_eq] at h
  exact h.1

/-- R129 (d): the template of a lawful descriptor reads as 0 in the field. -/
theorem valueOf_mergeLane {d : Descriptor} (h : descriptorLawful d = true) : valueOf d (mergeLane d) = 0 := by
  obtain ⟨hfits, hzero⟩ := descriptorLawful_field h
  calc valueOf d (mergeLane d)
    _ = mergeLane d >>> d.valueShift.val &&& descriptorMask d <<< d.valueShift.val >>> d.valueShift.val := by
        rw [shiftLeft_ushiftRight_of_fits hfits, valueOf]
    _ = (mergeLane d &&& descriptorMask d <<< d.valueShift.val) >>> d.valueShift.val :=
        (BitVec.ushiftRight_and_distrib _ _ _).symm
    _ = 0 := by rw [hzero]; exact BitVec.zero_ushiftRight

/-- R129 (c): the shifted field of a write gives the value back. -/
theorem valueOf_fieldOf {d : Descriptor} {value : Word} (h : descriptorLawful d = true) (hv : value ≤ d.valueMax) :
    valueOf d (fieldOf d value) = value := by
  have hmask : value &&& descriptorMask d = value := and_fieldMask_of_le hv
  have hfits : value.toNat * 2 ^ d.valueShift.val < 2 ^ 32 :=
    lt_of_le_of_lt (Nat.mul_le_mul_right _ (le_fieldMask hv)) (descriptorLawful_field h).1
  rw [valueOf, fieldOf, hmask, shiftLeft_ushiftRight_of_fits hfits, hmask]

/-- A field is read bit by bit. -/
theorem valueOf_or (d : Descriptor) (a b : Word) : valueOf d (a ||| b) = valueOf d a ||| valueOf d b := by
  simp only [valueOf, BitVec.ushiftRight_or_distrib, BitVec.and_or_distrib_right]

/-- R130: the field merged into the template of a lawful descriptor gives the value back. -/
theorem valueOf_merged {d : Descriptor} {value : Word} (h : descriptorLawful d = true) (hv : value ≤ d.valueMax) :
    valueOf d (mergeLane d ||| fieldOf d value) = value := by
  rw [valueOf_or, valueOf_mergeLane h, valueOf_fieldOf h hv]
  exact BitVec.zero_or

end Sys2Proof.Machine
end

section
/-!
PROOFS. Family 40_codec.md: ENCODE (O9), DECODE (O11), and the one after the other (O12).
-/

namespace Sys2Proof.Machine

/-! ### An operation that needs no lock -/

section
variable {s t : State} {q : Nat} {body : State → Res (Option Value)} {p : Phase}
  (hr : s.Ready q) (hc : Calm s.inputs) (ht : t.seq = .idle)
include hr hc ht

/-- R270, R316: one that begins at once and returns leaves what its procedure leaves, and the result. -/
theorem codecOperation_returns {v : Option Value} (hb : body s = .ok v { t with seq := p }) :
    codecOperation q body s = .next (t.returned q (HRes.ofValue v)) := by
  rw [codecOperation_ready hr, begun_calm hc, hb]
  exact congrArg Host.Outcome.next (endOperation_eq_returned ht p q _)

/-- R270, R316: one that begins at once and fails leaves what its procedure leaves, and the error. -/
theorem codecOperation_fails {e : Err} (hb : body s = .err e { t with seq := p }) :
    codecOperation q body s = .next (t.returned q (HRes.ofErr e)) := by
  rw [codecOperation_ready hr, begun_calm hc, hb]
  exact congrArg Host.Outcome.next (endOperation_eq_returned ht p q _)
end

/-! ### The message of a register access -/

section
variable {d : Descriptor} (hlen : d.messageLength = 4 ∨ d.messageLength = 8) (s : State) (value : Word)
include hlen

/-- R123, R125: in the read direction the listing builds the read template. -/
theorem message_read : s.message (messageLane0 d value .read) (messageLane1 d value .read) d.messageLength =
    s.readMessage d := by
  rcases hlen with h | h <;>
    simp [State.readMessage, messageLane0, messageLane1, templateLane0, templateLane1, mergedField, h]

/-- R123, R124: in the write direction it builds the write template with the field merged into its one lane. -/
theorem message_write : s.message (messageLane0 d value .write) (messageLane1 d value .write) d.messageLength =
    s.writeMessage d value := by
  rcases hlen with h | h <;>
    simp [State.writeMessage, messageLane0, messageLane1, templateLane0, templateLane1, mergedField, fieldOf,
      descriptorMask, h]

/-- R124, R128: the lane DECODE reads is the one a write merges the field into. -/
theorem writtenLane_eq : (if d.messageLength = 8 then messageLane1 d value .write else messageLane0 d value .write) =
    mergeLane d ||| fieldOf d value := by
  rcases hlen with h | h <;>
    simp [mergeLane, messageLane0, messageLane1, templateLane0, templateLane1, mergedField, h]
end

/-! ### ENCODE -/

section
variable {s : State} {q : Nat} {id : Word} (hr : s.Ready q) (hc : Calm s.inputs)
include hr hc

/-- R120: ENCODE of an id of the table leaves its message in `WBUF`, and reports it. -/
theorem execEncode_some {d : Descriptor} {m : State} (value : Word) {dir : Direction} (hd : lookup s.cfg id = some d)
    (hm : s.message (messageLane0 d value dir) (messageLane1 d value dir) d.messageLength = m) :
    execEncode q id value dir s =
      .next (m.returned q (HRes.ofValue (some (.message m.x0 m.x1 d.messageLength)))) := by
  subst hm
  refine codecOperation_returns (p := .encode)
    (t := s.message (messageLane0 d value dir) (messageLane1 d value dir) d.messageLength) hr hc hr.idle ?_
  rw [encodeBody, encodeMessage_some hd]
  rfl

/-- R121: ENCODE beyond the table. -/
theorem execEncode_none (value : Word) (dir : Direction) (ht : lookup s.cfg id = none) :
    execEncode q id value dir s = .next (s.returned q (HRes.ofErr (.invalidAddress id))) := by
  refine codecOperation_fails (p := .encode) hr hc hr.idle ?_
  rw [encodeBody, encodeMessage_none ht]
  rfl
end

/-- Settles O9: the message the listing builds is the template of its direction, with the field of a write. -/
theorem encodeBuildsMessage : Obligations.EncodeBuildsMessage := by
  intro s q id value hr hc
  refine ⟨fun d hd => ?_, fun ht dir => execEncode_none hr hc value dir (lookup_eq_none.2 ht)⟩
  have hlen := messageLength_cases hr.lawful hd
  exact ⟨execEncode_some hr hc value hd (message_read hlen s value),
    execEncode_some hr hc value hd (message_write hlen s value)⟩

/-! ### DECODE -/

/-- R128: DECODE beyond the table. -/
theorem decodeBody_none {id : Word} {s : State} (h : lookup s.cfg id = none) :
    decodeBody id s = .err (.invalidAddress id) s := by
  simp [decodeBody, decodeMessage, h]

/-- R128: DECODE of a message in `WBUF`. -/
theorem decodeBody_written {id : Word} {s : State} {d : Descriptor} (h : lookup s.cfg id = some d)
    (hw : s.wbufSet = true) :
    decodeBody id s = .ok (some (.word (valueOf d (if d.messageLength = 8 then s.x1 else s.x0)))) s := by
  simp [decodeBody, decodeMessage, h, hw]

/-- R300 (log entry 28): DECODE before anything has written `WBUF`. -/
theorem decodeBody_unwritten {id : Word} {s : State} {d : Descriptor} (h : lookup s.cfg id = some d)
    (hw : s.wbufSet = false) :
    decodeBody id s = .ok (some (.word (valueOf d (Config.freeLane s.freeCount))))
      { s with freeCount := s.freeCount + 1 } := by
  simp [decodeBody, decodeMessage, h, hw]

/-- R128: DECODE of an id of the table, of a message in `WBUF`. -/
theorem execDecode_written {s : State} {q : Nat} {id v : Word} {d : Descriptor} (hr : s.Ready q) (hc : Calm s.inputs)
    (hd : lookup s.cfg id = some d) (hw : s.wbufSet = true)
    (hv : valueOf d (if d.messageLength = 8 then s.x1 else s.x0) = v) :
    execDecode q id s = .next (s.returned q (HRes.ofValue (some (.word v)))) := by
  subst hv
  exact codecOperation_returns hr hc hr.idle (decodeBody_written hd hw)

/-- Settles O11: DECODE stays in its phase, and only the free lane is counted. -/
theorem decodeTakesField : Obligations.DecodeTakesField := by
  intro s q id hr hc
  refine ⟨fun d hd => ⟨fun hw => ?written, fun hw => ⟨Config.freeLane s.freeCount, ?unwritten⟩⟩, fun ht => ?beyond⟩
  case written => exact execDecode_written hr hc hd hw rfl
  case unwritten =>
    exact codecOperation_returns (t := { s with freeCount := s.freeCount + 1 }) hr hc hr.idle
      (decodeBody_unwritten hd hw)
  case beyond => exact codecOperation_fails hr hc hr.idle (decodeBody_none (lookup_eq_none.2 ht))

/-! ### DECODE after ENCODE -/

/-- R129: a well-formed table has only lawful descriptors. -/
theorem descriptorLawful_of_tableWellFormed {t : List Descriptor} {i : Nat} {d : Descriptor}
    (h : tableWellFormed t = true) (hd : t[i]? = some d) : descriptorLawful d = true := by
  have hboth := tableAll_getElem h hd
  simp only [Bool.and_eq_true] at hboth
  exact hboth.2

/-- Settles O12: the lane that DECODE reads is the merged one, whose field is the value. -/
theorem decodeUndoesEncode : Obligations.DecodeUndoesEncode := by
  intro s q id value d hr hc hwf hd hv
  have hlawful : descriptorLawful d = true := descriptorLawful_of_tableWellFormed hwf hd
  have hlane : valueOf d (if d.messageLength = 8 then messageLane1 d value .write else messageLane0 d value .write) =
      value := by
    rw [writtenLane_eq (messageLength_cases hr.lawful hd), valueOf_merged hlawful hv]
  exact ⟨_, execEncode_some hr hc value hd rfl, execDecode_written hr hc hd rfl hlane⟩

end Sys2Proof.Machine
end

section
/-!
PROOFS. Family 41_command_engine.md: what an EXECUTE that fails has changed (O18).
-/

namespace Sys2Proof.Machine

variable {s t u : State}

/-! ### The relation -/

/-- R157: of the Session, nothing but `SEQ`, the flags of a wait and the timeout timer has moved; besides them only what the
outside world moves, and the trace. -/
def SessionKept (s t : State) : Prop :=
  t = { s with
    seq := t.seq, pend := t.pend, cseen := t.cseen, tmr := t.tmr, clock := t.clock, now := t.now,
    requests := t.requests, inputs := t.inputs, trace := t.trace }

theorem SessionKept.trans (h : SessionKept s t) (k : SessionKept t u) : SessionKept s u := by
  unfold SessionKept at h k
  rw [h] at k
  exact k

theorem SessionKept.results (h : SessionKept s t) : t.results = s.results := by rw [h]

theorem Passed.sessionKept (p : Passed s t) : SessionKept s t := by
  unfold SessionKept
  rw [p.frame]

/-- What passes in a completion wait, its timer set aside. -/
theorem Passed.sessionKept_wait (p : Passed s { t with tmr := s.tmr }) : SessionKept s t := by
  have h := congrArg (fun x : State => { x with tmr := t.tmr }) p.sessionKept
  exact h

/-! ### EXEC that does not succeed -/

/-- R143: the first step of EXEC writes the flags of a wait and nothing else. -/
theorem execArmed_sessionKept (w : Word) : SessionKept s ((execArmed w s).goto .execSend) := by
  unfold execArmed
  split <;> rfl

/-- R144, R147, R156: an EXEC that fails or is suspended for good has not touched the cache. -/
theorem execProcedure_unanswered (w : Word) (route : Route) (s : State) :
    (∃ r u, execProcedure w route s = .ok r u) ∨
    (∃ e u, execProcedure w route s = .err e u ∧ SessionKept s u) ∨
    (∃ u, execProcedure w route s = .hung u ∧ SessionKept s u) ∨ execProcedure w route s = .stop .lifecycle := by
  rcases execProcedure_cases w route s with h | ⟨v, pv, hc⟩
  · exact .inr (.inr (.inr h))
  have sent {t : State} (p : Passed ((execArmed w v).goto .execSend) t) : SessionKept s t :=
    (pv.sessionKept.trans (execArmed_sessionKept w)).trans p.sessionKept
  have waited {t u : State} {e : Event} (p : Passed ((execArmed w v).goto .execSend) t)
      (p' : Passed ((t.emit e).goto .execWait) { u with tmr := t.tmr }) : SessionKept s u :=
    ((sent p).trans (u := (t.emit e).goto .execWait) rfl).trans p'.sessionKept_wait
  rcases hc with ⟨t, r, p, -, h⟩ | ⟨t, r, p, -, -, h⟩ | ⟨t, e, p, h⟩ | ⟨t, u, r, p, -, -, p', h⟩ |
    ⟨t, u, r, p, -, -, p', -, -, h⟩ | ⟨t, p, h⟩ | ⟨t, u, r, p, -, -, p', h⟩
  · exact .inl ⟨_, _, h⟩
  · exact .inl ⟨_, _, h⟩
  · exact .inr (.inl ⟨_, _, h, (sent p).trans rfl⟩)
  · exact .inl ⟨_, _, h⟩
  · exact .inr (.inl ⟨_, _, h, (waited p p').trans rfl⟩)
  · exact .inr (.inr (.inl ⟨_, h, sent p⟩))
  · exact .inr (.inr (.inl ⟨_, h, waited p p'⟩))

/-- R149, R315: the same of EXECUTE's body, the time before it included. -/
theorem begun_executeBody_unanswered (w : Word) (s : State) :
    (∃ r u, begun (executeBody w) s = .ok r u) ∨
    (∃ e u, begun (executeBody w) s = .err e u ∧ SessionKept s u) ∨
    (∃ u, begun (executeBody w) s = .hung u ∧ SessionKept s u) ∨ begun (executeBody w) s = .stop .lifecycle := by
  rcases begun_cases (executeBody w) s with ⟨t, p, hb⟩ | hb
  · rw [hb, executeBody]
    rcases execProcedure_unanswered w .pri t with ⟨r, u, h⟩ | ⟨e, u, h, k⟩ | ⟨u, h, k⟩ | h <;> rw [h]
    · exact .inl ⟨_, _, rfl⟩
    · exact .inr (.inl ⟨_, _, rfl, p.sessionKept.trans k⟩)
    · exact .inr (.inr (.inl ⟨_, rfl, p.sessionKept.trans k⟩))
    · exact .inr (.inr (.inr rfl))
  · exact .inr (.inr (.inr hb))

/-! ### The result tells how the operation ended -/

/-- R102, R260: no success has the status of an error. -/
theorem HRes.ofValue_ne_ofErr (v : Option Value) (e : Err) : HRes.ofValue v ≠ HRes.ofErr e := by
  intro h
  have hstatus : (0 : BitVec 4) = e.status := congrArg HRes.status h
  cases e <;> cases hstatus

/-- R40: the last of the results is the operation's. -/
theorem last_result_eq {l m : List (Nat × HRes)} {q : Nat} {r r' : HRes} (h : l ++ [(q, r)] = m ++ [(q, r')]) : r = r' := by
  simpa using congrArg List.getLast? h

/-- R157, R102: where EXECUTE reports an error its procedure failed, and left the Session alone. -/
theorem finish_executeBody_error {q : Nat} {w : Word} {e : Err} (h : finish q (begun (executeBody w) s) = .next t)
    (hres : t.results = s.results ++ [(q, HRes.ofErr e)]) :
    t.seq = .idle ∧ ∃ u, SessionKept s u ∧ t = State.endOperation u q (HRes.ofErr e) := by
  rcases begun_executeBody_unanswered w s with ⟨v, u, hb⟩ | ⟨e', u, hb, k⟩ | ⟨u, hb, k⟩ | hb <;> rw [hb] at h <;>
    cases h
  case inl => exact absurd (last_result_eq hres) (HRes.ofValue_ne_ofErr v e)
  case inr.inl => exact ⟨rfl, u, k, by rw [last_result_eq hres]⟩
  case inr.inr.inl =>
    rw [k.results] at hres
    exact absurd hres (by simp)

/-- Settles O18: the failed EXEC left the Session alone but for the flags and the timer, which an idle engine has at 0. -/
theorem failedCommandLeavesSession : Obligations.FailedCommandLeavesSession := by
  intro s t q w e hh hi h hres
  obtain ⟨-, hf⟩ := unlockedOperation_next (body := executeBody w) h
  obtain ⟨hidle, u, k, ht⟩ := finish_executeBody_error hf hres
  have hinv : t.Inv := (exec_moves h).sound hi
  obtain ⟨hpend, hcseen, htmr, -⟩ := hinv.idle_quiet hidle
  refine ⟨hpend, hcseen, htmr, ?_⟩
  have frame : t = { s with
      seq := .idle, pend := t.pend, cseen := t.cseen, tmr := t.tmr, clock := t.clock, now := t.now,
      requests := t.requests, inputs := t.inputs, trace := t.trace, results := t.results } := by
    rw [ht, k]
    rfl
  rw [hpend, hcseen, htmr, ← hh.ready.idle] at frame
  exact frame

end Sys2Proof.Machine
end

section
/-!
PROOFS. Family 41_command_engine.md, the layer beneath: how many command words every procedure sends at most, with the
registers that bound the chunks of a block write.
-/

namespace Sys2Proof.Machine

variable {α β : Type} {r : Res α} {m n : Nat} {s t u : State}

/-! ### Counting sends -/

theorem sendCount_append (xs ys : List Event) : sendCount (xs ++ ys) = sendCount xs + sendCount ys := by
  simp [sendCount]

/-- R285: completion signals are no sends. -/
theorem sendCount_completions (k : Nat) : sendCount (List.replicate k .completion) = 0 := by
  simp [sendCount]

/-! ### The relation -/

/-- Between `s` and `t` at most `n` command words were sent, and what the number of chunks rests on is as it was: the
configuration, `CHUNK` and `REM`. -/
structure Sent (n : Nat) (s t : State) : Prop where
  count : sendCount t.trace ≤ sendCount s.trace + n := by exact Nat.le_add_right _ _
  cfg : t.cfg = s.cfg := by rfl
  chunk : t.chunk = s.chunk := by rfl
  rem : t.rem = s.rem := by rfl

theorem Sent.trans (h : Sent m s t) (k : Sent n t u) : Sent (m + n) s u where
  count := by
    have := h.count
    have := k.count
    omega
  cfg := k.cfg.trans h.cfg
  chunk := k.chunk.trans h.chunk
  rem := k.rem.trans h.rem

theorem Sent.mono (h : Sent m s t) (hmn : m ≤ n) : Sent n s t :=
  { h with count := le_trans h.count (Nat.add_le_add_left hmn _) }

/-- An event that is no send. -/
theorem Sent.emit {e : Event} (he : sendCount [e] = 0) : Sent 0 s (s.emit e) where
  count := by rw [State.emit_trace, sendCount_append, he]

/-- R141: a send is one command word. -/
theorem Sent.emit_send (route : Route) (w : Word) (a : Ans Word) : Sent 1 s (s.emit (.send route w a)) where
  count := le_of_eq (sendCount_append _ _)

/-- R12: what the outside world does meanwhile sends nothing. -/
theorem Passed.sent (p : Passed s t) : Sent 0 s t where
  count := by
    obtain ⟨k, hk⟩ := p.events
    rw [hk, sendCount_append, sendCount_completions]
  cfg := p.cfg
  chunk := by rw [p.frame]
  rem := by rw [p.frame]

/-! ### Procedures -/

/-- A procedure started in `s` sends at most `n` command words, wherever it ends. -/
def Res.Sends (r : Res α) (n : Nat) (s : State) : Prop := r.Leaves (Sent n s) (Sent n s)

theorem Res.Sends.ok {v : α} (h : Sent n s t := by exact {}) : (Res.ok v t).Sends n s := h
theorem Res.Sends.err {e : Err} (h : Sent n s t := by exact {}) : (Res.err e t : Res α).Sends n s := h

theorem Res.Sends.mono (h : r.Sends m s) (hmn : m ≤ n) : r.Sends n s :=
  Res.Leaves.mono h (fun _ k => k.mono hmn) (fun _ k => k.mono hmn)

/-- What leads to the start of a procedure comes before it. -/
theorem Res.Sends.of_sent (h : r.Sends n t) (k : Sent 0 s t := by exact {}) : r.Sends n s :=
  Res.Leaves.mono h (fun _ g => (k.trans g).mono (Nat.zero_add n).le) (fun _ g => (k.trans g).mono (Nat.zero_add n).le)

/-- The rule for a sequence: the bounds add up. -/
theorem Res.Sends.bind {f : α → State → Res β} (h : r.Sends m s) (hf : ∀ v t, (f v t).Sends n t) :
    (r.bind f).Sends (m + n) s :=
  Res.Leaves.bind (Res.Leaves.mono h (fun _ => id) fun _ k => k.mono (Nat.le_add_right m n))
    (fun _ k => k.mono (Nat.le_add_right m n))
    fun v t k => Res.Leaves.mono (hf v t) (fun _ => k.trans) (fun _ => k.trans)

/-- A sequence whose first part sends nothing. -/
theorem Res.Sends.silent_bind {f : α → State → Res β} (h : r.Sends 0 s) (hf : ∀ v t, (f v t).Sends n t) :
    (r.bind f).Sends n s :=
  (h.bind hf).mono (Nat.zero_add n).le

/-- A sequence whose second part sends nothing. -/
theorem Res.Sends.bind_silent {f : α → State → Res β} (h : r.Sends n s) (hf : ∀ v t, (f v t).Sends 0 t) :
    (r.bind f).Sends n s :=
  h.bind hf

/-- Clean-up steps that send nothing. -/
theorem Res.Sends.after {f : State → Res Unit} (h : r.Sends n s) (hf : ∀ t, (f t).Sends 0 t) : (r.after f).Sends n s :=
  Res.Leaves.after h fun t k => Res.Leaves.mono (hf t) (fun _ => k.trans) (fun _ => k.trans)

theorem Res.Sends.ite {c : Prop} [Decidable c] {r' : Res α} (h : r.Sends n s) (h' : r'.Sends n s) :
    (if c then r else r').Sends n s := by
  split
  · exact h
  · exact h'

/-! ### Time, calls, waits and delays -/

theorem pause_sends : (pause s).Sends 0 s := by
  rcases pause_cases s with ⟨t, h, p⟩ | h <;> rw [h]
  · exact p.sent
  · trivial

theorem awaitAnswer_sends (want : Answer → Option α) (l : List Input) : (awaitAnswer want l s).Sends 0 s := by
  rcases awaitAnswer_cases want l s with ⟨v, t, h, p⟩ | ⟨t, h, p, -⟩ | h <;> rw [h]
  · exact p.sent
  · exact p.sent
  · trivial

/-- R41: the one call that sends a command word. -/
theorem callSend_sends (route : Route) (w : Word) : (callSend route w s).Sends 1 s :=
  (awaitAnswer_sends _ _).silent_bind fun a _ => .ok (.emit_send route w a)

/-- R42: the calls on the stream interface, whose answer may be the Transport's error. -/
theorem transportCall_sends (want : Answer → Option (Ans α)) {ev : Ans α → Event} (he : ∀ a, sendCount [ev a] = 0) :
    ((awaitAnswer want s.inputs s).bind fun a s => transportResult a (s.emit (ev a))).Sends 0 s :=
  (awaitAnswer_sends _ _).silent_bind fun a _ => by
    cases a with
    | ok v => exact .ok (.emit (he _))
    | err e => exact .err (.emit (he _))

theorem callHbwWrite_sends (bytes : List Byte) : (callHbwWrite bytes s).Sends 0 s := transportCall_sends _ fun _ => rfl
theorem callHbwRead_sends (k : Nat) : (callHbwRead k s).Sends 0 s := transportCall_sends _ fun _ => rfl
theorem callRdb_sends (len : Word) (id : Half) : (callRdb len id s).Sends 0 s := transportCall_sends _ fun _ => rfl
theorem callWake_sends : (callWake s).Sends 0 s := transportCall_sends _ fun _ => rfl

theorem openChannel_sends : (openChannel s).Sends 0 s :=
  .ite ((awaitAnswer_sends _ _).silent_bind fun _ _ => .ok (.emit rfl)) .ok

theorem closeChannel_sends : (closeChannel s).Sends 0 s :=
  .ite ((awaitAnswer_sends _ _).silent_bind fun _ _ => .ok (.emit rfl)) .ok

theorem completionWait_sends (k : Nat) : (completionWait k s).Sends 0 s := by
  have wait {t : State} (p : Passed s { t with tmr := s.tmr }) : Sent 0 s t :=
    have h := p.sent
    ⟨h.count, h.cfg, h.chunk, h.rem⟩
  rcases completionWait_cases k s with ⟨t, h, p⟩ | ⟨t, h, p, -⟩ | ⟨t, h, p⟩ | h <;> rw [h]
  · exact wait p
  · exact wait p
  · exact wait p
  · trivial

theorem delayTicks_sends (k : Nat) : (delayTicks k s).Sends 0 s := by
  have delayed {u t : State} (p : Passed s u) (p' : Passed (u.emit (.delay k)) { t with dly := s.dly }) : Sent 0 s t :=
    have h := (p.sent.trans (.emit rfl)).trans p'.sent
    ⟨h.count, h.cfg, h.chunk, h.rem⟩
  rcases delayTicks_cases k s with ⟨u, t, p, h, p', -⟩ | ⟨u, t, p, h, p'⟩ | h <;> rw [h]
  · exact delayed p p'
  · exact delayed p p'
  · trivial

/-! ### EXEC, the codec and the Command Engine -/

theorem execArmed_sent (w : Word) : Sent 0 s ((execArmed w s).goto .execSend) := by
  unfold execArmed
  split
  · exact { count := (sendCount_append _ _).le }
  · exact {}

theorem execAnswered_sends (mode : CMode) (w : Word) (a : Ans Word) : (execAnswered mode w a s).Sends 0 s := by
  cases a with
  | err e => exact .err
  | ok r =>
    refine .ite .ok ?_
    cases mode with
    | poll => exact .ok
    | interrupt =>
      refine (completionWait_sends _).of_sent.silent_bind fun seen _ => ?_
      exact .ite .ok (.err { count := (sendCount_append _ _).le })

/-- R141: EXEC sends its word once, however it ends. -/
theorem execProcedure_sends (w : Word) (route : Route) : (execProcedure w route s).Sends 1 s :=
  pause_sends.silent_bind fun _ t => ((callSend_sends route w).of_sent (execArmed_sent w)).bind_silent fun a _ =>
    execAnswered_sends t.cmode w a

theorem executeBody_sends (w : Word) : (executeBody w s).Sends 1 s :=
  (execProcedure_sends w .pri).bind_silent fun _ _ => .ok

/-- R154: a message is sent in at most two lanes. -/
theorem sendMessage_sends : (sendMessage s).Sends 2 s :=
  (execProcedure_sends s.x0 .pri).bind (n := 1) fun _ t =>
    .ite ((execProcedure_sends t.x1 .pri).bind_silent fun _ _ => .ok) .ok

theorem encodeMessage_sends (id value : Word) (dir : Direction) : (encodeMessage id value dir s).Sends 0 s := by
  cases hd : lookup s.cfg id with
  | none => rw [encodeMessage_none hd]; exact .err
  | some d => rw [encodeMessage_some hd]; exact .ok

theorem readRegisterBody_sends (id : Word) : (readRegisterBody id s).Sends 2 s :=
  (encodeMessage_sends id 0 .read).silent_bind fun _ _ => sendMessage_sends.bind_silent fun _ _ => .ite .ok .ok

theorem writeRegisterBody_sends (id value : Word) : (writeRegisterBody id value s).Sends 2 s :=
  (encodeMessage_sends id value .write).silent_bind fun _ _ => sendMessage_sends.bind_silent fun _ _ => .ok

/-! ### Block read -/

theorem rdbCheck_sends (w : Word) : (rdbCheck w s).Sends 0 s := .ite (.ite .ok .err) .err

theorem readLoop_sends (buf : Word) (k : Nat) : (readLoop buf k s).Sends 0 s := by
  induction k generalizing s with
  | zero => exact .ok
  | succ k ih => exact .ite ((callHbwRead_sends _).of_sent.silent_bind fun _ _ => ih.of_sent) .ok

theorem drain_sends : (drain s).Sends 0 s := .ite .ok ((callHbwRead_sends _).of_sent.silent_bind fun _ _ => .ok)

/-- R212: only the command of a block read is sent; its data comes by reads. -/
theorem readTransfer_sends (buf : Word) (id : Half) : (readTransfer buf id s).Sends 1 s :=
  (execProcedure_sends _ .hbw).of_sent.bind_silent fun _ t => (rdbCheck_sends t.resp).silent_bind fun _ t =>
    (readLoop_sends buf t.xfer.toNat).silent_bind fun _ _ => drain_sends.silent_bind fun _ _ => .ok

theorem readBlockBody_sends (buf len id : Word) : (readBlockBody buf len id s).Sends 1 s :=
  .ite ((callRdb_sends len _).of_sent.silent_bind fun _ _ => .ok)
    (openChannel_sends.of_sent.silent_bind fun _ _ => (readTransfer_sends buf _).after fun _ => closeChannel_sends.of_sent)

/-! ### Wakeup -/

theorem wakeClock_sends : (wakeClock s).Sends 0 s :=
  .ite (pause_sends.of_sent.silent_bind fun _ _ => (delayTicks_sends _).of_sent (.emit rfl)) .ok

theorem wakeArm_sends : (wakeArm s).Sends 0 s :=
  .ite (pause_sends.silent_bind fun _ _ => .ok { count := (sendCount_append _ _).le }) .ok

theorem wakeToggle_sends : (wakeToggle s).Sends 0 s := by
  refine .ite (pause_sends.silent_bind fun _ _ => .ok (.emit rfl)) ?_
  have h : (callWake s).Sends 0 s := callWake_sends
  cases hr : callWake s <;> rw [hr] at h
  case ok v t => exact .ok h
  case err e t => exact .err ⟨h.count, h.cfg, h.chunk, h.rem⟩
  case hung t => exact h
  case stop x => trivial

theorem wakeSignal_sends : (wakeSignal s).Sends 0 s :=
  (wakeArm_sends.of_sent (s := s)).silent_bind fun _ _ => wakeToggle_sends

theorem wakeReadiness_sends : (wakeReadiness s).Sends 0 s :=
  .ite ((completionWait_sends _).silent_bind fun _ _ => .ite .ok (.err { count := (sendCount_append _ _).le }))
    (delayTicks_sends _)

theorem statusCommand_sends (w : Word) : (statusCommand w s).Sends 1 s :=
  (execProcedure_sends w .pri).bind_silent fun _ _ => .ite .ok .err

theorem wakeConfirm_sends : (wakeConfirm s).Sends 1 s := .ite (statusCommand_sends _).of_sent .ok

theorem wakeIrq_sends : (wakeIrq s).Sends 1 s :=
  .ite ((execProcedure_sends _ .pri).of_sent.bind_silent fun _ _ => .ok) .ok

theorem syncCommand_sends (w : Word) : (syncCommand w s).Sends 1 s :=
  (execProcedure_sends w .pri).bind_silent fun _ _ => .ite .ok .err

/-- R237 to R239: the status query and the two synchronize commands are all that an attempt sends. -/
theorem wakeAttempt_sends : (wakeAttempt s).Sends 3 s :=
  wakeClock_sends.silent_bind fun _ _ => wakeSignal_sends.silent_bind fun _ t =>
    (wakeReadiness_sends.of_sent (s := t)).silent_bind fun _ _ => wakeConfirm_sends.bind fun _ _ =>
      wakeIrq_sends.bind fun _ t => (syncCommand_sends _).of_sent (s := t)

theorem muteCommand_sends (w : Word) : (muteCommand w s).Sends 1 s := by
  have h : (execProcedure w .pri s).Sends 1 s := execProcedure_sends w .pri
  unfold muteCommand
  cases hr : execProcedure w .pri s <;> rw [hr] at h
  case ok v t => exact .ok h
  case err e t => exact .err ⟨h.count, h.cfg, h.chunk, h.rem⟩
  case hung t => exact h
  case stop x => trivial

theorem wakeReady_sends : (wakeReady s).Sends 1 s :=
  ((muteCommand_sends _).of_sent (s := s)).bind_silent fun _ _ => .ok

/-- R232, R285: at most three words for each attempt that is left, and the smooth-mute word. -/
theorem wakeLoop_sends (k : Nat) : (wakeLoop k s).Sends (3 * k + 1) s := by
  induction k generalizing s with
  | zero => exact .err
  | succ k ih =>
    have h : (wakeAttempt s.startAttempt).Sends 3 s := wakeAttempt_sends.of_sent
    unfold wakeLoop
    cases hr : wakeAttempt s.startAttempt <;> rw [hr] at h
    case ok v t =>
      have ready : ((Res.ok v t).bind fun _ t => wakeReady t).Sends (3 + 1) s := h.bind fun _ _ => wakeReady_sends
      exact ready.mono (by omega)
    case err e t =>
      refine .ite (.err ?_) ?_
      · exact Sent.mono (m := 3) ⟨h.count, h.cfg, h.chunk, h.rem⟩ (by omega)
      · have next : ((Res.ok () t).bind fun _ t => wakeLoop k (t.failAttempt e)).Sends (3 + (3 * k + 1)) s :=
          Res.Sends.bind (r := Res.ok () t) h fun _ t => ih.of_sent (s := t)
        exact next.mono (by omega)
    case hung t => exact Sent.mono h (by omega)
    case stop x => trivial

theorem wakeupBody_sends : (wakeupBody s).Sends (3 * s.cfg.wakeBudget + 1) s := (wakeLoop_sends _).of_sent

end Sys2Proof.Machine
end

section
/-!
PROOFS. Family 41_command_engine.md: how many command words an operation sends at most (O60).
-/

namespace Sys2Proof.Machine

variable {α β : Type} {r : Res α} {b n : Nat} {s t u : State}

/-! ### The bound on the whole trace -/

/-- Wherever a procedure ends, the trace holds at most `b` sends. -/
def Res.SendsWithin (r : Res α) (b : Nat) : Prop :=
  r.Leaves (fun t => sendCount t.trace ≤ b) (fun t => sendCount t.trace ≤ b)

/-- A procedure that sends at most `n` words, started with no send since `s`. -/
theorem Res.Sends.within (h : r.Sends n u) (k : Sent 0 s u) : r.SendsWithin (sendCount s.trace + n) :=
  Res.Leaves.mono (h.of_sent k) (fun _ g => g.count) (fun _ g => g.count)

/-- After a procedure that sends at most `n` words, the rest keeps to the bound. -/
theorem Res.Sends.bind_within {f : α → State → Res β} (h : r.Sends n s) (hb : sendCount s.trace + n ≤ b)
    (hf : ∀ v t, Sent n s t → (f v t).SendsWithin b) : (r.bind f).SendsWithin b :=
  Res.Leaves.bind (Res.Leaves.mono h (fun _ => id) fun _ k => k.count.trans hb) (fun _ k => k.count.trans hb) hf

theorem Res.SendsWithin.after {f : State → Res Unit} (h : r.SendsWithin b) (hf : ∀ t, (f t).Sends 0 t) :
    (r.after f).SendsWithin b :=
  Res.Leaves.after h fun t hb => Res.Leaves.mono (hf t) (fun _ k => k.count.trans hb) (fun _ k => k.count.trans hb)

/-! ### Block write -/

theorem Res.bind_assoc {γ : Type} (r : Res α) (f : α → State → Res β) (g : β → State → Res γ) :
    (r.bind f).bind g = r.bind fun v s => (f v s).bind g := by
  cases r <;> rfl

/-- R193 to R202: a chunk up to its acknowledgement, before the transfer moves on. -/
def chunkTransfer (buf : Word) (s : State) : Res Unit :=
  (wdbCommand s.nextChunk).bind fun _ s => (wdbCheck s.resp s).bind fun _ s => (wdbData buf s).bind fun _ s =>
    ackLoop s.cfg.ackMaxAttempts (s.countFrom 0)

theorem writeChunk_eq (buf : Word) (s : State) :
    writeChunk buf s = (chunkTransfer buf s).bind fun _ s => .ok () s.advanceChunk := by
  simp only [chunkTransfer, Res.bind_assoc]
  rfl

theorem ackLoop_sends (k : Nat) : (ackLoop k s).Sends 0 s := by
  induction k generalizing s with
  | zero => exact .err
  | succ k ih =>
    have read : (ackRead s).Sends 0 s := (callHbwRead_sends 4).of_sent.silent_bind fun _ _ => .ok
    refine read.silent_bind fun _ t => ?_
    split
    · exact .ok
    · exact .err
    · exact (delayTicks_sends _).of_sent.silent_bind fun _ _ => ih

theorem interchunk_sends (first : Bool) : (interchunk first s).Sends 0 s := .ite .ok (delayTicks_sends _).of_sent

/-- R193: a chunk has one command. -/
theorem chunkTransfer_sends (buf : Word) : (chunkTransfer buf s).Sends 1 s.nextChunk :=
  (execProcedure_sends _ .hbw).bind_silent fun _ _ => Res.Sends.silent_bind (.ite .ok .err) fun _ _ =>
    (callHbwWrite_sends _).of_sent.silent_bind fun _ _ => (ackLoop_sends _).of_sent

/-- R203: an acknowledged chunk leaves the bytes beyond `MAX_CHUNK` to be sent. -/
theorem rem_advanceChunk (hc : s.cfg.maxChunk ≤ 65535) (k : Sent n s.nextChunk t) :
    t.advanceChunk.rem.toNat = s.rem.toNat - s.cfg.maxChunk := by
  have hchunk : t.chunk.toNat = min s.rem.toNat s.cfg.maxChunk := by
    rw [k.chunk]
    exact Nat.mod_eq_of_lt (by omega)
  have hzext : (zext32 t.chunk).toNat = min s.rem.toNat s.cfg.maxChunk := by
    rw [zext32, BitVec.toNat_setWidth, hchunk]
    omega
  have hle : zext32 t.chunk ≤ s.rem := by
    rw [BitVec.le_def, hzext]
    exact Nat.min_le_left _ _
  show (t.rem - zext32 t.chunk).toNat = _
  rw [k.rem, State.nextChunk_rem, BitVec.toNat_sub_of_le hle, hzext]
  omega

/-- R193: how many chunks `n` bytes make. -/
def chunkCount (c : Config) (n : Nat) : Nat := (n + c.maxChunk - 1) / c.maxChunk

/-- R193: the first of the chunks that some bytes make, and the rest of them. -/
theorem chunkCount_step {c : Config} (hc : 1 ≤ c.maxChunk) (hn : n ≠ 0) :
    chunkCount c n = 1 + chunkCount c (n - c.maxChunk) := by
  unfold chunkCount
  rcases Nat.le_total n c.maxChunk with h | h
  · rw [Nat.sub_eq_zero_of_le h, Nat.div_eq_of_lt (a := 0 + c.maxChunk - 1) (by omega)]
    exact (Nat.div_eq_iff (by omega)).2 (by omega)
  · rw [show n + c.maxChunk - 1 = n - c.maxChunk + c.maxChunk - 1 + c.maxChunk by omega, Nat.add_div_right _ hc,
      Nat.add_comm]

/-- R193, R285: the chunks that are left send one word each. -/
theorem writeChunks_within (buf : Word) (k : Nat) (first : Bool) (hpos : 1 ≤ s.cfg.maxChunk)
    (hmax : s.cfg.maxChunk ≤ 65535) :
    (writeChunks buf k first s).SendsWithin (sendCount s.trace + chunkCount s.cfg s.rem.toNat) := by
  induction k generalizing s first with
  | zero => exact Nat.le_add_right _ _
  | succ k ih =>
    unfold writeChunks
    split
    · exact Nat.le_add_right _ _
    · next hrem =>
      have count := chunkCount_step hpos (n := s.rem.toNat) fun h => hrem (BitVec.eq_of_toNat_eq h)
      refine (interchunk_sends first).bind_within (by omega) fun _ t kt => ?_
      rw [writeChunk_eq, Res.bind_assoc]
      have start : sendCount t.nextChunk.trace ≤ sendCount s.trace := kt.count
      refine (chunkTransfer_sends buf).bind_within (by omega) fun _ u ku => ?_
      have hcfg : u.advanceChunk.cfg = s.cfg := ku.cfg.trans kt.cfg
      have hleft : u.advanceChunk.rem.toNat = s.rem.toNat - s.cfg.maxChunk := by
        rw [rem_advanceChunk (kt.cfg ▸ hmax) ku, kt.rem, kt.cfg]
      have rest := ih (s := u.advanceChunk) false (hcfg ▸ hpos) (hcfg ▸ hmax)
      have sent : sendCount u.advanceChunk.trace ≤ sendCount t.nextChunk.trace + 1 := ku.count
      rw [hcfg, hleft] at rest
      exact Res.Leaves.mono rest (fun _ h => by omega) (fun _ h => by omega)

theorem writeBlockBody_within (buf len : Word) (hpos : 1 ≤ s.cfg.maxChunk) (hmax : s.cfg.maxChunk ≤ 65535) :
    (writeBlockBody buf len s).SendsWithin (sendCount s.trace + chunkCount s.cfg len.toNat) := by
  refine (openChannel_sends (s := s.startWrite len)).bind_within (Nat.le_add_right _ _) fun _ t k => ?_
  have hcfg : t.cfg = s.cfg := k.cfg
  have hrem : t.rem = len := k.rem
  have count : sendCount t.trace ≤ sendCount s.trace := k.count
  have chunks := writeChunks_within (s := t) buf len.toNat true (hcfg ▸ hpos) (hcfg ▸ hmax)
  rw [hcfg, hrem] at chunks
  refine Res.SendsWithin.after (Res.Leaves.mono chunks (fun _ h => ?_) fun _ h => ?_) fun _ => closeChannel_sends.of_sent
  · exact h.trans (Nat.add_le_add_right count _)
  · exact h.trans (Nat.add_le_add_right count _)

/-! ### The operations -/

/-- R270: the time before a body and the end of its operation send nothing. -/
theorem unlockedOperation_sends {q : Nat} {body : State → Res (Option Value)}
    (hb : ∀ u, Sent 0 s u → (body u).SendsWithin (sendCount s.trace + n)) (h : unlockedOperation q body s = .next t) :
    sendCount t.trace ≤ sendCount s.trace + n := by
  have hw : (begun body s).SendsWithin (sendCount s.trace + n) :=
    pause_sends.bind_within (Nat.le_add_right _ _) fun _ => hb
  rcases finish_next (unlockedOperation_next h).2 with ⟨v, u, he, rfl⟩ | ⟨e, u, he, rfl⟩ | he <;> rw [he] at hw
  · exact hw
  · exact hw
  · exact hw

/-- Settles O60: each body keeps to its bound. -/
theorem sendsAreBounded : Obligations.SendsAreBounded := by
  intro s t q w id value buf len
  refine ⟨fun h => ?execute, fun h => ?readRegister, fun h => ?writeRegister, fun h => ?readBlock, fun h => ?writeBlock,
    fun h => ?wakeup⟩
  case execute => exact unlockedOperation_sends (fun _ => (executeBody_sends w).within) h
  case readRegister => exact unlockedOperation_sends (fun _ => (readRegisterBody_sends id).within) h
  case writeRegister => exact unlockedOperation_sends (fun _ => (writeRegisterBody_sends id value).within) h
  case readBlock => exact unlockedOperation_sends (fun _ => (readBlockBody_sends buf len id).within) h
  case wakeup => exact unlockedOperation_sends (fun u k => k.cfg ▸ wakeupBody_sends.within k) h
  case writeBlock =>
    have ⟨hh, _⟩ := unlockedOperation_next (body := writeBlockBody buf len) h
    obtain ⟨hpos, hmax⟩ := (taken_of_configOk hh.ready.lawful).chunk
    refine unlockedOperation_sends (n := chunkCount s.cfg len.toNat) (fun u k => ?_) h
    have body := writeBlockBody_within (s := u) buf len (k.cfg ▸ hpos) (k.cfg ▸ hmax)
    rw [k.cfg] at body
    exact Res.Leaves.mono body (fun _ h => h.trans (Nat.add_le_add_right k.count _))
      (fun _ h => h.trans (Nat.add_le_add_right k.count _))

end Sys2Proof.Machine
end

section
/-!
PROOFS. Family 41_command_engine.md, the layer beneath: how an operation that begins at once ends, and what the commands it
sends leave, whatever its phase and the inputs to come.
-/

namespace Sys2Proof.Machine

/-! ### Another phase and other inputs -/

/-- The same registers in phase `p`, with `l` for the outside world still to do. -/
def State.facing (s : State) (p : Phase) (l : List Input) : State := { s with seq := p, inputs := l }

section
variable (s : State) (p : Phase) (l : List Input) (route : Route) (w r : Word)

@[simp] theorem State.facing_inputs : (s.facing p l).inputs = l := rfl
@[simp] theorem State.facing_cfg : (s.facing p l).cfg = s.cfg := rfl
@[simp] theorem State.facing_cmode : (s.facing p l).cmode = s.cmode := rfl
@[simp] theorem State.facing_x0 : (s.facing p l).x0 = s.x0 := rfl
@[simp] theorem State.facing_x1 : (s.facing p l).x1 = s.x1 := rfl
@[simp] theorem State.facing_msglen : (s.facing p l).msglen = s.msglen := rfl
@[simp] theorem State.facing_lastValid : (s.facing p l).lastValid = s.lastValid := rfl

@[simp] theorem State.facing_facing (p' : Phase) (l' : List Input) :
    (s.facing p l).facing p' l' = s.facing p' l' := rfl

/-- They bear on nothing else that an answered command leaves. -/
@[simp] theorem State.answered_facing : (s.facing p l).answered route w r = (s.answered route w r).facing p l := by
  cases hs : srBit w <;> cases hm : s.cmode <;> simp [State.answered, State.facing, hs, hm]

/-- They bear on nothing else that a failed command leaves. -/
@[simp] theorem State.failed_facing (bad : BadCommand) :
    (s.facing p l).failed route w bad = (s.failed route w bad).facing p l := by
  cases bad <;> rfl

@[simp] theorem State.failed_seq (bad : BadCommand) : (s.failed route w bad).seq = s.seq := by
  cases bad <;> rfl

@[simp] theorem State.answered_freeCount : (s.answered route w r).freeCount = s.freeCount := by
  unfold State.answered
  split <;> [rfl; (split <;> rfl)]
end

/-! ### What an answered command leaves, case by case -/

section
variable {s : State} {route : Route} {w r : Word}

/-- R145: a command with `SR` leaves nothing but its event. -/
theorem State.answered_suppressed (hs : srBit w = true) :
    s.answered route w r = { s with trace := s.trace ++ [.send route w (.ok r)] } := if_pos hs

/-- R148, R156: the answer of a command without `SR` is cached at once in `Poll` mode. -/
theorem State.answered_poll (hs : srBit w = false) (hm : s.cmode = .poll) :
    s.answered route w r = { s with
      resp := r, lastResp := r, lastTs := s.now % 2 ^ s.cfg.tsW, lastValid := true,
      trace := s.trace ++ [.send route w (.ok r)] } := by
  simp [State.answered, hs, hm]

/-- R146, R148: in `Interrupt` mode it is cached when the completion has come, and the wait cleared. -/
theorem State.answered_interrupt (hs : srBit w = false) (hm : s.cmode = .interrupt) :
    s.answered route w r = { s with
      resp := r, lastResp := r, lastTs := s.now % 2 ^ s.cfg.tsW, lastValid := true, pend := false, cseen := false,
      tmr := 0, trace := s.trace ++ [.arm, .send route w (.ok r), .completion] } := by
  simp [State.answered, hs, hm]
end

/-! ### How an operation that takes no time to begin ends -/

section
variable {s t : State} {q : Nat} {body : State → Res (Option Value)} {p : Phase} {l rest : List Input}

section
variable (hh : s.Holder q) (hc : Calm s.inputs)
include hh hc

/-- R270, R316: one that returns leaves what its procedure leaves, and the result. -/
theorem unlockedOperation_returns {v : Option Value} (ht : t.seq = .idle) (hb : body s = .ok v (t.facing p l)) :
    unlockedOperation q body s = .next (State.returned { t with inputs := l } q (HRes.ofValue v)) := by
  rw [unlockedOperation_holder hh, begun_calm hc, hb]
  exact congrArg Host.Outcome.next (endOperation_eq_returned (s := { t with inputs := l }) ht p q _)

/-- R270, R316: one that raises an error leaves what its procedure leaves, and the error. -/
theorem unlockedOperation_raises {e : Err} (ht : t.seq = .idle) (hb : body s = .err e (t.facing p l)) :
    unlockedOperation q body s = .next (State.returned { t with inputs := l } q (HRes.ofErr e)) := by
  rw [unlockedOperation_holder hh, begun_calm hc, hb]
  exact congrArg Host.Outcome.next (endOperation_eq_returned (s := { t with inputs := l }) ht p q _)

/-- U8: one that nothing ends leaves the state in which its procedure is suspended. -/
theorem unlockedOperation_hangs (hb : body s = .hung t) : unlockedOperation q body s = .next t := by
  rw [unlockedOperation_holder hh, begun_calm hc, hb]
  rfl
end

/-- R171, R180: a locked operation whose body returns has given back the vote and the lock. -/
theorem lockedOperation_returns {self : Frame} {v : Option Value} (hp : s.Public q) (hc : Calm rest)
    (hi : s.inputs = .answer (.resume true) :: l) (hl : Calm l) (ht : t.seq = .idle)
    (hb : body ((s.opened q).facing .gateResume l) = .ok v (t.facing p rest)) :
    lockedOperation q self body s =
      .next ((State.closed { t with inputs := rest } q).returned q (HRes.ofValue v)) := by
  have opened : begun body ((s.opened q).facing .gateResume l) = .ok v (t.facing p rest) := (begun_calm hl).trans hb
  rw [lockedOperation_public hp, gate_resumed hi]
  change finish q (Res.after (begun body ((s.opened q).facing .gateResume l)) _) = _
  rw [opened, Res.after_ok, releaseSteps_calm (s := t.facing p rest) hc]
  exact congrArg Host.Outcome.next
    (endOperation_eq_returned (s := State.closed { t with inputs := rest } q) ht .gateUnlock q _)
end

end Sys2Proof.Machine
end

section
/-!
PROOFS. Family 41_command_engine.md: EXECUTE, command by command (O8, O13 to O17), and its locked variant (O24).
-/

namespace Sys2Proof.Machine

/-! ### A command that is answered -/

section
variable {s : State} {q : Nat} {w r : Word} {rest : List Input}

/-- R145, R148: what an answered command reports. -/
def responseOf (w r : Word) : Option Value := if srBit w then none else some (.word r)

/-- R149: EXECUTE's body for a command that is answered. -/
theorem executeBody_answered (hi : s.inputs = sendScript s.cmode w r ++ rest) :
    executeBody w s =
      .ok (responseOf w r) ((s.answered .pri w r).facing (if srBit w then .execSend else .execLatch) rest) := by
  rw [executeBody, execProcedure_answered hi, Res.bind_ok, apply_ite (Option.map Value.word)]
  rfl

/-- R149: EXECUTE of a command that is answered. -/
theorem exec_execute_answered (hh : s.Holder q) (hi : s.inputs = sendScript s.cmode w r ++ rest) :
    exec (.execute q w) s =
      .next (State.returned { s.answered .pri w r with inputs := rest } q (HRes.ofValue (responseOf w r))) :=
  unlockedOperation_returns hh (calm_of_sendScript hi) (hh.answered_idle .pri w r) (executeBody_answered hi)
end

/-- Settles O13: without `SR` the answer is cached, in `Interrupt` mode when the completion has come. -/
theorem executeReturnsResponse : Obligations.ExecuteReturnsResponse := by
  intro s q w r rest hh hs
  refine ⟨fun hm hi => ?poll, fun hm hi => ?interrupt⟩
  case poll =>
    have hscript : s.inputs = sendScript s.cmode w r ++ rest := by simpa [sendScript, armsWait, hm] using hi
    have h := exec_execute_answered hh hscript
    rwa [State.answered_poll hs hm, responseOf, hs] at h
  case interrupt =>
    have hscript : s.inputs = sendScript s.cmode w r ++ rest := by simpa [sendScript, armsWait, hm, hs] using hi
    have h := exec_execute_answered hh hscript
    rwa [State.answered_interrupt hs hm, responseOf, hs] at h

/-- Settles O14: with `SR` nothing is armed and nothing cached. -/
theorem suppressedCommandReturnsNone : Obligations.SuppressedCommandReturnsNone := by
  intro s q w r rest hh hs hi
  have hscript : s.inputs = sendScript s.cmode w r ++ rest := by simpa [sendScript, armsWait, hs] using hi
  have h := exec_execute_answered hh hscript
  rwa [State.answered_suppressed hs, responseOf, hs] at h

/-- Settles O24: under the gate the body finds the opened state, in another phase and facing what follows the resume. -/
theorem lockedExecuteReturnsResponse : Obligations.LockedExecuteReturnsResponse := by
  intro s q w r rest hp hc hi
  have body := executeBody_answered (w := w) (r := r) (rest := rest)
    (s := (s.opened q).facing .gateResume (sendScript s.cmode w r ++ rest)) rfl
  rw [State.answered_facing, State.facing_facing] at body
  exact lockedOperation_returns hp hc hi rfl ((State.answered_seq _ _ _ _).trans hp.1.idle) body

/-! ### A command whose send fails, or is never answered -/

/-- Settles O15: EXEC passes the Transport's error on, and clears the wait it may have armed. -/
theorem failedSendIsTransportError : Obligations.FailedSendIsTransportError := by
  intro s q w e rest hh hi
  refine unlockedOperation_raises (body := executeBody w) (p := .execSend) hh (by rw [hi]; rfl)
    (t := { s with
      pend := false, cseen := false,
      trace := s.trace ++ (armEvents s.cmode w ++ [.send .pri w (.err e)]) }) hh.ready.idle ?_
  rw [executeBody, execProcedure_failed hi]
  rfl

/-- R156: in `Poll` mode an EXEC whose send is never answered stays in the phase of its send. -/
theorem execProcedure_hangs {w : Word} {route : Route} {s : State} (hm : s.cmode = .poll) (hi : s.inputs = []) :
    execProcedure w route s = .hung { s with seq := .execSend } := by
  have unarmed : execArmed w s = s.goto .execArm := by simp [execArmed, armsWait, hm]
  have suspended : callSend route w ((s.goto .execArm).goto .execSend) = .hung { s with seq := .execSend } := by
    simp [callSend, awaitAnswer, hi, State.goto]
  rw [execProcedure, pause_calm (by rw [hi]; rfl), Res.bind_ok, unarmed, suspended, Res.bind_hung]

/-- Settles O8: EXECUTE hangs where its EXEC does, and an engine in a phase of an operation makes no step. -/
theorem unansweredSendHangs : Obligations.UnansweredSendHangs := by
  intro s q w hh hm hi
  refine ⟨unlockedOperation_hangs (body := executeBody w) hh (by rw [hi]; rfl) ?_, if_neg Phase.noConfusion⟩
  rw [executeBody, execProcedure_hangs hm hi, Res.bind_hung]

/-! ### The completion wait of a command, and how it ends -/

/-- R143, R146: the state in which the completion wait of a command starts, whose send was answered with `r` after the inputs
`env`. -/
def State.awaiting (s : State) (route : Route) (w r : Word) (env rest : List Input) : State :=
  (State.emit { env.foldl State.deliver ((s.goto .execArm).arm.goto .execSend) with inputs := rest }
    (.send route w (.ok r))).goto .execWait

section
variable {w r : Word} {s t : State} {env rest : List Input} (hm : s.cmode = .interrupt) (hs : srBit w = false)
  (hc : Calm s.inputs) (hl : ∀ i ∈ env, i.isLifecycle = false) (ha : ∀ i ∈ env, i.answer? = none)
  (hi : s.inputs = env ++ .answer (.send (.ok r)) :: rest)
include hm hs hc hl ha hi

/-- R146: in `Interrupt` mode an EXEC without `SR`, once its send is answered, comes down to its completion wait. -/
theorem execProcedure_awaiting {route : Route} :
    execProcedure w route s =
      (completionWait s.cfg.tAckTimeout (s.awaiting route w r env rest)).bind (execWaited r) := by
  have armed : execArmed w s = (s.goto .execArm).arm := by simp [execArmed, armsWait, hm, hs]
  have inputs : ((s.goto .execArm).arm.goto .execSend).inputs = env ++ .answer (.send (.ok r)) :: rest := hi
  have sent : callSend route w ((s.goto .execArm).arm.goto .execSend) = .ok (.ok r)
      (State.emit { env.foldl State.deliver ((s.goto .execArm).arm.goto .execSend) with inputs := rest }
        (.send route w (.ok r))) := by
    rw [callSend, inputs, awaitAnswer_append wantSend _ _ hl ha, awaitAnswer_answer wantSend (.send (.ok r)) _ rfl,
      Res.bind_ok]
  have hcfg : (env.foldl State.deliver ((s.goto .execArm).arm.goto .execSend)).cfg = s.cfg := (Passed.delivered env _).cfg
  rw [execProcedure, pause_calm hc, Res.bind_ok, armed, sent, Res.bind_ok, hm]
  simp [execAnswered, hs, hcfg, State.awaiting]

/-- R146: EXECUTE's body when the wait sees its completion. -/
theorem executeBody_completed (hw : completionWait s.cfg.tAckTimeout (s.awaiting .pri w r env rest) = .ok true t) :
    executeBody w s = .ok (some (.word r)) (({ t.disarm with tmr := 0 }.goto .execLatch).latch r) := by
  rw [executeBody, execProcedure_awaiting hm hs hc hl ha hi, hw]
  rfl

/-- R147: EXECUTE's body when the wait expires. -/
theorem executeBody_timedOut (hw : completionWait s.cfg.tAckTimeout (s.awaiting .pri w r env rest) = .ok false t) :
    executeBody w s = .err .timeout (t.disarm.emit .timeout) := by
  rw [executeBody, execProcedure_awaiting hm hs hc hl ha hi, hw]
  rfl
end

section
variable {k n : Nat} {s : State} {rest : List Input}

/-- R146: a completion latched before the wait ends it at once. -/
theorem completionWait_latched (hc : Calm s.inputs) (hl : s.cseen = true) :
    completionWait k s = .ok true { s with tmr := k } := by
  rw [completionWait, pause_calm hc, Res.bind_ok, if_pos hl]

/-- R146, R279: a wait whose completion has not come before it starts its timer. -/
theorem completionWait_unlatched (hc : Calm s.inputs) (hl : s.cseen = false) :
    completionWait k s = awaitCompletion s.inputs { s with tmr := k } := by
  rw [completionWait, pause_calm hc, Res.bind_ok, if_neg (by simp [hl])]

/-- R147, R279: ticks enough to bring the timer to 0 end the wait when it gets there. -/
theorem completionWait_expired (hl : s.cseen = false) (hn : k ≤ n) (hi : s.inputs = .ticks n :: rest) :
    completionWait k s = .ok false { s with
      tmr := 0, clock := s.clock + k, inputs := if n = k then rest else .ticks (n - k) :: rest } := by
  rw [completionWait_unlatched (by rw [hi]; rfl) hl, hi]
  exact if_neg (Nat.not_lt.2 hn)

/-- R274: a completion in the very tick that brings the timer to 0 wins. -/
theorem completionWait_lastTick (hl : s.cseen = false) (hk : 1 ≤ k)
    (hi : s.inputs = .ticks (k - 1) :: .tickCompletion :: rest) :
    completionWait k s = .ok true { s.completion with tmr := 0, clock := s.clock + k, inputs := rest } := by
  have htmr : k - (k - 1) - 1 = 0 := by omega
  have hclock : s.clock + (k - 1) + 1 = s.clock + k := by omega
  rw [completionWait_unlatched (by rw [hi]; rfl) hl, hi, awaitCompletion, if_pos (Nat.sub_lt hk Nat.one_pos)]
  simp [awaitCompletion, State.completion, htmr, hclock]
end

/-- Settles O16: the wait expires, and what is left of the ticks stays in the list. -/
theorem unacknowledgedCommandTimesOut : Obligations.UnacknowledgedCommandTimesOut := by
  intro s q w r n rest hh hm hs hn hi
  have calm : Calm s.inputs := by rw [hi]; rfl
  have body := executeBody_timedOut (env := []) hm hs calm (by simp) (by simp) hi (completionWait_expired rfl hn rfl)
  refine unlockedOperation_raises (body := executeBody w) (p := .execWait) hh calm
    (l := if n = s.cfg.tAckTimeout then rest else .ticks (n - s.cfg.tAckTimeout) :: rest)
    (t := { s with
      pend := false, cseen := false, tmr := 0, clock := s.clock + s.cfg.tAckTimeout,
      trace := s.trace ++ [.arm, .send .pri w (.ok r), .timeout] }) hh.ready.idle ?_
  rw [body]
  simp [State.awaiting, State.disarm, State.emit, State.goto, State.arm, State.facing]

/-- Settles O17: the completion that comes first is latched by the armed wait, and the one in the last tick ends it. -/
theorem completionEndsWait : Obligations.CompletionEndsWait := by
  intro s q w r rest hh hm hs
  refine ⟨fun hc hi => ?latched, fun hi => ?lastTick⟩
  case latched =>
    have calm : Calm s.inputs := by rw [hi]; rfl
    have body := executeBody_completed (env := [.completion]) hm hs calm (by simp [Input.isLifecycle])
      (by simp [Input.answer?]) hi (completionWait_latched hc rfl)
    refine unlockedOperation_returns (body := executeBody w) (p := .execLatch) hh calm
      (t := { s with
        resp := r, lastResp := r, lastTs := s.now % 2 ^ s.cfg.tsW, lastValid := true, pend := false, cseen := false,
        tmr := 0, trace := s.trace ++ [.arm, .completion, .send .pri w (.ok r)] }) hh.ready.idle ?_
    rw [body]
    simp [State.awaiting, State.disarm, State.emit, State.goto, State.arm, State.latch, State.timestamp, State.deliver,
      State.completion, State.facing]
  case lastTick =>
    have calm : Calm s.inputs := by rw [hi]; rfl
    have hk := (taken_of_configOk hh.ready.lawful).ackTimeout
    have body := executeBody_completed (env := []) hm hs calm (by simp) (by simp) hi (completionWait_lastTick rfl hk rfl)
    refine unlockedOperation_returns (body := executeBody w) (p := .execLatch) hh calm
      (t := { s with
        resp := r, lastResp := r, lastTs := s.now % 2 ^ s.cfg.tsW, lastValid := true, pend := false, cseen := false,
        tmr := 0, clock := s.clock + s.cfg.tAckTimeout, trace := s.trace ++ [.arm, .send .pri w (.ok r), .completion] })
      hh.ready.idle ?_
    rw [body]
    simp [State.awaiting, State.disarm, State.emit, State.goto, State.arm, State.latch, State.timestamp,
      State.completion, State.facing]

end Sys2Proof.Machine
end

section
/-!
PROOFS. Family 41_command_engine.md: READ_REGISTER (O19), WRITE_REGISTER (O20), and where they stop (O21).
-/

namespace Sys2Proof.Machine

variable {s : State} {q : Nat} {id value r0 r1 : Word} {dir : Direction} {d : Descriptor} {rest : List Input}

/-! ### The message that ENCODE leaves -/

/-- R120: the message of a register access, in either direction, stands in `WBUF`. -/
def State.encoded (s : State) (d : Descriptor) (value : Word) (dir : Direction) : State :=
  s.message (messageLane0 d value dir) (messageLane1 d value dir) d.messageLength

theorem encodeMessage_encoded (hd : lookup s.cfg id = some d) :
    encodeMessage id value dir s = .ok () ((s.encoded d value dir).goto .encode) :=
  encodeMessage_some hd

/-! ### The message sent lane by lane -/

theorem State.messageSent_of_eight (h : s.msglen = 8) :
    s.messageSent r0 r1 = (s.answered .pri s.x0 r0).answered .pri s.x1 r1 := if_pos h

theorem State.messageSent_of_ne_eight (h : s.msglen ≠ 8) : s.messageSent r0 r1 = s.answered .pri s.x0 r0 := if_neg h

@[simp] theorem State.messageSent_seq (s : State) (r0 r1 : Word) : (s.messageSent r0 r1).seq = s.seq := by
  unfold State.messageSent; split <;> simp

@[simp] theorem State.messageSent_freeCount (s : State) (r0 r1 : Word) :
    (s.messageSent r0 r1).freeCount = s.freeCount := by
  unfold State.messageSent; split <;> simp

/-- The phase and the inputs bear on nothing else that a message leaves. -/
@[simp] theorem State.messageSent_facing (s : State) (p : Phase) (l : List Input) (r0 r1 : Word) :
    (s.facing p l).messageSent r0 r1 = (s.messageSent r0 r1).facing p l := by
  by_cases h : s.msglen = 8 <;> simp [State.messageSent, h]

/-- R150, R153: a message whose lane 0 is answered comes down to lane 1, if there is one. -/
theorem sendMessage_first (hi : s.inputs = sendScript s.cmode s.x0 r0 ++ rest) :
    ∃ p, sendMessage s = if s.msglen = 8 then
      (execProcedure s.x1 .pri ((s.answered .pri s.x0 r0).facing p rest)).bind fun _ s => .ok () s
      else .ok () ((s.answered .pri s.x0 r0).facing p rest) := by
  refine ⟨if srBit s.x0 then .execSend else .execLatch, ?_⟩
  rw [sendMessage, execProcedure_answered hi, Res.bind_ok, State.answered_msglen, State.answered_x1]
  rfl

/-- R150, R153: a message whose every lane is answered. -/
theorem sendMessage_answered (hi : s.inputs = s.messageScript r0 r1 ++ rest) :
    ∃ p, sendMessage s = .ok () ((s.messageSent r0 r1).facing p rest) := by
  rw [State.messageScript, List.append_assoc] at hi
  obtain ⟨p, first⟩ := sendMessage_first hi
  rw [first]
  by_cases hlen : s.msglen = 8
  · have second := execProcedure_answered (w := s.x1) (r := r1) (route := .pri) (rest := rest)
      (s := (s.answered .pri s.x0 r0).facing p (sendScript s.cmode s.x1 r1 ++ rest)) (by simp)
    rw [if_pos hlen, if_pos hlen, State.messageSent_of_eight hlen, second, State.answered_facing]
    exact ⟨_, rfl⟩
  · rw [if_neg hlen, if_neg hlen, State.messageSent_of_ne_eight hlen]
    exact ⟨_, rfl⟩

/-! ### A register access that is answered -/

/-- Listings R150, R153: what both bodies begin with: ENCODE and the message; `next` is what is left to do. -/
def registerAccess (id value : Word) (dir : Direction) (next : State → Res (Option Value)) (s : State) :
    Res (Option Value) :=
  (encodeMessage id value dir s).bind fun _ s => (sendMessage s).bind fun _ s => next s

theorem exec_readRegister (q : Nat) (id : Word) (s : State) :
    exec (.readRegister q id) s = unlockedOperation q (registerAccess id 0 .read readValue) s := rfl

theorem exec_writeRegister (q : Nat) (id value : Word) (s : State) :
    exec (.writeRegister q id value) s = unlockedOperation q (registerAccess id value .write (.ok none)) s := rfl

theorem exec_readRegisterLocked (q : Nat) (id : Word) (s : State) : exec (.readRegisterLocked q id) s =
    lockedOperation q (encode (.readRegisterLocked q id)) (registerAccess id 0 .read readValue) s := rfl

theorem exec_writeRegisterLocked (q : Nat) (id value : Word) (s : State) : exec (.writeRegisterLocked q id value) s =
    lockedOperation q (encode (.writeRegisterLocked q id value)) (registerAccess id value .write (.ok none)) s := rfl

section
variable {next : State → Res (Option Value)} {v : Option Value} {t : State}

/-- R150, R153: an access whose every lane is answered comes down to what follows its message. -/
theorem registerAccess_answered (hd : lookup s.cfg id = some d)
    (hi : s.inputs = (s.encoded d value dir).messageScript r0 r1 ++ rest) :
    ∃ p, registerAccess id value dir next s = next (((s.encoded d value dir).messageSent r0 r1).facing p rest) := by
  obtain ⟨p, sent⟩ := sendMessage_answered (s := (s.encoded d value dir).facing .encode s.inputs) hi
  have encoded : encodeMessage id value dir s = .ok () ((s.encoded d value dir).facing .encode s.inputs) :=
    encodeMessage_encoded hd
  rw [State.messageSent_facing, State.facing_facing] at sent
  exact ⟨p, by rw [registerAccess, encoded, Res.bind_ok, sent, Res.bind_ok]⟩

theorem unlockedAccess_returns (hh : s.Holder q) (hd : lookup s.cfg id = some d)
    (hi : s.inputs = (s.encoded d value dir).messageScript r0 r1 ++ rest)
    (hn : ∀ p, next (((s.encoded d value dir).messageSent r0 r1).facing p rest) = .ok v (t.facing p rest))
    (ht : t.seq = .idle) :
    unlockedOperation q (registerAccess id value dir next) s =
      .next (State.returned { t with inputs := rest } q (HRes.ofValue v)) := by
  obtain ⟨p, h⟩ := registerAccess_answered (next := next) hd hi
  exact unlockedOperation_returns hh (by rw [hi]; rfl) ht (h.trans (hn p))

theorem lockedAccess_returns (hp : s.Public q) (hc : Calm rest) (hd : lookup s.cfg id = some d)
    (hi : s.inputs = .answer (.resume true) :: ((s.encoded d value dir).messageScript r0 r1 ++ rest))
    (hn : ∀ p, next ((((s.opened q).encoded d value dir).messageSent r0 r1).facing p rest) = .ok v (t.facing p rest))
    (ht : t.seq = .idle) (self : Frame) :
    lockedOperation q self (registerAccess id value dir next) s =
      .next ((State.closed { t with inputs := rest } q).returned q (HRes.ofValue v)) := by
  have facing (l : List Input) : ((s.opened q).facing .gateResume l).encoded d value dir =
      ((s.opened q).encoded d value dir).facing .gateResume l := rfl
  obtain ⟨p, h⟩ := registerAccess_answered (next := next) (value := value) (dir := dir) (r0 := r0) (r1 := r1)
    (s := (s.opened q).facing .gateResume ((s.encoded d value dir).messageScript r0 r1 ++ rest)) hd rfl
  rw [facing, State.messageSent_facing, State.facing_facing] at h
  exact lockedOperation_returns hp hc hi rfl ht (h.trans (hn p))
end

/-! ### The value of a register read -/

/-- R151: the low half of the cached response. -/
theorem readValue_cached (h : s.lastValid = true) (l : List Input) (p : Phase) :
    readValue (s.facing p l) = .ok (some (.word (zext32 (low s.lastResp)))) (s.facing p l) := if_pos h

/-- R152 (log entry 7): a free half where there is none. -/
theorem readValue_uncached {n : Nat} (h : s.lastValid = false) (hn : s.freeCount = n) (l : List Input) (p : Phase) :
    readValue (s.facing p l) =
      .ok (some (.word (zext32 (Config.freeHalf n)))) (State.facing { s with freeCount := n + 1 } p l) := by
  subst hn
  exact if_neg (by simp [h])

/-- Settles O19: both variants run one access, whose message leaves the cache that the value is read from. -/
theorem readRegisterReturnsLowHalf : Obligations.ReadRegisterReturnsLowHalf := by
  intro s q id r0 r1 d rest hr hd
  have hlen := messageLength_cases hr.lawful hd
  rw [← message_read hlen s 0, ← message_read hlen (s.opened q) 0, exec_readRegister, exec_readRegisterLocked]
  have idle := (State.messageSent_seq (s.encoded d 0 .read) r0 r1).trans hr.idle
  have idleOpened := (State.messageSent_seq ((s.opened q).encoded d 0 .read) r0 r1).trans hr.idle
  have count := State.messageSent_freeCount (s.encoded d 0 .read) r0 r1
  have countOpened := State.messageSent_freeCount ((s.opened q).encoded d 0 .read) r0 r1
  refine ⟨fun hl hv hi => ⟨fun hvalid => ?cached, fun hvalid => ⟨Config.freeHalf s.freeCount, ?uncached⟩⟩,
    fun hl hc hi => ⟨fun hvalid => ?lockedCached, fun hvalid => ⟨Config.freeHalf s.freeCount, ?lockedUncached⟩⟩⟩
  case cached =>
    have h := unlockedAccess_returns ⟨hr, hl, hv⟩ hd hi (readValue_cached hvalid rest) idle
    exact h
  case uncached =>
    have h := unlockedAccess_returns ⟨hr, hl, hv⟩ hd hi (readValue_uncached hvalid count rest) idle
    exact h
  case lockedCached =>
    have h := lockedAccess_returns ⟨hr, hl⟩ hc hd hi (readValue_cached hvalid rest) idleOpened
    exact h _
  case lockedUncached =>
    have h := lockedAccess_returns ⟨hr, hl⟩ hc hd hi (readValue_uncached hvalid countOpened rest) idleOpened
    exact h _

/-- Settles O20: both variants run one access, after which nothing is left to do. -/
theorem writeRegisterSendsMessage : Obligations.WriteRegisterSendsMessage := by
  intro s q id value r0 r1 d rest hr hd
  have hlen := messageLength_cases hr.lawful hd
  rw [← message_write hlen s value, ← message_write hlen (s.opened q) value, exec_writeRegister,
    exec_writeRegisterLocked]
  refine ⟨fun hl hv hi => ?unlocked, fun hl hc hi => ?locked⟩
  case unlocked =>
    exact unlockedAccess_returns ⟨hr, hl, hv⟩ hd hi (fun _ => rfl) ((State.messageSent_seq _ _ _).trans hr.idle)
  case locked =>
    exact lockedAccess_returns ⟨hr, hl⟩ hc hd hi (fun _ => rfl) ((State.messageSent_seq _ _ _).trans hr.idle) _

/-! ### A register access that fails -/

section
variable {bad : BadCommand}

/-- R154: a message whose lane 0 fails. -/
theorem sendMessage_bad (hp : bad.Possible s.cmode s.x0) (hi : s.inputs = bad.script s.cfg ++ rest) :
    ∃ p, sendMessage s = .err bad.error ((s.failed .pri s.x0 bad).facing p rest) := by
  rw [sendMessage, execProcedure_bad hp hi, Res.bind_err]
  exact ⟨_, rfl⟩

/-- R154: a message whose lane 0 is answered and whose lane 1 fails. -/
theorem sendMessage_answered_bad (hlen : s.msglen = 8) (hp : bad.Possible s.cmode s.x1)
    (hi : s.inputs = sendScript s.cmode s.x0 r0 ++ (bad.script s.cfg ++ rest)) :
    ∃ p, sendMessage s = .err bad.error (((s.answered .pri s.x0 r0).failed .pri s.x1 bad).facing p rest) := by
  obtain ⟨p, first⟩ := sendMessage_first hi
  have second := execProcedure_bad (w := s.x1) (route := .pri) (rest := rest)
    (s := (s.answered .pri s.x0 r0).facing p (bad.script s.cfg ++ rest)) (by simpa using hp) (by simp)
  rw [first, if_pos hlen, second, State.failed_facing, Res.bind_err]
  exact ⟨_, rfl⟩

/-- R154: an access ends with the error that its message ends with. -/
theorem registerAccess_raises {next : State → Res (Option Value)} {e : Err} {t : State} {p : Phase} (hh : s.Holder q)
    (hc : Calm s.inputs) (hd : lookup s.cfg id = some d) (ht : t.seq = .idle)
    (hm : sendMessage ((s.encoded d value dir).facing .encode s.inputs) = .err e (t.facing p rest)) :
    unlockedOperation q (registerAccess id value dir next) s =
      .next (State.returned { t with inputs := rest } q (HRes.ofErr e)) := by
  have encoded : encodeMessage id value dir s = .ok () ((s.encoded d value dir).facing .encode s.inputs) :=
    encodeMessage_encoded hd
  refine unlockedOperation_raises (p := p) hh hc ht ?_
  rw [registerAccess, encoded, Res.bind_ok, hm, Res.bind_err]
end

/-- Listings R150, R153: reading and writing a register are each an access, whose message ENCODE leaves. -/
theorem exec_registerAccess {m : State} {i : Instr} (hlen : d.messageLength = 4 ∨ d.messageLength = 8)
    (hmem : (i, m) ∈ [(Instr.readRegister q id, s.readMessage d), (.writeRegister q id value, s.writeMessage d value)]) :
    ∃ v dir next, m = s.encoded d v dir ∧ exec i s = unlockedOperation q (registerAccess id v dir next) s := by
  simp only [List.mem_cons, List.not_mem_nil, or_false, Prod.mk.injEq] at hmem
  rcases hmem with ⟨rfl, rfl⟩ | ⟨rfl, rfl⟩
  · exact ⟨0, .read, readValue, (message_read hlen s 0).symm, exec_readRegister q id s⟩
  · exact ⟨value, .write, .ok none, (message_write hlen s value).symm, exec_writeRegister q id value s⟩

/-- R144, R147: a command that fails begins with its send's answer, so nothing falls before it. -/
theorem BadCommand.calm_script (bad : BadCommand) (c : Config) (rest : List Input) : Calm (bad.script c ++ rest) := by
  cases bad <;> rfl

/-- Settles O21: the message of the access ends at its first lane that fails. -/
theorem registerAccessAbortsOnFailure : Obligations.RegisterAccessAbortsOnFailure := by
  intro s m q id value r0 d bad rest i hh hd hmem
  obtain ⟨v, dir, next, rfl, hexec⟩ := exec_registerAccess (messageLength_cases hh.ready.lawful hd) hmem
  rw [hexec]
  refine ⟨fun hp hi => ?first, fun hlen hp hi => ?second⟩
  case first =>
    obtain ⟨p, hm⟩ := sendMessage_bad (s := (s.encoded d v dir).facing .encode s.inputs) hp hi
    rw [State.failed_facing, State.facing_facing] at hm
    exact registerAccess_raises hh (hi ▸ bad.calm_script _ _) hd ((State.failed_seq _ _ _ _).trans hh.ready.idle) hm
  case second =>
    obtain ⟨p, hm⟩ := sendMessage_answered_bad (s := (s.encoded d v dir).facing .encode s.inputs) hlen hp hi
    rw [State.answered_facing, State.failed_facing, State.facing_facing] at hm
    have idle : ((s.encoded d v dir).answered .pri (s.encoded d v dir).x0 r0).seq = .idle :=
      (State.answered_seq _ _ _ _).trans hh.ready.idle
    exact registerAccess_raises hh (calm_of_sendScript hi) hd ((State.failed_seq _ _ _ _).trans idle) hm

end Sys2Proof.Machine
end

section
/-!
PROOFS. Family 42_gate.md, the layer beneath: what any part of an operation does with the lock: nothing, whatever the operation
is, so that under a held lock its events are legal (R182); and it never goes to `Idle`, which the end of an operation does.
-/

namespace Sys2Proof.Machine

variable {α β : Type} {r : Res α} {l : Lock} {q : Nat} {s t u : State}

/-! ### The discipline of the trace -/

/-- R182: the events of a trace one after the other. -/
theorem lockAfter_append (xs ys : List Event) (l : Lock) :
    lockAfter (xs ++ ys) l = (lockAfter xs l).bind (lockAfter ys) := by
  induction xs generalizing l with
  | nil => rfl
  | cons e rest ih => simp only [List.cons_append, lockAfter, ih, Option.bind_assoc]

/-- R182: a legal event at the end of a trace that the lock serialises. -/
theorem lockAfter_concat {es : List Event} {e : Event} {l' m : Lock} (h : lockAfter es m = some l)
    (he : lockAfterEvent l e = some l') : lockAfter (es ++ [e]) m = some l' := by
  rw [lockAfter_append, h]
  simp [lockAfter, he]

/-- R182: completion signals come from outside, whoever holds the lock. -/
theorem lockAfter_completions (n : Nat) (l : Lock) : lockAfter (List.replicate n .completion) l = some l := by
  induction n with
  | zero => rfl
  | succ n ih => exact ih

/-! ### The relation -/

/-- R182: the trace is serialised by the lock, which stands at `l`. -/
def State.Under (l : Lock) (s : State) : Prop := s.lock = l ∧ s.Serialised

theorem State.Serialised.under (h : s.Serialised) : s.Under s.lock := ⟨rfl, h⟩

/-- An event after which the lock stands at `l'`. -/
theorem State.Under.event {l' : Lock} {e : Event} (h : s.Under l) (he : lockAfterEvent l e = some l') (hl : t.lock = l')
    (ht : t.trace = s.trace ++ [e]) : t.Under l' := by
  obtain ⟨rfl, hs⟩ := h
  refine ⟨hl, ?_⟩
  rw [State.Serialised, ht, hl]
  exact lockAfter_concat hs he

/-- No event. -/
theorem State.Under.silent (h : s.Under l) (hl : t.lock = l) (ht : t.trace = s.trace) : t.Under l := by
  obtain ⟨rfl, hs⟩ := h
  refine ⟨hl, ?_⟩
  rw [State.Serialised, ht, hl]
  exact hs

/-- Between `s` and `t` an operation goes on under the lock at `l`: the lock does not change hands, what is done is legal
under it, and the engine does not become idle. -/
structure Steady (l : Lock) (s t : State) : Prop where
  under : s.Under l → t.Under l
  busy : s.seq ≠ .idle → t.seq ≠ .idle

theorem Steady.trans (h : Steady l s t) (k : Steady l t u) : Steady l s u := ⟨k.under ∘ h.under, k.busy ∘ h.busy⟩

theorem Steady.goto {p : Phase} (hp : p ≠ .idle) : Steady l s (s.goto p) := ⟨id, fun _ => hp⟩

/-- An event that is legal under the lock and leaves it. -/
theorem Steady.event {e : Event} (he : lockAfterEvent l e = some l) (hl : t.lock = s.lock)
    (ht : t.trace = s.trace ++ [e]) (hs : t.seq = s.seq) : Steady l s t where
  under h := h.event he (hl.trans h.1) ht
  busy h := hs ▸ h

theorem Steady.emit {e : Event} (he : lockAfterEvent l e = some l) : Steady l s (s.emit e) :=
  .event he rfl rfl rfl

/-- R276: what the outside world does meanwhile leaves the lock alone. -/
theorem Passed.steady (p : Passed s t) : Steady l s t where
  under := fun ⟨hl, hs⟩ => by
    obtain ⟨n, hn⟩ := p.events
    refine ⟨p.lock.trans hl, ?_⟩
    rw [State.Serialised, hn, lockAfter_append, hs, p.lock]
    exact lockAfter_completions n s.lock
  busy h := p.seq ▸ h

/-! ### Procedures -/

/-- A procedure started in `s` is steady under the lock at `l`, wherever it ends. -/
def Res.Steadies (r : Res α) (l : Lock) (s : State) : Prop := r.Leaves (Steady l s) (Steady l s)

/-- A procedure that ends where it starts. -/
theorem Res.Steadies.done {v : α} : (Res.ok v s).Steadies l s := ⟨id, id⟩
theorem Res.Steadies.failed {e : Err} : (Res.err e s : Res α).Steadies l s := ⟨id, id⟩

theorem Res.Steadies.ok {v : α} (h : Steady l s t) : (Res.ok v t).Steadies l s := h
theorem Res.Steadies.err {e : Err} (h : Steady l s t) : (Res.err e t : Res α).Steadies l s := h

/-- What leads to the start of a procedure comes before it. -/
theorem Res.Steadies.of_steady (h : r.Steadies l t) (k : Steady l s t) : r.Steadies l s :=
  Res.Leaves.mono h (fun _ => k.trans) (fun _ => k.trans)

theorem Res.Steadies.bind {f : α → State → Res β} (h : r.Steadies l s) (hf : ∀ v t, (f v t).Steadies l t) :
    (r.bind f).Steadies l s :=
  Res.Leaves.bind h (fun _ => id) fun v t k => (hf v t).of_steady k

theorem Res.Steadies.after {f : State → Res Unit} (h : r.Steadies l s) (hf : ∀ t, (f t).Steadies l t) :
    (r.after f).Steadies l s :=
  Res.Leaves.after h fun t k => (hf t).of_steady k

theorem Res.Steadies.ite {c : Prop} [Decidable c] {r' : Res α} (h : r.Steadies l s) (h' : r'.Steadies l s) :
    (if c then r else r').Steadies l s := by
  split
  · exact h
  · exact h'

/-! ### Time, calls, waits and delays -/

theorem pause_steady : (pause s).Steadies l s := by
  rcases pause_cases s with ⟨t, h, p⟩ | h <;> rw [h]
  · exact p.steady
  · trivial

theorem awaitAnswer_steady (want : Answer → Option α) (is : List Input) : (awaitAnswer want is s).Steadies l s := by
  rcases awaitAnswer_cases want is s with ⟨v, t, h, p⟩ | ⟨t, h, p, -⟩ | h <;> rw [h]
  · exact p.steady
  · exact p.steady
  · trivial

theorem callSend_steady (route : Route) (w : Word) : (callSend route w s).Steadies (.held q) s :=
  (awaitAnswer_steady _ _).bind fun _ _ => .ok (.emit rfl)

theorem callResume_steady : (callResume s).Steadies (.held q) s :=
  (awaitAnswer_steady _ _).bind fun _ _ => .ok (.emit rfl)

/-- R42: the calls on the stream interface, whose answer may be the Transport's error. -/
theorem transportCall_steady (want : Answer → Option (Ans α)) {ev : Ans α → Event}
    (he : ∀ a, lockAfterEvent l (ev a) = some l) :
    ((awaitAnswer want s.inputs s).bind fun a s => transportResult a (s.emit (ev a))).Steadies l s :=
  (awaitAnswer_steady _ _).bind fun a _ => by
    cases a with
    | ok v => exact .ok (.emit (he _))
    | err e => exact .err (.emit (he _))

theorem callHbwWrite_steady (bytes : List Byte) : (callHbwWrite bytes s).Steadies (.held q) s :=
  transportCall_steady _ fun _ => rfl
theorem callHbwRead_steady (n : Nat) : (callHbwRead n s).Steadies (.held q) s := transportCall_steady _ fun _ => rfl
theorem callRdb_steady (len : Word) (block : Half) : (callRdb len block s).Steadies (.held q) s :=
  transportCall_steady _ fun _ => rfl
theorem callWake_steady : (callWake s).Steadies (.held q) s := transportCall_steady _ fun _ => rfl

theorem openChannel_steady : (openChannel s).Steadies (.held q) s :=
  .ite ((awaitAnswer_steady _ _).bind fun _ _ => .ok (.emit rfl)) .done

theorem closeChannel_steady : (closeChannel s).Steadies (.held q) s :=
  .ite ((awaitAnswer_steady _ _).bind fun _ _ => .ok (.emit rfl)) .done

theorem completionWait_steady (n : Nat) : (completionWait n s).Steadies l s := by
  have wait {t : State} (p : Passed s { t with tmr := s.tmr }) : Steady l s t := p.steady.trans ⟨id, id⟩
  rcases completionWait_cases n s with ⟨t, h, p⟩ | ⟨t, h, p, -⟩ | ⟨t, h, p⟩ | h <;> rw [h]
  · exact wait p
  · exact wait p
  · exact wait p
  · trivial

theorem delayTicks_steady (n : Nat) : (delayTicks n s).Steadies (.held q) s := by
  have delayed {u t : State} (p : Passed s u) (p' : Passed (u.emit (.delay n)) { t with dly := s.dly }) :
      Steady (.held q) s t := ((p.steady.trans (.emit rfl)).trans p'.steady).trans ⟨id, id⟩
  rcases delayTicks_cases n s with ⟨u, t, p, h, p', -⟩ | ⟨u, t, p, h, p'⟩ | h <;> rw [h]
  · exact delayed p p'
  · exact delayed p p'
  · trivial

/-! ### EXEC, the codec and the Command Engine -/

theorem execArmed_steady (w : Word) : Steady (.held q) s ((execArmed w s).goto .execSend) := by
  unfold execArmed
  split
  · have armed : Steady (.held q) s s.arm := .event (e := .arm) rfl rfl rfl rfl
    exact ⟨armed.under, fun _ => Phase.noConfusion⟩
  · exact ⟨id, fun _ => Phase.noConfusion⟩

theorem execWaited_steady (w : Word) (seen : Bool) : (execWaited w seen s).Steadies (.held q) s :=
  .ite (.ok ⟨id, fun _ => Phase.noConfusion⟩) (.err (.event (e := .timeout) rfl rfl rfl rfl))

theorem execAnswered_steady (mode : CMode) (w : Word) (a : Ans Word) :
    (execAnswered mode w a s).Steadies (.held q) s := by
  cases a with
  | err e => exact .err ⟨id, id⟩
  | ok w =>
    refine .ite .done ?_
    cases mode with
    | poll => exact .ok ⟨id, fun _ => Phase.noConfusion⟩
    | interrupt =>
      exact ((completionWait_steady _).of_steady (.goto Phase.noConfusion)).bind fun seen _ => execWaited_steady w seen

theorem execProcedure_steady (w : Word) (route : Route) : (execProcedure w route s).Steadies (.held q) s :=
  pause_steady.bind fun _ t => ((callSend_steady route w).of_steady (execArmed_steady w)).bind fun a _ =>
    execAnswered_steady t.cmode w a

theorem encodeMessage_steady (reg value : Word) (dir : Direction) : (encodeMessage reg value dir s).Steadies l s := by
  cases hd : lookup s.cfg reg with
  | none => rw [encodeMessage_none hd]; exact .err (.goto Phase.noConfusion)
  | some d => rw [encodeMessage_some hd]; exact .ok ⟨id, fun _ => Phase.noConfusion⟩

/-- R131: ENCODE and DECODE make no event, so they need no lock. -/
theorem encodeBody_steady (reg value : Word) (dir : Direction) : (encodeBody reg value dir s).Steadies l s :=
  (encodeMessage_steady reg value dir).bind fun _ _ => .done

theorem decodeBody_steady (reg : Word) : (decodeBody reg s).Steadies l s := by
  have value : (decodeMessage reg s).Steadies l s := by
    unfold decodeMessage
    split
    · exact .failed
    · exact .ite .done (.ok ⟨id, id⟩)
  exact value.bind fun _ _ => .done

theorem executeBody_steady (w : Word) : (executeBody w s).Steadies (.held q) s :=
  (execProcedure_steady w .pri).bind fun _ _ => .done

theorem sendMessage_steady : (sendMessage s).Steadies (.held q) s :=
  (execProcedure_steady s.x0 .pri).bind fun _ t => .ite ((execProcedure_steady t.x1 .pri).bind fun _ _ => .done) .done

theorem readRegisterBody_steady (reg : Word) : (readRegisterBody reg s).Steadies (.held q) s :=
  (encodeMessage_steady reg 0 .read).bind fun _ _ => sendMessage_steady.bind fun _ _ => .ite .done (.ok ⟨id, id⟩)

theorem writeRegisterBody_steady (reg value : Word) : (writeRegisterBody reg value s).Steadies (.held q) s :=
  (encodeMessage_steady reg value .write).bind fun _ _ => sendMessage_steady.bind fun _ _ => .done

/-! ### Block read -/

theorem rdbCommand_steady (block : Half) : (rdbCommand block s).Steadies (.held q) s :=
  (execProcedure_steady _ .hbw).of_steady (.goto Phase.noConfusion)

theorem rdbCheck_steady (w : Word) : (rdbCheck w s).Steadies l s := by
  have checked : s.seq ≠ .idle → (Phase.rbCheck ≠ .idle) := fun _ => Phase.noConfusion
  exact .ite (.ite (.ok ⟨id, checked⟩) (.err ⟨id, checked⟩)) (.err ⟨id, checked⟩)

theorem readLoop_steady (buf : Word) (n : Nat) : (readLoop buf n s).Steadies (.held q) s := by
  induction n generalizing s with
  | zero => exact .done
  | succ n ih =>
    exact .ite (((callHbwRead_steady _).of_steady (.goto Phase.noConfusion)).bind fun _ _ => ih.of_steady ⟨id, id⟩) .done

theorem drain_steady : (drain s).Steadies (.held q) s :=
  .ite .done (((callHbwRead_steady _).of_steady (.goto Phase.noConfusion)).bind fun _ _ => .done)

theorem readTransfer_steady (buf : Word) (block : Half) : (readTransfer buf block s).Steadies (.held q) s :=
  (rdbCommand_steady block).bind fun _ t => (rdbCheck_steady t.resp).bind fun _ t =>
    (readLoop_steady buf t.xfer.toNat).bind fun _ _ => drain_steady.bind fun _ _ => .done

theorem readBlockBody_steady (buf len block : Word) : (readBlockBody buf len block s).Steadies (.held q) s := by
  have start : Steady (.held q) s (s.startRead len) := ⟨id, fun _ => Phase.noConfusion⟩
  exact .ite (((callRdb_steady len _).of_steady (.goto Phase.noConfusion)).bind fun _ _ => .ok ⟨id, id⟩)
    ((openChannel_steady.of_steady start).bind fun _ _ =>
      (readTransfer_steady buf _).after fun _ => closeChannel_steady.of_steady (.goto Phase.noConfusion))

/-! ### Block write -/

theorem wdbCommand_steady : (wdbCommand s).Steadies (.held q) s := execProcedure_steady _ .hbw

theorem wdbCheck_steady (w : Word) : (wdbCheck w s).Steadies l s :=
  .ite (.ok (.goto Phase.noConfusion)) (.err (.goto Phase.noConfusion))

theorem ackLoop_steady (n : Nat) : (ackLoop n s).Steadies (.held q) s := by
  induction n generalizing s with
  | zero => exact .failed
  | succ n ih =>
    have read : (ackRead s).Steadies (.held q) s :=
      ((callHbwRead_steady 4).of_steady (.goto Phase.noConfusion)).bind fun _ _ => .ok ⟨id, id⟩
    refine read.bind fun _ t => ?_
    split
    · exact .done
    · exact .failed
    · exact ((delayTicks_steady _).of_steady (.goto Phase.noConfusion)).bind fun _ _ => ih

theorem interchunk_steady (first : Bool) : (interchunk first s).Steadies (.held q) s :=
  .ite .done ((delayTicks_steady _).of_steady (.goto Phase.noConfusion))

theorem writeChunk_steady (buf : Word) : (writeChunk buf s).Steadies (.held q) s := by
  have next : Steady (.held q) s s.nextChunk := ⟨id, fun _ => Phase.noConfusion⟩
  have count (t : State) : Steady (.held q) t (t.countFrom 0) := ⟨id, id⟩
  exact (wdbCommand_steady.of_steady next).bind fun _ t => (wdbCheck_steady t.resp).bind fun _ _ =>
    ((callHbwWrite_steady _).of_steady (.goto Phase.noConfusion)).bind fun _ t =>
      ((ackLoop_steady _).of_steady (count t)).bind fun _ _ => .ok ⟨id, id⟩

theorem writeChunks_steady (buf : Word) (n : Nat) (first : Bool) : (writeChunks buf n first s).Steadies (.held q) s := by
  induction n generalizing s first with
  | zero => exact .done
  | succ n ih =>
    exact .ite .done ((interchunk_steady first).bind fun _ _ => (writeChunk_steady buf).bind fun _ _ => ih false)

theorem writeBlockBody_steady (buf len : Word) : (writeBlockBody buf len s).Steadies (.held q) s := by
  have start : Steady (.held q) s (s.startWrite len) := ⟨id, fun _ => Phase.noConfusion⟩
  exact (openChannel_steady.of_steady start).bind fun _ _ =>
    (writeChunks_steady buf len.toNat true).after fun _ => closeChannel_steady.of_steady (.goto Phase.noConfusion)

/-! ### Wakeup -/

theorem wakeClock_steady : (wakeClock s).Steadies (.held q) s :=
  .ite ((pause_steady.of_steady (.goto Phase.noConfusion)).bind fun _ _ => (delayTicks_steady _).of_steady (.emit rfl))
    (.ok (.goto Phase.noConfusion))

theorem wakeArm_steady : (wakeArm s).Steadies (.held q) s :=
  .ite (pause_steady.bind fun _ _ => .ok (.event (e := .arm) rfl rfl rfl rfl)) .done

theorem wakeToggle_steady : (wakeToggle s).Steadies (.held q) s := by
  refine .ite (pause_steady.bind fun _ _ => .ok (.emit rfl)) ?_
  have h : (callWake s).Steadies (.held q) s := callWake_steady
  cases hr : callWake s <;> rw [hr] at h
  case ok v t => exact .ok h
  case err e t => exact .err (Steady.trans h ⟨id, id⟩)
  case hung t => exact h
  case stop x => trivial

theorem wakeSignal_steady : (wakeSignal s).Steadies (.held q) s := by
  have signaling : Steady (.held q) s ((s.goto .wk2Signal).enter .signaling) :=
    ⟨id, fun _ => Phase.noConfusion⟩
  exact (wakeArm_steady.of_steady signaling).bind fun _ _ => wakeToggle_steady

theorem wakeWaited_steady (seen : Bool) : (wakeWaited seen s).Steadies (.held q) s :=
  .ite (.ok ⟨id, id⟩) (.err (.event (e := .timeout) rfl rfl rfl rfl))

theorem wakeAwait_steady : (wakeAwait s).Steadies (.held q) s := by
  have awaiting : Steady (.held q) s ((s.goto .wk3Await).enter .awaitingAck) :=
    ⟨id, fun _ => Phase.noConfusion⟩
  exact Res.Steadies.of_steady
    (.ite ((completionWait_steady _).bind fun seen _ => wakeWaited_steady seen) (delayTicks_steady _)) awaiting

theorem statusCommand_steady (w : Word) : (statusCommand w s).Steadies (.held q) s :=
  (execProcedure_steady w .pri).bind fun _ _ => .ite .done .failed

theorem wakeConfirm_steady : (wakeConfirm s).Steadies (.held q) s :=
  .ite ((statusCommand_steady _).of_steady (.goto Phase.noConfusion)) .done

theorem wakeIrq_steady : (wakeIrq s).Steadies (.held q) s :=
  .ite (((execProcedure_steady _ .pri).of_steady (.goto Phase.noConfusion)).bind fun _ _ => .ok ⟨id, id⟩) .done

theorem syncCommand_steady (w : Word) : (syncCommand w s).Steadies (.held q) s :=
  (execProcedure_steady w .pri).bind fun _ _ => .ite .done .failed

theorem wakeEcho_steady : (wakeEcho s).Steadies (.held q) s :=
  (syncCommand_steady _).of_steady ⟨id, fun _ => Phase.noConfusion⟩

theorem wakeAttempt_steady : (wakeAttempt s).Steadies (.held q) s :=
  wakeClock_steady.bind fun _ _ => wakeSignal_steady.bind fun _ _ => wakeAwait_steady.bind fun _ _ =>
    wakeConfirm_steady.bind fun _ _ => wakeIrq_steady.bind fun _ _ => wakeEcho_steady

theorem muteCommand_steady (w : Word) : (muteCommand w s).Steadies (.held q) s := by
  have h : (execProcedure w .pri s).Steadies (.held q) s := execProcedure_steady w .pri
  unfold muteCommand
  cases hr : execProcedure w .pri s <;> rw [hr] at h
  case ok v t => exact .ok h
  case err e t => exact .err (Steady.trans h ⟨id, id⟩)
  case hung t => exact h
  case stop x => trivial

theorem wakeReady_steady : (wakeReady s).Steadies (.held q) s := by
  have ready : Steady (.held q) s ((s.goto .wk6Mute).enter .ready) :=
    ⟨id, fun _ => Phase.noConfusion⟩
  exact ((muteCommand_steady _).of_steady ready).bind fun _ _ => .done

theorem wakeLoop_steady (n : Nat) : (wakeLoop n s).Steadies (.held q) s := by
  induction n generalizing s with
  | zero => exact .err ⟨id, id⟩
  | succ n ih =>
    have h : (wakeAttempt s.startAttempt).Steadies (.held q) s := wakeAttempt_steady.of_steady ⟨id, id⟩
    unfold wakeLoop
    cases hr : wakeAttempt s.startAttempt <;> rw [hr] at h
    case ok v t => exact wakeReady_steady.of_steady h
    case err e t =>
      have failed : Steady (.held q) s (t.failAttempt e) := Steady.trans h ⟨id, fun _ => Phase.noConfusion⟩
      exact .ite (.err (failed.trans ⟨id, id⟩)) (ih.of_steady failed)
    case hung t => exact h
    case stop x => trivial

theorem wakeupBody_steady : (wakeupBody s).Steadies (.held q) s := (wakeLoop_steady _).of_steady ⟨id, id⟩

/-! ### The wire rows -/

theorem noValue_steady {r : Res Unit} (h : r.Steadies l s) : (noValue r).Steadies l s := h.bind fun _ _ => .done

theorem responseValue_steady {r : Res (Option Word)} (h : r.Steadies l s) : (responseValue r).Steadies l s :=
  h.bind fun _ _ => .done

theorem sendCommand_steady (w : Word) : (sendCommand w s).Steadies (.held q) s :=
  (execProcedure_steady w .pri).bind fun _ _ => .done

theorem wdbAckBody_steady (a : Word) : (wdbAckBody a s).Steadies (.held q) s := by
  have counted : Steady (.held q) s (s.counted.takeAck a) := by rw [State.counted_eq]; exact ⟨id, id⟩
  unfold wdbAckBody
  split
  · exact .ok (counted.trans ⟨id, id⟩)
  · exact .err counted
  · exact noValue_steady ((delayTicks_steady _).of_steady (counted.trans (.goto Phase.noConfusion)))

end Sys2Proof.Machine
end

section
/-!
PROOFS. Family 42_gate.md: from the bodies to the step, and that every step keeps the trace serialised by the lock (O54).
-/

namespace Sys2Proof.Machine

variable {α : Type} {r : Res α} {l : Lock} {q : Nat} {s t : State}

/-! ### The gate -/

/-- A steady procedure that starts under the lock at `l` ends under it. -/
theorem Res.Steadies.under (h : r.Steadies l s) (hs : s.Under l) : r.Leaves (State.Under l) (State.Under l) :=
  Res.Leaves.mono h (fun _ k => k.under hs) (fun _ k => k.under hs)

/-- The trace is serialised wherever a procedure ends. -/
def Res.Serialises (r : Res α) : Prop := r.Leaves State.Serialised State.Serialised

theorem State.Under.serialised (h : s.Under l) : s.Serialised := h.2

/-- After a steady part, the rest starts under the same lock. -/
theorem Res.Steadies.bind_serialises {β : Type} {f : α → State → Res β} (h : r.Steadies l s) (hs : s.Under l)
    (hf : ∀ v t, t.Under l → (f v t).Serialises) : (r.bind f).Serialises :=
  Res.Leaves.bind (Res.Leaves.mono (h.under hs) (fun _ => id) fun _ => State.Under.serialised)
    (fun _ => State.Under.serialised) hf

/-- R171 (a): a free lock is granted. -/
theorem State.Under.grant (h : s.Under .free) (q : Nat) : (s.grant q).Under (.held q) :=
  h.event (e := .lockGrant q) rfl rfl rfl

/-- R175: the holder's lock is released. -/
theorem State.Under.unlock (h : s.Under (.held q)) : (s.unlock q).Under .free :=
  h.event (e := .lockRelease q) (if_pos rfl) rfl rfl

theorem unlockStep_serialises (h : s.Under (.held q)) : (unlockStep q s).Serialises :=
  pause_steady.bind_serialises h fun _ _ ht => ht.unlock.serialised

theorem releaseSteps_serialises (h : s.Under (.held q)) : (releaseSteps q s).Serialises :=
  pause_steady.bind_serialises h fun _ _ ht => unlockStep_serialises (ht.event (e := .releaseAutosuspend) rfl ht.1 rfl)

theorem begun_steady {body : State → Res (Option Value)} (hb : ∀ t, (body t).Steadies l t) : (begun body s).Steadies l s :=
  pause_steady.bind fun _ => hb

/-- R171: the gate grants a free lock, and releases it after a body that is steady under it. -/
theorem gate_serialises {body : State → Res (Option Value)} (hb : ∀ t, (body t).Steadies (.held q) t)
    (h : s.Under .free) : (gate q body s).Serialises := by
  refine pause_steady.bind_serialises h fun _ t ht => ?_
  refine callResume_steady.bind_serialises (ht.grant q) fun ok u hu => ?_
  split
  · have voted : State.Under (.held q) { u with pvote := true } := hu
    exact Res.Leaves.after (Res.Leaves.mono ((begun_steady hb).under voted) (fun _ => id) fun _ => State.Under.serialised)
      fun _ => releaseSteps_serialises
  · exact Res.Leaves.bind (unlockStep_serialises hu) (fun _ => id) fun _ _ => id

/-! ### Operations -/

/-- R270: the end of an operation is no event. -/
theorem finish_serialised {r : Res (Option Value)} (hr : r.Serialises) (h : finish q r = .next t) : t.Serialised := by
  rcases finish_next h with ⟨v, u, rfl, rfl⟩ | ⟨e, u, rfl, rfl⟩ | rfl
  · exact hr
  · exact hr
  · exact hr

section
variable {body : State → Res (Option Value)} (hs : s.Serialised)
include hs

theorem begun_serialises (hb : ∀ u, (body u).Steadies s.lock u) : (begun body s).Serialises :=
  Res.Leaves.mono ((begun_steady hb).under hs.under) (fun _ => State.Under.serialised) fun _ => State.Under.serialised

theorem codecOperation_serialised (hb : ∀ u, (body u).Steadies s.lock u) (h : codecOperation q body s = .next t) :
    t.Serialised :=
  finish_serialised (begun_serialises hs hb) (codecOperation_next h).2

variable (hb : ∀ p u, (body u).Steadies (.held p) u)
include hb

/-- R177: what a holder's operation does, it does under the holder's lock. -/
theorem holderOperation_serialised (hh : s.Holder q) (h : finish q (begun body s) = .next t) : t.Serialised :=
  finish_serialised (begun_serialises hs (hh.2.1 ▸ hb q)) h

theorem unlockedOperation_serialised (h : unlockedOperation q body s = .next t) : t.Serialised :=
  have ⟨hh, hf⟩ := unlockedOperation_next h
  holderOperation_serialised hs hb hh hf

theorem wireOperation_serialised (h : wireOperation body s = .next t) : t.Serialised :=
  have ⟨_, hh, hf⟩ := wireOperation_next h
  holderOperation_serialised hs hb hh hf

theorem ownWord_serialised {own : Bool} (h : ownWord own body s = .next t) : t.Serialised :=
  have ⟨_, _, hh, hf⟩ := ownWord_next h
  holderOperation_serialised hs hb hh hf

theorem lockedOperation_serialised {self : Frame} (h : lockedOperation q self body s = .next t) : t.Serialised := by
  rcases lockedOperation_next h with ⟨⟨-, hl⟩, hf⟩ | ⟨_, _, _, _, rfl⟩
  · exact finish_serialised (gate_serialises (hb q) ⟨hl, hs⟩) hf
  · exact hs
end

/-- R182: every instruction keeps the trace serialised. -/
theorem exec_serialised {i : Instr} (hs : s.Serialised) (h : exec i s = .next t) : t.Serialised := by
  cases i with
  | execute q w => exact unlockedOperation_serialised hs (fun _ _ => executeBody_steady w) h
  | readRegister q id => exact unlockedOperation_serialised hs (fun _ _ => readRegisterBody_steady id) h
  | writeRegister q id value => exact unlockedOperation_serialised hs (fun _ _ => writeRegisterBody_steady id value) h
  | writeBlock q buf len => exact unlockedOperation_serialised hs (fun _ _ => writeBlockBody_steady buf len) h
  | readBlock q buf len id => exact unlockedOperation_serialised hs (fun _ _ => readBlockBody_steady buf len id) h
  | wakeup q => exact unlockedOperation_serialised hs (fun _ _ => wakeupBody_steady) h
  | encode q id value dir => exact codecOperation_serialised hs (fun _ => encodeBody_steady id value dir) h
  | decode q id => exact codecOperation_serialised hs (fun _ => decodeBody_steady id) h
  | executeLocked q w => exact lockedOperation_serialised hs (fun _ _ => executeBody_steady w) h
  | readRegisterLocked q id => exact lockedOperation_serialised hs (fun _ _ => readRegisterBody_steady id) h
  | writeRegisterLocked q id value => exact lockedOperation_serialised hs (fun _ _ => writeRegisterBody_steady id value) h
  | writeBlockLocked q buf len => exact lockedOperation_serialised hs (fun _ _ => writeBlockBody_steady buf len) h
  | readBlockLocked q buf len id => exact lockedOperation_serialised hs (fun _ _ => readBlockBody_steady buf len id) h
  | wakeupLocked q => exact lockedOperation_serialised hs (fun _ _ => wakeupBody_steady) h
  | reservedE q => cases h
  | reservedF q => cases h
  | cw32Generic w => exact wireOperation_serialised hs (fun _ _ => executeBody_steady w) h
  | wdbCmd opcode size =>
    have chunk (p : Nat) (u : State) : Steady (.held p) u { u.goto .wbCmd with chunk := size } :=
      ⟨id, fun _ => Phase.noConfusion⟩
    exact ownWord_serialised hs (fun p u => responseValue_steady (wdbCommand_steady.of_steady (chunk p u))) h
  | wdbResp r => exact wireOperation_serialised hs (fun _ _ => noValue_steady (wdbCheck_steady r)) h
  | wdbAck a => exact wireOperation_serialised hs (fun _ _ => wdbAckBody_steady a) h
  | rdbCmd opcode id => exact ownWord_serialised hs (fun _ _ => responseValue_steady (rdbCommand_steady id)) h
  | rdbResp r => exact wireOperation_serialised hs (fun _ _ => noValue_steady (rdbCheck_steady r)) h
  | statusQuery w =>
    exact ownWord_serialised hs (fun _ _ => noValue_steady ((statusCommand_steady w).of_steady (.goto Phase.noConfusion))) h
  | syncIntr w =>
    exact ownWord_serialised hs (fun _ _ => noValue_steady ((sendCommand_steady w).of_steady (.goto Phase.noConfusion))) h
  | sync w =>
    exact ownWord_serialised hs (fun _ _ => noValue_steady ((syncCommand_steady w).of_steady (.goto Phase.noConfusion))) h
  | smoothMuteZero w =>
    exact ownWord_serialised hs (fun _ _ => noValue_steady ((sendCommand_steady w).of_steady (.goto Phase.noConfusion))) h
  | regMsgLane w => exact wireOperation_serialised hs (fun _ _ => noValue_steady (sendCommand_steady w)) h

/-! ### Inputs to an idle engine, and the step -/

theorem deliver_serialised (hs : s.Serialised) (i : Input) : (s.deliver i).Serialised :=
  ((Passed.deliver s i).steady.under hs.under).serialised

/-- R181 (log entry 12): the host's taking of the lock is a grant of a free lock. -/
theorem holdLock_serialised (hs : s.Serialised) (q : Nat) : (s.holdLock q).Serialised := by
  unfold State.holdLock
  split
  · next hc =>
    have free : s.Under .free := ⟨hc.2.1, hs⟩
    exact (free.event (e := .lockGrant q) rfl rfl rfl).serialised
  · exact hs

/-- R175, R181: the host gives back what its holder holds. -/
theorem dropLock_serialised (hs : s.Serialised) (q : Nat) : (s.dropLock q).Serialised := by
  unfold State.dropLock
  split
  · next hl =>
    have held : s.Under (.held q) := ⟨hl, hs⟩
    exact (held.event (e := .lockRelease q) (if_pos rfl) rfl rfl).serialised
  · exact hs

/-- R301 (log entry 21): a detach under a holder is a release. -/
theorem State.Under.detach (h : s.Under l) : s.detach.Under .free := by
  have hl : s.lock = l := h.1
  cases l with
  | free => exact h.silent rfl (by rw [State.detach_trace, hl]; exact List.append_nil _)
  | held q => exact h.event (e := .lockRelease q) (if_pos rfl) rfl (by rw [State.detach_trace, hl]; rfl)

theorem fillBuffer_serialised (hs : s.Serialised) (buf off : Word) (bytes : List Byte) :
    (s.fillBuffer buf off bytes).Serialised := by
  rw [s.fillBuffer_frame]
  exact hs

/-- R301: a new attach finds the lock free, as the detach left it. -/
theorem State.Under.reattach (h : s.Under .free) (c : Config) : (s.reattach c).Under .free := h.silent rfl rfl

theorem idleInput_serialised {i : Input} (hi : s.Inv) (hs : s.Serialised) (h : idleInput i s = .next t) :
    t.Serialised := by
  cases i with
  | attach c =>
    simp only [idleInput] at h
    split at h
    · cases h
    · next ha => cases h; exact (State.Under.reattach ⟨(hi.detached_free (by simpa using ha)).1, hs⟩ c).serialised
  | fillBuffer buf off bytes => cases h; exact fillBuffer_serialised hs buf off bytes
  | holdLock q => cases h; exact holdLock_serialised hs q
  | dropLock q => cases h; exact dropLock_serialised hs q
  | detach => cases h; exact hs.under.detach.serialised
  | completion => cases h; exact deliver_serialised hs .completion
  | ticks n => cases h; exact deliver_serialised hs (.ticks n)
  | tickCompletion => cases h; exact deliver_serialised hs .tickCompletion
  | delayEnds => cases h; exact deliver_serialised hs .delayEnds
  | advanceNow d => cases h; exact deliver_serialised hs (.advanceNow d)
  | stepTakes n => cases h; exact deliver_serialised hs (.stepTakes n)
  | request f => cases h; exact deliver_serialised hs (.request f)
  | answer a => cases h; exact deliver_serialised hs (.answer a)

/-! ### The request that is run -/

/-- R40, R176: a fetched request is one of the eligible ones, and leaves the list. -/
theorem fetch_eq_some {f : Frame} (h : fetch s = some (f, t)) :
    f ∈ s.requests.filter (eligible s) ∧ t = { s with requests := s.requests.erase f, freeCount := s.freeCount + 1 } := by
  unfold fetch at h
  split at h
  · next g hg => cases h; exact ⟨List.mem_of_getElem? hg, rfl⟩
  · cases h

/-- R176, U9: whatever the free value, the arbiter chooses one of the requests. -/
theorem arbitrate_lt {n : Nat} (hn : 0 < n) (count : Nat) : arbitrate n count < n := by
  unfold arbitrate
  split
  · exact hn
  · exact Nat.mod_lt _ hn

/-- R176: where some request is eligible, one is fetched. -/
theorem fetch_of_eligible {f : Frame} (h : f ∈ s.requests.filter (eligible s)) : ∃ g t, fetch s = some (g, t) := by
  have chosen := List.getElem?_eq_getElem (arbitrate_lt (List.length_pos_of_mem h) s.freeCount)
  exact ⟨_, _, by rw [fetch, chosen]⟩

/-- Settles O5: what is fetched comes from the list of the eligible requests, and every such list has a choice. -/
theorem fetchChoosesEligibleRequest : Obligations.FetchChoosesEligibleRequest :=
  ⟨fun _ _ _ h => List.mem_filter.1 (fetch_eq_some h).1, fun _ _ hf he => fetch_of_eligible (List.mem_filter.2 ⟨hf, he⟩)⟩

/-! ### The step -/

theorem runFrame_serialised {f : Frame} (hs : s.Serialised) (h : runFrame f s = .next t) : t.Serialised := by
  unfold runFrame at h
  split at h
  · exact exec_serialised hs h
  · cases h

/-- Settles O54: a step runs a request, takes an input or sits, and each of them keeps the trace serialised. -/
theorem traceStaysSerialised : Obligations.TraceStaysSerialised := by
  intro s t hi hs h
  unfold step at h
  split at h
  case isFalse => cases h
  case isTrue =>
    split at h
    · next f u hf =>
      have fetched : u.Serialised := by rw [(fetch_eq_some hf).2]; exact hs
      exact runFrame_serialised fetched h
    · split at h
      · cases h; exact hs
      · next i rest _ =>
        have used : State.Inv { s with inputs := rest } := { hi with }
        exact idleInput_serialised used hs h

end Sys2Proof.Machine
end

section
/-!
PROOFS. Family 42_gate.md, the layer beneath: the six pairs of an unlocked operation and its locked variant (R180), with the one
body both run, which does not depend on the phase it is started in.
-/

namespace Sys2Proof.Machine

variable {q : Nat} {s t : State}

/-! ### The pairs -/

/-- R180: `LockedVariant q u l body`: `u` is an unlocked operation of requester `q`, `l` its locked variant, and both run
`body`. -/
inductive LockedVariant (q : Nat) : Instr → Instr → (State → Res (Option Value)) → Prop where
  | execute (w : Word) : LockedVariant q (.execute q w) (.executeLocked q w) (executeBody w)
  | readRegister (id : Word) : LockedVariant q (.readRegister q id) (.readRegisterLocked q id) (readRegisterBody id)
  | writeRegister (id value : Word) :
    LockedVariant q (.writeRegister q id value) (.writeRegisterLocked q id value) (writeRegisterBody id value)
  | writeBlock (buf len : Word) :
    LockedVariant q (.writeBlock q buf len) (.writeBlockLocked q buf len) (writeBlockBody buf len)
  | readBlock (buf len id : Word) :
    LockedVariant q (.readBlock q buf len id) (.readBlockLocked q buf len id) (readBlockBody buf len id)
  | wakeup : LockedVariant q (.wakeup q) (.wakeupLocked q) wakeupBody

/-- R180: the six pairs of requester `q`, by their operands. -/
def variantsOf (q : Nat) (w id value buf len : Word) : List (Instr × Instr) :=
  [(.execute q w, .executeLocked q w), (.readRegister q id, .readRegisterLocked q id),
    (.writeRegister q id value, .writeRegisterLocked q id value), (.writeBlock q buf len, .writeBlockLocked q buf len),
    (.readBlock q buf len id, .readBlockLocked q buf len id), (.wakeup q, .wakeupLocked q)]

theorem lockedVariant_of_mem {w id value buf len : Word} {u l : Instr} (h : (u, l) ∈ variantsOf q w id value buf len) :
    ∃ body, LockedVariant q u l body := by
  simp only [variantsOf, List.mem_cons, List.not_mem_nil, or_false, Prod.mk.injEq] at h
  rcases h with ⟨rfl, rfl⟩ | ⟨rfl, rfl⟩ | ⟨rfl, rfl⟩ | ⟨rfl, rfl⟩ | ⟨rfl, rfl⟩ | ⟨rfl, rfl⟩
  exacts [⟨_, .execute w⟩, ⟨_, .readRegister id⟩, ⟨_, .writeRegister id value⟩, ⟨_, .writeBlock buf len⟩,
    ⟨_, .readBlock buf len id⟩, ⟨_, .wakeup⟩]

/-- R180: every locked operation is one of a pair. -/
theorem lockedVariant_of_mem_locked (q : Nat) (w id value buf len : Word) {l : Instr}
    (h : l ∈ (variantsOf q w id value buf len).map Prod.snd) : ∃ u body, LockedVariant q u l body := by
  obtain ⟨⟨u, l⟩, hmem, rfl⟩ := List.mem_map.1 h
  exact ⟨u, lockedVariant_of_mem hmem⟩

/-- R177: every unlocked operation is one of a pair. -/
theorem lockedVariant_of_mem_unlocked (q : Nat) (w id value buf len : Word) {u : Instr}
    (h : u ∈ (variantsOf q w id value buf len).map Prod.fst) : ∃ l body, LockedVariant q u l body := by
  obtain ⟨⟨u, l⟩, hmem, rfl⟩ := List.mem_map.1 h
  exact ⟨l, lockedVariant_of_mem hmem⟩

section
variable {u l : Instr} {body : State → Res (Option Value)} (h : LockedVariant q u l body)
include h

theorem LockedVariant.exec_unlocked (s : State) : exec u s = unlockedOperation q body s := by
  cases h <;> rfl

theorem LockedVariant.exec_locked (s : State) : exec l s = lockedOperation q (encode l) body s := by
  cases h <;> rfl

theorem LockedVariant.steady (p : Nat) (s : State) : (body s).Steadies (.held p) s := by
  cases h with
  | execute w => exact executeBody_steady w
  | readRegister id => exact readRegisterBody_steady id
  | writeRegister id value => exact writeRegisterBody_steady id value
  | writeBlock buf len => exact writeBlockBody_steady buf len
  | readBlock buf len id => exact readBlockBody_steady buf len id
  | wakeup => exact wakeupBody_steady
end

/-! ### The phase in which a body is started -/

theorem State.deliver_goto (s : State) (p : Phase) (i : Input) : (s.goto p).deliver i = (s.deliver i).goto p := by
  cases i <;> rfl

theorem takeInputs_goto (n : Nat) (is : List Input) (s : State) (p : Phase) :
    takeInputs n is (s.goto p) = (takeInputs n is s).bind fun v t => .ok v (t.goto p) := by
  induction n generalizing is s with
  | zero => rfl
  | succ n ih =>
    cases is with
    | nil => rfl
    | cons i rest =>
      simp only [takeInputs, State.deliver_goto, ih]
      split <;> rfl

/-- R315: what falls in the time of a step does not depend on the phase. -/
theorem pause_goto (s : State) (p : Phase) : pause (s.goto p) = (pause s).bind fun v t => .ok v (t.goto p) := by
  unfold pause
  rw [State.goto_inputs]
  split
  · rfl
  · split
    · exact takeInputs_goto _ _ s p
    · rfl

/-- A step that sets its phase, after its time. -/
theorem pause_goto_bind {α : Type} {f : Unit → State → Res α} {p : Phase}
    (hf : ∀ t, t.cfg = s.cfg → f () (t.goto p) = f () t) : (pause (s.goto p)).bind f = (pause s).bind f := by
  rw [pause_goto]
  rcases pause_cases s with ⟨t, h, k⟩ | h <;> rw [h]
  · exact hf t k.cfg
  · rfl

theorem execArmed_goto (w : Word) (s : State) (p : Phase) : execArmed w (s.goto p) = execArmed w s := rfl

/-- R140: EXEC sets its phase. -/
theorem execProcedure_goto (w : Word) (route : Route) (s : State) (p : Phase) :
    execProcedure w route (s.goto p) = execProcedure w route s :=
  pause_goto_bind fun _ _ => by rw [execArmed_goto, State.goto_cmode]

/-- R230: so does an attempt, and there is at least one. -/
theorem wakeupBody_goto (hb : 1 ≤ s.cfg.wakeBudget) (p : Phase) : wakeupBody (s.goto p) = wakeupBody s := by
  obtain ⟨n, hn⟩ := Nat.exists_eq_add_of_le' hb
  simp only [wakeupBody, State.goto_cfg, hn]
  rfl

/-- R27: every body sets its phase before anything depends on it. -/
theorem LockedVariant.body_goto {u l : Instr} {body : State → Res (Option Value)} (h : LockedVariant q u l body)
    (hc : configOk s.cfg = true) (p : Phase) : body (s.goto p) = body s := by
  cases h with
  | execute w => simp only [executeBody, execProcedure_goto]
  | readRegister id => rfl
  | writeRegister id value => rfl
  | writeBlock buf len => rfl
  | readBlock buf len id => rfl
  | wakeup => exact wakeupBody_goto (taken_of_configOk hc).budget p

end Sys2Proof.Machine
end

section
/-!
PROOFS. Family 42_gate.md: what a locked operation does when it finds the lock free (O23, O25, O26), and when a locked or an
unlocked operation is not run (O27, O28, O29).
-/

namespace Sys2Proof.Machine

variable {q : Nat} {s t : State} {body : State → Res (Option Value)} {self : Frame} {rest : List Input}

/-! ### Operations that do not run -/

/-- R178: the holder's own locked operation. -/
theorem lockedOperation_holder (hr : s.Ready q) (hl : s.lock = .held q) :
    lockedOperation q self body s = .fault .selfDeadlock := by
  unfold lockedOperation
  rw [notAdmitted_eq_none.2 hr, hl]
  exact if_pos rfl

/-- R176: a locked operation under another requester's lock. -/
theorem lockedOperation_waits {p : Nat} (hr : s.Ready q) (hl : s.lock = .held p) (hp : p ≠ q) :
    lockedOperation q self body s = .next { s with requests := s.requests ++ [self] } := by
  unfold lockedOperation
  rw [notAdmitted_eq_none.2 hr, hl]
  exact if_neg hp

/-- R179: an unlocked operation without the lock or without a vote. -/
theorem unlockedOperation_refused (hr : s.Ready q) (hl : ¬(s.lock = .held q ∧ s.pvote = true)) :
    unlockedOperation q body s = .refused .unlockedWithoutLock := by
  unfold unlockedOperation
  rw [notAdmitted_eq_none.2 hr]
  exact if_neg hl

/-- Settles O27: the gate finds the lock with the requester itself. -/
theorem lockedByHolderIsStuck : Obligations.LockedByHolderIsStuck := by
  intro s q w id value buf len i hi hr hl
  obtain ⟨_, body, h⟩ := lockedVariant_of_mem_locked q w id value buf len hi
  rw [h.exec_locked, lockedOperation_holder hr hl]

/-- Settles O28: the gate finds the lock with another requester. -/
theorem lockedRequestWaits : Obligations.LockedRequestWaits := by
  intro s q p w id value buf len i hi hr hl hp
  obtain ⟨_, body, h⟩ := lockedVariant_of_mem_locked q w id value buf len hi
  rw [h.exec_locked, lockedOperation_waits hr hl hp]

/-- Settles O29: the holder's two possessions are asked for before the body is run. -/
theorem unlockedWithoutLockIsRefused : Obligations.UnlockedWithoutLockIsRefused := by
  intro s q w id value buf len i hi hr hl
  obtain ⟨_, body, h⟩ := lockedVariant_of_mem_unlocked q w id value buf len hi
  rw [h.exec_unlocked, unlockedOperation_refused hr hl]

/-! ### A resume that fails -/

/-- R173, R183: a failed resume leaves its three events and the error, and the lock as free as it was. -/
theorem lockedOperation_resumeFailed (hp : s.Public q) (hc : Calm rest)
    (hi : s.inputs = .answer (.resume false) :: rest) :
    lockedOperation q self body s = .next { s with
      inputs := rest, trace := s.trace ++ [.lockGrant q, .resume false, .lockRelease q],
      results := s.results ++ [(q, HRes.ofErr .powerResumeFailed)] } := by
  rw [lockedOperation_public hp, gate_refused hc hi, ← hp.2]
  exact congrArg Host.Outcome.next (endOperation_eq_returned
    (s := { s with inputs := rest, trace := s.trace ++ [.lockGrant q, .resume false, .lockRelease q] }) hp.1.idle
    .gateUnlock q _)

/-- Settles O25: the body is not run. -/
theorem resumeFailureAborts : Obligations.ResumeFailureAborts := by
  intro s q w id value buf len rest i hi hp hc hin
  obtain ⟨_, body, h⟩ := lockedVariant_of_mem_locked q w id value buf len hi
  rw [h.exec_locked, lockedOperation_resumeFailed hp hc hin]

/-! ### After a locked operation -/

/-- R172: the lock is free and no vote is held. -/
def State.Released (s : State) : Prop := s.lock = .free ∧ s.pvote = false

theorem Passed.pvote (p : Passed s t) : t.pvote = s.pvote := by rw [p.frame]

/-- R175: the lock given back, where there is no vote. -/
theorem unlockStep_releases {H : State → Prop} (hv : s.pvote = false) : (unlockStep q s).Leaves State.Released H := by
  unfold unlockStep
  rcases pause_cases s with ⟨t, h, p⟩ | h <;> rw [h]
  · exact ⟨rfl, p.pvote.trans hv⟩
  · trivial

/-- R174, R175: the vote and the lock given back. -/
theorem releaseSteps_releases {H : State → Prop} : (releaseSteps q s).Leaves State.Released H := by
  unfold releaseSteps
  rcases pause_cases s with ⟨t, h, -⟩ | h <;> rw [h]
  · exact unlockStep_releases rfl
  · trivial

/-- R172: the gate releases on every exit; only an operation that is suspended for good, in a phase of its own, has not come
so far. -/
theorem gate_releases (hb : ∀ p u, (body u).Steadies (.held p) u) (hv : s.pvote = false) :
    (gate q body s).Leaves State.Released (fun t => t.seq ≠ .idle) := by
  unfold gate
  rcases pause_cases s with ⟨t, h, p⟩ | h <;> rw [h]
  case inr => trivial
  rcases callResume_cases (t.grant q) with ⟨ok, u, h, p'⟩ | ⟨u, h, p'⟩ | h <;> rw [Res.bind_ok, h]
  · rw [Res.bind_ok]
    have resuming : u.seq ≠ .idle := by rw [p'.seq]; exact Phase.noConfusion
    split
    · exact Res.Leaves.after (P := fun _ => True)
        (Res.Leaves.mono (begun_steady (hb q)) (fun _ _ => trivial) fun _ k => k.busy resuming)
        fun _ _ => releaseSteps_releases
    · have voteless : u.pvote = false := p'.pvote.trans (p.pvote.trans hv)
      exact Res.Leaves.bind (unlockStep_releases (s := u.emit (.resume ok)) voteless) (fun _ => id) fun _ _ => id
  · show u.seq ≠ .idle
    rw [p'.seq]
    exact Phase.noConfusion
  · trivial

/-- Settles O26: with the lock free there was no vote, and an operation that has returned has left the gate. -/
theorem lockedOperationReleases : Obligations.LockedOperationReleases := by
  intro s t q w id value buf len i hi hp hinv hexec hidle
  obtain ⟨_, body, h⟩ := lockedVariant_of_mem_locked q w id value buf len hi
  rw [h.exec_locked, lockedOperation_public hp] at hexec
  have voteless : s.pvote = false := by simpa [hp.2] using hinv.vote_locked
  have left : (gate q body s).Leaves State.Released (fun t => t.seq ≠ .idle) := gate_releases h.steady voteless
  rcases finish_next hexec with ⟨v, u, hg, rfl⟩ | ⟨e, u, hg, rfl⟩ | hg <;> rw [hg] at left
  · exact left
  · exact left
  · exact absurd hidle left

/-! ### A locked operation around its body -/

/-- R171, R172, R180: after a granted resume the locked operation runs the body as the unlocked operation of the holder does,
then releases where the body returned. -/
theorem LockedVariant.wraps {u l : Instr} {v : State} (h : LockedVariant q u l body) (hp : s.Public q)
    (hi : s.inputs = .answer (.resume true) :: rest) (hu : exec u { s.opened q with inputs := rest } = .next v)
    (hc : Calm v.inputs) : exec l s = .next (if v.seq = .idle then v.closed q else v) := by
  rw [h.exec_unlocked] at hu
  obtain ⟨-, hf⟩ := unlockedOperation_next hu
  have same : begun body (State.goto { s.opened q with inputs := rest } .gateResume) =
      begun body { s.opened q with inputs := rest } :=
    pause_goto_bind fun u hcfg => h.body_goto (hcfg ▸ hp.1.lawful) _
  have busy : (begun body { s.opened q with inputs := rest }).Steadies (.held q)
      (State.goto { s.opened q with inputs := rest } .gateResume) := same ▸ begun_steady (h.steady q)
  have gated : gate q body s = (begun body { s.opened q with inputs := rest }).after (releaseSteps q) :=
    same ▸ gate_resumed hi
  rw [h.exec_locked, lockedOperation_public hp, gated]
  rcases finish_next hf with ⟨x, u, hr, rfl⟩ | ⟨e, u, hr, rfl⟩ | hr
  · have calm : Calm u.inputs := hc
    rw [State.endOperation_seq, if_pos rfl, hr, Res.after_ok, releaseSteps_calm calm]
    rfl
  · have calm : Calm u.inputs := hc
    rw [State.endOperation_seq, if_pos rfl, hr, Res.after_err, releaseSteps_calm calm]
    rfl
  · rw [hr] at busy
    have suspended : v.seq ≠ .idle := Steady.busy busy Phase.noConfusion
    rw [if_neg suspended, hr, Res.after_hung]
    rfl

/-- Settles O23: each pair runs one body. -/
theorem lockedWrapsUnlocked : Obligations.LockedWrapsUnlocked := by
  intro s v q rest u l hpair hp hi hu hc
  obtain ⟨body, h⟩ : ∃ body, LockedVariant q u l body := by
    simp only [List.mem_singleton, Prod.mk.injEq] at hpair
    rcases hpair with ⟨rfl, rfl⟩ | ⟨w, rfl, rfl⟩ | ⟨id, rfl, rfl⟩ | ⟨id, value, rfl, rfl⟩ | ⟨buf, len, rfl, rfl⟩ |
      ⟨buf, len, id, rfl, rfl⟩
    exacts [⟨_, .wakeup⟩, ⟨_, .execute w⟩, ⟨_, .readRegister id⟩, ⟨_, .writeRegister id value⟩, ⟨_, .writeBlock buf len⟩,
      ⟨_, .readBlock buf len id⟩]
  exact h.wraps hp hi hu hc

end Sys2Proof.Machine
end

section
/-!
PROOFS. Family 43_block_write.md: the response and acknowledgement rows of the wire, run by themselves (O48, O49).
-/

namespace Sys2Proof.Machine

/-- R283: a delay that the outside world ends begins with its ticks, so nothing falls before it. -/
theorem calm_delayScript {n : Nat} {l : List Input} (h : Calm l) : Calm (delayScript n ++ l) := by
  unfold delayScript
  split
  · exact h
  · rfl

/-! ### The verdict on an acknowledgement word -/

section
variable {s : State}

/-- R201: the expected word is accepted, at whatever read it comes. -/
theorem ackVerdict_accepted (hw : s.ackw = wdbAckWord s.cfg) : s.ackVerdict = .accepted := if_pos hw

/-- R202: a wrong word at the last read ends the reads. -/
theorem ackVerdict_exhausted (hw : s.ackw ≠ wdbAckWord s.cfg) (hn : s.ackcnt = s.cfg.ackMaxAttempts) :
    s.ackVerdict = .exhausted := (if_neg hw).trans (if_pos hn)

/-- R202: a wrong word before it is followed by another read. -/
theorem ackVerdict_retry (hw : s.ackw ≠ wdbAckWord s.cfg) (hn : s.ackcnt ≠ s.cfg.ackMaxAttempts) :
    s.ackVerdict = .retry := (if_neg hw).trans (if_neg hn)
end

/-! ### The checks of the two responses -/

/-- R91, R196: the opcode field of a word is its upper 16 bits, all of them. -/
theorem ushiftRight_eq_setWidth_iff (r : Word) (o : Half) : r >>> 16 = o.setWidth 32 ↔ opc r = o := by
  refine ⟨fun h => ?_, fun h => ?_⟩
  · show (r >>> 16).setWidth 16 = o
    simp [h]
  · subst h
    have hlt : r.toNat >>> 16 < 2 ^ 16 := by rw [Nat.shiftRight_eq_div_pow]; omega
    refine BitVec.eq_of_toNat_eq ?_
    simp only [opc, highHalf, BitVec.toNat_setWidth, BitVec.toNat_ushiftRight]
    omega

/-- R214: a legal size is neither 0 nor off the 4-byte grid. -/
theorem sizeLegal_iff (d : Half) : sizeLegal d = true ↔ d.toNat ≠ 0 ∧ d.toNat % 4 = 0 := by
  rw [sizeLegal, Bool.and_eq_true, decide_eq_true_eq, decide_eq_true_eq, ne_eq, ← BitVec.toNat_inj]
  rfl

/-- R215: the transfer length is the lesser of the two lengths. -/
theorem transferLength_eq (reqlen : Word) (d : Half) :
    transferLength reqlen d = BitVec.ofNat 32 (min reqlen.toNat d.toNat) := by
  have hd : (zext32 d).toNat = d.toNat := by rw [zext32, BitVec.toNat_setWidth]; omega
  rw [transferLength, minLength]
  split
  · next h => rw [Nat.min_eq_left (hd ▸ h), BitVec.ofNat_toNat, BitVec.setWidth_eq]
  · next h => rw [← hd, Nat.min_eq_right (Nat.le_of_not_le h), BitVec.ofNat_toNat, BitVec.setWidth_eq]

section
variable {s : State} {r : Word}

theorem wdbCheck_accepted (h : opc r = s.cfg.opcWdb) : wdbCheck r s = .ok () (s.goto .wbCheck) := if_pos h

theorem wdbCheck_rejected (h : opc r ≠ s.cfg.opcWdb) : wdbCheck r s = .err .protocolMismatch (s.goto .wbCheck) := if_neg h

theorem rdbCheck_wrongOpcode (h : opc r ≠ s.cfg.opcRdb) : rdbCheck r s = .err .protocolMismatch (s.goto .rbCheck) :=
  if_neg h

theorem rdbCheck_illegalSize (h : opc r = s.cfg.opcRdb) (hd : ¬((low r).toNat ≠ 0 ∧ (low r).toNat % 4 = 0)) :
    rdbCheck r s = .err .invalidSize { s.goto .rbCheck with dsz := low r } :=
  (if_pos h).trans (if_neg fun legal => hd ((sizeLegal_iff _).1 legal))

theorem rdbCheck_legal (h : opc r = s.cfg.opcRdb) (hd : (low r).toNat ≠ 0 ∧ (low r).toNat % 4 = 0) :
    rdbCheck r s = .ok () { s.goto .rbCheck with
      dsz := low r, xfer := BitVec.ofNat 32 (min s.reqlen.toNat (low r).toNat),
      extra := drainLength s.reqlen (low r) } := by
  rw [← transferLength_eq]
  exact (if_pos h).trans (if_pos ((sizeLegal_iff _).2 hd))
end

/-! ### The rows -/

section
variable {s : State} {q : Nat} (hh : s.Holder q)
include hh

/-- R270, R316: a wire row that begins at once and fails leaves what its procedure leaves, and the error. -/
theorem wireOperation_raises {body : State → Res (Option Value)} {e : Err} {t : State} {p : Phase}
    (hc : Calm s.inputs) (ht : t.seq = .idle) (hb : body s = .err e { t with seq := p }) :
    wireOperation body s = .next (t.returned q (HRes.ofErr e)) := by
  rw [wireOperation_holder hh, begun_calm hc, hb]
  exact congrArg Host.Outcome.next (endOperation_eq_returned ht p q _)

/-- R196: the row of the block-write response is its check. -/
theorem execWdbResp_eq (hc : Calm s.inputs) (r : Word) : execWdbResp r s = .next (s.returned q
    (if opc r = s.cfg.opcWdb then HRes.ofValue none else HRes.ofErr .protocolMismatch)) := by
  split
  · next h =>
    refine wireOperation_returns hh hc hh.ready.idle (p := .wbCheck) ?_
    rw [wdbCheck_accepted h]
    rfl
  · next h =>
    refine wireOperation_raises hh hc hh.ready.idle (p := .wbCheck) ?_
    rw [wdbCheck_rejected h]
    rfl
end

/-- Settles O48: each row is its check, whose three outcomes for a block read exclude each other. -/
theorem responseRowsAreChecked : Obligations.ResponseRowsAreChecked := by
  intro s q r hh hc
  have idle := hh.ready.idle
  refine ⟨?write, fun ho => ?wrongOpcode, fun ho hd => ?illegalSize, fun ho hpos hmul => ?legal⟩
  case write =>
    simp only [ushiftRight_eq_setWidth_iff]
    exact execWdbResp_eq hh hc r
  case wrongOpcode =>
    refine wireOperation_raises hh hc idle (p := .rbCheck) ?_
    rw [rdbCheck_wrongOpcode ho]
    rfl
  case illegalSize =>
    refine wireOperation_raises (t := { s with dsz := low r }) hh hc idle (p := .rbCheck) ?_
    rw [rdbCheck_illegalSize ho (by omega)]
    rfl
  case legal =>
    refine wireOperation_returns (p := .rbCheck) (v := none) hh hc ?_ ?_
    · exact idle
    · rw [rdbCheck_legal ho ⟨hpos, hmul⟩]
      rfl

section
variable {s u : State} {a : Word} (hu : s.counted.takeAck a = u)
include hu

/-- R201: the row of the expected word moves the transfer on. -/
theorem wdbAckBody_accepted (hv : u.ackVerdict = .accepted) : wdbAckBody a s = .ok none u.advanceChunk := by
  subst hu
  rw [wdbAckBody, hv]

/-- R202: the row of the last wrong word fails. -/
theorem wdbAckBody_exhausted (hv : u.ackVerdict = .exhausted) : wdbAckBody a s = .err .ackTimeout u := by
  subst hu
  rw [wdbAckBody, hv]

/-- R198: the row of any other is a delay. -/
theorem wdbAckBody_retry (hv : u.ackVerdict = .retry) :
    wdbAckBody a s = noValue (delayTicks s.cfg.tAckRetry (u.goto .wbAckDelay)) := by
  subst hu
  rw [wdbAckBody, hv]
end

/-- Settles O49: one case per verdict on the word, which is the one to be counted next. -/
theorem acknowledgementRow : Obligations.AcknowledgementRow := by
  intro s u q n a rest hh hc hn hu
  have idle : u.seq = .idle := hu ▸ hh.ready.idle
  have taken : s.counted.takeAck a = u := by rw [State.counted_eq, hu, hn]; rfl
  have word : u.ackw = wdbAckWord u.cfg ↔ a = wdbAckWord s.cfg := by rw [hu]
  have last : u.ackcnt = u.cfg.ackMaxAttempts ↔ n + 1 = s.cfg.ackMaxAttempts := by rw [hu]
  refine ⟨fun ha hi => ?accepted, fun ha hlast hi => ?exhausted, fun ha hlast hi => ?retry⟩
  case accepted =>
    have hbody := wdbAckBody_accepted taken (ackVerdict_accepted (word.2 ha))
    have moved : u.advanceChunk = { u with
        moved := s.moved + s.chunk.setWidth 32, rem := s.rem - s.chunk.setWidth 32, seq := u.seq } := by rw [hu]; rfl
    exact wireOperation_returns hh (hi ▸ hc) idle (hbody.trans (congrArg _ moved))
  case exhausted =>
    exact wireOperation_raises hh (hi ▸ hc) idle
      (wdbAckBody_exhausted taken (ackVerdict_exhausted (mt word.1 ha) (last.2 hlast)))
  case retry =>
    have hbody := wdbAckBody_retry taken (ackVerdict_retry (mt word.1 ha) (mt last.1 hlast))
    have hui : (u.goto .wbAckDelay).inputs = delayScript s.cfg.tAckRetry ++ rest := by rw [hu]; exact hi
    rw [delayTicks_script (fun _ => hc) hui] at hbody
    refine ⟨_, wireOperation_returns (t := { u with
      inputs := rest, trace := u.trace ++ [.delay s.cfg.tAckRetry], clock := u.clock + s.cfg.tAckRetry,
      dly := if s.cfg.tAckRetry = 0 then u.dly else 0 }) hh ?calm idle hbody, by rw [hu]⟩
    rw [hi]
    exact calm_delayScript hc

end Sys2Proof.Machine
end

section
/-!
PROOFS. Family 43_block_write.md, the layer beneath: a block write at rest between two of its steps, and what its
acknowledgement loop and one of its chunks do when the outside world answers.
-/

namespace Sys2Proof.Machine

/-! ### What the steps of a transfer leave alone -/

/-- R190: `t` is what steps of a transfer leave of `s`: their events are `es`, the outside world has `l` still to do, and only
the phase and the registers of EXEC, of the acknowledgement loop and of the delays have moved. -/
def Ran (s t : State) (es : List Event) (l : List Input) : Prop :=
  t = { s with
    seq := t.seq, trace := s.trace ++ es, inputs := l, ackSet := t.ackSet, ackw := t.ackw, ackcnt := t.ackcnt,
    resp := t.resp, lastResp := t.lastResp, lastTs := t.lastTs, lastValid := t.lastValid, pend := t.pend,
    cseen := t.cseen, tmr := t.tmr, dly := t.dly, clock := t.clock }

section
variable {s t u : State} {es fs : List Event} {l m : List Input}

section
variable (h : Ran s t es l)
include h

theorem Ran.cfg : t.cfg = s.cfg := by rw [h]
theorem Ran.cmode : t.cmode = s.cmode := by rw [h]
theorem Ran.hbwKind : t.hbwKind = s.hbwKind := by rw [h]
theorem Ran.now : t.now = s.now := by rw [h]
theorem Ran.mem : t.mem = s.mem := by rw [h]
theorem Ran.moved : t.moved = s.moved := by rw [h]
theorem Ran.rem : t.rem = s.rem := by rw [h]
theorem Ran.chunk : t.chunk = s.chunk := by rw [h]
theorem Ran.inputs : t.inputs = l := by rw [h]
theorem Ran.trace : t.trace = s.trace ++ es := by rw [h]

theorem Ran.trans (k : Ran t u fs m) : Ran s u (es ++ fs) m := by
  unfold Ran at k
  rw [h.trace, List.append_assoc, h] at k
  exact k

theorem Ran.goto (p : Phase) : Ran s (t.goto p) es l := congrArg (State.goto · p) h
theorem Ran.facing (p : Phase) (m : List Input) : Ran s (t.facing p m) es m := congrArg (State.facing · p m) h
theorem Ran.countFrom (n : Nat) : Ran s (t.countFrom n) es l := congrArg (State.countFrom · n) h
theorem Ran.takeAck (a : Word) : Ran s (t.takeAck a) es l := congrArg (State.takeAck · a) h

/-- R12: an event, for which the outside world did the first of what it had to do. -/
theorem Ran.event (e : Event) (m : List Input) :
    Ran s { t with inputs := m, trace := t.trace ++ [e] } (es ++ [e]) m := h.trans rfl
end

/-- R148: a command that is answered moves registers of EXEC only. -/
theorem Ran.answered (s : State) (route : Route) (w r : Word) :
    Ran s (s.answered route w r) (sendEvents s.cmode route w r) s.inputs := by
  unfold State.answered sendEvents armsWait Ran
  cases hs : srBit w <;> cases hm : s.cmode <;> simp

/-- R144, R147: so does one that fails. -/
theorem Ran.failed (s : State) (route : Route) (w : Word) (bad : BadCommand) :
    Ran s (s.failed route w bad) (bad.events s.cmode route w) s.inputs := by
  cases bad <;> rfl

/-- R199, R200: the word of an acknowledgement read is the statements'. -/
theorem assembleAck_eq_ackOf (s : State) : ∀ b : List Byte, assembleAck s b = ackOf s b
  | [] => rfl
  | [_] => rfl
  | [_, _] => rfl
  | [_, _, _] => rfl
  | [b0, b1, b2, b3] => by
    show ackWord s.hbwKind s.cfg.normalize b0 b1 b2 b3 =
      if s.hbwKind = .spi then b0 ++ b1 ++ b2 ++ b3 else normalizeWord s.cfg.normalize (b3 ++ b2 ++ b1 ++ b0)
    simp only [ackWord, isSpiClass, wordOfBytes, decide_eq_true_eq]
  | _ :: _ :: _ :: _ :: _ :: _ => rfl

/-- R38: the transport and the normaliser stay. -/
theorem Ran.ackOf (h : Ran s t es l) (b : List Byte) : ackOf t b = ackOf s b := by
  unfold Machine.ackOf
  rw [h.hbwKind, h.cfg]
end

/-! ### The acknowledgement loop -/

section
variable {s t : State} {es : List Event} {l : List Input} {n : Nat}

/-- R197: a data write that the Transport answers. -/
theorem callHbwWrite_ran {a : Ans Unit} (bytes : List Byte) (h : Ran s t es (.answer (.hbwWrite a) :: l)) :
    ∃ u, callHbwWrite bytes t = transportResult a u ∧ Ran s u (es ++ [.hbwWrite bytes a]) l :=
  ⟨_, callHbwWrite_answered h.inputs, h.event _ l⟩

/-- R283: a delay that the outside world ends. -/
theorem delayTicks_ran (hc : Calm l) (h : Ran s t es (delayScript n ++ l)) :
    ∃ u, delayTicks n t = .ok () u ∧ Ran s u (es ++ [.delay n]) l ∧ u.ackcnt = t.ackcnt ∧ u.ackSet = t.ackSet :=
  ⟨_, delayTicks_script (fun _ => hc) h.inputs, h.trans rfl, rfl, rfl⟩

/-- R198: a read that is answered is counted and kept. -/
theorem ackRead_answered {b : List Byte} (hb : b.length = 4) (h : Ran s t es (.answer (.hbwRead (.ok b)) :: l)) :
    ∃ u, ackRead t = .ok () u ∧ Ran s u (es ++ [.hbwRead 4 (.ok b)]) l ∧ u.ackw = ackOf s b ∧
      u.ackcnt = t.ackcnt + 1 ∧ u.ackSet = t.ackSet := by
  have hr := (h.goto .wbAckRead).event (.hbwRead 4 (.ok b)) l
  refine ⟨_, ?_, hr.takeAck (ackOf s b), rfl, rfl, rfl⟩
  rw [ackRead, callHbwRead_answered (h.goto .wbAckRead).inputs hb, Res.bind_ok, assembleAck_eq_ackOf, hr.ackOf]

/-- R198: a wrong word below the last read is followed by a delay and another read. -/
theorem ackLoop_retry {b : List Byte} (hl : Calm l) (hb : b.length = 4 ∧ ackOf s b ≠ wdbAckWord s.cfg)
    (hn : t.ackcnt + 1 < s.cfg.ackMaxAttempts)
    (h : Ran s t es (.answer (.hbwRead (.ok b)) :: (delayScript s.cfg.tAckRetry ++ l))) :
    ∃ u, ackLoop (n + 1) t = ackLoop n u ∧ Ran s u (es ++ [.hbwRead 4 (.ok b), .delay s.cfg.tAckRetry]) l ∧
      u.ackcnt = t.ackcnt + 1 ∧ u.ackSet = t.ackSet := by
  obtain ⟨u, hread, hu, hword, hcount, hset⟩ := ackRead_answered hb.1 h
  have verdict : u.ackVerdict = .retry :=
    ackVerdict_retry (by rw [hword, hu.cfg]; exact hb.2) (by rw [hcount, hu.cfg]; omega)
  obtain ⟨v, hdelay, hv, hvcount, hvset⟩ := delayTicks_ran hl (hu.goto .wbAckDelay)
  refine ⟨v, ?_, by simpa using hv, hvcount.trans hcount, hvset.trans hset⟩
  rw [ackLoop, hread, Res.bind_ok, verdict, hu.cfg]
  exact (congrArg (Res.bind · _) hdelay).trans rfl

/-- R198: so are any number of them. -/
theorem ackLoop_wrong {wrong : List (List Byte)} (hl : Calm l)
    (hw : ∀ b ∈ wrong, b.length = 4 ∧ ackOf s b ≠ wdbAckWord s.cfg)
    (hn : t.ackcnt + wrong.length < s.cfg.ackMaxAttempts) (h : Ran s t es (wrongScript s.cfg wrong ++ l)) :
    ∃ u, ackLoop (wrong.length + n) t = ackLoop n u ∧ Ran s u (es ++ wrongEvents s.cfg wrong) l ∧
      u.ackcnt = t.ackcnt + wrong.length ∧ u.ackSet = t.ackSet := by
  induction wrong generalizing t es with
  | nil => exact ⟨t, by simp, by simpa [wrongScript, wrongEvents] using h, rfl, rfl⟩
  | cons b rest ih =>
    obtain ⟨hb, hrest⟩ := List.forall_mem_cons.1 hw
    rw [List.length_cons] at hn ⊢
    have calm : Calm (wrongScript s.cfg rest ++ l) := by cases rest <;> [exact hl; rfl]
    have script : wrongScript s.cfg (b :: rest) ++ l =
        .answer (.hbwRead (.ok b)) :: (delayScript s.cfg.tAckRetry ++ (wrongScript s.cfg rest ++ l)) := by
      simp [wrongScript]
    obtain ⟨u, hone, hu, hcount, hset⟩ := ackLoop_retry (n := rest.length + n) calm hb (by omega) (script ▸ h)
    obtain ⟨v, hloop, hv, hvcount, hvset⟩ := ih hrest (by omega) hu
    refine ⟨v, ?_, by simpa [wrongEvents] using hv, by omega, hvset.trans hset⟩
    rw [Nat.add_right_comm, hone, hloop]

/-- R201: the expected word ends the loop. -/
theorem ackLoop_accepted {b : List Byte} (h : Ran s t es (.answer (.hbwRead (.ok b)) :: l)) (hb : b.length = 4)
    (hw : ackOf s b = wdbAckWord s.cfg) :
    ∃ u, ackLoop (n + 1) t = .ok () u ∧ Ran s u (es ++ [.hbwRead 4 (.ok b)]) l ∧ u.ackSet = t.ackSet := by
  obtain ⟨u, hread, hu, hword, -, hset⟩ := ackRead_answered hb h
  have verdict : u.ackVerdict = .accepted := ackVerdict_accepted (by rw [hword, hu.cfg]; exact hw)
  exact ⟨u, by rw [ackLoop, hread, Res.bind_ok, verdict], hu, hset⟩

/-- R202: a wrong word at the last read ends it with `AckTimeout`. -/
theorem ackLoop_exhausted {b : List Byte} (h : Ran s t es (.answer (.hbwRead (.ok b)) :: l))
    (hb : b.length = 4 ∧ ackOf s b ≠ wdbAckWord s.cfg) (hn : t.ackcnt + 1 = s.cfg.ackMaxAttempts) :
    ∃ u, ackLoop (n + 1) t = .err .ackTimeout u ∧ Ran s u (es ++ [.hbwRead 4 (.ok b)]) l ∧ u.ackw = ackOf s b ∧
      u.ackcnt = s.cfg.ackMaxAttempts := by
  obtain ⟨u, hread, hu, hword, hcount, -⟩ := ackRead_answered hb.1 h
  have verdict : u.ackVerdict = .exhausted :=
    ackVerdict_exhausted (by rw [hword, hu.cfg]; exact hb.2) (by rw [hcount, hu.cfg, hn])
  exact ⟨u, by rw [ackLoop, hread, Res.bind_ok, verdict], hu, hword, hcount.trans hn⟩

/-- R198, R267: a read that fails ends it with the Transport's error. -/
theorem ackLoop_failed {e : TErr} (h : Ran s t es (.answer (.hbwRead (.err e)) :: l)) :
    ∃ u, ackLoop (n + 1) t = .err (.transport e) u ∧ Ran s u (es ++ [.hbwRead 4 (.err e)]) l ∧ u.ackcnt = t.ackcnt := by
  refine ⟨_, ?_, (h.goto .wbAckRead).event (.hbwRead 4 (.err e)) l, rfl⟩
  rw [ackLoop, ackRead, callHbwRead_failed (h.goto .wbAckRead).inputs]
  rfl
end

/-! ### The steps of a chunk -/

section
variable {b s : State} {buf r : Word} {es : List Event} {l : List Input}

/-- R94, R193: a block-write command awaits a response. -/
theorem srBit_wdbWord {c : Config} (hc : Taken c) (size : Half) : srBit (wdbWord c size) = false :=
  (srBit_wordOfHalves _ _).trans hc.wdb

/-- What the command of a chunk leaves when it is answered. -/
def State.commanded (s : State) (r : Word) (l : List Input) : State :=
  (s.answered .hbw (wdbWord s.cfg s.chunk) r).facing .execLatch l

theorem Ran.commanded (h : Ran b s es l) (r : Word) (m : List Input) :
    Ran b (s.commanded r m) (es ++ sendEvents b.cmode .hbw (wdbWord b.cfg b.chunk) r) m := by
  rw [← h.cmode, ← h.cfg, ← h.chunk]
  exact (h.trans (.answered s .hbw _ r)).facing .execLatch m

theorem State.commanded_resp (hc : Taken s.cfg) : (s.commanded r l).resp = r :=
  State.answered_resp (srBit_wdbWord hc _)

theorem wdbCommand_answered
    (h : Ran b s es (sendScript b.cmode (wdbWord b.cfg b.chunk) r ++ l)) (hc : Taken b.cfg) :
    wdbCommand s = .ok (some r) (s.commanded r l) := by
  have hsr : srBit (wdbWord s.cfg s.chunk) = false := srBit_wdbWord (h.cfg ▸ hc) _
  rw [wdbCommand, execProcedure_answered (by rw [h.inputs, h.cmode, h.cfg, h.chunk]), hsr]
  rfl

/-- R195: a command that fails ends the chunk. -/
theorem writeChunk_badCommand {bad : BadCommand} (hp : bad.Possible b.cmode (wdbWord b.cfg b.chunk))
    (h : Ran b s.nextChunk es (bad.script b.cfg ++ l)) :
    ∃ p, writeChunk buf s = .err bad.error ((s.nextChunk.failed .hbw (wdbWord b.cfg b.chunk) bad).facing p l) := by
  rw [← h.cmode, ← h.cfg, ← h.chunk] at hp
  rw [← h.cfg, ← h.chunk]
  refine ⟨if bad.error = .timeout then .execWait else .execSend, ?_⟩
  rw [writeChunk, wdbCommand, execProcedure_bad hp (h.inputs.trans (by rw [h.cfg]))]
  rfl

/-- R196: a response with another opcode ends it. -/
theorem writeChunk_wrongOpcode
    (h : Ran b s.nextChunk es (sendScript b.cmode (wdbWord b.cfg b.chunk) r ++ l))
    (hc : Taken b.cfg) (ho : opc r ≠ b.cfg.opcWdb) :
    writeChunk buf s = .err .protocolMismatch ((s.nextChunk.commanded r l).goto .wbCheck) := by
  rw [writeChunk, wdbCommand_answered h hc, Res.bind_ok, State.commanded_resp (h.cfg ▸ hc),
    wdbCheck_rejected (by rw [(h.commanded r l).cfg]; exact ho)]
  rfl

/-- R196, R197: after a response with the right opcode come the chunk's bytes. -/
theorem writeChunk_checked
    (h : Ran b s.nextChunk es (sendScript b.cmode (wdbWord b.cfg b.chunk) r ++ l))
    (hc : Taken b.cfg) (ho : opc r = b.cfg.opcWdb) :
    writeChunk buf s = ((callHbwWrite (chunkBytes buf b) ((s.nextChunk.commanded r l).goto .wbData)).bind fun _ s =>
      ackLoop s.cfg.ackMaxAttempts (s.countFrom 0)).bind fun _ s => .ok () s.advanceChunk := by
  have hr := (h.commanded r l).goto .wbCheck
  have bytes : chunkBytes buf ((s.nextChunk.commanded r l).goto .wbCheck) = chunkBytes buf b := by
    rw [chunkBytes, hr.mem, hr.moved, hr.chunk]
    rfl
  rw [writeChunk, wdbCommand_answered h hc, Res.bind_ok, State.commanded_resp (h.cfg ▸ hc),
    wdbCheck_accepted (ho.trans (by rw [(h.commanded r l).cfg])), Res.bind_ok, wdbData, bytes, Res.bind_assoc]
  rfl

/-- R197, R267: a data write that fails ends it. -/
theorem writeChunk_dataFailed {e : TErr}
    (h : Ran b s.nextChunk es (sendScript b.cmode (wdbWord b.cfg b.chunk) r ++ .answer (.hbwWrite (.err e)) :: l))
    (hc : Taken b.cfg) (ho : opc r = b.cfg.opcWdb) :
    ∃ t, writeChunk buf s = .err (.transport e) t ∧
      Ran b t (es ++ (sendEvents b.cmode .hbw (wdbWord b.cfg b.chunk) r ++ [.hbwWrite (chunkBytes buf b) (.err e)])) l := by
  obtain ⟨t, hwrite, ht⟩ := callHbwWrite_ran (chunkBytes buf b) ((h.commanded r _).goto .wbData)
  refine ⟨t, ?_, by simpa using ht⟩
  rw [writeChunk_checked h hc ho, hwrite]
  rfl

/-- R197, R198: after a data write that is taken and wrong words below the last read, another read is due. -/
theorem writeChunk_wrong {wrong : List (List Byte)}
    (h : Ran b s.nextChunk es (sendScript b.cmode (wdbWord b.cfg b.chunk) r ++
      .answer (.hbwWrite (.ok ())) :: (wrongScript b.cfg wrong ++ l)))
    (hc : Taken b.cfg) (ho : opc r = b.cfg.opcWdb) (hn : wrong.length < b.cfg.ackMaxAttempts)
    (hw : ∀ x ∈ wrong, x.length = 4 ∧ ackOf b x ≠ wdbAckWord b.cfg) (hl : Calm l) :
    ∃ t n, writeChunk buf s = ((ackLoop (n + 1) t).bind fun _ s => .ok () s.advanceChunk) ∧
      Ran b t (es ++ (sendEvents b.cmode .hbw (wdbWord b.cfg b.chunk) r ++
        .hbwWrite (chunkBytes buf b) (.ok ()) :: wrongEvents b.cfg wrong)) l ∧
      t.ackcnt = wrong.length ∧ t.ackSet = true := by
  obtain ⟨u, hwrite, hu⟩ := callHbwWrite_ran (chunkBytes buf b) ((h.commanded r _).goto .wbData)
  obtain ⟨n, hfuel⟩ := Nat.exists_eq_add_of_lt hn
  obtain ⟨t, hloop, ht, hcount, hset⟩ :=
    ackLoop_wrong (n := n + 1) hl hw ((Nat.zero_add _).trans_lt hn) (hu.countFrom 0)
  refine ⟨t, n, ?_, by simpa using ht, hcount.trans (Nat.zero_add _), hset⟩
  rw [writeChunk_checked h hc ho, hwrite]
  show (ackLoop u.cfg.ackMaxAttempts _).bind _ = _
  rw [hu.cfg, hfuel, Nat.add_assoc, hloop]
end

end Sys2Proof.Machine
end

section
/-!
PROOFS. Family 43_block_write.md: chunk after chunk, from the opening of the channel to its close, and the block write of a
device that acknowledges every chunk (O32).
-/

namespace Sys2Proof.Machine

/-! ### The bytes of a buffer -/

theorem readBytes_take (m : List Host.Cell) (a n k : Nat) : (readBytes m a n).take k = readBytes m a (min n k) := by
  induction n generalizing a k with
  | zero => simp [readBytes]
  | succ n ih =>
    cases k with
    | zero => simp [readBytes]
    | succ k => rw [Nat.succ_min_succ]; simp [readBytes, ih]

theorem readBytes_drop (m : List Host.Cell) (a n k : Nat) : (readBytes m a n).drop k = readBytes m (a + k) (n - k) := by
  induction k generalizing a n with
  | zero => rfl
  | succ k ih =>
    cases n with
    | zero => simp [readBytes]
    | succ n => rw [readBytes, List.drop_succ_cons, ih, Nat.succ_sub_succ, Nat.add_right_comm]; rfl

/-- R193, R197: what is left of the bytes that are sent, behind a chunk of the `n` bytes at an offset. -/
theorem readBytes_drop_chunk (m : List Host.Cell) (buf : Word) (off n c j : Nat) :
    (readBytes m (bufferAddress buf off) (min n (j + c))).drop c =
      readBytes m (bufferAddress buf (off + min n c)) (min (n - min n c) j) := by
  rw [readBytes_drop, bufferAddress, bufferAddress, Nat.add_assoc]
  rcases Nat.le_total c n with h | h
  · rw [Nat.min_eq_right h, show min n (j + c) - c = min (n - c) j by omega]
  · rw [show min n (j + c) - c = 0 by omega, show min (n - min n c) j = 0 by omega]
    rfl

/-! ### The registers of a transfer -/

/-- R190, R193, R203: `s` in a block write of `len` bytes that has moved the first `done`, in a chunk whose size reads `k`. -/
def State.transferring (s : State) (len : Word) (done : Nat) (k : Half) : State :=
  { s with dir := .write, reqlen := len, moved := BitVec.ofNat 32 done, rem := len - BitVec.ofNat 32 done, chunk := k }

section
variable {s t : State} {len : Word} {done size : Nat} {k : Half} {es : List Event} {l : List Input}

@[simp] theorem State.transferring_cfg : (s.transferring len done k).cfg = s.cfg := rfl
@[simp] theorem State.transferring_cmode : (s.transferring len done k).cmode = s.cmode := rfl
@[simp] theorem State.transferring_chunk : (s.transferring len done k).chunk = k := rfl

theorem State.transferring_moved (hd : done ≤ len.toNat) : (s.transferring len done k).moved.toNat = done :=
  Nat.mod_eq_of_lt (by omega)

theorem State.transferring_rem (hd : done ≤ len.toNat) : (s.transferring len done k).rem.toNat = len.toNat - done := by
  have hm : (BitVec.ofNat 32 done).toNat = done := Nat.mod_eq_of_lt (by omega)
  show (len - BitVec.ofNat 32 done).toNat = _
  rw [BitVec.toNat_sub_of_le (by rw [BitVec.le_def, hm]; exact hd), hm]

theorem Ran.rem_eq_zero_iff (hd : done ≤ len.toNat) (h : Ran (s.transferring len done k) t es l) :
    t.rem = 0 ↔ done = len.toNat := by
  rw [h.rem, ← BitVec.toNat_inj, State.transferring_rem hd]
  show len.toNat - done = 0 ↔ _
  omega

/-- R193: the size of the next chunk. -/
theorem Ran.nextChunk (hd : done ≤ len.toNat) (h : Ran (s.transferring len done k) t es l) :
    Ran (s.transferring len done (BitVec.ofNat 16 (min (len.toNat - done) s.cfg.maxChunk))) t.nextChunk es l := by
  have next : t.nextChunk =
      { t.goto .wbCmd with chunk := BitVec.ofNat 16 (min (len.toNat - done) s.cfg.maxChunk) } := by
    rw [State.nextChunk, h.rem, State.transferring_rem hd, h.cfg]
    rfl
  rw [next]
  exact congrArg (fun x : State =>
    { x.goto .wbCmd with chunk := BitVec.ofNat 16 (min (len.toNat - done) s.cfg.maxChunk) }) h

/-- R203: an acknowledged chunk has moved. -/
theorem Ran.advanceChunk (hs : size ≤ 65535) (h : Ran (s.transferring len done (BitVec.ofNat 16 size)) t es l) :
    Ran (s.transferring len (done + size) (BitVec.ofNat 16 size)) t.advanceChunk es l := by
  have hz : zext32 (BitVec.ofNat 16 size) = BitVec.ofNat 32 size := by
    refine BitVec.eq_of_toNat_eq ?_
    simp only [zext32, BitVec.toNat_setWidth, BitVec.toNat_ofNat]
    omega
  have advanced := congrArg State.advanceChunk h
  have moved : s.transferring len (done + size) (BitVec.ofNat 16 size) = { s.transferring len done (BitVec.ofNat 16 size) with
      moved := BitVec.ofNat 32 done + zext32 (BitVec.ofNat 16 size),
      rem := len - BitVec.ofNat 32 done - zext32 (BitVec.ofNat 16 size) } := by
    rw [hz, ← BitVec.ofNat_add, BitVec.sub_sub, ← BitVec.ofNat_add]
    rfl
  rw [moved]
  exact advanced

/-- R197: the bytes of a chunk. -/
theorem chunkBytes_transferring (buf : Word) (hd : done ≤ len.toNat) (hs : size ≤ 65535) :
    chunkBytes buf (s.transferring len done (BitVec.ofNat 16 size)) = readBytes s.mem (bufferAddress buf done) size := by
  have hk : (s.transferring len done (BitVec.ofNat 16 size)).chunk.toNat = size := Nat.mod_eq_of_lt (by omega)
  rw [chunkBytes, State.transferring_moved hd, hk]
  rfl
end

/-! ### Chunk after chunk -/

section
variable {s u : State} {buf len : Word} {done size n : Nat} {k : Half} {es : List Event} {l : List Input} {first : Bool}

theorem calm_answer (a : Answer) (l : List Input) : Calm (.answer a :: l) := rfl

/-- R193: a chunk begins with the answer to its command, so nothing falls before it. -/
theorem calm_chunkScript (c : Config) (mode : CMode) (p : ChunkPlay) (size : Nat) (l : List Input) :
    Calm (chunkScript c mode p size ++ l) := rfl

/-- R196, R201: a chunk that is acknowledged. -/
theorem writeChunk_acked {p : ChunkPlay} (hc : Taken s.cfg) (hp : p.Good s) (hd : done ≤ len.toNat)
    (hsize : size = min (len.toNat - done) s.cfg.maxChunk)
    (h : Ran (s.transferring len done k) u es (chunkScript s.cfg s.cmode p size ++ l)) :
    ∃ v, writeChunk buf u = .ok () v ∧ Ran (s.transferring len (done + size) (BitVec.ofNat 16 size)) v
      (es ++ chunkEvents s.cfg s.cmode p (readBytes s.mem (bufferAddress buf done) size)) l ∧ v.ackSet = true := by
  obtain ⟨ho, hn, hw, hlen, hgood⟩ := hp
  have hs : size ≤ 65535 := by have := hc.chunk.2; omega
  have hnext := h.nextChunk hd
  rw [← hsize, chunkScript, List.append_assoc, List.cons_append, List.append_assoc] at hnext
  obtain ⟨t, m, hchunk, ht, -, hset⟩ := writeChunk_wrong (buf := buf) hnext hc ho hn hw (calm_answer ..)
  obtain ⟨v, hloop, hv, hvset⟩ := ackLoop_accepted (n := m) ht hlen hgood
  refine ⟨v.advanceChunk, by rw [hchunk, hloop]; rfl, ?_, hvset.trans hset⟩
  have hadv := hv.advanceChunk hs
  rw [chunkBytes_transferring buf hd hs] at hadv
  simpa [chunkEvents] using hadv

/-- R194: the settling time before a chunk. -/
theorem interchunk_ran {b : State} (hl : Calm l)
    (h : Ran b u es ((if first then [] else delayScript b.cfg.tInterchunk) ++ l)) :
    ∃ v, interchunk first u = .ok () v ∧ Ran b v (es ++ if first then [] else [.delay b.cfg.tInterchunk]) l ∧
      v.ackSet = u.ackSet ∧ (first = true → v = u) := by
  cases first with
  | true => exact ⟨u, rfl, by simpa using h, rfl, fun _ => rfl⟩
  | false =>
    obtain ⟨v, hdelay, hv, -, hset⟩ := delayTicks_ran hl (h.goto .wbDelay)
    refine ⟨v, ?_, hv, hset, Bool.noConfusion⟩
    rw [← h.cfg] at hdelay
    exact hdelay

/-- R193: with bytes still to send, the next chunk follows. -/
theorem writeChunks_next {b : State} (hu : u.rem ≠ 0) (hl : Calm l)
    (h : Ran b u es ((if first then [] else delayScript b.cfg.tInterchunk) ++ l)) :
    ∃ v, writeChunks buf (n + 1) first u = ((writeChunk buf v).bind fun _ t => writeChunks buf n false t) ∧
      Ran b v (es ++ if first then [] else [.delay b.cfg.tInterchunk]) l ∧ v.ackSet = u.ackSet ∧
      (first = true → v = u) := by
  obtain ⟨v, hwait, hv, hset, hsame⟩ := interchunk_ran hl h
  exact ⟨v, by rw [writeChunks, if_neg hu, hwait]; rfl, hv, hset, hsame⟩

/-- R193, R203: chunks that are acknowledged, each with bytes to send before it, move the transfer on. -/
theorem writeChunks_acked (hc : Taken s.cfg) {plays : List ChunkPlay} (hgood : ∀ p ∈ plays, p.Good s)
    (hd : done ≤ len.toNat) (hfit : plays.length * s.cfg.maxChunk < len.toNat - done + s.cfg.maxChunk)
    (h : Ran (s.transferring len done k) u es
      (writeScript s.cfg s.cmode first (len.toNat - done) plays ++ l)) :
    ∃ v k', writeChunks buf (plays.length + n) first u = writeChunks buf n (first && plays.isEmpty) v ∧
      Ran (s.transferring len (done + min (len.toNat - done) (plays.length * s.cfg.maxChunk)) k') v
        (es ++ writeEvents s.cfg s.cmode first (readBytes s.mem (bufferAddress buf done)
          (min (len.toNat - done) (plays.length * s.cfg.maxChunk))) plays) l ∧
      v.ackSet = (u.ackSet || !plays.isEmpty) ∧ (plays = [] → v = u) := by
  induction plays generalizing first done k u es with
  | nil => exact ⟨u, k, by simp, by simpa [writeScript, writeEvents] using h, by simp, fun _ => rfl⟩
  | cons p rest ih =>
    obtain ⟨hp, hrest⟩ := List.forall_mem_cons.1 hgood
    rw [List.length_cons, Nat.add_mul, Nat.one_mul] at hfit ⊢
    generalize hsize : min (len.toNat - done) s.cfg.maxChunk = size
    have hpos := hc.chunk.1
    have hrem : u.rem ≠ 0 := fun h0 => by
      have := (h.rem_eq_zero_iff hd).1 h0
      omega
    rw [writeScript, hsize, List.append_assoc, List.append_assoc] at h
    obtain ⟨v, hnext, hv, -, -⟩ := writeChunks_next (buf := buf) (n := rest.length + n) hrem (calm_chunkScript ..) h
    obtain ⟨t, hchunk, ht, hset⟩ := writeChunk_acked (buf := buf) hc hp hd hsize.symm hv
    rw [Nat.sub_sub] at ht
    obtain ⟨w, k', hloop, hw, hwset, -⟩ := ih hrest (by omega) (by omega) ht
    refine ⟨w, k', ?_, ?_, ?_, fun h => nomatch h⟩
    · rw [Nat.add_right_comm, hnext, hchunk, Res.bind_ok, hloop]
      simp
    · have moved : done + size + min (len.toNat - (done + size)) (rest.length * s.cfg.maxChunk) =
          done + min (len.toNat - done) (rest.length * s.cfg.maxChunk + s.cfg.maxChunk) := by omega
      rw [moved] at hw
      rw [writeEvents, readBytes_take, readBytes_drop_chunk, hsize, Nat.sub_sub,
        show min (min (len.toNat - done) (rest.length * s.cfg.maxChunk + s.cfg.maxChunk)) s.cfg.maxChunk = size by omega]
      simpa using hw
    · rw [hwset, hset]; simp
end

/-! ### The channel bracket -/

/-- What opening the channel leaves of `s` at the start of a block write. -/
def State.channelOpened (s : State) (len : Word) (l : List Input) : State :=
  { (s.transferring len 0 s.chunk).facing .wbOpen l with trace := s.trace ++ openEvents s.cfg }

/-- What closing it leaves of `t`, in phase `p`. -/
def State.channelClosed (t : State) (p : Phase) (l : List Input) : State :=
  { t.facing p l with trace := t.trace ++ closeEvents t.cfg }

section
variable {b s t : State} {buf len : Word} {k : Half} {es : List Event} {l : List Input}

theorem Ran.channelOpened (s : State) (len : Word) (l : List Input) :
    Ran (s.transferring len 0 s.chunk) (s.channelOpened len l) (openEvents s.cfg) l := rfl

theorem Ran.channelClosed (p : Phase) {m : List Input} (h : Ran b t es m) (l : List Input) :
    Ran b (t.channelClosed p l) (es ++ closeEvents b.cfg) l := by
  rw [← h.cfg]
  exact h.trans rfl

theorem openChannel_startWrite (hi : s.inputs = openScript s.cfg ++ l) :
    openChannel (s.startWrite len) = .ok () (s.channelOpened len l) := by
  have rem : len - BitVec.ofNat 32 0 = len := by simp
  have h := openChannel_script (s := s.startWrite len) hi
  rw [h, State.channelOpened, State.transferring, rem]
  rfl

theorem closeChannel_script_eq (h : Ran b t es (closeScript b.cfg ++ l)) :
    closeChannel (t.goto .wbClose) = .ok () (t.channelClosed .wbClose l) :=
  closeChannel_script (s := t.goto .wbClose) (rest := l) (h.inputs.trans (by rw [State.goto_cfg, h.cfg]))

theorem calm_openScript {c : Config} (h : Calm l) : Calm (openScript c ++ l) := by
  unfold openScript
  split
  · rfl
  · exact h

theorem calm_closeScript {c : Config} (h : Calm l) : Calm (closeScript c ++ l) := by
  unfold closeScript
  split
  · rfl
  · exact h

/-- R193: the first chunk has no delay before it. -/
theorem calm_writeScript {c : Config} {mode : CMode} {n : Nat} {plays : List ChunkPlay} (h : Calm l) :
    Calm (writeScript c mode true n plays ++ l) := by
  cases plays with
  | nil => exact h
  | cons p rest => rfl

/-- R193: with nothing left to send, the chunks are at their end. -/
theorem writeChunks_done (n : Nat) (first : Bool) (h : t.rem = 0) :
    writeChunks buf n first t = .ok (some (.count t.moved)) t := by
  cases n with
  | zero => rfl
  | succ n => exact if_pos h

/-- R193: no more chunks than bytes have bytes to send before each of them. -/
theorem le_of_mul_lt_add {m n c : Nat} (hc : 1 ≤ c) (h : m * c < n + c) : m ≤ n := by
  by_contra hmn
  have more : (n + 1) * c ≤ m * c := Nat.mul_le_mul_right c (by omega)
  have each : n ≤ n * c := Nat.le_mul_of_pos_right n hc
  rw [Nat.succ_mul] at more
  omega

/-- R190, R193: a block write whose first chunks are acknowledged as `plays` says comes down to the chunks after them and the
close of the channel. -/
theorem writeBlockBody_acked {plays : List ChunkPlay} (hc : Taken s.cfg) (hgood : ∀ p ∈ plays, p.Good s)
    (hfit : plays.length * s.cfg.maxChunk < len.toNat + s.cfg.maxChunk)
    (hi : s.inputs = openScript s.cfg ++ (writeScript s.cfg s.cmode true len.toNat plays ++ l)) :
    ∃ t k n, len.toNat = plays.length + n ∧
      writeBlockBody buf len s =
        (writeChunks buf n plays.isEmpty t).after (fun s => closeChannel (s.goto .wbClose)) ∧
      Ran (s.transferring len (min len.toNat (plays.length * s.cfg.maxChunk)) k) t
        (openEvents s.cfg ++ writeEvents s.cfg s.cmode true (readBytes s.mem (bufferAddress buf 0)
          (min len.toNat (plays.length * s.cfg.maxChunk))) plays) l ∧
      t.ackSet = (s.ackSet || !plays.isEmpty) ∧ (plays = [] → t = s.channelOpened len l) := by
  obtain ⟨n, hfuel⟩ := Nat.exists_eq_add_of_le (le_of_mul_lt_add hc.chunk.1 hfit)
  have opened := Ran.channelOpened s len (writeScript s.cfg s.cmode true len.toNat plays ++ l)
  obtain ⟨t, k, hchunks, ht, hset, hsame⟩ :=
    writeChunks_acked (buf := buf) (n := n) hc hgood (Nat.zero_le _) hfit opened
  rw [Nat.zero_add] at ht
  rw [← hfuel] at hchunks
  refine ⟨t, k, n, hfuel, ?_, ht, hset, fun h => by rw [hsame h, h]; rfl⟩
  rw [writeBlockBody, openChannel_startWrite hi, Res.bind_ok, hchunks]
  rfl
end

/-! ### A device that acknowledges every chunk -/

section
variable {s t : State} {q : Nat} {buf len : Word} {k : Half} {es : List Event} {l rest : List Input} {plays : List ChunkPlay}

/-- R193: the chunks of `n` bytes hold them all, and the last of them holds at least one. -/
theorem chunkCount_bounds {c : Config} (hc : 1 ≤ c.maxChunk) (n : Nat) :
    n ≤ chunkCount c n * c.maxChunk ∧ chunkCount c n * c.maxChunk < n + c.maxChunk := by
  have lower : chunkCount c n * c.maxChunk ≤ n + c.maxChunk - 1 := Nat.div_mul_le_self _ _
  have upper : n + c.maxChunk - 1 < chunkCount c n * c.maxChunk + c.maxChunk := Nat.lt_div_mul_add hc
  omega

theorem chunkCount_eq_zero_iff {c : Config} (hc : 1 ≤ c.maxChunk) (n : Nat) : chunkCount c n = 0 ↔ n = 0 := by
  obtain ⟨lower, upper⟩ := chunkCount_bounds hc n
  have le := le_of_mul_lt_add hc upper
  refine ⟨fun h => ?_, by omega⟩
  rw [h] at lower
  omega

/-- R190, R203: a transfer that has moved all its bytes, back in the phase it began in. -/
theorem Ran.wrote (h : Ran (s.transferring len len.toNat k) t es l) (hseq : t.seq = s.seq)
    (hset : t.ackSet = (s.ackSet || decide (len ≠ 0))) : Wrote s t len es l := by
  have moved : BitVec.ofNat 32 len.toNat = len := by simp
  have chunk : k = t.chunk := h.chunk.symm
  unfold Ran State.transferring at h
  rw [hseq, hset, moved, BitVec.sub_self, chunk] at h
  exact h

/-- R206: over a device that acknowledges every chunk, the write moves all its bytes. -/
theorem exec_writeBlock_acked (hh : s.Holder q) (hc : Calm rest) (hlen : plays.length = chunkCount s.cfg len.toNat)
    (hgood : ∀ p ∈ plays, p.Good s)
    (hi : s.inputs = openScript s.cfg ++ (writeScript s.cfg s.cmode true len.toNat plays ++ (closeScript s.cfg ++ rest))) :
    ∃ t, exec (.writeBlock q buf len) s = .next (t.returned q (HRes.ofValue (some (.count len)))) ∧
      Wrote s t len (openEvents s.cfg ++ (writeEvents s.cfg s.cmode true
        (readBytes s.mem (bufferAddress buf 0) len.toNat) plays ++ closeEvents s.cfg)) rest := by
  have taken := taken_of_configOk hh.ready.lawful
  obtain ⟨lower, upper⟩ := chunkCount_bounds taken.chunk.1 len.toNat
  rw [← hlen] at lower upper
  obtain ⟨t, k, n, -, hbody, ht, hset, -⟩ := writeBlockBody_acked (buf := buf) taken hgood upper hi
  rw [Nat.min_eq_left lower] at ht
  have body : writeBlockBody buf len s = .ok (some (.count len)) (t.channelClosed .wbClose rest) := by
    have hrem : t.rem = 0 := (ht.rem_eq_zero_iff (le_refl _)).2 rfl
    have hmoved : t.moved = len := ht.moved.trans (by simp [State.transferring])
    rw [hbody, writeChunks_done n _ hrem, Res.after_ok, closeChannel_script_eq ht, hmoved]
    rfl
  have calm : Calm s.inputs := hi ▸ calm_openScript (calm_writeScript (calm_closeScript hc))
  have ran := ht.channelClosed s.seq rest
  rw [List.append_assoc] at ran
  refine ⟨t.channelClosed s.seq rest, ?_, ran.wrote rfl (hset.trans ?_)⟩
  · exact unlockedOperation_returns (t := t.channelClosed s.seq rest) hh calm hh.ready.idle body
  · have nothing : plays.isEmpty = decide (len = 0) := by
      rw [Bool.eq_iff_iff, List.isEmpty_iff_length_eq_zero, hlen, chunkCount_eq_zero_iff taken.chunk.1, decide_eq_true_iff,
        ← BitVec.toNat_inj]
      rfl
    rw [nothing, decide_not]
end

/-! ### The sizes the commands carry -/

theorem sentSizes_append (xs ys : List Event) : sentSizes (xs ++ ys) = sentSizes xs ++ sentSizes ys :=
  List.filterMap_append

section
variable {c : Config} {mode : CMode}

theorem sentSizes_openEvents : sentSizes (openEvents c) = [] := by unfold openEvents; split <;> rfl
theorem sentSizes_closeEvents : sentSizes (closeEvents c) = [] := by unfold closeEvents; split <;> rfl

theorem sentSizes_wrongEvents (wrong : List (List Byte)) : sentSizes (wrongEvents c wrong) = [] := by
  induction wrong with
  | nil => rfl
  | cons b rest ih => exact ih

theorem sentSizes_sendEvents (w r : Word) : sentSizes (sendEvents mode .hbw w r) = [(low w).toNat] := by
  unfold sendEvents
  split <;> rfl

/-- R193, R104: the command of a chunk carries its size. -/
theorem sentSizes_chunkEvents (p : ChunkPlay) {bytes : List Byte} (hb : bytes.length ≤ 65535) :
    sentSizes (chunkEvents c mode p bytes) = [bytes.length] := by
  have size : (low (wdbWord c (BitVec.ofNat 16 bytes.length))).toNat = bytes.length := by
    rw [wdbWord, low, lowHalf_wordOfHalves]
    exact Nat.mod_eq_of_lt (by omega)
  have reads : sentSizes (wrongEvents c p.wrong ++ [.hbwRead 4 (.ok p.good)]) = [] := by
    rw [sentSizes_append, sentSizes_wrongEvents]
    rfl
  rw [chunkEvents, sentSizes_append, sentSizes_sendEvents, size]
  exact congrArg (bytes.length :: ·) reads

/-- R206: one size per chunk, and together they are as many bytes as the chunks can hold. -/
theorem sentSizes_writeEvents (hc : c.maxChunk ≤ 65535) (plays : List ChunkPlay) (first : Bool) (bytes : List Byte) :
    (sentSizes (writeEvents c mode first bytes plays)).length = plays.length ∧
      (sentSizes (writeEvents c mode first bytes plays)).sum = min bytes.length (plays.length * c.maxChunk) := by
  induction plays generalizing first bytes with
  | nil => simp [writeEvents, sentSizes]
  | cons p rest ih =>
    obtain ⟨hlen, hsum⟩ := ih false (bytes.drop c.maxChunk)
    have wait : sentSizes (if first then [] else [.delay c.tInterchunk]) = [] := by cases first <;> rfl
    have chunk : sentSizes (chunkEvents c mode p (bytes.take c.maxChunk)) = [min c.maxChunk bytes.length] := by
      rw [sentSizes_chunkEvents p (by rw [List.length_take]; omega), List.length_take]
    rw [writeEvents, sentSizes_append, sentSizes_append, wait, chunk, List.nil_append, List.singleton_append,
      List.length_cons, List.sum_cons, List.length_cons, hlen, hsum, List.length_drop, Nat.add_mul]
    exact ⟨rfl, by omega⟩
end

/-- Settles O32: the chunks move all the bytes, and the locked variant is the unlocked one between lock and release. -/
theorem writeBlockSendsChunks : Obligations.WriteBlockSendsChunks := by
  intro s q buf len plays rest es script hr hc hlen hgood hes hscript
  subst hes hscript
  have taken := taken_of_configOk hr.lawful
  have fits := (chunkCount_bounds taken.chunk.1 len.toNat).1
  obtain ⟨count, sum⟩ := sentSizes_writeEvents (c := s.cfg) (mode := s.cmode) taken.chunk.2 plays true
    (readBytes s.mem (bufferAddress buf 0) len.toNat)
  have sizes (ws : List Event) : sentSizes (openEvents s.cfg ++ (ws ++ closeEvents s.cfg)) = sentSizes ws := by
    simp [sentSizes_append, sentSizes_openEvents, sentSizes_closeEvents]
  refine ⟨by rw [sizes, count], ?sum, fun hl hv hi => exec_writeBlock_acked ⟨hr, hl, hv⟩ hc hlen hgood hi,
    fun hl hi => ?locked⟩
  case sum =>
    rw [sizes, sum, readBytes_length, hlen]
    exact Nat.min_eq_left fits
  case locked =>
    obtain ⟨t, hexec, ht⟩ := exec_writeBlock_acked (q := q) (buf := buf) (rest := rest)
      (s := { s.opened q with inputs := openScript s.cfg ++
        (writeScript s.cfg s.cmode true len.toNat plays ++ (closeScript s.cfg ++ rest)) })
      ⟨hr, rfl, rfl⟩ hc hlen hgood rfl
    have idle : (t.returned q (HRes.ofValue (some (.count len)))).seq = .idle := by
      show t.seq = .idle
      rw [ht]
      exact hr.idle
    have calm : Calm (t.returned q (HRes.ofValue (some (.count len)))).inputs := by
      show Calm t.inputs
      rw [ht]
      exact hc
    have wrapped := (LockedVariant.writeBlock buf len).wraps ⟨hr, hl⟩ hi hexec calm
    rw [if_pos idle] at wrapped
    exact ⟨t, wrapped, ht⟩

end Sys2Proof.Machine
end

section
/-!
PROOFS. Family 43_block_write.md: a block write that a chunk ends, the first or any later one (O33, O34, O35).
-/

namespace Sys2Proof.Machine

section
variable {s t : State} {q : Nat} {buf len r w : Word} {plays : List ChunkPlay} {done size : Nat} {k : Half} {es : List Event}
  {l rest : List Input}

/-! ### Up to the chunk, and out of it -/

theorem calm_sendScript (mode : CMode) (w r : Word) (l : List Input) : Calm (sendScript mode w r ++ l) := rfl

/-- R191: nothing falls before the channel is opened. -/
theorem calm_reachScript {c : Config} {mode : CMode} (h : Calm l) : Calm (reachScript c mode len plays ++ l) := by
  rw [reachScript, List.append_assoc, List.append_assoc]
  cases plays with
  | nil => exact calm_openScript h
  | cons p rest => exact calm_openScript rfl

/-- R193: the sizes of a chunk and of its place in a transfer. -/
theorem AtChunk.bounds (h : AtChunk s len plays done size) (hc : Taken s.cfg) : done ≤ len.toNat ∧ size ≤ 65535 := by
  obtain ⟨-, -, hlt, hsize⟩ := h
  have := hc.chunk.2
  omega

theorem AtChunk.done_eq_zero (h : AtChunk s len plays done size) (hp : plays = []) : done = 0 := by
  obtain ⟨-, hdone, -⟩ := h
  rw [hdone, hp]
  exact Nat.zero_mul _

/-- R190, R204: a transfer that has stopped in a chunk, back in the phase it began in. -/
theorem Ran.stopped (h : Ran (s.transferring len done (BitVec.ofNat 16 size)) t es l) (hseq : t.seq = s.seq) :
    Stopped s t len done size es l := by
  unfold Ran at h
  rw [hseq] at h
  exact h

/-- R190, R191, R194: a block write comes down to the chunk after `plays`; an error of that chunk ends it, with no call but
the close of the channel. -/
theorem exec_writeBlock_atChunk (buf : Word) (hh : s.Holder q) (hat : AtChunk s len plays done size) (hl : Calm l)
    (hi : s.inputs = reachScript s.cfg s.cmode len plays ++ l) :
    ∃ u : State, Ran (s.transferring len done (BitVec.ofNat 16 size)) u.nextChunk
        (reachEvents s.cfg s.cmode (readBytes s.mem (bufferAddress buf 0) done) plays) l ∧
      (plays = [] → u = s.channelOpened len l) ∧
      ∀ {e v es rest}, writeChunk buf u = .err e v →
        Ran (s.transferring len done (BitVec.ofNat 16 size)) v es (closeScript s.cfg ++ rest) →
        exec (.writeBlock q buf len) s = .next ((v.channelClosed s.seq rest).returned q (HRes.ofErr e)) ∧
          Stopped s (v.channelClosed s.seq rest) len done size (es ++ closeEvents s.cfg) rest := by
  obtain ⟨hgood, hdone, hlt, hsize⟩ := hat
  have taken := taken_of_configOk hh.ready.lawful
  have calm : Calm s.inputs := hi ▸ calm_reachScript hl
  rw [reachScript, List.append_assoc, List.append_assoc] at hi
  obtain ⟨t, k, n, hfuel, hbody, ht, -, hfirst⟩ := writeBlockBody_acked (buf := buf) taken hgood (by omega) hi
  rw [← hdone, Nat.min_eq_right hlt.le] at ht
  have wait : ∀ {α : Type} (x : List α), (if plays = [] then [] else x) = if plays.isEmpty then [] else x := fun x => by
    cases plays <;> rfl
  have hrem : t.rem ≠ 0 := fun h => hlt.ne ((ht.rem_eq_zero_iff hlt.le).1 h)
  obtain ⟨m, rfl⟩ : ∃ m, n = m + 1 := by
    have := Nat.le_mul_of_pos_right plays.length taken.chunk.1
    exact Nat.exists_eq_succ_of_ne_zero (by omega)
  rw [wait] at ht
  obtain ⟨u, hnext, hu, -, hsame⟩ := writeChunks_next (buf := buf) (n := m) hrem hl ht
  refine ⟨u, ?_, fun h => ?_, fun {e v es rest} herr hv => ⟨?_, (hv.channelClosed s.seq rest).stopped rfl⟩⟩
  · rw [hsize, reachEvents, wait, ← List.append_assoc]
    exact hu.nextChunk hlt.le
  · rw [hsame (by rw [h]; rfl), hfirst h, h]
    rfl
  · refine unlockedOperation_raises (t := v.channelClosed s.seq rest) (p := .wbClose) (l := rest) hh calm hh.ready.idle ?_
    rw [hbody, hnext, herr, Res.bind_err, Res.after_err, closeChannel_script_eq hv]
    rfl

/-! ### A first chunk that is not acknowledged -/

/-- R190, R193: `s` in the first chunk of a block write, with `es` for its trace. -/
def State.firstChunk (s : State) (len : Word) (k : Half) (es : List Event) : State :=
  { s with dir := .write, reqlen := len, moved := 0, rem := len, chunk := k, trace := es }

theorem Ran.nextChunk_eq_firstChunk (h : Ran (s.transferring len 0 k) (s.channelOpened len l).nextChunk es rest) :
    (s.channelOpened len l).nextChunk = (s.firstChunk len k (s.trace ++ openEvents s.cfg)).facing .wbCmd l := by
  have rem : len - BitVec.ofNat 32 0 = len := by simp
  have chunk : (s.channelOpened len l).nextChunk.chunk = k := h.chunk
  rw [← chunk, State.channelOpened, State.transferring, rem]
  rfl

/-- The registers of the transfer bear on nothing else that an answered command leaves. -/
theorem State.firstChunk_answered (route : Route) : (s.firstChunk len k es).answered route w r =
    (s.answered route w r).firstChunk len k (es ++ sendEvents s.cmode route w r) := by
  unfold State.answered sendEvents armsWait
  cases hs : srBit w <;> cases hm : s.cmode <;> simp [State.firstChunk, hm]

theorem State.firstChunk_commanded (p : Phase) (m : List Input) : ((s.firstChunk len k es).facing p l).commanded r m =
    ((s.answered .hbw (wdbWord s.cfg k) r).firstChunk len k
      (es ++ sendEvents s.cmode .hbw (wdbWord s.cfg k) r)).facing .execLatch m := by
  rw [State.commanded, State.answered_facing, State.facing_facing]
  exact congrArg (State.facing · .execLatch m) (State.firstChunk_answered .hbw)

/-- They bear on nothing else that a failed command leaves. -/
theorem State.firstChunk_failed (route : Route) (bad : BadCommand) : (s.firstChunk len k es).failed route w bad =
    (s.failed route w bad).firstChunk len k (es ++ bad.events s.cmode route w) := by
  cases bad <;> rfl

/-- R190, R191: with the channel closed, what the command has left stays, beside the registers of the transfer. -/
theorem State.firstChunk_closed (hseq : t.seq = s.seq) (p : Phase) (m : List Input) :
    ((t.firstChunk len k es).facing p m).channelClosed s.seq rest = { t with
      dir := .write, reqlen := len, rem := len, moved := 0,
      chunk := (((t.firstChunk len k es).facing p m).channelClosed s.seq rest).chunk, inputs := rest,
      trace := (((t.firstChunk len k es).facing p m).channelClosed s.seq rest).trace } := by
  rw [← hseq]
  rfl

/-- R148: the answered command of a chunk leaves its response in `RESP` and in the cache. -/
theorem Ran.commanded_cached {b : State} (h : Ran b s es l) (hc : Taken b.cfg) (r : Word) (m : List Input) :
    (s.commanded r m).resp = r ∧ (s.commanded r m).lastResp = r ∧
      (s.commanded r m).lastTs = b.now % 2 ^ b.cfg.tsW ∧ (s.commanded r m).lastValid = true := by
  have hs : srBit (wdbWord s.cfg s.chunk) = false := srBit_wdbWord (h.cfg ▸ hc) _
  rw [State.commanded, ← h.now, ← h.cfg]
  cases hm : s.cmode
  · rw [State.answered_poll hs hm]; exact ⟨rfl, rfl, rfl, rfl⟩
  · rw [State.answered_interrupt hs hm]; exact ⟨rfl, rfl, rfl, rfl⟩

theorem State.failed_disarmed {route : Route} (bad : BadCommand) :
    (s.failed route w bad).pend = false ∧ (s.failed route w bad).cseen = false := by
  cases bad <;> exact ⟨rfl, rfl⟩
end

/-- Settles O33: the response is cached before its opcode is looked at. -/
theorem writeBlockRejectsOpcode : Obligations.WriteBlockRejectsOpcode := by
  intro s q buf len r w plays done size rest hh hat hw ho hi
  subst hw
  have taken := taken_of_configOk hh.ready.lawful
  obtain ⟨u, hu, hfirst, hends⟩ := exec_writeBlock_atChunk buf hh hat (calm_sendScript ..) hi
  obtain ⟨hexec, hstopped⟩ :=
    hends (writeChunk_wrongOpcode hu taken ho) ((hu.commanded r (closeScript s.cfg ++ rest)).goto .wbCheck)
  obtain ⟨hresp, hlast, hstamp, hvalid⟩ := hu.commanded_cached taken r (closeScript s.cfg ++ rest)
  rw [List.append_assoc] at hstopped
  refine ⟨_, hexec, hstopped, hresp, hlast, hstamp, hvalid, fun h => ?first⟩
  case first =>
    obtain rfl := hat.done_eq_zero h
    obtain rfl := hfirst h
    rw [hu.nextChunk_eq_firstChunk, State.firstChunk_commanded]
    exact State.firstChunk_closed (State.answered_seq ..) .wbCheck _

/-- Settles O34: the wrong words before the last are each followed by a delay, and the last ends the reads. -/
theorem ackReadsExhausted : Obligations.AckReadsExhausted := by
  intro s q buf len r plays done size reads last rest hh hat ho hn hw hi
  have taken := taken_of_configOk hh.ready.lawful
  obtain ⟨hdone, hsize⟩ := hat.bounds taken
  obtain ⟨hreads, hlast⟩ := List.forall_mem_append.1 hw
  have below : reads.length < s.cfg.ackMaxAttempts := by omega
  rw [chunkScript, List.append_assoc, List.cons_append, List.append_assoc] at hi
  obtain ⟨u, hu, -, hends⟩ := exec_writeBlock_atChunk buf hh hat (calm_sendScript ..) hi
  obtain ⟨t, n, hchunk, ht, hcount, -⟩ := writeChunk_wrong (buf := buf) hu taken ho below hreads (calm_answer ..)
  obtain ⟨v, hloop, hv, hword, hspent⟩ :=
    ackLoop_exhausted (n := n) ht (hlast last (List.mem_singleton_self last)) (by rw [hcount]; exact hn)
  obtain ⟨hexec, hstopped⟩ := hends (hchunk.trans (by rw [hloop]; rfl)) hv
  rw [chunkBytes_transferring buf hdone hsize] at hstopped
  exact ⟨_, hexec, by simpa [chunkEvents] using hstopped, hword, hspent⟩

section
variable {s : State} {q : Nat} {buf len r w : Word} {plays : List ChunkPlay} {done size : Nat} {rest : List Input}
  (hh : s.Holder q) (hat : AtChunk s len plays done size) (hw : w = wdbWord s.cfg (BitVec.ofNat 16 size))
include hh hat hw

/-- R144, R147, R195: a command that fails, by its send or by a timeout. -/
theorem exec_writeBlock_badCommand {bad : BadCommand} (hp : bad.Possible s.cmode w)
    (hi : s.inputs = reachScript s.cfg s.cmode len plays ++ (bad.script s.cfg ++ (closeScript s.cfg ++ rest))) :
    ∃ t, exec (.writeBlock q buf len) s = .next (t.returned q (HRes.ofErr bad.error)) ∧
      Stopped s t len done size (reachEvents s.cfg s.cmode (readBytes s.mem (bufferAddress buf 0) done) plays ++
        (bad.events s.cmode .hbw w ++ closeEvents s.cfg)) rest ∧
      t.pend = false ∧ t.cseen = false ∧
      (plays = [] → t = { s.failed .hbw w bad with
        dir := .write, reqlen := len, rem := len, moved := 0, chunk := t.chunk, inputs := rest, trace := t.trace }) := by
  subst hw
  obtain ⟨u, hu, hfirst, hends⟩ := exec_writeBlock_atChunk buf hh hat (bad.calm_script ..) hi
  obtain ⟨p, hchunk⟩ := writeChunk_badCommand (buf := buf) hp hu
  have left := (hu.trans (.failed u.nextChunk .hbw (wdbWord s.cfg (BitVec.ofNat 16 size)) bad)).facing p
    (closeScript s.cfg ++ rest)
  rw [hu.cmode] at left
  obtain ⟨hexec, hstopped⟩ := hends hchunk left
  obtain ⟨hpend, hcseen⟩ := State.failed_disarmed (s := u.nextChunk) (route := .hbw)
    (w := wdbWord s.cfg (BitVec.ofNat 16 size)) bad
  rw [List.append_assoc] at hstopped
  refine ⟨_, hexec, hstopped, hpend, hcseen, fun h => ?first⟩
  case first =>
    obtain rfl := hat.done_eq_zero h
    obtain rfl := hfirst h
    rw [hu.nextChunk_eq_firstChunk, State.failed_facing, State.facing_facing, State.firstChunk_failed]
    exact State.firstChunk_closed (State.failed_seq ..) _ _

/-- R197, R267: a data write that fails. -/
theorem exec_writeBlock_dataFailed {e : TErr} (ho : opc r = s.cfg.opcWdb)
    (hi : s.inputs = reachScript s.cfg s.cmode len plays ++ (sendScript s.cmode w r ++
      .answer (.hbwWrite (.err e)) :: (closeScript s.cfg ++ rest))) :
    ∃ t, exec (.writeBlock q buf len) s = .next (t.returned q (HRes.ofErr (.transport e))) ∧
      Stopped s t len done size (reachEvents s.cfg s.cmode (readBytes s.mem (bufferAddress buf 0) done) plays ++
        (sendEvents s.cmode .hbw w r ++
          .hbwWrite (readBytes s.mem (bufferAddress buf done) size) (.err e) :: closeEvents s.cfg)) rest := by
  subst hw
  have taken := taken_of_configOk hh.ready.lawful
  obtain ⟨hdone, hsize⟩ := hat.bounds taken
  obtain ⟨u, hu, -, hends⟩ := exec_writeBlock_atChunk buf hh hat (calm_sendScript ..) hi
  obtain ⟨t, hchunk, ht⟩ := writeChunk_dataFailed (buf := buf) hu taken ho
  obtain ⟨hexec, hstopped⟩ := hends hchunk ht
  rw [chunkBytes_transferring buf hdone hsize] at hstopped
  exact ⟨_, hexec, by simpa using hstopped⟩

/-- R198, R267: an acknowledgement read that fails after wrong words. -/
theorem exec_writeBlock_readFailed {e : TErr} {wrong : List (List Byte)} (ho : opc r = s.cfg.opcWdb)
    (hn : wrong.length < s.cfg.ackMaxAttempts) (hwrong : ∀ b ∈ wrong, b.length = 4 ∧ ackOf s b ≠ wdbAckWord s.cfg)
    (hi : s.inputs = reachScript s.cfg s.cmode len plays ++ (sendScript s.cmode w r ++
      .answer (.hbwWrite (.ok ())) :: (wrongScript s.cfg wrong ++
        .answer (.hbwRead (.err e)) :: (closeScript s.cfg ++ rest)))) :
    ∃ t, exec (.writeBlock q buf len) s = .next (t.returned q (HRes.ofErr (.transport e))) ∧
      Stopped s t len done size (reachEvents s.cfg s.cmode (readBytes s.mem (bufferAddress buf 0) done) plays ++
        (sendEvents s.cmode .hbw w r ++ .hbwWrite (readBytes s.mem (bufferAddress buf done) size) (.ok ()) ::
          (wrongEvents s.cfg wrong ++ .hbwRead 4 (.err e) :: closeEvents s.cfg))) rest ∧
      t.ackcnt = wrong.length := by
  subst hw
  have taken := taken_of_configOk hh.ready.lawful
  obtain ⟨hdone, hsize⟩ := hat.bounds taken
  obtain ⟨u, hu, -, hends⟩ := exec_writeBlock_atChunk buf hh hat (calm_sendScript ..) hi
  obtain ⟨t, n, hchunk, ht, hcount, -⟩ := writeChunk_wrong (buf := buf) hu taken ho hn hwrong (calm_answer ..)
  obtain ⟨v, hloop, hv, hkept⟩ := ackLoop_failed (n := n) ht
  obtain ⟨hexec, hstopped⟩ := hends (hchunk.trans (by rw [hloop]; rfl)) hv
  rw [chunkBytes_transferring buf hdone hsize] at hstopped
  exact ⟨_, hexec, by simpa using hstopped, hkept.trans hcount⟩
end

/-- Settles O35: the command, the data write and the acknowledgement read of the chunk each end it with their error. -/
theorem writeBlockPassesErrors : Obligations.WriteBlockPassesErrors := by
  intro s q buf len r w plays done size bad e wrong bytes before rest hh hat hw hbytes hbefore
  subst hbytes hbefore
  exact ⟨exec_writeBlock_badCommand hh hat hw, exec_writeBlock_dataFailed hh hat hw,
    exec_writeBlock_readFailed hh hat hw⟩

end Sys2Proof.Machine
end

section
/-!
PROOFS. Family 44_block_read.md: the reconciliation of the two lengths (O39), and the fast path that is the whole of a block
read (O37).
-/

namespace Sys2Proof.Machine

/-! ### The lengths of a transfer -/

section
variable {reqlen : Word} {d : Half}

theorem transferLength_toNat (reqlen : Word) (d : Half) :
    (transferLength reqlen d).toNat = min reqlen.toNat d.toNat := by
  rw [transferLength_eq, BitVec.toNat_ofNat]
  omega

/-- R215: what is left of the device's bytes is drained up to a group of 4. -/
theorem drainLength_short (h : reqlen.toNat < d.toNat) :
    drainLength reqlen d = BitVec.ofNat 2 ((d.toNat - reqlen.toNat) % 4) := if_pos h

theorem drainLength_toNat (h : reqlen.toNat < d.toNat) :
    (drainLength reqlen d).toNat = (d.toNat - reqlen.toNat) % 4 := by
  rw [drainLength_short h, BitVec.toNat_ofNat]
  exact Nat.mod_mod _ 4

/-- R215: nothing is drained where everything the device has was asked for. -/
theorem drainLength_full (h : d.toNat ≤ reqlen.toNat) : drainLength reqlen d = 0 := if_neg (Nat.not_lt.2 h)
end

/-- Settles O39: less is asked for than there is, or not. -/
theorem lengthsAreReconciled : Obligations.LengthsAreReconciled := by
  intro reqlen d hd
  refine ⟨transferLength_toNat _ _, fun h => ⟨drainLength_toNat h, ?_⟩, drainLength_full, ?groups⟩
  · rw [drainLength_toNat h]
    omega
  case groups =>
    rw [transferLength_toNat]
    rcases Nat.lt_or_ge reqlen.toNat d.toNat with h | h
    · rw [drainLength_toNat h]
      omega
    · rw [drainLength_full h, Nat.min_eq_right h]
      exact hd

/-! ### The fast path -/

section
variable {s : State} {q : Nat} {buf len : Word} {id : Half} {rest : List Input}

/-- R211: an `rdb` transaction that answers with no more bytes than were asked for. -/
theorem readFast_answered {bytes : List Byte} (hn : bytes.length ≤ len.toNat)
    (hi : s.inputs = .answer (.rdb (.ok bytes)) :: rest) :
    readFast buf len id s = .ok (some (.count (BitVec.ofNat 32 bytes.length))) (State.facing { s with
      mem := writeBytes s.mem (bufferAddress buf 0) bytes, trace := s.trace ++ [.rdb len id (.ok bytes)] } .rbFast rest) := by
  have wanted : wantRdb len.toNat (.rdb (.ok bytes)) = some (.ok bytes) := if_pos hn
  rw [readFast, callRdb, State.goto_inputs, hi, awaitAnswer_answer _ _ _ wanted]
  rfl

/-- R211, R267: one that fails. -/
theorem readFast_failed {e : TErr} (hi : s.inputs = .answer (.rdb (.err e)) :: rest) :
    readFast buf len id s =
      .err (.transport e) (State.facing { s with trace := s.trace ++ [.rdb len id (.err e)] } .rbFast rest) := by
  have wanted : wantRdb len.toNat (.rdb (.err e)) = some (.err e) := rfl
  rw [readFast, callRdb, State.goto_inputs, hi, awaitAnswer_answer _ _ _ wanted]
  rfl

/-- R211: with the fast path, it is the body. -/
theorem readBlockBody_fast (buf len id : Word) (h : s.cfg.hasRdbFastpath = true) :
    readBlockBody buf len id s = readFast buf len (low id) s := if_pos h
end

/-- Settles O37: the transaction answers with bytes or with an error. -/
theorem fastPathReplacesRead : Obligations.FastPathReplacesRead := by
  intro s q buf len id bytes e rest hh hfast
  refine ⟨fun hi hn => ?answered, fun hi => ?failed⟩
  case answered =>
    exact unlockedOperation_returns
      (t := { s with
        mem := writeBytes s.mem (bufferAddress buf 0) bytes, trace := s.trace ++ [.rdb len (low id) (.ok bytes)] })
      hh (hi ▸ calm_answer ..) hh.ready.idle ((readBlockBody_fast buf len id hfast).trans (readFast_answered hn hi))
  case failed =>
    exact unlockedOperation_raises (t := { s with trace := s.trace ++ [.rdb len (low id) (.err e)] })
      hh (hi ▸ calm_answer ..) hh.ready.idle ((readBlockBody_fast buf len id hfast).trans (readFast_failed hi))

end Sys2Proof.Machine
end

section
/-!
PROOFS. Family 44_block_read.md, the layer beneath: the data of a block read, increment by increment, and the drain, from a
state that has settled the lengths.
-/

namespace Sys2Proof.Machine

/-! ### The bytes that are read -/

/-- A byte just written reads back, whatever was there before. -/
theorem readByte_writeBytes_same {m : List Host.Cell} (hm : Memory.wf m) (a : Nat) (bytes : List Byte) (k : Nat)
    (hk : k < bytes.length) : readByte (writeBytes m a bytes) (a + k) = bytes[k] := by
  induction bytes generalizing m a k with
  | nil => exact absurd hk (Nat.not_lt_zero k)
  | cons b rest ih =>
    cases k with
    | zero => exact (readByte_writeBytes_other (.inl (Nat.lt_succ_self a))).trans (readByte_writeByte_same hm a b)
    | succ k =>
      rw [show a + (k + 1) = a + 1 + k by omega]
      exact ih (writeByte_wf hm a b) (a + 1) k (Nat.lt_of_succ_lt_succ hk)

/-- R217: each of the reads is the next increment of a transfer with `n` bytes to go. -/
def AreIncrements : Nat → List (List Byte) → Prop
  | _, [] => True
  | n, b :: rest => 0 < n ∧ b.length = min 4 n ∧ AreIncrements (n - b.length) rest

/-- R216: no more increments than bytes are due. -/
theorem AreIncrements.length_le {n : Nat} {reads : List (List Byte)} (h : AreIncrements n reads) : reads.length ≤ n := by
  induction reads generalizing n with
  | nil => exact Nat.zero_le n
  | cons b rest ih =>
    obtain ⟨hpos, hlen, hrest⟩ := h
    have := ih hrest
    rw [List.length_cons]
    omega

/-- R217: whole groups of 4 bytes with bytes to follow are the first increments. -/
theorem areIncrements_of_whole {n : Nat} {reads : List (List Byte)} (hw : ∀ b ∈ reads, b.length = 4)
    (hn : 4 * reads.length < n) : AreIncrements n reads := by
  induction reads generalizing n with
  | nil => trivial
  | cons b rest ih =>
    obtain ⟨hb, hrest⟩ := List.forall_mem_cons.1 hw
    rw [List.length_cons] at hn
    exact ⟨by omega, by omega, ih hrest (by omega)⟩

theorem length_flatten_of_whole {reads : List (List Byte)} (hw : ∀ b ∈ reads, b.length = 4) :
    reads.flatten.length = 4 * reads.length := by
  induction reads with
  | nil => rfl
  | cons b rest ih =>
    obtain ⟨hb, hrest⟩ := List.forall_mem_cons.1 hw
    rw [List.flatten_cons, List.length_append, hb, ih hrest, List.length_cons]
    omega

/-- R217: data cut into increments are the increments of a transfer of its length. -/
theorem areIncrements_increments (data : List Byte) : AreIncrements data.length (increments data) := by
  fun_induction increments data with
  | case1 => trivial
  | case2 b0 b1 b2 b3 rest ih =>
    refine ⟨Nat.succ_pos _, ?_, ih⟩
    simp only [List.length_cons, List.length_nil]
    omega
  | case3 short hnil hlong =>
    have nonempty : 0 < short.length := List.length_pos_iff.2 hnil
    have below : short.length < 4 := by
      rcases short with _ | ⟨b0, _ | ⟨b1, _ | ⟨b2, _ | ⟨b3, rest⟩⟩⟩⟩
      case cons.cons.cons.cons => exact absurd rfl (hlong b0 b1 b2 b3 rest)
      all_goals simp
    exact ⟨nonempty, by omega, trivial⟩

theorem flatten_increments (data : List Byte) : (increments data).flatten = data := by
  fun_induction increments data with
  | case1 => rfl
  | case2 b0 b1 b2 b3 rest ih => rw [List.flatten_cons, ih]; rfl
  | case3 short => simp

/-! ### A transfer that has delivered some bytes -/

/-- R220: `b`, at the start of its transfer, with the bytes `data` delivered and the events `es` since. -/
def State.delivered (b : State) (buf : Word) (data : List Byte) (es : List Event) : State :=
  { b with
    moved := BitVec.ofNat 32 data.length, mem := writeBytes b.mem (bufferAddress buf 0) data, trace := b.trace ++ es }

section
variable {b : State} {buf : Word} {got data drained bytes : List Byte} {es : List Event} {l : List Input} {p : Phase} {n : Nat}
  {e : TErr}

theorem State.delivered_nil (h : b.moved = 0) : b.delivered buf [] [] = b := by
  have moved : (BitVec.ofNat 32 ([] : List Byte).length) = b.moved := h.symm
  rw [State.delivered, moved, List.append_nil]
  rfl

/-- R12: an event, for which the outside world did the first of what it had to do. -/
theorem State.delivered_event (ev : Event) : { (b.delivered buf got es).facing p l with
    trace := (b.delivered buf got es).trace ++ [ev] } = (b.delivered buf got (es ++ [ev])).facing p l := by
  have trace : (b.delivered buf got es).trace ++ [ev] = b.trace ++ (es ++ [ev]) := List.append_assoc ..
  rw [trace]
  rfl

/-- R220: the bytes of a read follow those before them. -/
theorem State.delivered_place (hg : got.length < 2 ^ 32) (bytes : List Byte) :
    ((b.delivered buf got es).facing p l).place buf bytes = (b.delivered buf (got ++ bytes) es).facing p l := by
  have offset : (BitVec.ofNat 32 got.length).toNat = got.length := Nat.mod_eq_of_lt hg
  have mem : writeBytes b.mem (bufferAddress buf 0) (got ++ bytes) =
      writeBytes (writeBytes b.mem (bufferAddress buf 0) got)
        (bufferAddress buf (BitVec.ofNat 32 got.length).toNat) bytes := by
    rw [writeBytes_append, offset, bufferAddress_eq buf got.length]
  have moved : BitVec.ofNat 32 (got ++ bytes).length = BitVec.ofNat 32 got.length + BitVec.ofNat 32 bytes.length := by
    rw [List.length_append, BitVec.ofNat_add]
  rw [State.delivered, State.delivered, mem, moved]
  rfl

/-- R217, R218: a stream read that is answered. -/
theorem callHbwRead_delivered (p' : Phase) (hn : bytes.length = n) :
    callHbwRead n (((b.delivered buf got es).facing p (.answer (.hbwRead (.ok bytes)) :: l)).goto p') =
      .ok bytes ((b.delivered buf got (es ++ [.hbwRead bytes.length (.ok bytes)])).facing p' l) := by
  rw [← State.delivered_event, callHbwRead_answered rfl hn, hn]
  rfl

/-- R217, R218, R267: one that fails. -/
theorem callHbwRead_delivered_failed (p' : Phase) :
    callHbwRead n (((b.delivered buf got es).facing p (.answer (.hbwRead (.err e)) :: l)).goto p') =
      .err (.transport e) ((b.delivered buf got (es ++ [.hbwRead n (.err e)])).facing p' l) := by
  rw [← State.delivered_event, callHbwRead_failed rfl]
  rfl

/-! ### The main read -/

theorem State.delivered_moved (hg : got.length ≤ b.xfer.toNat) :
    ((b.delivered buf got es).facing p l).moved.toNat = got.length :=
  Nat.mod_eq_of_lt (by omega)

/-- R217: with bytes to go, the main read goes on with the next increment. -/
theorem readLoop_next (hg : got.length < b.xfer.toNat) :
    readLoop buf (n + 1) ((b.delivered buf got es).facing p l) =
      (callHbwRead (min 4 (b.xfer.toNat - got.length)) (((b.delivered buf got es).facing p l).goto .rbData)).bind
        fun bytes s => readLoop buf n (s.place buf bytes) := by
  have more : ((b.delivered buf got es).facing p l).moved.toNat < ((b.delivered buf got es).facing p l).xfer.toNat := by
    rw [State.delivered_moved hg.le]
    exact hg
  rw [readLoop, if_pos more, increment, State.delivered_moved hg.le]
  rfl

/-- R216: with none to go, it is over. -/
theorem readLoop_done (hg : got.length = b.xfer.toNat) :
    readLoop buf n ((b.delivered buf got es).facing p l) = .ok () ((b.delivered buf got es).facing p l) := by
  cases n with
  | zero => rfl
  | succ n => exact if_neg (by rw [State.delivered_moved hg.le, hg]; exact Nat.lt_irrefl _)

/-- R216, R220: increments that are answered are delivered one after the other. -/
theorem readLoop_answered {reads : List (List Byte)} (hg : got.length ≤ b.xfer.toNat)
    (hr : AreIncrements (b.xfer.toNat - got.length) reads) :
    ∃ p', readLoop buf (reads.length + n) ((b.delivered buf got es).facing p (readScript reads ++ l)) =
      readLoop buf n ((b.delivered buf (got ++ reads.flatten) (es ++ readEvents reads)).facing p' l) := by
  induction reads generalizing got es p with
  | nil => exact ⟨p, by simp [readScript, readEvents]⟩
  | cons bytes rest ih =>
    obtain ⟨hpos, hlen, hrest⟩ := hr
    have below : got.length < 2 ^ 32 := lt_of_le_of_lt hg b.xfer.isLt
    obtain ⟨p', hloop⟩ := ih (got := got ++ bytes) (es := es ++ [.hbwRead bytes.length (.ok bytes)]) (p := .rbData)
      (by rw [List.length_append]; omega) (by rwa [List.length_append, ← Nat.sub_sub])
    refine ⟨p', ?_⟩
    rw [List.length_cons, Nat.add_right_comm, readLoop_next (by omega)]
    have read := callHbwRead_delivered (b := b) (buf := buf) (got := got) (es := es) (p := p) (l := readScript rest ++ l)
      .rbData hlen
    refine (congrArg (Res.bind · _) read).trans ?_
    rw [Res.bind_ok, State.delivered_place below, hloop]
    simp [readEvents]

/-- R217, R267: an increment whose read fails ends the main read. -/
theorem readLoop_failed (hg : got.length < b.xfer.toNat) :
    readLoop buf (n + 1) ((b.delivered buf got es).facing p (.answer (.hbwRead (.err e)) :: l)) =
      .err (.transport e)
        ((b.delivered buf got (es ++ [.hbwRead (min 4 (b.xfer.toNat - got.length)) (.err e)])).facing .rbData l) := by
  rw [readLoop_next hg, callHbwRead_delivered_failed]
  rfl

/-- R216: the increments of all the data are the whole main read. -/
theorem readLoop_data (hd : data.length = b.xfer.toNat) :
    ∃ p', readLoop buf b.xfer.toNat ((b.delivered buf [] es).facing p (readScript (increments data) ++ l)) =
      .ok () ((b.delivered buf data (es ++ readEvents (increments data))).facing p' l) := by
  have incs : AreIncrements (b.xfer.toNat - ([] : List Byte).length) (increments data) := hd ▸ areIncrements_increments data
  obtain ⟨n, hfuel⟩ := Nat.exists_eq_add_of_le incs.length_le
  rw [List.length_nil, Nat.sub_zero] at hfuel
  obtain ⟨p', hloop⟩ := readLoop_answered (n := n) (buf := buf) (es := es) (p := p) (l := l) (Nat.zero_le _) incs
  rw [List.nil_append, flatten_increments, readLoop_done hd] at hloop
  exact ⟨p', hfuel ▸ hloop⟩

/-! ### The drain -/

/-- R218: a drain read that is due. -/
theorem drain_due (h : b.extra ≠ 0) :
    drain ((b.delivered buf data es).facing p l) =
      (callHbwRead b.extra.toNat (((b.delivered buf data es).facing p l).goto .rbDrain)).bind fun _ s => .ok () s := if_neg h

/-- R218: the drained bytes, if there are any, go nowhere. -/
theorem drain_answered (hx : b.extra.toNat = drained.length) :
    ∃ p', drain ((b.delivered buf data es).facing p (readScript (if drained = [] then [] else [drained]) ++ l)) =
      .ok () ((b.delivered buf data (es ++ readEvents (if drained = [] then [] else [drained]))).facing p' l) := by
  by_cases hd : drained = []
  · have none : b.extra = 0 := BitVec.eq_of_toNat_eq (by rw [hx, hd]; rfl)
    refine ⟨p, (if_pos none).trans ?_⟩
    simp [hd, readScript, readEvents]
  · have due : b.extra ≠ 0 := fun h => hd (List.length_eq_zero_iff.1 (by rw [← hx, h]; rfl))
    refine ⟨.rbDrain, ?_⟩
    rw [if_neg hd, drain_due due]
    exact congrArg (Res.bind · _) (callHbwRead_delivered .rbDrain hx.symm)

/-- R218, R267: a drain read that fails. -/
theorem drain_failed (h : b.extra ≠ 0) :
    drain ((b.delivered buf data es).facing p (.answer (.hbwRead (.err e)) :: l)) =
      .err (.transport e) ((b.delivered buf data (es ++ [.hbwRead b.extra.toNat (.err e)])).facing .rbDrain l) := by
  rw [drain_due h, callHbwRead_delivered_failed]
  rfl
end

end Sys2Proof.Machine
end

section
/-!
PROOFS. Family 44_block_read.md: a block read from the opening of the channel to its close, delivering its data (O36) or ending
in an error (O38).
-/

namespace Sys2Proof.Machine

/-! ### The registers of a block read -/

/-- R210: the transfer registers at the start of a block read of `len` bytes, with `es` for its trace. -/
def State.reading (s : State) (len : Word) (es : List Event) : State :=
  { s with dir := .read, reqlen := len, moved := 0, trace := es }

/-- R212: what the command of a block read leaves of `s` when it is answered with `r`. -/
def State.readCommanded (s : State) (len id r : Word) : State :=
  (s.answered .hbw (rdbWord s.cfg (low id)) r).reading len
    (s.trace ++ openEvents s.cfg ++ sendEvents s.cmode .hbw (rdbWord s.cfg (low id)) r)

/-- R215: what the check of its response leaves, when the size is legal. -/
def State.readSettled (s : State) (len id r : Word) : State :=
  { s.readCommanded len id r with
    dsz := low r, xfer := BitVec.ofNat 32 (min len.toNat (low r).toNat), extra := drainLength len (low r) }

section
variable {s t : State} {buf len id r : Word} {data drained : List Byte} {es : List Event} {l rest : List Input}

/-- The registers of the transfer bear on nothing else that an answered command leaves. -/
theorem State.reading_answered (route : Route) (w : Word) :
    (s.reading len es).answered route w r = (s.answered route w r).reading len (es ++ sendEvents s.cmode route w r) := by
  unfold State.answered sendEvents armsWait
  cases hs : srBit w <;> cases hm : s.cmode <;> simp [State.reading, hm]

/-- They bear on nothing else that a failed command leaves. -/
theorem State.reading_failed (route : Route) (w : Word) (bad : BadCommand) :
    (s.reading len es).failed route w bad = (s.failed route w bad).reading len (es ++ bad.events s.cmode route w) := by
  cases bad <;> rfl

theorem State.failed_cfg (route : Route) (w : Word) (bad : BadCommand) : (s.failed route w bad).cfg = s.cfg := by
  cases bad <;> rfl

theorem State.readCommanded_cfg (s : State) (len id r : Word) : (s.readCommanded len id r).cfg = s.cfg :=
  State.answered_cfg ..

theorem State.readSettled_xfer : (s.readSettled len id r).xfer.toNat = min len.toNat (low r).toNat := by
  rw [← transferLength_toNat, transferLength_eq]
  rfl

theorem State.readSettled_extra : (s.readSettled len id r).extra = drainLength len (low r) := rfl

/-- With the channel closed, what the command has left stays, beside the registers of the transfer. -/
theorem State.reading_closed (hcfg : t.cfg = s.cfg) (hseq : t.seq = s.seq) (es : List Event) :
    (t.reading len (s.trace ++ openEvents s.cfg ++ es)).channelClosed s.seq rest = { t with
      dir := .read, reqlen := len, moved := 0, inputs := rest,
      trace := s.trace ++ (openEvents s.cfg ++ (es ++ closeEvents s.cfg)) } := by
  rw [← List.append_assoc, ← List.append_assoc, ← hseq, ← hcfg]
  rfl

theorem State.readCommanded_closed (s : State) (len id r : Word) (rest : List Input) :
    (s.readCommanded len id r).channelClosed s.seq rest = { s.answered .hbw (rdbWord s.cfg (low id)) r with
      dir := .read, reqlen := len, moved := 0, inputs := rest,
      trace := s.trace ++ (openEvents s.cfg ++ (sendEvents s.cmode .hbw (rdbWord s.cfg (low id)) r ++
        closeEvents s.cfg)) } :=
  State.reading_closed (State.answered_cfg ..) (State.answered_seq ..) _

/-- R222: a transfer that has stopped, with the channel closed. -/
theorem State.readSettled_closed (data : List Byte) (es : List Event) :
    ((s.readSettled len id r).delivered buf data es).channelClosed s.seq rest =
      s.readFailed buf len id r data es rest := by
  simp [State.readFailed, State.channelClosed, State.delivered, State.readSettled, State.readCommanded, State.reading,
    State.facing, drainLength]

/-- R215, R216: a transfer that is complete has stopped with all its data delivered. -/
theorem State.blockRead_eq_readFailed (hd : BlockFits len (low r) data drained) :
    s.blockRead buf len id r data drained rest =
      s.readFailed buf len id r data (readEvents (blockReads data drained)) rest := by
  obtain ⟨-, -, hdata, hdrained⟩ := hd
  have extra : BitVec.ofNat 2 drained.length =
      if len.toNat < (low r).toNat then BitVec.ofNat 2 (((low r).toNat - len.toNat) % 4) else 0 := by
    rw [hdrained]
    split <;> rfl
  rw [State.blockRead, State.readFailed, extra, hdata]

theorem State.blockRead_seq : (s.blockRead buf len id r data drained rest).seq = s.seq := State.answered_seq ..

/-- The phase and the inputs bear on nothing else that a completed block read leaves. -/
theorem State.blockRead_facing (p : Phase) :
    (s.facing p l).blockRead buf len id r data drained rest =
      (s.blockRead buf len id r data drained rest).facing p rest := by
  rw [State.blockRead, State.answered_facing]
  rfl
end

/-! ### The command and its response -/

/-- R216 to R219: what a block read does after a response that it has accepted. -/
def readData (buf : Word) (s : State) : Res (Option Value) :=
  (readLoop buf s.xfer.toNat s).bind fun _ s => (drain s).bind fun _ s => .ok (some (.count s.moved)) s

section
variable {s : State} {buf len id r : Word} {l : List Input}

/-- R94, R212: a block-read command awaits a response. -/
theorem srBit_rdbWord {c : Config} (hc : Taken c) (id : Half) : srBit (rdbWord c id) = false :=
  (srBit_wordOfHalves _ _).trans hc.rdb

/-- R212: a command that fails ends the transfer. -/
theorem readTransfer_badCommand {bad : BadCommand} (buf len : Word)
    (hp : bad.Possible s.cmode (rdbWord s.cfg (low id))) (es : List Event) (l : List Input) :
    ∃ p, readTransfer buf (low id) ((s.reading len es).facing .rbOpen (bad.script s.cfg ++ l)) =
      .err bad.error (((s.failed .hbw (rdbWord s.cfg (low id)) bad).reading len
        (es ++ bad.events s.cmode .hbw (rdbWord s.cfg (low id)))).facing p l) := by
  refine ⟨if bad.error = .timeout then .execWait else .execSend, ?_⟩
  have failed := execProcedure_bad (route := .hbw) (rest := l) hp
    (s := (s.reading len es).facing .rbCmd (bad.script s.cfg ++ l)) rfl
  rw [State.failed_facing, State.reading_failed] at failed
  exact congrArg (Res.bind · _) failed

variable (buf len l) (hc : Taken s.cfg)
include hc

/-- R212: a command that is answered is followed by the check of its response. -/
theorem readTransfer_commanded :
    readTransfer buf (low id) ((s.reading len (s.trace ++ openEvents s.cfg)).facing .rbOpen
      (sendScript s.cmode (rdbWord s.cfg (low id)) r ++ l)) =
      (rdbCheck r ((s.readCommanded len id r).facing .execLatch l)).bind fun _ s => readData buf s := by
  have hsr := srBit_rdbWord hc (low id)
  have sent := execProcedure_answered (w := rdbWord s.cfg (low id)) (r := r) (route := .hbw) (rest := l)
    (s := (s.reading len (s.trace ++ openEvents s.cfg)).facing .rbCmd
      (sendScript s.cmode (rdbWord s.cfg (low id)) r ++ l)) rfl
  rw [State.answered_facing, State.reading_answered, hsr] at sent
  have resp : ((s.readCommanded len id r).facing .execLatch l).resp = r := State.answered_resp hsr
  refine (congrArg (Res.bind · _) sent).trans ?_
  show (rdbCheck ((s.readCommanded len id r).facing .execLatch l).resp _).bind _ = _
  rw [resp]
  rfl

/-- R213: a response with another opcode ends the transfer. -/
theorem readTransfer_wrongOpcode (ho : opc r ≠ s.cfg.opcRdb) :
    readTransfer buf (low id) ((s.reading len (s.trace ++ openEvents s.cfg)).facing .rbOpen
      (sendScript s.cmode (rdbWord s.cfg (low id)) r ++ l)) =
      .err .protocolMismatch ((s.readCommanded len id r).facing .rbCheck l) := by
  rw [readTransfer_commanded buf len l hc, rdbCheck_wrongOpcode (by rwa [State.facing_cfg, State.readCommanded_cfg])]
  rfl

variable (ho : opc r = s.cfg.opcRdb)
include ho

/-- R214: so does a size that is not legal. -/
theorem readTransfer_illegalSize (hd : ¬((low r).toNat ≠ 0 ∧ (low r).toNat % 4 = 0)) :
    readTransfer buf (low id) ((s.reading len (s.trace ++ openEvents s.cfg)).facing .rbOpen
      (sendScript s.cmode (rdbWord s.cfg (low id)) r ++ l)) =
      .err .invalidSize (State.facing { s.readCommanded len id r with dsz := low r } .rbCheck l) := by
  rw [readTransfer_commanded buf len l hc, rdbCheck_illegalSize (by rwa [State.facing_cfg, State.readCommanded_cfg]) hd]
  rfl

/-- R215: after the right opcode and a legal size comes the data. -/
theorem readTransfer_settled (hd : (low r).toNat ≠ 0 ∧ (low r).toNat % 4 = 0) :
    readTransfer buf (low id) ((s.reading len (s.trace ++ openEvents s.cfg)).facing .rbOpen
      (sendScript s.cmode (rdbWord s.cfg (low id)) r ++ l)) =
      readData buf (((s.readSettled len id r).delivered buf [] []).facing .rbCheck l) := by
  rw [readTransfer_commanded buf len l hc, rdbCheck_legal (by rwa [State.facing_cfg, State.readCommanded_cfg]) hd,
    State.delivered_nil rfl]
  rfl
end

/-! ### The channel bracket -/

section
variable {s t : State} {q : Nat} {buf len id : Word} {l rest : List Input} {p : Phase}

/-- Listing R210: without the fast path, a block read opens the channel, makes its transfer and closes the channel. -/
theorem readBlockBody_opened (buf id : Word) (hf : s.cfg.hasRdbFastpath = false) (hi : s.inputs = openScript s.cfg ++ l) :
    readBlockBody buf len id s =
      (readTransfer buf (low id) ((s.reading len (s.trace ++ openEvents s.cfg)).facing .rbOpen l)).after
        fun s => closeChannel (s.goto .rbClose) := by
  have opened := openChannel_script (s := s.startRead len) hi
  rw [readBlockBody, if_neg (by simp [hf]), opened]
  rfl

theorem closeChannel_facing (hcfg : t.cfg = s.cfg) :
    closeChannel ((t.facing p (closeScript s.cfg ++ rest)).goto .rbClose) = .ok () (t.channelClosed .rbClose rest) :=
  closeChannel_script (s := (t.facing p (closeScript s.cfg ++ rest)).goto .rbClose)
    (congrArg (closeScript · ++ rest) hcfg.symm)

/-- R191, R222: an error of the transfer ends the block read, with the channel closed. -/
theorem exec_readBlock_raises {e : Err} (hh : s.Holder q) (hf : s.cfg.hasRdbFastpath = false) (hl : Calm l)
    (hi : s.inputs = openScript s.cfg ++ l)
    (hb : readTransfer buf (low id) ((s.reading len (s.trace ++ openEvents s.cfg)).facing .rbOpen l) =
      .err e (t.facing p (closeScript s.cfg ++ rest)))
    (hcfg : t.cfg = s.cfg) :
    exec (.readBlock q buf len id) s = .next ((t.channelClosed s.seq rest).returned q (HRes.ofErr e)) := by
  refine unlockedOperation_raises (body := readBlockBody buf len id) (t := t.channelClosed s.seq rest) (p := .rbClose) hh
    (hi ▸ calm_openScript hl) hh.ready.idle ?_
  rw [readBlockBody_opened buf id hf hi, hb, Res.after_err, closeChannel_facing hcfg]
  rfl
end

/-! ### A transfer that is complete -/

section
variable {s : State} {q : Nat} {buf len id r : Word} {data drained : List Byte} {l rest : List Input}

/-- R216 to R219: all the data and the drained bytes are read, and the count returned. -/
theorem readData_answered {b : State} (p : Phase) (l : List Input) (hdata : data.length = b.xfer.toNat)
    (hdrained : b.extra.toNat = drained.length) :
    ∃ p', readData buf ((b.delivered buf [] []).facing p (readScript (blockReads data drained) ++ l)) =
      .ok (some (.count (BitVec.ofNat 32 data.length)))
        ((b.delivered buf data (readEvents (blockReads data drained))).facing p' l) := by
  obtain ⟨p₁, hloop⟩ := readLoop_data (buf := buf) (es := []) (p := p)
    (l := readScript (if drained = [] then [] else [drained]) ++ l) hdata
  obtain ⟨p₂, hdrain⟩ := drain_answered (buf := buf) (data := data) (es := readEvents (increments data)) (p := p₁)
    (l := l) hdrained
  refine ⟨p₂, ?_⟩
  rw [blockReads, readScript, readEvents, List.map_append, List.map_append, List.append_assoc]
  refine (congrArg (Res.bind · _) hloop).trans ?_
  rw [Res.bind_ok, List.nil_append, hdrain]
  rfl

/-- R215: the settled lengths are those of data and drained bytes that fit. -/
theorem BlockFits.settled (h : BlockFits len (low r) data drained) :
    data.length = (s.readSettled len id r).xfer.toNat ∧ (s.readSettled len id r).extra.toNat = drained.length := by
  obtain ⟨-, -, hdata, hdrained⟩ := h
  refine ⟨hdata.trans State.readSettled_xfer.symm, ?_⟩
  rw [State.readSettled_extra, hdrained]
  split
  · next h => exact drainLength_toNat h
  · next h => rw [drainLength_full (Nat.le_of_not_lt h)]; rfl

section
variable (hf : s.cfg.hasRdbFastpath = false) (ho : opc r = s.cfg.opcRdb) (hd : BlockFits len (low r) data drained)
include hf ho hd

/-- R219: the body of a block read delivers its data. -/
theorem readBlockBody_delivers (hc : Taken s.cfg)
    (hi : s.inputs = openScript s.cfg ++ (sendScript s.cmode (rdbWord s.cfg (low id)) r ++
      (readScript (blockReads data drained) ++ (closeScript s.cfg ++ rest)))) :
    readBlockBody buf len id s = .ok (some (.count (BitVec.ofNat 32 data.length)))
      ((s.blockRead buf len id r data drained rest).facing .rbClose rest) := by
  obtain ⟨hxfer, hextra⟩ := hd.settled (s := s) (id := id)
  obtain ⟨p, hread⟩ := readData_answered (buf := buf) .rbCheck (closeScript s.cfg ++ rest) hxfer hextra
  have hcfg : ((s.readSettled len id r).delivered buf data (readEvents (blockReads data drained))).cfg = s.cfg :=
    State.readCommanded_cfg s len id r
  rw [State.blockRead_eq_readFailed hd, ← State.readSettled_closed]
  obtain ⟨hpos, hgroups, -⟩ := hd
  rw [readBlockBody_opened buf id hf hi, readTransfer_settled buf len _ hc ho ⟨hpos, hgroups⟩, hread, Res.after_ok,
    closeChannel_facing hcfg]
  rfl

/-- R180, R219: the locked variant delivers them between lock and release. -/
theorem exec_readBlockLocked_delivers (hp : s.Public q) (hc : Calm rest)
    (hi : s.inputs = .answer (.resume true) :: (openScript s.cfg ++ (sendScript s.cmode (rdbWord s.cfg (low id)) r ++
      (readScript (blockReads data drained) ++ (closeScript s.cfg ++ rest))))) :
    exec (.readBlockLocked q buf len id) s = .next
      ((((s.opened q).blockRead buf len id r data drained rest).closed q).returned q
        (HRes.ofValue (some (.count (BitVec.ofNat 32 data.length))))) := by
  have body := readBlockBody_delivers (buf := buf) (id := id) (rest := rest)
    (s := (s.opened q).facing .gateResume (openScript s.cfg ++ (sendScript s.cmode (rdbWord s.cfg (low id)) r ++
      (readScript (blockReads data drained) ++ (closeScript s.cfg ++ rest)))))
    hf ho hd (taken_of_configOk hp.1.lawful) rfl
  rw [State.blockRead_facing, State.facing_facing] at body
  exact lockedOperation_returns (body := readBlockBody buf len id) hp hc hi (calm_openScript (calm_sendScript ..))
    ((State.blockRead_seq (s := s.opened q)).trans hp.1.idle) body
end
end

/-- Settles O36: the data stands where the increments put it, and the locked variant runs the same body. -/
theorem readBlockDeliversData : Obligations.ReadBlockDeliversData := by
  intro s q buf len id r data drained rest script hr hc hf hm ho hd hscript
  subst hscript
  refine ⟨fun t ht => ⟨fun k hk => ?inside, fun a ha => ?outside⟩, fun hl hv hi => ?unlocked,
    fun hl hi => exec_readBlockLocked_delivers hf ho hd ⟨hr, hl⟩ hc hi⟩
  case inside =>
    rw [ht, bufferAddress_eq]
    exact readByte_writeBytes_same hm _ data k hk
  case outside =>
    rw [bufferAddress_eq buf data.length] at ha
    rw [ht]
    exact readByte_writeBytes_other ha
  case unlocked =>
    exact unlockedOperation_returns (body := readBlockBody buf len id) ⟨hr, hl, hv⟩
      (hi ▸ calm_openScript (calm_sendScript ..)) (State.blockRead_seq.trans hr.idle)
      (readBlockBody_delivers hf ho hd (taken_of_configOk hr.lawful) hi)

/-! ### A block read that fails -/

section
variable {s : State} {q : Nat} {buf len id r : Word} {data : List Byte} {got : List (List Byte)} {l rest : List Input}
  {e : TErr}  (hh : s.Holder q) (hf : s.cfg.hasRdbFastpath = false)
include hh hf

/-- R212, R222: a command that fails, by its send or by a timeout. -/
theorem exec_readBlock_badCommand {bad : BadCommand} (hp : bad.Possible s.cmode (rdbWord s.cfg (low id)))
    (hi : s.inputs = openScript s.cfg ++ (bad.script s.cfg ++ (closeScript s.cfg ++ rest))) :
    exec (.readBlock q buf len id) s = .next (State.returned { s.failed .hbw (rdbWord s.cfg (low id)) bad with
      dir := .read, reqlen := len, moved := 0, inputs := rest,
      trace := s.trace ++ (openEvents s.cfg ++ (bad.events s.cmode .hbw (rdbWord s.cfg (low id)) ++
        closeEvents s.cfg)) } q (HRes.ofErr bad.error)) := by
  obtain ⟨p, hbad⟩ := readTransfer_badCommand buf len hp (s.trace ++ openEvents s.cfg) (closeScript s.cfg ++ rest)
  rw [exec_readBlock_raises hh hf (bad.calm_script ..) hi hbad (State.failed_cfg ..),
    State.reading_closed (State.failed_cfg ..) (State.failed_seq ..)]

/-- R213: a response with another opcode. -/
theorem exec_readBlock_wrongOpcode (ho : opc r ≠ s.cfg.opcRdb)
    (hi : s.inputs = openScript s.cfg ++ (sendScript s.cmode (rdbWord s.cfg (low id)) r ++ (closeScript s.cfg ++ rest))) :
    exec (.readBlock q buf len id) s = .next (State.returned { s.answered .hbw (rdbWord s.cfg (low id)) r with
      dir := .read, reqlen := len, moved := 0, inputs := rest,
      trace := s.trace ++ (openEvents s.cfg ++ (sendEvents s.cmode .hbw (rdbWord s.cfg (low id)) r ++
        closeEvents s.cfg)) } q (HRes.ofErr .protocolMismatch)) := by
  have ended := readTransfer_wrongOpcode buf len (id := id) (closeScript s.cfg ++ rest)
    (taken_of_configOk hh.ready.lawful) ho
  rw [exec_readBlock_raises hh hf (calm_sendScript ..) hi ended (State.readCommanded_cfg ..), State.readCommanded_closed]

/-- R214: a size of 0 or off the 4-byte grid. -/
theorem exec_readBlock_illegalSize (ho : opc r = s.cfg.opcRdb) (hd : (low r).toNat = 0 ∨ (low r).toNat % 4 ≠ 0)
    (hi : s.inputs = openScript s.cfg ++ (sendScript s.cmode (rdbWord s.cfg (low id)) r ++ (closeScript s.cfg ++ rest))) :
    exec (.readBlock q buf len id) s = .next (State.returned { s.answered .hbw (rdbWord s.cfg (low id)) r with
      dir := .read, reqlen := len, moved := 0, dsz := low r, inputs := rest,
      trace := s.trace ++ (openEvents s.cfg ++ (sendEvents s.cmode .hbw (rdbWord s.cfg (low id)) r ++
        closeEvents s.cfg)) } q (HRes.ofErr .invalidSize)) := by
  have ended := readTransfer_illegalSize buf len (id := id) (closeScript s.cfg ++ rest)
    (taken_of_configOk hh.ready.lawful) ho (by omega)
  rw [exec_readBlock_raises hh hf (calm_sendScript ..) hi ended (State.readCommanded_cfg s len id r)]
  exact congrArg (fun t : State => Host.Outcome.next (State.returned { t with dsz := low r } q (HRes.ofErr .invalidSize)))
    (State.readCommanded_closed s len id r rest)

variable (ho : opc r = s.cfg.opcRdb) (hd : (low r).toNat ≠ 0 ∧ (low r).toNat % 4 = 0)
include ho hd

/-- R222, R267: a read that fails after the response is accepted. -/
theorem exec_readBlock_readFailed {es : List Event} {p : Phase}
    (hi : s.inputs = openScript s.cfg ++ (sendScript s.cmode (rdbWord s.cfg (low id)) r ++ l))
    (hr : readData buf (((s.readSettled len id r).delivered buf [] []).facing .rbCheck l) =
      .err (.transport e) (((s.readSettled len id r).delivered buf data es).facing p (closeScript s.cfg ++ rest))) :
    exec (.readBlock q buf len id) s =
      .next ((s.readFailed buf len id r data es rest).returned q (HRes.ofErr (.transport e))) := by
  rw [← readTransfer_settled buf len l (taken_of_configOk hh.ready.lawful) ho hd] at hr
  rw [exec_readBlock_raises hh hf (calm_sendScript ..) hi hr (State.readCommanded_cfg s len id r), State.readSettled_closed]

/-- R217: a data read that fails after whole increments. -/
theorem exec_readBlock_dataFailed (hw : ∀ b ∈ got, b.length = 4) (hn : 4 * got.length < min len.toNat (low r).toNat)
    (hi : s.inputs = openScript s.cfg ++ (sendScript s.cmode (rdbWord s.cfg (low id)) r ++
      (readScript got ++ .answer (.hbwRead (.err e)) :: (closeScript s.cfg ++ rest)))) :
    exec (.readBlock q buf len id) s = .next ((s.readFailed buf len id r got.flatten
      (readEvents got ++ [.hbwRead (min 4 (min len.toNat (low r).toNat - 4 * got.length)) (.err e)]) rest).returned q
        (HRes.ofErr (.transport e))) := by
  have hxfer := State.readSettled_xfer (s := s) (len := len) (id := id) (r := r)
  rw [← hxfer] at hn ⊢
  obtain ⟨n, hfuel⟩ := Nat.exists_eq_add_of_lt (show got.length < (s.readSettled len id r).xfer.toNat by omega)
  obtain ⟨p, hloop⟩ := readLoop_answered (b := s.readSettled len id r) (buf := buf) (got := []) (es := []) (p := .rbCheck)
    (n := n + 1) (l := .answer (.hbwRead (.err e)) :: (closeScript s.cfg ++ rest)) (Nat.zero_le _)
    (areIncrements_of_whole hw (hn.trans_eq (Nat.sub_zero _).symm))
  have hlen := length_flatten_of_whole hw
  rw [List.nil_append, List.nil_append, readLoop_failed (hlen ▸ hn), hlen, ← Nat.add_assoc, ← hfuel] at hloop
  exact exec_readBlock_readFailed hh hf ho hd hi (congrArg (Res.bind · _) hloop)

/-- R218: a drain read that fails after all the data. -/
theorem exec_readBlock_drainFailed (hdata : data.length = len.toNat) (hlt : len.toNat < (low r).toNat)
    (hn : len.toNat % 4 ≠ 0)
    (hi : s.inputs = openScript s.cfg ++ (sendScript s.cmode (rdbWord s.cfg (low id)) r ++
      (readScript (increments data) ++ .answer (.hbwRead (.err e)) :: (closeScript s.cfg ++ rest)))) :
    exec (.readBlock q buf len id) s = .next ((s.readFailed buf len id r data
      (readEvents (increments data) ++ [.hbwRead (((low r).toNat - len.toNat) % 4) (.err e)]) rest).returned q
        (HRes.ofErr (.transport e))) := by
  have hextra : (s.readSettled len id r).extra.toNat = ((low r).toNat - len.toNat) % 4 := drainLength_toNat hlt
  have due : (s.readSettled len id r).extra ≠ 0 := fun h => by
    have nothing : ((low r).toNat - len.toNat) % 4 = 0 := by rw [← hextra, h]; rfl
    omega
  have all : data.length = (s.readSettled len id r).xfer.toNat := by rw [State.readSettled_xfer]; omega
  obtain ⟨p, hloop⟩ := readLoop_data (buf := buf) (es := []) (p := .rbCheck)
    (l := .answer (.hbwRead (.err e)) :: (closeScript s.cfg ++ rest)) all
  refine exec_readBlock_readFailed hh hf ho hd (p := .rbDrain) hi ((congrArg (Res.bind · _) hloop).trans ?_)
  rw [Res.bind_ok, List.nil_append, drain_failed due, hextra]
  rfl
end

/-- Settles O38: the command, the check of its response, the data reads and the drain read each end it with their error. -/
theorem readBlockEndsInError : Obligations.ReadBlockEndsInError := by
  intro s q buf len id r bad e got data rest hh hf
  exact ⟨exec_readBlock_badCommand hh hf, exec_readBlock_wrongOpcode hh hf, exec_readBlock_illegalSize hh hf,
    fun ho hpos hgroups => exec_readBlock_dataFailed hh hf ho ⟨hpos, hgroups⟩,
    fun ho hpos hgroups => exec_readBlock_drainFailed hh hf ho ⟨hpos, hgroups⟩⟩

end Sys2Proof.Machine
end

section
/-!
PROOFS. Family 45_wakeup.md: the rows of its two checked commands (O50), and the readiness wait of step 3 (O45).
-/

namespace Sys2Proof.Machine

/-! ### The two checked commands -/

section
variable {s : State} {w r : Word} {rest : List Input}

section
variable (hs : srBit w = false) (hi : s.inputs = sendScript s.cmode w r ++ rest)
include hs hi

/-- R237: the status query is judged by the response just cached. -/
theorem statusCommand_answered : statusCommand w s =
    if low r ∈ s.cfg.acceptedStates then .ok () ((s.answered .pri w r).facing .execLatch rest)
    else .err .protocolMismatch ((s.answered .pri w r).facing .execLatch rest) := by
  rw [statusCommand, execProcedure_answered hi, hs, Res.bind_ok]
  change (if low (s.answered .pri w r).resp ∈ (s.answered .pri w r).cfg.acceptedStates then _ else _) = _
  rw [State.answered_resp hs, State.answered_cfg]
  rfl

/-- R239: so is the synchronize command. -/
theorem syncCommand_answered : syncCommand w s =
    if r = w then .ok () ((s.answered .pri w r).facing .execLatch rest)
    else .err .protocolMismatch ((s.answered .pri w r).facing .execLatch rest) := by
  rw [syncCommand, execProcedure_answered hi, hs, Res.bind_ok]
  change (if (s.answered .pri w r).resp = w then _ else _) = _
  rw [State.answered_resp hs]
  rfl
end

/-- R316: the row of a command that passes a check, or fails with a mismatch in the same state. -/
theorem ownWord_checked {q : Nat} {t : State} {p : Phase} {P : Prop} [Decidable P] {body : State → Res Unit}
    (hh : s.Holder q) (hc : Calm s.inputs) (ht : t.seq = .idle)
    (hb : body s = if P then .ok () (t.facing p rest) else .err .protocolMismatch (t.facing p rest)) :
    ownWord (decide (w = w)) (fun s => noValue (body s)) s = .next (State.returned { t with inputs := rest } q
      (if P then HRes.ofValue none else HRes.ofErr .protocolMismatch)) := by
  rw [ownWord_holder hh hc, hb]
  split <;> exact congrArg Host.Outcome.next (endOperation_eq_returned (s := { t with inputs := rest }) ht p q _)
end

/-- Settles O50: each row is its command in the phase of its step, and a word that is not the configuration's is stopped
before it. -/
theorem checkedWakeRows : Obligations.CheckedWakeRows := by
  intro s q r rest hh
  have hc := taken_of_configOk hh.ready.lawful
  refine ⟨fun hi => ?status, fun hi => ?sync,
    fun w => ⟨fun hw => if_neg (by simpa using hw), fun hw => if_neg (by simpa using hw)⟩⟩
  case status =>
    have body := statusCommand_answered (s := s.goto .wk4Confirm) hc.statusQuery hi
    rw [State.answered_goto] at body
    exact ownWord_checked hh (calm_of_sendScript hi) (hh.answered_idle .pri _ r) body
  case sync =>
    have body := syncCommand_answered (s := s.goto .wk5Sync) hc.sync hi
    rw [State.answered_goto] at body
    exact ownWord_checked hh (calm_of_sendScript hi) (hh.answered_idle .pri _ r) body

/-! ### Step 3 -/

section
variable {s : State} {n : Nat} {rest : List Input}

/-- R231: what step 3 starts from. -/
def State.awaitingAck (s : State) : State := (s.goto .wk3Await).enter .awaitingAck

section
variable (hw : s.cfg.wakeHasComplLine = true)
include hw

/-- R236: with a completion line step 3 is a completion wait. -/
theorem wakeAwait_line : wakeAwait s = (completionWait s.cfg.tWakeTimeout s.awaitingAck).bind wakeWaited := if_pos hw

/-- R236, R251: a completion that came in step 2 ends it at once. -/
theorem wakeAwait_latched (hl : s.cseen = true) (hc : Calm s.inputs) :
    wakeAwait s = .ok () { s.awaitingAck.disarm with tmr := 0 } := by
  rw [wakeAwait_line hw, completionWait_latched (s := s.awaitingAck) hc hl]
  rfl

/-- R236: the completion ends it. -/
theorem wakeAwait_completed (hl : s.cseen = false) (hi : s.inputs = .completion :: rest) :
    wakeAwait s = .ok () { s.awaitingAck.disarm with
      tmr := 0, inputs := rest, trace := s.trace ++ [.completion] } := by
  have hi' : s.awaitingAck.inputs = .completion :: rest := hi
  rw [wakeAwait_line hw, completionWait_unlatched (s := s.awaitingAck) (by rw [hi']; rfl) hl, hi']
  rfl

/-- R236: so do ticks that bring the timer to 0, with `Timeout`. -/
theorem wakeAwait_expired (hl : s.cseen = false) (hn : s.cfg.tWakeTimeout ≤ n) (hi : s.inputs = .ticks n :: rest) :
    wakeAwait s = .err .timeout { s.awaitingAck.disarm with
      tmr := 0, clock := s.clock + s.cfg.tWakeTimeout, trace := s.trace ++ [.timeout],
      inputs := if n = s.cfg.tWakeTimeout then rest else .ticks (n - s.cfg.tWakeTimeout) :: rest } := by
  rw [wakeAwait_line hw, completionWait_expired (s := s.awaitingAck) hl hn hi]
  rfl
end

/-- R236, R283: without a completion line step 3 is a delay. -/
theorem wakeAwait_settled (hw : s.cfg.wakeHasComplLine = false) (hc : Calm rest)
    (hi : s.inputs = delayScript s.cfg.tWakeSettle ++ rest) :
    wakeAwait s = .ok () { s.awaitingAck with
      inputs := rest, trace := s.trace ++ [.delay s.cfg.tWakeSettle], clock := s.clock + s.cfg.tWakeSettle,
      dly := if s.cfg.tWakeSettle = 0 then s.dly else 0 } :=
  (if_neg (by simp [hw])).trans (delayTicks_script (s := s.awaitingAck) (fun _ => hc) hi)
end

/-- Settles O45: with a completion line the wait ends in one of its three ways, without one the delay ends. -/
theorem wakeReadinessWait : Obligations.WakeReadinessWait := by
  intro s n rest
  exact ⟨fun hw hl hc => wakeAwait_latched hw hl hc, fun hw hl hi => wakeAwait_completed hw hl hi,
    fun hw hl hn hi => wakeAwait_expired hw hl hn hi, fun hw hc hi => ⟨_, wakeAwait_settled hw hc hi, rfl⟩⟩

end Sys2Proof.Machine
end

section
/-!
PROOFS. Family 45_wakeup.md, the layer beneath: a WAKEUP at rest between two of its steps, and what the steps of an attempt do
when the outside world answers.
-/

namespace Sys2Proof.Machine

/-! ### What the steps of an attempt leave alone -/

/-- R230: `t` is what steps of a WAKEUP leave of `b`: their events are `es`, the outside world has `l` still to do, and only the
phase, `WSTATE` and the registers of EXEC and of the delays have moved. -/
def Waking (b t : State) (es : List Event) (l : List Input) : Prop :=
  t = { b with
    seq := t.seq, wstate := t.wstate, trace := b.trace ++ es, inputs := l, resp := t.resp, lastResp := t.lastResp,
    lastTs := t.lastTs, lastValid := t.lastValid, pend := t.pend, cseen := t.cseen, tmr := t.tmr, dly := t.dly,
    clock := t.clock }

/-- R35: `s` in another completion mode. -/
def State.inMode (s : State) (mode : CMode) : State := { s with cmode := mode }

section
variable {b t u : State} {es fs : List Event} {l m : List Input}

section
variable (h : Waking b t es l)
include h

theorem Waking.cfg : t.cfg = b.cfg := by rw [h]
theorem Waking.cmode : t.cmode = b.cmode := by rw [h]
theorem Waking.lastErr : t.lastErr = b.lastErr := by rw [h]
theorem Waking.inputs : t.inputs = l := by rw [h]
theorem Waking.trace : t.trace = b.trace ++ es := by rw [h]

theorem Waking.trans (k : Waking t u fs m) : Waking b u (es ++ fs) m := by
  unfold Waking at k
  rw [h.trace, List.append_assoc, h] at k
  exact k

theorem Waking.goto (p : Phase) : Waking b (t.goto p) es l := congrArg (State.goto · p) h
theorem Waking.enter (w : WState) : Waking b (t.enter w) es l := congrArg (State.enter · w) h
theorem Waking.disarm : Waking b t.disarm es l := congrArg State.disarm h
theorem Waking.facing (p : Phase) (m : List Input) : Waking b (t.facing p m) es m := congrArg (State.facing · p m) h
theorem Waking.inMode (mode : CMode) : Waking (b.inMode mode) (t.inMode mode) es l := congrArg (State.inMode · mode) h

theorem Waking.emit (e : Event) : Waking b (t.emit e) (es ++ [e]) l := by
  rw [← h.inputs]
  exact h.trans rfl

/-- R12: an event, for which the outside world did the first of what it had to do. -/
theorem Waking.event (e : Event) (m : List Input) :
    Waking b { t with inputs := m, trace := t.trace ++ [e] } (es ++ [e]) m := h.trans rfl

theorem Waking.arm : Waking b t.arm (es ++ [.arm]) l := by
  rw [← h.inputs]
  exact h.trans rfl

/-- R140: a command that is answered. -/
theorem Waking.answered (w r : Word) (p : Phase) (m : List Input) :
    Waking b ((t.answered .pri w r).facing p m) (es ++ sendEvents b.cmode .pri w r) m := by
  rw [← h.cmode]
  refine (h.trans (m := t.inputs) ?_).facing p m
  unfold State.answered sendEvents armsWait Waking
  cases hs : srBit w <;> cases hm : t.cmode <;> simp

/-- R144, R147: a command that fails. -/
theorem Waking.failed (w : Word) (bad : BadCommand) (p : Phase) (m : List Input) :
    Waking b ((t.failed .pri w bad).facing p m) (es ++ bad.events b.cmode .pri w) m := by
  rw [← h.cmode]
  refine (h.trans (m := t.inputs) ?_).facing p m
  cases bad <;> rfl
end
end

/-! ### How a run comes down to what is left of it -/

/-- The run `r` comes down to `f` of a state that it leaves of `b` with the events `es` and `l` still to come: `f` is
`Res.ok ()` where it passes, `Res.err e` where it fails with `e`, and else what it still has to do. -/
def Res.Comes {α : Type} (r : Res α) (f : State → Res α) (b : State) (es : List Event) (l : List Input) : Prop :=
  ∃ u, r = f u ∧ Waking b u es l

section
variable {α β : Type} {r : Res α} {f : State → Res α} {b c : State} {es fs : List Event} {l m : List Input}

theorem Res.Comes.trans {f' : State → Res α} (h : r.Comes f b es l)
    (k : ∀ u, Waking b u es l → (f u).Comes f' c fs m) : r.Comes f' c fs m := by
  obtain ⟨u, hu, wu⟩ := h
  exact hu ▸ k u wu

theorem Res.Comes.bind {v : α} (h : r.Comes (.ok v) b es l) (g : α → State → Res β) : (r.bind g).Comes (g v) b es l := by
  obtain ⟨u, hu, wu⟩ := h
  exact ⟨u, by rw [hu, Res.bind_ok], wu⟩

theorem Res.Comes.bind_err {e : Err} (h : r.Comes (.err e) b es l) (g : α → State → Res β) :
    (r.bind g).Comes (.err e) b es l := by
  obtain ⟨u, hu, wu⟩ := h
  exact ⟨u, by rw [hu, Res.bind_err], wu⟩
end

/-! ### Steps 1 to 3 -/

section
variable {b t : State} {es : List Event} {l : List Input} {n : Nat}

/-- R283: a delay that the outside world ends. -/
theorem delayTicks_passes (h : Waking b t es (delayScript n ++ l)) (hl : Calm l) :
    (delayTicks n t).Comes (.ok ()) b (es ++ [.delay n]) l :=
  ⟨_, delayTicks_script (fun _ => hl) h.inputs, h.trans rfl⟩

/-- R315: a step's time, where nothing falls in it. -/
theorem Waking.pause (h : Waking b t es l) (hl : Calm l) : pause t = .ok () t := pause_calm (h.inputs ▸ hl)

/-- R233: the clock is enabled and settles, where there is one. -/
theorem wakeClock_passes (h : Waking b t es (clockScript b.cfg ++ l)) (hl : Calm l) :
    (wakeClock t).Comes (.ok ()) b (es ++ clockEvents b.cfg) l := by
  unfold clockScript at h
  rw [wakeClock, clockEvents, h.cfg]
  split at h
  · next hx =>
    rw [if_pos hx, if_pos hx, (h.goto .wk1Clock).pause (calm_delayScript hl), Res.bind_ok, State.goto_cfg, h.cfg]
    simpa using delayTicks_passes ((h.goto .wk1Clock).emit .clkEnable) hl
  · next hx =>
    rw [if_neg hx, if_neg hx, List.append_nil]
    exact ⟨_, rfl, h.goto .wk1Clock⟩

/-- R234: the wait is armed, where there is a completion line, with no completion latched. -/
theorem wakeArm_passes (h : Waking b t es l) (hl : Calm l) :
    ∃ u, wakeArm t = .ok () u ∧ Waking b u (es ++ if b.cfg.wakeHasComplLine then [.arm] else []) l ∧
      (b.cfg.wakeHasComplLine = true → u.cseen = false) := by
  rw [wakeArm, h.cfg]
  split
  · exact ⟨_, by rw [h.pause hl]; rfl, h.arm, fun _ => rfl⟩
  · next hw => exact ⟨t, rfl, by simpa using h, fun hx => absurd hx hw⟩

/-- R42, R235: a wake primitive that returns. -/
theorem callWake_answered {a : Ans Unit} (h : t.inputs = .answer (.wake a) :: l) :
    callWake t = transportResult a { t with inputs := l, trace := t.trace ++ [.wake a] } := by
  rw [callWake, h]
  rfl

/-- R235: the toggle, by either means; it leaves the completion latch alone. -/
theorem wakeToggle_passes
    (h : Waking b t es ((if b.cfg.wakeViaGpio then [] else [.answer (.wake (.ok ()))]) ++ l)) (hl : Calm l) :
    ∃ u, wakeToggle t = .ok () u ∧
      Waking b u (es ++ if b.cfg.wakeViaGpio then [.wakePulse] else [.wake (.ok ())]) l ∧ u.cseen = t.cseen := by
  rw [wakeToggle, h.cfg]
  split at h
  · next hg =>
    rw [if_pos hg, if_pos hg]
    exact ⟨_, by rw [h.pause hl]; rfl, h.emit .wakePulse, rfl⟩
  · next hg =>
    rw [if_neg hg, if_neg hg, callWake_answered h.inputs]
    exact ⟨_, rfl, h.event _ l, rfl⟩

/-- R235, R267: a wake primitive that fails. -/
theorem wakeToggle_fails {e : TErr} (hg : b.cfg.wakeViaGpio = false) (h : Waking b t es (.answer (.wake (.err e)) :: l)) :
    (wakeToggle t).Comes (.err (.transport e)) b (es ++ [.wake (.err e)]) l := by
  rw [wakeToggle, h.cfg, hg, callWake_answered h.inputs]
  exact ⟨_, rfl, (h.event _ l).disarm⟩

/-- R236: step 3 passes with the completion, or when the settling time is over. -/
theorem wakeAwait_passes
    (h : Waking b t es ((if b.cfg.wakeHasComplLine then [.completion] else delayScript b.cfg.tWakeSettle) ++ l))
    (hl : Calm l) (hlatch : b.cfg.wakeHasComplLine = true → t.cseen = false) :
    (wakeAwait t).Comes (.ok ()) b
      (es ++ if b.cfg.wakeHasComplLine then [.completion] else [.delay b.cfg.tWakeSettle]) l := by
  split at h
  · next hw =>
    rw [if_pos hw]
    exact ⟨_, wakeAwait_completed (h.cfg ▸ hw) (hlatch hw) h.inputs, h.trans rfl⟩
  · next hw =>
    rw [if_neg hw]
    rw [← h.cfg] at h ⊢
    exact ⟨_, wakeAwait_settled (by simpa [← h.cfg] using hw) hl h.inputs, h.trans rfl⟩

/-- R236: it fails when its timer has run down. -/
theorem wakeAwait_fails (h : Waking b t es (.ticks b.cfg.tWakeTimeout :: l)) (hw : b.cfg.wakeHasComplLine = true)
    (hlatch : t.cseen = false) :
    (wakeAwait t).Comes (.err .timeout) b (es ++ [.timeout]) l := by
  refine ⟨_, wakeAwait_expired (h.cfg ▸ hw) hlatch (Nat.le_of_eq (congrArg _ h.cfg)) h.inputs, ?_⟩
  rw [if_pos (congrArg _ h.cfg.symm)]
  exact h.trans rfl
end

/-! ### Steps 4 to 6 -/

section
variable {b t : State} {es : List Event} {l : List Input} {w r : Word} {bad : BadCommand}

/-- R140: a command of WAKEUP that is answered. -/
theorem execProcedure_passes (h : Waking b t es (sendScript b.cmode w r ++ l)) :
    (execProcedure w .pri t).Comes (.ok (if srBit w then none else some r)) b (es ++ sendEvents b.cmode .pri w r) l :=
  ⟨_, execProcedure_answered (h.inputs.trans (by rw [h.cmode])), h.answered w r _ l⟩

/-- R144, R147: a command of WAKEUP that fails. -/
theorem execProcedure_fails (hp : bad.Possible b.cmode w) (h : Waking b t es (bad.script b.cfg ++ l)) :
    (execProcedure w .pri t).Comes (.err bad.error) b (es ++ bad.events b.cmode .pri w) l :=
  ⟨_, execProcedure_bad (h.cmode ▸ hp) (h.inputs.trans (by rw [h.cfg])), h.failed w bad _ l⟩

/-- R237: step 4 passes with an accepted state. -/
theorem wakeConfirm_passes (hc : Taken b.cfg) (ha : StatusAccepted b.cfg r)
    (h : Waking b t es ((if b.cfg.needsPwrConfirm then sendScript b.cmode b.cfg.statusQueryWord r else []) ++ l)) :
    (wakeConfirm t).Comes (.ok ()) b
      (es ++ if b.cfg.needsPwrConfirm then sendEvents b.cmode .pri b.cfg.statusQueryWord r else []) l := by
  rw [wakeConfirm, h.cfg]
  split at h
  · next hn =>
    have body := statusCommand_answered (s := t.goto .wk4Confirm) hc.statusQuery (h.inputs.trans (by rw [← h.cmode]; rfl))
    rw [if_pos (by rw [State.goto_cfg, h.cfg]; exact ha hn)] at body
    rw [if_pos hn, if_pos hn]
    exact ⟨_, body, (h.goto .wk4Confirm).answered _ r _ l⟩
  · next hn =>
    rw [if_neg hn, if_neg hn, List.append_nil]
    exact ⟨t, rfl, h⟩

/-- R237: it fails with another state. -/
theorem wakeConfirm_rejects (hc : Taken b.cfg) (hn : b.cfg.needsPwrConfirm = true) (ha : low r ∉ b.cfg.acceptedStates)
    (h : Waking b t es (sendScript b.cmode b.cfg.statusQueryWord r ++ l)) :
    (wakeConfirm t).Comes (.err .protocolMismatch) b (es ++ sendEvents b.cmode .pri b.cfg.statusQueryWord r) l := by
  have body := statusCommand_answered (s := t.goto .wk4Confirm) hc.statusQuery (h.inputs.trans (by rw [← h.cmode]; rfl))
  rw [if_neg (by rw [State.goto_cfg, h.cfg]; exact ha)] at body
  rw [wakeConfirm, h.cfg, if_pos hn]
  exact ⟨_, body, (h.goto .wk4Confirm).answered _ r _ l⟩

/-- R237: it fails with its command. -/
theorem wakeConfirm_fails (hn : b.cfg.needsPwrConfirm = true) (hp : bad.Possible b.cmode b.cfg.statusQueryWord)
    (h : Waking b t es (bad.script b.cfg ++ l)) :
    (wakeConfirm t).Comes (.err bad.error) b (es ++ bad.events b.cmode .pri b.cfg.statusQueryWord) l := by
  rw [wakeConfirm, h.cfg, if_pos hn]
  exact (execProcedure_fails hp (h.goto .wk4Confirm)).bind_err _

/-- R94, R238: the synchronize-and-suppress word arms nothing. -/
theorem armsWait_syncIntr {c : Config} (hc : Taken c) (mode : CMode) : armsWait mode c.syncIntrWord = false := by
  simp [armsWait, hc.syncIntr]

/-- R238: the first command of step 5, where there is an interrupt line, is followed by the mode switch. -/
theorem wakeIrq_passes (hc : Taken b.cfg)
    (h : Waking b t es ((if b.cfg.hasIrqLine then [.answer (.send (.ok r))] else []) ++ l)) :
    (wakeIrq t).Comes (.ok ()) (b.inMode (echoMode b.cfg b.cmode))
      (es ++ if b.cfg.hasIrqLine then [.send .pri b.cfg.syncIntrWord (.ok r)] else []) l := by
  have unarmed := armsWait_syncIntr hc b.cmode
  rw [wakeIrq, h.cfg, echoMode]
  split at h
  · next hq =>
    have script : [.answer (.send (.ok r))] = sendScript b.cmode b.cfg.syncIntrWord r := by simp [sendScript, unarmed]
    have sent := execProcedure_passes (script ▸ h.goto .wk5Irq)
    rw [sendEvents, unarmed] at sent
    rw [if_pos hq, if_pos hq, if_pos hq]
    exact (sent.bind _).trans fun u hu => ⟨_, rfl, hu.inMode .interrupt⟩
  · next hq =>
    rw [if_neg hq, if_neg hq, if_neg hq, List.append_nil]
    exact ⟨t, rfl, h⟩

/-- R238: that command fails when its send does. -/
theorem wakeIrq_fails (hq : b.cfg.hasIrqLine = true) (hp : bad.Possible b.cmode b.cfg.syncIntrWord)
    (h : Waking b t es (bad.script b.cfg ++ l)) :
    (wakeIrq t).Comes (.err bad.error) b (es ++ bad.events b.cmode .pri b.cfg.syncIntrWord) l := by
  rw [wakeIrq, h.cfg, if_pos hq]
  exact (execProcedure_fails hp (h.goto .wk5Irq)).bind_err _

/-- R239: an answered synchronize command, by its echo. -/
theorem wakeEcho_answered (hc : Taken b.cfg) (h : Waking b t es (sendScript b.cmode b.cfg.syncWord r ++ l)) :
    (wakeEcho t).Comes (if r = b.cfg.syncWord then .ok () else .err .protocolMismatch) b
      (es ++ sendEvents b.cmode .pri b.cfg.syncWord r) l := by
  have hs := (h.goto .wk5Sync).enter .interruptModeSet
  have body := syncCommand_answered hc.sync (hs.inputs.trans (by rw [← hs.cmode]))
  refine ⟨_, ?_, hs.answered _ r .execLatch l⟩
  rw [wakeEcho, h.cfg, body]
  split <;> rfl

/-- R239: a synchronize command that fails. -/
theorem wakeEcho_fails (hp : bad.Possible b.cmode b.cfg.syncWord) (h : Waking b t es (bad.script b.cfg ++ l)) :
    (wakeEcho t).Comes (.err bad.error) b (es ++ bad.events b.cmode .pri b.cfg.syncWord) l := by
  rw [wakeEcho, h.cfg]
  exact (execProcedure_fails hp ((h.goto .wk5Sync).enter .interruptModeSet)).bind_err _

/-- R231: EXEC leaves `WSTATE` alone. -/
theorem State.answered_wstate (s : State) (route : Route) (w r : Word) : (s.answered route w r).wstate = s.wstate := by
  unfold State.answered
  split <;> [rfl; (split <;> rfl)]

/-- R148: an answered command without `SR` caches its response. -/
theorem State.answered_lastResp {s : State} {route : Route} (h : srBit w = false) : (s.answered route w r).lastResp = r := by
  unfold State.answered
  rw [h]
  cases s.cmode <;> rfl

/-- R240, R241: step 6 with a smooth-mute command that is answered. -/
theorem wakeReady_answered (h : Waking b t es (sendScript b.cmode b.cfg.smoothMuteZeroWord r ++ l)) :
    ∃ u, wakeReady t = .ok none u ∧ Waking b u (es ++ sendEvents b.cmode .pri b.cfg.smoothMuteZeroWord r) l ∧
      u.wstate = .ready ∧ (srBit b.cfg.smoothMuteZeroWord = false → u.lastResp = r) := by
  have hs := (h.goto .wk6Mute).enter .ready
  have sent := execProcedure_answered (route := .pri) (hs.inputs.trans (by rw [← hs.cmode]))
  refine ⟨_, ?_, hs.answered _ r (if srBit b.cfg.smoothMuteZeroWord then .execSend else .execLatch) l,
    State.answered_wstate _ _ _ _, State.answered_lastResp⟩
  rw [wakeReady, muteCommand, h.cfg, sent]
  rfl

/-- R247: step 6 with a smooth-mute command that fails. -/
theorem wakeReady_failed (hp : bad.Possible b.cmode b.cfg.smoothMuteZeroWord) (h : Waking b t es (bad.script b.cfg ++ l)) :
    ∃ u, wakeReady t = .err bad.error u ∧ Waking b u (es ++ bad.events b.cmode .pri b.cfg.smoothMuteZeroWord) l ∧
      u.wstate = .failed := by
  obtain ⟨u, hu, wu⟩ := execProcedure_fails hp ((h.goto .wk6Mute).enter .ready)
  exact ⟨_, by rw [wakeReady, muteCommand, h.cfg, hu]; rfl, wu.enter .failed, rfl⟩
end

end Sys2Proof.Machine
end

section
/-!
PROOFS. Family 45_wakeup.md: an attempt from its start to the step where it fails or passes, attempt after attempt, and the
three ways a WAKEUP ends: ready (O42), with its budget spent (O43), before that (O44).
-/

namespace Sys2Proof.Machine

/-! ### Nothing falls before a step of an attempt -/

section
variable {c : Config} {mode : CMode} {status si echo : Word} {k l m : List Input}

theorem Calm.append (hm : Calm m) (hl : Calm l) : Calm (m ++ l) := by
  cases m <;> [exact hl; exact hm]

theorem Calm.append_append (hl : Calm l) (hm : Calm (m ++ k)) : Calm (l ++ m ++ k) := by
  rw [List.append_assoc]
  exact hl.append hm

theorem calm_ite {P : Prop} [Decidable P] (hl : Calm l) (hm : Calm m) : Calm (if P then l else m) := by
  split <;> assumption

theorem calm_delay (n : Nat) : Calm (delayScript n) := calm_ite rfl rfl
theorem calm_send (w r : Word) : Calm (sendScript mode w r) := rfl
theorem calm_clockScript : Calm (clockScript c) := calm_ite (calm_delay _) rfl
theorem calm_signalScript : Calm (signalScript c) := calm_clockScript.append (calm_ite rfl rfl)
theorem calm_readyScript : Calm (readyScript c) := calm_signalScript.append (calm_ite rfl (calm_delay _))
theorem calm_confirmScript : Calm (confirmScript c mode status) := calm_readyScript.append (calm_ite (calm_send _ _) rfl)
theorem calm_irqScript : Calm (irqScript c mode status si) := calm_confirmScript.append (calm_ite rfl rfl)

theorem calm_attemptScript (l : List Input) : Calm (attemptScript c mode status si echo ++ l) :=
  calm_irqScript.append_append rfl

/-- R242: an attempt that fails has something answered or some time pass in it, whatever comes after. -/
theorem BadAttempt.Possible.calm_script {a : BadAttempt} (h : a.Possible c mode) (l : List Input) :
    Calm (a.script c mode ++ l) := by
  cases a with
  | wakeError e => exact calm_clockScript.append_append rfl
  | notReady => exact calm_signalScript.append_append rfl
  | statusError e => exact calm_readyScript.append_append rfl
  | statusTimeout r => exact calm_readyScript.append_append rfl
  | wrongStatus r =>
    rw [BadAttempt.script, confirmScript, if_pos h.1]
    exact calm_readyScript.append_append rfl
  | syncIntrError status e => exact calm_confirmScript.append_append rfl
  | syncError status si e => exact calm_irqScript.append_append rfl
  | syncTimeout status si r => exact calm_irqScript.append_append rfl
  | wrongEcho status si echo => exact calm_attemptScript l

theorem calm_badScript {bad : List BadAttempt} (h : AllPossible c mode bad) (hl : bad = [] → Calm l) :
    Calm (badScript c mode bad ++ l) := by
  cases bad with
  | nil => exact hl rfl
  | cons a rest =>
    rw [badScript, List.append_assoc]
    exact h.1.calm_script _
end

/-! ### How far an attempt comes -/

/-- R238: what is left of an attempt after the status query. -/
def afterConfirm (s : State) : Res Unit := (wakeIrq s).bind fun _ s => wakeEcho s

/-- R237: what is left once the device is ready. -/
def afterReady (s : State) : Res Unit := (wakeConfirm s).bind fun _ s => afterConfirm s

/-- R236: what is left after the toggle. -/
def afterSignal (s : State) : Res Unit := (wakeAwait s).bind fun _ s => afterReady s

section
variable {b t : State} {es : List Event} {l : List Input} {status si echo : Word}

/-- R233, R234: an attempt comes to the toggle with the wait armed, where there is a completion line. -/
theorem wakeAttempt_arms (h : Waking b t es (clockScript b.cfg ++ l)) (hl : Calm l) :
    ∃ u, wakeAttempt t = ((wakeToggle u).bind fun _ s => afterSignal s) ∧ Waking b u (es ++ wakeArmEvents b.cfg) l ∧
      (b.cfg.wakeHasComplLine = true → u.cseen = false) := by
  obtain ⟨u, hu, wu⟩ := wakeClock_passes h hl
  obtain ⟨v, hv, wv, hlatch⟩ := wakeArm_passes ((wu.goto .wk2Signal).enter .signaling) hl
  refine ⟨v, ?_, by simpa [wakeArmEvents] using wv, hlatch⟩
  rw [wakeAttempt, hu, Res.bind_ok, wakeSignal, hv]
  rfl

/-- R235: it comes to the readiness wait, and no completion has been latched since the arm. -/
theorem wakeAttempt_signals (h : Waking b t es (signalScript b.cfg ++ l)) (hl : Calm l) :
    ∃ u, wakeAttempt t = afterSignal u ∧ Waking b u (es ++ signalEvents b.cfg) l ∧
      (b.cfg.wakeHasComplLine = true → u.cseen = false) := by
  rw [signalScript, List.append_assoc] at h
  obtain ⟨u, hu, wu, hlatch⟩ := wakeAttempt_arms h (.append (calm_ite rfl rfl) hl)
  obtain ⟨v, hv, wv, hsame⟩ := wakeToggle_passes wu hl
  refine ⟨v, by rw [hu, hv]; rfl, by simpa [signalEvents] using wv, fun hw => hsame.trans (hlatch hw)⟩

/-- R236: it comes to the status query. -/
theorem wakeAttempt_readies (h : Waking b t es (readyScript b.cfg ++ l)) (hl : Calm l) :
    (wakeAttempt t).Comes afterReady b (es ++ readyEvents b.cfg) l := by
  rw [readyScript, List.append_assoc] at h
  obtain ⟨u, hu, wu, hlatch⟩ := wakeAttempt_signals h (.append (calm_ite rfl (calm_delay _)) hl)
  rw [hu, readyEvents, ← List.append_assoc]
  exact (wakeAwait_passes wu hl hlatch).bind fun _ s => afterReady s

/-- R237: it comes to the first command of step 5. -/
theorem wakeAttempt_confirms (hc : Taken b.cfg) (ha : StatusAccepted b.cfg status)
    (h : Waking b t es (confirmScript b.cfg b.cmode status ++ l)) (hl : Calm l) :
    (wakeAttempt t).Comes afterConfirm b (es ++ confirmEvents b.cfg b.cmode status) l := by
  rw [confirmScript, List.append_assoc] at h
  rw [confirmEvents, ← List.append_assoc]
  exact (wakeAttempt_readies h (.append (calm_ite (calm_send _ _) rfl) hl)).trans fun u wu =>
    (wakeConfirm_passes hc ha wu).bind fun _ s => afterConfirm s

/-- R238: it comes to the echo, in the mode of step 5. -/
theorem wakeAttempt_switches (hc : Taken b.cfg) (ha : StatusAccepted b.cfg status)
    (h : Waking b t es (irqScript b.cfg b.cmode status si ++ l)) (hl : Calm l) :
    (wakeAttempt t).Comes wakeEcho (b.inMode (echoMode b.cfg b.cmode)) (es ++ irqEvents b.cfg b.cmode status si) l := by
  rw [irqScript, List.append_assoc] at h
  rw [irqEvents, ← List.append_assoc]
  exact (wakeAttempt_confirms hc ha h (.append (calm_ite rfl rfl) hl)).trans fun u wu =>
    (wakeIrq_passes hc wu).bind fun _ s => wakeEcho s

/-- R239: it ends by the echo. -/
theorem wakeAttempt_echoes (hc : Taken b.cfg) (ha : StatusAccepted b.cfg status)
    (h : Waking b t es (attemptScript b.cfg b.cmode status si echo ++ l)) :
    (wakeAttempt t).Comes (if echo = b.cfg.syncWord then .ok () else .err .protocolMismatch)
      (b.inMode (echoMode b.cfg b.cmode)) (es ++ attemptEvents b.cfg b.cmode status si echo) l := by
  rw [attemptScript, List.append_assoc] at h
  rw [attemptEvents, ← List.append_assoc]
  exact (wakeAttempt_switches hc ha h rfl).trans fun u wu =>
    wakeEcho_answered (b := b.inMode (echoMode b.cfg b.cmode)) hc wu

/-- R144, R147: it ends in step 4 where the status query fails. -/
theorem wakeAttempt_statusFails {bad : BadCommand} (hn : b.cfg.needsPwrConfirm = true)
    (hp : bad.Possible b.cmode b.cfg.statusQueryWord) (h : Waking b t es (readyScript b.cfg ++ bad.script b.cfg ++ l)) :
    (wakeAttempt t).Comes (.err bad.error) b
      (es ++ (readyEvents b.cfg ++ bad.events b.cmode .pri b.cfg.statusQueryWord)) l := by
  rw [List.append_assoc] at h
  rw [← List.append_assoc]
  exact (wakeAttempt_readies h (bad.calm_script _ _)).trans fun u wu => (wakeConfirm_fails hn hp wu).bind_err _

/-- R144: it ends in step 5 where the first command fails. -/
theorem wakeAttempt_syncIntrFails {bad : BadCommand} (hc : Taken b.cfg) (ha : StatusAccepted b.cfg status)
    (hq : b.cfg.hasIrqLine = true) (hp : bad.Possible b.cmode b.cfg.syncIntrWord)
    (h : Waking b t es (confirmScript b.cfg b.cmode status ++ bad.script b.cfg ++ l)) :
    (wakeAttempt t).Comes (.err bad.error) b
      (es ++ (confirmEvents b.cfg b.cmode status ++ bad.events b.cmode .pri b.cfg.syncIntrWord)) l := by
  rw [List.append_assoc] at h
  rw [← List.append_assoc]
  exact (wakeAttempt_confirms hc ha h (bad.calm_script _ _)).trans fun u wu => (wakeIrq_fails hq hp wu).bind_err _

/-- R144, R147: it ends there where the second does. -/
theorem wakeAttempt_syncFails {bad : BadCommand} (hc : Taken b.cfg) (ha : StatusAccepted b.cfg status)
    (hp : bad.Possible (echoMode b.cfg b.cmode) b.cfg.syncWord)
    (h : Waking b t es (irqScript b.cfg b.cmode status si ++ bad.script b.cfg ++ l)) :
    (wakeAttempt t).Comes (.err bad.error) (b.inMode (echoMode b.cfg b.cmode))
      (es ++ (irqEvents b.cfg b.cmode status si ++ bad.events (echoMode b.cfg b.cmode) .pri b.cfg.syncWord)) l := by
  rw [List.append_assoc] at h
  rw [← List.append_assoc]
  exact (wakeAttempt_switches hc ha h (bad.calm_script _ _)).trans fun u wu =>
    wakeEcho_fails (b := b.inMode (echoMode b.cfg b.cmode)) hp wu

/-- R147: in `Interrupt` mode a command without `SR` can be lost. -/
theorem BadCommand.Possible.lost {mode : CMode} {w r : Word} (hm : mode = .interrupt) (hs : srBit w = false) :
    (BadCommand.lost r).Possible mode w := by
  simp [BadCommand.Possible, armsWait, hm, hs]

/-- R243: the mode in which a failed attempt leaves its step. -/
def BadAttempt.mode (c : Config) (mode : CMode) : BadAttempt → CMode
  | .wakeError _ => mode
  | .notReady => mode
  | .statusError _ => mode
  | .statusTimeout _ => mode
  | .wrongStatus _ => mode
  | .syncIntrError _ _ => mode
  | .syncError _ _ _ => echoMode c mode
  | .syncTimeout _ _ _ => echoMode c mode
  | .wrongEcho _ _ _ => echoMode c mode

/-- R242: an attempt that fails in any of its ways fails with its error. -/
theorem wakeAttempt_fails {a : BadAttempt} (hc : Taken b.cfg) (hp : a.Possible b.cfg b.cmode)
    (h : Waking b t es (a.script b.cfg b.cmode ++ l)) :
    (wakeAttempt t).Comes (.err a.error) (b.inMode (a.mode b.cfg b.cmode)) (es ++ a.events b.cfg b.cmode) l := by
  cases a with
  | wakeError e =>
    rw [BadAttempt.script, List.append_assoc] at h
    obtain ⟨u, hu, wu, -⟩ := wakeAttempt_arms h rfl
    rw [hu, BadAttempt.events, ← List.append_assoc]
    exact (wakeToggle_fails hp wu).bind_err _
  | notReady =>
    rw [BadAttempt.script, List.append_assoc] at h
    obtain ⟨u, hu, wu, hlatch⟩ := wakeAttempt_signals h rfl
    rw [hu, BadAttempt.events, ← List.append_assoc]
    exact (wakeAwait_fails wu hp (hlatch hp)).bind_err _
  | statusError e => exact wakeAttempt_statusFails (bad := .sendError e) hp trivial h
  | statusTimeout r => exact wakeAttempt_statusFails (bad := .lost r) hp.1 (.lost hp.2 hc.statusQuery) h
  | wrongStatus r =>
    obtain ⟨hn, ha⟩ := hp
    rw [BadAttempt.script, confirmScript, if_pos hn, List.append_assoc] at h
    rw [BadAttempt.events, confirmEvents, if_pos hn, ← List.append_assoc]
    exact (wakeAttempt_readies h rfl).trans fun u wu => (wakeConfirm_rejects hc hn ha wu).bind_err _
  | syncIntrError status e => exact wakeAttempt_syncIntrFails (bad := .sendError e) hc hp.1 hp.2 trivial h
  | syncError status si e => exact wakeAttempt_syncFails (bad := .sendError e) hc hp trivial h
  | syncTimeout status si r => exact wakeAttempt_syncFails (bad := .lost r) hc hp.1 (.lost hp.2 hc.sync) h
  | wrongEcho status si echo =>
    have ended := wakeAttempt_echoes hc hp.1 h
    rwa [if_neg hp.2] at ended
end

/-! ### Attempt after attempt -/

/-- R232, R242, R243: `s` in a WAKEUP that has started `n` attempts, in mode `mode`, with `e` the error it keeps. -/
def State.tried (s : State) (mode : CMode) (n : Nat) (e : Err) : State := { s with cmode := mode, att := n, lastErr := e }

section
variable {b s t : State} {es : List Event} {l : List Input} {mode : CMode} {k n : Nat} {e : Err} {a : BadAttempt}
  {bad : List BadAttempt}

theorem Waking.startAttempt (h : Waking (b.tried mode k e) t es l) : Waking (b.tried mode (k + 1) e) t.startAttempt es l :=
  congrArg State.startAttempt h

theorem Waking.failAttempt (h : Waking (b.tried mode k e) t es l) (e' : Err) :
    Waking (b.tried .poll k e') (t.failAttempt e') es l := congrArg (State.failAttempt · e') h

/-- R244: the policy ends the sequence after a mismatch only, and only where it is `FailFast`. -/
theorem failsFast_iff (s : State) (e : Err) :
    failsFast s e = true ↔ e = .protocolMismatch ∧ s.cfg.wakeOnMismatch = .failFast := by
  cases e <;> simp [failsFast, failKind]

/-- R244: an attempt it goes on from does not end the sequence. -/
theorem BadAttempt.GoesOn.not_failsFast (h : a.GoesOn s.cfg) : ¬ failsFast s a.error = true := by
  rw [failsFast_iff]
  rintro ⟨hm, hf⟩
  rcases h with h | h
  · rw [hf] at h
    cases h
  · exact h hm

/-- R242, R243: a failed attempt ends the sequence, or the next one follows in `Poll`. -/
theorem wakeLoop_failed (hc : Taken b.cfg) (hp : a.Possible b.cfg mode)
    (h : Waking (b.tried mode k e) t es (a.script b.cfg mode ++ l)) :
    ∃ u, wakeLoop (n + 1) t = (if failsFast b a.error then .err a.error (u.enter .failed) else wakeLoop n u) ∧
      Waking (b.tried .poll (k + 1) a.error) u (es ++ a.events b.cfg mode) l := by
  obtain ⟨u, hu, wu⟩ := wakeAttempt_fails (b := b.tried mode (k + 1) e) hc hp h.startAttempt
  refine ⟨u.failAttempt a.error, ?_, Waking.failAttempt (b := b) wu a.error⟩
  have policy : failsFast b a.error = failsFast u a.error := by rw [failsFast, failsFast, wu.cfg]; rfl
  rw [wakeLoop, hu, policy]

/-- R242, R243: failed attempts that the policy goes on after bring the sequence to the next one. -/
theorem wakeLoop_tried (hc : Taken b.cfg) (hp : AllPossible b.cfg mode bad) (hgo : ∀ x ∈ bad, x.GoesOn b.cfg)
    (h : Waking (b.tried mode k e) t es (badScript b.cfg mode bad ++ l)) :
    (wakeLoop (bad.length + n) t).Comes (wakeLoop n) (b.tried (modeAfter mode bad) (k + bad.length) (lastError e bad))
      (es ++ badEvents b.cfg mode bad) l := by
  induction bad generalizing mode k e t es with
  | nil => exact ⟨t, by rw [List.length_nil, Nat.zero_add], by simpa [badScript, badEvents, modeAfter, lastError] using h⟩
  | cons a rest ih =>
    obtain ⟨ha, hrest⟩ := hp
    obtain ⟨hgoa, hgorest⟩ := List.forall_mem_cons.1 hgo
    rw [badScript, List.append_assoc] at h
    obtain ⟨u, hu, wu⟩ := wakeLoop_failed (n := rest.length + n) hc ha h
    obtain ⟨v, hv, wv⟩ := ih hrest hgorest wu
    have poll : modeAfter .poll rest = .poll := by unfold modeAfter; split <;> rfl
    refine ⟨v, ?_, ?_⟩
    · rw [List.length_cons, Nat.add_right_comm, hu, if_neg hgoa.not_failsFast, hv]
    · rw [poll, Nat.add_assoc, Nat.add_comm 1] at wv
      simpa [badEvents, modeAfter, lastError] using wv

/-- R240: an attempt whose echo is right is followed by step 6. -/
theorem wakeLoop_passed {status si : Word} (hc : Taken b.cfg) (ha : StatusAccepted b.cfg status)
    (h : Waking (b.tried mode k e) t es (attemptScript b.cfg mode status si b.cfg.syncWord ++ l)) :
    (wakeLoop (n + 1) t).Comes wakeReady (b.tried (echoMode b.cfg mode) (k + 1) e)
      (es ++ attemptEvents b.cfg mode status si b.cfg.syncWord) l := by
  obtain ⟨u, hu, wu⟩ := wakeAttempt_echoes (b := b.tried mode (k + 1) e) hc ha h.startAttempt
  have passed : wakeAttempt t.startAttempt = .ok () u := hu.trans (congrFun (if_pos rfl) u)
  exact ⟨u, by rw [wakeLoop, passed], wu⟩
end

/-! ### The whole of WAKEUP -/

section
variable {s t : State} {q n : Nat} {mode : CMode} {e : Err} {es : List Event} {bad : List BadAttempt} {l rest : List Input}
  {status si : Word}

/-- R232: WAKEUP comes to the attempt after the failed ones. -/
theorem wakeupBody_tried (hc : Taken s.cfg) (hp : AllPossible s.cfg s.cmode bad) (hgo : ∀ a ∈ bad, a.GoesOn s.cfg)
    (hn : s.cfg.wakeBudget = bad.length + n) (hi : s.inputs = badScript s.cfg s.cmode bad ++ l) :
    (wakeupBody s).Comes (wakeLoop n) (s.tried (modeAfter s.cmode bad) bad.length (lastError s.lastErr bad))
      (badEvents s.cfg s.cmode bad) l := by
  have start : Waking (s.tried s.cmode 0 s.lastErr) { s with att := 0 } [] (badScript s.cfg s.cmode bad ++ l) := by
    simp only [Waking, State.tried, List.append_nil, ← hi]
  have run := wakeLoop_tried (n := n) hc hp hgo start
  rwa [← hn, Nat.zero_add, List.nil_append] at run

/-- R240: where the next attempt passes it comes to step 6. -/
theorem wakeupBody_passed (hc : Taken s.cfg) (hp : AllPossible s.cfg s.cmode bad) (hgo : ∀ a ∈ bad, a.GoesOn s.cfg)
    (hn : bad.length < s.cfg.wakeBudget) (ha : StatusAccepted s.cfg status)
    (hi : s.inputs = badScript s.cfg s.cmode bad ++
      (attemptScript s.cfg (modeAfter s.cmode bad) status si s.cfg.syncWord ++ l)) :
    (wakeupBody s).Comes wakeReady
      (s.tried (echoMode s.cfg (modeAfter s.cmode bad)) (bad.length + 1) (lastError s.lastErr bad))
      (badEvents s.cfg s.cmode bad ++ attemptEvents s.cfg (modeAfter s.cmode bad) status si s.cfg.syncWord) l := by
  obtain ⟨n, hfuel⟩ := Nat.exists_eq_add_of_lt hn
  exact (wakeupBody_tried hc hp hgo hfuel hi).trans fun u wu => wakeLoop_passed hc ha wu

/-- R230: what a WAKEUP leaves of `s`, back at rest. -/
theorem Waking.woke (h : Waking (s.tried mode n e) t es l) : Woke s (t.facing s.seq l) t.wstate mode n e es l :=
  congrArg (State.facing · s.seq l) h

theorem Waking.facing_self {b : State} (h : Waking b t es l) (p : Phase) : (t.facing p l).facing t.seq l = t := by
  rw [← h.inputs]
  rfl

/-- R246: a WAKEUP whose procedure raises an error. -/
theorem exec_wakeup_raises {e' : Err} (hh : s.Holder q) (hc : Calm s.inputs) (hb : wakeupBody s = .err e' t)
    (h : Waking (s.tried mode n e) t es l) :
    ∃ u, exec (.wakeup q) s = .next (u.returned q (HRes.ofErr e')) ∧ Woke s u t.wstate mode n e es l :=
  ⟨_, unlockedOperation_raises (t := t.facing s.seq l) hh hc hh.ready.idle
    (hb.trans (congrArg _ (h.facing_self s.seq).symm)), h.woke⟩
/-- R240, R241: WAKEUP's procedure where the next attempt passes and the smooth-mute command is answered. -/
theorem wakeupBody_ready {mute : Word} (hc : Taken s.cfg) (hp : AllPossible s.cfg s.cmode bad)
    (hgo : ∀ a ∈ bad, a.GoesOn s.cfg) (hn : bad.length < s.cfg.wakeBudget) (ha : StatusAccepted s.cfg status)
    (hmode : mode = echoMode s.cfg (modeAfter s.cmode bad))
    (hi : s.inputs = badScript s.cfg s.cmode bad ++
      (attemptScript s.cfg (modeAfter s.cmode bad) status si s.cfg.syncWord ++
        (sendScript mode s.cfg.smoothMuteZeroWord mute ++ rest))) :
    ∃ t, wakeupBody s = .ok none t ∧
      Waking (s.tried mode (bad.length + 1) (lastError s.lastErr bad)) t (badEvents s.cfg s.cmode bad ++
        (attemptEvents s.cfg (modeAfter s.cmode bad) status si s.cfg.syncWord ++
          sendEvents mode .pri s.cfg.smoothMuteZeroWord mute)) rest ∧
      t.wstate = .ready ∧ (srBit s.cfg.smoothMuteZeroWord = false → t.lastResp = mute) := by
  subst hmode
  obtain ⟨u, hu, wu⟩ := wakeupBody_passed hc hp hgo hn ha hi
  obtain ⟨t, ht, wt, hw, hresp⟩ := wakeReady_answered wu
  rw [List.append_assoc] at wt
  exact ⟨t, hu.trans ht, wt, hw, hresp⟩

/-- R247: WAKEUP where the next attempt passes and the smooth-mute command fails. -/
theorem exec_wakeup_muteFails {cmd : BadCommand} (hh : s.Holder q) (hp : AllPossible s.cfg s.cmode bad)
    (hgo : ∀ a ∈ bad, a.GoesOn s.cfg) (hn : bad.length < s.cfg.wakeBudget) (ha : StatusAccepted s.cfg status)
    (hmode : mode = echoMode s.cfg (modeAfter s.cmode bad)) (hcmd : cmd.Possible mode s.cfg.smoothMuteZeroWord)
    (hi : s.inputs = badScript s.cfg s.cmode bad ++
      (attemptScript s.cfg (modeAfter s.cmode bad) status si s.cfg.syncWord ++ (cmd.script s.cfg ++ rest))) :
    ∃ t, exec (.wakeup q) s = .next (t.returned q (HRes.ofErr cmd.error)) ∧
      Woke s t .failed mode (bad.length + 1) (lastError s.lastErr bad)
        (badEvents s.cfg s.cmode bad ++ (attemptEvents s.cfg (modeAfter s.cmode bad) status si s.cfg.syncWord ++
          cmd.events mode .pri s.cfg.smoothMuteZeroWord)) rest := by
  subst hmode
  have calm : Calm s.inputs :=
    hi ▸ calm_badScript hp fun _ => calm_attemptScript _
  obtain ⟨u, hu, wu⟩ := wakeupBody_passed (taken_of_configOk hh.ready.lawful) hp hgo hn ha hi
  obtain ⟨t, ht, wt, hw⟩ := wakeReady_failed hcmd wu
  rw [List.append_assoc] at wt
  exact hw ▸ exec_wakeup_raises hh calm (hu.trans ht) wt

/-- R244: WAKEUP where the policy ends it after a mismatch. -/
theorem exec_wakeup_failsFast {a : BadAttempt} (hh : s.Holder q) (hp : AllPossible s.cfg s.cmode bad)
    (hgo : ∀ a ∈ bad, a.GoesOn s.cfg) (hn : bad.length < s.cfg.wakeBudget) (hmode : mode = modeAfter s.cmode bad)
    (hfast : s.cfg.wakeOnMismatch = .failFast) (ha : a.Possible s.cfg mode) (he : a.error = .protocolMismatch)
    (hi : s.inputs = badScript s.cfg s.cmode bad ++ (a.script s.cfg mode ++ rest)) :
    ∃ t, exec (.wakeup q) s = .next (t.returned q (HRes.ofErr .protocolMismatch)) ∧
      Woke s t .failed .poll (bad.length + 1) .protocolMismatch
        (badEvents s.cfg s.cmode bad ++ a.events s.cfg mode) rest := by
  subst hmode
  have hc := taken_of_configOk hh.ready.lawful
  have calm : Calm s.inputs := hi ▸ calm_badScript hp fun _ => ha.calm_script rest
  obtain ⟨n, hfuel⟩ := Nat.exists_eq_add_of_lt hn
  obtain ⟨u, hu, wu⟩ := wakeupBody_tried (n := n + 1) hc hp hgo hfuel hi
  obtain ⟨t, ht, wt⟩ := wakeLoop_failed (n := n) hc ha wu
  rw [if_pos ((failsFast_iff _ _).2 ⟨he, hfast⟩), he] at ht
  rw [he] at wt
  exact exec_wakeup_raises hh calm (hu.trans ht) (wt.enter .failed)
end

/-- Settles O42: the failed attempts bring it to the one that passes, and step 6 ends it; under the gate it finds the opened
state, in another phase and facing what follows the resume. -/
theorem wakeupReachesReady : Obligations.WakeupReachesReady := by
  intro s q bad status si mute rest mode es script hr hp hgo hn ha hmode hes hscript
  subst hes
  have hc := taken_of_configOk hr.lawful
  have calm : Calm script := hscript ▸ calm_badScript hp fun _ => calm_attemptScript _
  refine ⟨fun hl hv hi => ?unlocked, fun hl hrest hi => ?locked⟩
  case unlocked =>
    obtain ⟨t, ht, wt, hw, hresp⟩ := wakeupBody_ready hc hp hgo hn ha hmode (hi.trans hscript)
    exact ⟨t.facing s.seq rest, unlockedOperation_returns (t := t.facing s.seq rest) ⟨hr, hl, hv⟩ (hi ▸ calm) hr.idle
      (ht.trans (congrArg _ (wt.facing_self s.seq).symm)), hw ▸ wt.woke, hresp⟩
  case locked =>
    obtain ⟨t, ht, wt, hw, hresp⟩ :=
      wakeupBody_ready (s := (s.opened q).facing .gateResume script) hc hp hgo hn ha hmode hscript
    exact ⟨t.facing s.seq rest, lockedOperation_returns (t := t.facing s.seq rest) ⟨hr, hl⟩ hrest hi calm hr.idle
      (ht.trans (congrArg _ (wt.facing_self s.seq).symm)), hw ▸ Waking.woke (s := s.opened q) wt, hresp⟩

/-- Settles O43: when no attempt is left, the sequence returns the error it keeps. -/
theorem wakeupExhaustsBudget : Obligations.WakeupExhaustsBudget := by
  intro s q bad rest hh hp hgo hn hi
  have hc := taken_of_configOk hh.ready.lawful
  have hne : bad ≠ [] := List.ne_nil_of_length_pos (hn ▸ hc.budget)
  have calm : Calm s.inputs := hi ▸ calm_badScript hp fun h => absurd h hne
  obtain ⟨u, hu, wu⟩ := wakeupBody_tried (n := 0) hc hp hgo hn.symm hi
  rw [modeAfter, if_neg hne, hn] at wu
  have spent : wakeLoop 0 u = .err (lastError s.lastErr bad) (u.enter .failed) := by
    rw [wakeLoop, wu.lastErr]
    rfl
  exact exec_wakeup_raises hh calm (hu.trans spent) (wu.enter .failed)

/-- Settles O44: a mismatch ends the loop, a failed smooth-mute command step 6. -/
theorem wakeupStopsEarly : Obligations.WakeupStopsEarly := by
  intro s q bad a status si r e rest mode hh hp hgo hn hmode
  refine ⟨exec_wakeup_failsFast hh hp hgo hn hmode, fun ha hi => ?sendFails, fun ha hm hs hi => ?lost⟩
  case sendFails =>
    subst hmode
    exact exec_wakeup_muteFails (cmd := .sendError e) hh hp hgo hn ha rfl trivial hi
  case lost =>
    subst hmode
    exact exec_wakeup_muteFails (cmd := .lost r) hh hp hgo hn ha hm.symm (.lost rfl hs) hi

end Sys2Proof.Machine
end

section
/-!
PROOFS. Family 60_exceptions.md: a completion signal that comes to an idle engine (O6), and how long a delay lasts (O46).
-/

namespace Sys2Proof.Machine

section
variable {i : Input} {rest : List Input} {n : Nat} {s t : State}

/-! ### An input to an idle engine -/

/-- R40: nothing is fetched where no request waits. -/
theorem fetch_eq_none (h : s.requests = []) : fetch s = none := by
  simp [fetch, h]

/-- R26: an idle engine that no request waits for takes the next input. -/
theorem step_idleInput (hs : s.seq = .idle) (hr : s.requests = []) (hi : s.inputs = i :: rest) :
    step s = idleInput i { s with inputs := rest } := by
  rw [step, if_pos hs, fetch_eq_none hr, hi]

/-- R276: where no wait is armed, a completion signal is dropped; the model's trace alone has it. -/
theorem State.completion_unarmed (h : s.pend = false) :
    s.completion = { s with trace := s.trace ++ [.completion] } := by
  rw [State.completion, h, Bool.or_false]

/-! ### What a delay that ends has done -/

/-- R283: the step before a delay and the delay itself each take their time. -/
theorem delayTicks_time (h : delayTicks n s = .ok () t) : s.clock + n ≤ t.clock := by
  unfold delayTicks at h
  rcases pause_cases s with ⟨u, hu, pu⟩ | hu
  · rw [hu, Res.bind_ok] at h
    split at h
    · next zero => cases h; exact zero ▸ pu.time
    · rcases awaitTicks_cases u.inputs { u.emit (.delay n) with dly := n } with ⟨v, hv, -, -, ran⟩ | ⟨v, hv, -⟩ | hv
      · cases hv.symm.trans h
        exact le_trans (Nat.add_le_add_right pu.time n) ran
      · cases hv.symm.trans h
      · cases hv.symm.trans h
  · rw [hu] at h
    cases h

/-- R283 (log entry 29): a delay's event stands between the completions of the step before it and those of its own time. -/
theorem delayTicks_trace (h : delayTicks n s = .ok () t) : ∃ before during : Nat,
    t.trace = s.trace ++ (List.replicate before .completion ++ .delay n :: List.replicate during .completion) := by
  rcases delayTicks_cases n s with ⟨u, v, started, hv, ran, -⟩ | ⟨u, v, -, hv, -⟩ | hv
  · cases hv.symm.trans h
    obtain ⟨before, hu⟩ := started.events
    obtain ⟨during, ht⟩ := ran.events
    refine ⟨before, during, ht.trans ?_⟩
    simp [State.emit, hu]
  · cases hv.symm.trans h
  · cases hv.symm.trans h
end

/-- Settles O6: the idle engine takes the signal, and with no wait armed that is the trace alone. -/
theorem idleCompletionIsDropped : Obligations.IdleCompletionIsDropped := by
  intro s rest hs hr hp hi
  calc step s = .next ({ s with inputs := rest } : State).completion := step_idleInput hs hr hi
    _ = .next { s with trace := s.trace ++ [.completion], inputs := rest } :=
      congrArg Host.Outcome.next (State.completion_unarmed (s := { s with inputs := rest }) hp)

/-- Settles O46: the time and the trace of a delay that ends. -/
theorem delayLastsLongEnough : Obligations.DelayLastsLongEnough :=
  fun _ _ _ h => ⟨delayTicks_time h, delayTicks_trace h⟩

end Sys2Proof.Machine
end

section
/-!
PROOFS. Family 70_reset_and_hazards.md: the invariant after attach (O53), a detach and a new attach (O56). With them what
joins the machine to its encodings: the decoder undoes the encoder (O1), and a step runs what it decodes (O4).
-/

namespace Sys2Proof

/-! ### The decoder on a frame that the encoder writes -/

/-- Log entry 2: the head of a request record holds the operation code in bits 3:0, the direction in bit 4 and nothing above. -/
theorem requestHead_fields {op : Nat} (hop : op < 16) (dir : Direction) :
    (requestHead op dir).toNat / 32 = 0 ∧ (requestHead op dir).toNat % 16 = op ∧
      (if (requestHead op dir).toNat / 16 % 2 = 1 then Direction.write else .read) = dir := by
  cases dir with
  | read =>
    have head : (requestHead op .read).toNat = op := Nat.mod_eq_of_lt (show op < 256 by omega)
    rw [head]
    exact ⟨by omega, by omega, if_neg (by omega)⟩
  | write =>
    have head : (requestHead op .write).toNat = op + 16 := Nat.mod_eq_of_lt (show op + 16 < 256 by omega)
    rw [head]
    exact ⟨by omega, by omega, if_pos (by omega)⟩

/-- R100, R101: a request record is read back as the operation of its code on its operands. -/
theorem decode_requestFrame {op q : Nat} {dir : Direction} {a0 a1 buf : Word} (hop : op < 16) (hq : q < requesterBound) :
    decode (requestFrame op dir q a0 a1 buf) = .ok (requestOf op dir q a0 a1 buf) := by
  obtain ⟨padding, code, direction⟩ := requestHead_fields hop dir
  have requester : (BitVec.ofNat 32 q).toNat = q := Nat.mod_eq_of_lt hq
  simp only [requestFrame, wordBytes, List.cons_append, List.nil_append, decode, decodeRequest, if_pos padding, code,
    direction, wordOfBytes_byteOf, requester]

/-- R91, R97: a wire frame is read back as its word in its role. -/
theorem decode_wireFrame {role : Nat} {w : Word} (hrole : role < 256) : decode (wireFrame role w) = wireOf role w := by
  have byte : (BitVec.ofNat 8 role).toNat = role := Nat.mod_eq_of_lt hrole
  simp only [wireFrame, wordBytes, List.cons_append, List.nil_append, decode, decodeWire, wordOfBytes_byteOf, byte]

/-- R94, R99: a command word whose row fixes its suppress bit is read back where it has that bit. -/
theorem decode_commandFrame {role : Nat} {w : Word} {sr : Bool} {i : Instr} (hrole : role < 256)
    (row : wireOf role w = fixSuppress sr w i) (h : srBit w = sr) : decode (wireFrame role w) = .ok i :=
  calc decode (wireFrame role w) = wireOf role w := decode_wireFrame hrole
    _ = fixSuppress sr w i := row
    _ = .ok i := fixSuppress_of_srBit h i

/-- R104: the block-write command is put together from its halves and taken apart again. -/
theorem wireOf_wdbCmd (o size : Half) :
    wireOf 1 (wordOfHalves o size) = fixSuppress false (wordOfHalves o size) (.wdbCmd o size) := by
  simp only [wireOf, highHalf_wordOfHalves, lowHalf_wordOfHalves]

/-- R104: so is the block-read command. -/
theorem wireOf_rdbCmd (o id : Half) :
    wireOf 4 (wordOfHalves o id) = fixSuppress false (wordOfHalves o id) (.rdbCmd o id) := by
  simp only [wireOf, highHalf_wordOfHalves, lowHalf_wordOfHalves]

/-- Settles O1: a request comes back through its record, a wire word through its role, and a command word also through the
check of its suppress bit, which well-formedness grants. -/
theorem decodeEncode : Obligations.DecodeEncode := by
  intro i h
  match i, h with
  | .execute .., h | .readRegister .., h | .writeRegister .., h | .writeBlock .., h | .readBlock .., h | .wakeup .., h
  | .encode .., h | .decode .., h | .executeLocked .., h | .readRegisterLocked .., h | .writeRegisterLocked .., h
  | .writeBlockLocked .., h | .readBlockLocked .., h | .wakeupLocked .., h | .reservedE .., h | .reservedF .., h =>
    exact decode_requestFrame (by decide) (of_decide_eq_true h)
  | .cw32Generic _, _ | .wdbResp _, _ | .wdbAck _, _ | .rdbResp _, _ | .smoothMuteZero _, _ | .regMsgLane _, _ =>
    exact decode_wireFrame (by decide)
  | .wdbCmd o size, h =>
    exact decode_commandFrame (by decide) (wireOf_wdbCmd o size)
      ((srBit_wordOfHalves o size).trans (Bool.eq_false_of_not_eq_true' h))
  | .rdbCmd o id, h =>
    exact decode_commandFrame (by decide) (wireOf_rdbCmd o id)
      ((srBit_wordOfHalves o id).trans (Bool.eq_false_of_not_eq_true' h))
  | .statusQuery _, h | .sync _, h => exact decode_commandFrame (by decide) rfl (Bool.eq_false_of_not_eq_true' h)
  | .syncIntr _, h => exact decode_commandFrame (by decide) rfl h

end Sys2Proof

namespace Sys2Proof.Machine

section
variable {s t : State} {c : Config} {f : Frame} {i : Instr} {rest : List Input}

/-! ### The step of a fetched request -/

/-- R26: an idle engine runs the request it fetches. -/
theorem step_fetched (hs : s.seq = .idle) (hf : fetch s = some (f, t)) : step s = runFrame f t := by
  rw [step, if_pos hs, hf]

/-- A frame that decodes is run as its instruction. -/
theorem runFrame_decoded (hd : decode f = .ok i) : runFrame f s = exec i s := by
  rw [runFrame, hd]

/-! ### Attach and detach -/

/-- R300: the registers of a new Session are within their bounds, nothing is held or armed, and no buffer is written. -/
theorem attach_inv (c : Config) : (State.attach c).Inv where
  latch_armed := Bool.noConfusion
  idle_quiet _ := ⟨rfl, rfl, rfl, rfl⟩
  timer_stopped running := absurd rfl running
  delay_stopped running := absurd rfl running
  vote_locked := Bool.noConfusion
  holder_known _ := Lock.noConfusion
  detached_free := Bool.noConfusion
  kinds_fixed := ⟨rfl, rfl, rfl⟩
  message_length := .inl rfl
  attempts_bounded := Nat.zero_le _
  stamp_width := ⟨Nat.two_pow_pos _, Nat.two_pow_pos _⟩
  memory_canonical := wf_nil

/-- R301: the detach of an idle Session with no request waiting. -/
theorem step_detach (hs : s.seq = .idle) (hr : s.requests = []) (hi : s.inputs = .detach :: rest) :
    step s = .next (State.detach { s with inputs := rest }) :=
  step_idleInput hs hr hi

/-- R301: an attach where no Session is. -/
theorem step_attach (hs : s.seq = .idle) (hr : s.requests = []) (ha : s.attached = false)
    (hi : s.inputs = .attach c :: rest) : step s = .next (State.reattach { s with inputs := rest } c) := by
  rw [step_idleInput hs hr hi, idleInput, if_neg (by simp [ha])]

/-- R301: with the lock free, the teardown releases nothing. -/
theorem State.detach_trace_of_free (h : s.lock = .free) : s.detach.trace = s.trace := by
  rw [State.detach_trace, h, teardownEvents, List.append_nil]

/-! ### The statements -/

/-- Settles O53: reset is the attach of one configuration. -/
theorem invariantAtAttach : Obligations.InvariantAtAttach := ⟨attach_inv, attach_inv cfgT⟩

/-- Settles O56: the detach leaves an idle engine without a Session, where the attach is taken, and what goes on around the
Session is untouched by both. -/
theorem detachAndAttach : Obligations.DetachAndAttach := by
  intro s c rest hs _ hl hr hi
  have released := State.detach_trace_of_free (s := { s with inputs := .attach c :: rest }) hl
  refine ⟨_, _, step_detach hs hr hi, step_attach hs rfl rfl rfl, rfl, ?registers⟩
  case registers => rw [State.reattach, released]; rfl

/-- Settles O4: nothing stands between the fetch and the meaning, and the fetch takes out the request alone. -/
theorem stepRunsFetchedInstruction : Obligations.StepRunsFetchedInstruction :=
  fun _ _ _ _ hs hf hd => ⟨(step_fetched hs hf).trans (runFrame_decoded hd), (fetch_eq_some hf).2⟩
end

end Sys2Proof.Machine
end
